-- ==== Sys2Proof/Word.lean ====
section
/-!
DEFINITION. The word types of DS1302RTC-CORE and the plain records built from them.

Everything the block moves is a byte (spec/00_scope.md R6: N_BITS = 8), a register image of eight bytes
(spec/30_encoding.md R110), a time record of seven byte-wide fields (spec/10_state.md R27), or a level of one of
three lines (spec/00_scope.md R11).
-/

namespace Sys2Proof

/-- One byte of the wire, of the image, or of a peer register (R6, R65). -/
abbrev Byte := BitVec 8

/-- The three wires between the block and the peer (R11, R22). -/
inductive Line where
  | ce     -- chip-enable
  | sclk   -- clock
  | io     -- bidirectional data
deriving DecidableEq, Repr, Inhabited

/-- The three line identifiers bound by `BIND` (R20). `PIN_W` is open (R6), and no rule interprets an identifier:
a natural number stands for an identifier of any width (log entry 3). -/
structure Pins where
  io   : Nat
  sclk : Nat
  ce   : Nat
deriving DecidableEq, Repr, Inhabited

/-- The time record: seven unsigned fields of `TR_W = 8` bits (R27). -/
structure TRec where
  sec   : Byte
  min   : Byte
  hour  : Byte
  wday  : Byte
  day   : Byte
  month : Byte
  year  : Byte
deriving DecidableEq, Repr, Inhabited

/-- The register image: eight bytes, `b0` first on the wire (R28, R110). -/
structure Image where
  b0 : Byte
  b1 : Byte
  b2 : Byte
  b3 : Byte
  b4 : Byte
  b5 : Byte
  b6 : Byte
  b7 : Byte
deriving DecidableEq, Repr, Inhabited

end Sys2Proof
end

