-- ==== Sys2Proof/Config.lean ====
section
/-!
DEFINITION. The parameters of the block (spec/00_scope.md R6) and the free values.

A free value is an `opaque` constant without a body: nothing in Lean can evaluate it, so what is proved of the model
holds whatever it is. Each is applied to a plain counter of the state (`State.draws`) so that every use is fresh.
-/

namespace Sys2Proof.Config

/-- `T_CE`, a lower bound in microseconds (R6, R340). The model has no clock: no step reads it (log entry 10). -/
def tCeMicros : Nat := 4

/-- `T_HOLD`, a lower bound in microseconds (R6, R340). No step reads it (log entry 10). -/
def tHoldMicros : Nat := 1

/-- `YEAR_OFF`: the peer counts years from 2000, the time record from 1970 (R6, R114). -/
def yearOff : Nat := 30

/-- `PM_OFF`: added to a 12-hour value when the AM/PM bit is 1 (R6, R114). -/
def pmOff : Nat := 12

/-- `OK`: the value of the success flag (R6, R259). -/
def okFlag : Bool := true

/-- The level of a floating or contended line at the `n`-th line event (R23, U2, U11). Free. -/
opaque floatLevel : Line → Nat → Bool

/-- What the peer's own timekeeper proposes as the clock registers 0 to 6 before the `n`-th line event (R88, U17).
Free; `Peer.timeStep` takes it only where it is a later valid time. -/
opaque freeTime : Nat → Image

/-- What a peer register holds after a write whose effect the spec leaves unknown: the `n`-th line event, the
register's key (U1, U6). Free. -/
opaque freeByte : Nat → Nat → Byte

/-- `LIN_OF_TR`, the external conversion of a time record to a linear time (R256, D22). Free. -/
opaque linOfTr : TRec → Nat

/-- `TR_OF_LIN`, the external conversion of a linear time to a time record (R257, D22). Free. -/
opaque trOfLin : Nat → TRec

end Sys2Proof.Config
end

