-- ==== Sys2Proof/Syntax.lean ====
section
/-!
DEFINITION. The instructions of the block and the forms in which they arrive.

`Instr` has one constructor for each row of spec/opcode_table.json: the sixteen host selector values of R122 (fifteen
host operations and the reserved selector), then the twenty-seven wire command rows of R102. A wire command is the
first byte of a session (R2, R11); as an instruction it stands for the whole frame that begins with it (R8's
`MemRead` and `MemWrite`, R103), so a write carries the data bytes of its frame.
-/

namespace Sys2Proof

inductive Instr where
  -- host operations (R122), in the order of `cmd_op`
  | bind (pins : Pins)
  | start
  | stop
  | wrbyte (data : Byte) (rel : Bool)
  | rdbyte
  | regrd (addr : Byte)
  | regwr (addr data : Byte)
  | burstrd
  | burstwr (img : Image)
  | clkread
  | clkwrite (t : TRec)
  | get
  | set (l : Nat)
  | halt
  | present
  | reservedOp
  -- wire commands of the named clock registers 0 to 8 (R62)
  | secWr (d : Byte)
  | secRd
  | minWr (d : Byte)
  | minRd
  | hourWr (d : Byte)
  | hourRd
  | dateWr (d : Byte)
  | dateRd
  | monthWr (d : Byte)
  | monthRd
  | wdayWr (d : Byte)
  | wdayRd
  | yearWr (d : Byte)
  | yearRd
  | wpWr (d : Byte)
  | wpRd
  | tcsWr (d : Byte)
  | tcsRd
  -- the bursts (R62, R63)
  | clkBurstWr (img : Image)
  | clkBurstRd
  | ramBurstWr (d : Byte)
  | ramBurstRd
  -- RAM bytes (R63), unassigned clock numbers and command bytes outside the map (R64)
  | ramWr (a : BitVec 5) (d : Byte)
  | ramRd (a : BitVec 5)
  | clkUnassignedWr (a : BitVec 5) (d : Byte)
  | clkUnassignedRd (a : BitVec 5)
  | cmdBit7Clear (x : BitVec 7) (d : Byte)
deriving DecidableEq, Repr

/-- The input ports of the host side (R121), as one command presents them. `LIN_W` and `PIN_W` are open (R6), so the
linear time and the identifiers are natural numbers (log entry 3). -/
structure HostPort where
  op   : BitVec 4
  addr : Byte
  data : Byte
  rel  : Bool
  img  : BitVec 64
  trec : BitVec 56
  lin  : Nat
  pins : Pins
deriving DecidableEq, Repr

/-- What the host hands the block as one command: the ports of R121, or the bytes the block is to send as one frame
of R103, in wire order (log entry 2). -/
inductive Command where
  | host (p : HostPort)
  | wire (frame : List Byte)
deriving DecidableEq, Repr

end Sys2Proof
end

