-- ==== Sys2Proof/WellFormed.lean ====
section
/-!
DEFINITION. Which terms of `Instr` have an encoding: the row of spec/opcode_table.json that a constructor stands for
admits its operands. What a host operation requires of its operands when it runs (R284 X3, X9) is not checked here:
those commands can be presented on the ports, and the machine refuses them.
-/

namespace Sys2Proof

/-- RAM register numbers are 0 to 30; number 31 is the burst row (R63). -/
def ramNumber (a : BitVec 5) : Bool := decide (a.toNat ≤ 30)

/-- Unassigned clock register numbers are 9 to 30 (R64). -/
def unassignedNumber (a : BitVec 5) : Bool := decide (9 ≤ a.toNat) && decide (a.toNat ≤ 30)

/-- A command byte whose direction bit is 1 is a read, so its frame has no data byte out (R100, R103). -/
def readCarriesNoData (x : BitVec 7) (d : Byte) : Bool := !x.getLsbD 0 || d == 0

def Instr.wf : Instr → Bool
  | .ramWr a _ | .ramRd a => ramNumber a
  | .clkUnassignedWr a _ | .clkUnassignedRd a => unassignedNumber a
  | .cmdBit7Clear x d => readCarriesNoData x d
  | .bind _ | .start | .stop | .wrbyte _ _ | .rdbyte | .regrd _ | .regwr _ _ | .burstrd | .burstwr _ | .clkread
  | .clkwrite _ | .get | .set _ | .halt | .present | .reservedOp | .secWr _ | .secRd | .minWr _ | .minRd | .hourWr _
  | .hourRd | .dateWr _ | .dateRd | .monthWr _ | .monthRd | .wdayWr _ | .wdayRd | .yearWr _ | .yearRd | .wpWr _
  | .wpRd | .tcsWr _ | .tcsRd | .clkBurstWr _ | .clkBurstRd | .ramBurstWr _ | .ramBurstRd => true

end Sys2Proof
end

