-- ==== Sys2Proof/Decode.lean ====
section
/-!
DEFINITION. Decoding and encoding.

Two forms of command are decoded: the host ports of spec/30_encoding.md R121 by the selector table of R122, and the
bytes of a frame (R103) by the command byte table of R102. Decoding is total and rejects by name. The encoder is
written from the same tables. Below them stand the bit helpers both share with the machine.
-/

namespace Sys2Proof

/-! ## Bits, bytes and images -/

/-- `v[lo+len-1 : lo]` as an unsigned number (R7). -/
def bits (v : Byte) (lo len : Nat) : Nat := v.toNat / 2 ^ lo % 2 ^ len

/-- `b` with bit `i` replaced by `v` (R8, `x[i] <- v`). -/
def setBit (b : Byte) (i : Nat) (v : Bool) : Byte :=
  if v then b ||| (1#8 <<< i) else b &&& ~~~(1#8 <<< i)

/-- `img[k]`; the image has bytes 0 to 7 (R7, R28). -/
def Image.get (v : Image) : Nat → Byte
  | 0 => v.b0
  | 1 => v.b1
  | 2 => v.b2
  | 3 => v.b3
  | 4 => v.b4
  | 5 => v.b5
  | 6 => v.b6
  | _ => v.b7

/-- `img[k] <- b`. -/
def Image.set (v : Image) (k : Nat) (b : Byte) : Image :=
  match k with
  | 0 => { v with b0 := b }
  | 1 => { v with b1 := b }
  | 2 => { v with b2 := b }
  | 3 => { v with b3 := b }
  | 4 => { v with b4 := b }
  | 5 => { v with b5 := b }
  | 6 => { v with b6 := b }
  | _ => { v with b7 := b }

/-- The eight bytes in wire order (R66). -/
def Image.toList (v : Image) : List Byte := [v.b0, v.b1, v.b2, v.b3, v.b4, v.b5, v.b6, v.b7]

/-- `cmd_img`: `img[k]` in bits `8k+7` to `8k` (R121). -/
def packImage (v : Image) : BitVec 64 :=
  v.b7 ++ v.b6 ++ v.b5 ++ v.b4 ++ v.b3 ++ v.b2 ++ v.b1 ++ v.b0

def unpackImage (w : BitVec 64) : Image where
  b0 := w.extractLsb' 0 8
  b1 := w.extractLsb' 8 8
  b2 := w.extractLsb' 16 8
  b3 := w.extractLsb' 24 8
  b4 := w.extractLsb' 32 8
  b5 := w.extractLsb' 40 8
  b6 := w.extractLsb' 48 8
  b7 := w.extractLsb' 56 8

/-- `cmd_trec`: `sec` in bits 7 to 0, `min` 15 to 8, `hour` 23 to 16, `wday` 31 to 24, `day` 39 to 32, `month` 47 to 40,
`year` 55 to 48 (R115). -/
def packTRec (t : TRec) : BitVec 56 :=
  t.year ++ t.month ++ t.day ++ t.wday ++ t.hour ++ t.min ++ t.sec

def unpackTRec (w : BitVec 56) : TRec where
  sec := w.extractLsb' 0 8
  min := w.extractLsb' 8 8
  hour := w.extractLsb' 16 8
  wday := w.extractLsb' 24 8
  day := w.extractLsb' 32 8
  month := w.extractLsb' 40 8
  year := w.extractLsb' 48 8

/-! ## The wire command byte (R61, R100) -/

/-- `{1, s, a[4:0], r}`. -/
def commandByte (s : Bool) (a : BitVec 5) (r : Bool) : Byte :=
  1#1 ++ BitVec.ofBool s ++ a ++ BitVec.ofBool r

/-- `s`: 0 = clock space, 1 = RAM space. -/
def commandSpace (c : Byte) : Bool := c.getLsbD 6

/-- `a[4:0]`: the register number. -/
def commandNumber (c : Byte) : BitVec 5 := c.extractLsb' 1 5

/-- `r`: 1 = read, 0 = write. -/
def commandIsRead (c : Byte) : Bool := c.getLsbD 0

/-! ## Decoding -/

/-- Why the bytes of a frame are no frame of R103. -/
inductive Reject where
  /-- A frame has a first byte, the command byte (R103). -/
  | emptyFrame
  /-- The block sends nothing after the command byte of a read (R103). -/
  | dataAfterReadCommand
  /-- A single write carries one data byte and a clock burst write eight (R103, R104). -/
  | wrongDataLength
deriving DecidableEq, Repr

/-- The selector table of R122. -/
def decodeHost (p : HostPort) : Instr :=
  if p.op = 0x0 then .bind p.pins
  else if p.op = 0x1 then .start
  else if p.op = 0x2 then .stop
  else if p.op = 0x3 then .wrbyte p.data p.rel
  else if p.op = 0x4 then .rdbyte
  else if p.op = 0x5 then .regrd p.addr
  else if p.op = 0x6 then .regwr p.addr p.data
  else if p.op = 0x7 then .burstrd
  else if p.op = 0x8 then .burstwr (unpackImage p.img)
  else if p.op = 0x9 then .clkread
  else if p.op = 0xA then .clkwrite (unpackTRec p.trec)
  else if p.op = 0xB then .get
  else if p.op = 0xC then .set p.lin
  else if p.op = 0xD then .halt
  else if p.op = 0xE then .present
  else .reservedOp

/-- A read frame: the command byte is all the block sends (R103). -/
def readFrame (i : Instr) : List Byte → Except Reject Instr
  | [] => .ok i
  | _ :: _ => .error .dataAfterReadCommand

/-- A single write frame: one data byte (R103, R124). -/
def writeFrame (i : Byte → Instr) : List Byte → Except Reject Instr
  | [d] => .ok (i d)
  | _ => .error .wrongDataLength

/-- A clock burst write frame: eight data bytes (R103). -/
def burstFrame : List Byte → Except Reject Instr
  | [b0, b1, b2, b3, b4, b5, b6, b7] => .ok (.clkBurstWr ⟨b0, b1, b2, b3, b4, b5, b6, b7⟩)
  | _ => .error .wrongDataLength

/-- The command byte table of R102; the first matching row wins. -/
def decodeFrame (c : Byte) (data : List Byte) : Except Reject Instr :=
  if c = 0x80 then writeFrame .secWr data
  else if c = 0x81 then readFrame .secRd data
  else if c = 0x82 then writeFrame .minWr data
  else if c = 0x83 then readFrame .minRd data
  else if c = 0x84 then writeFrame .hourWr data
  else if c = 0x85 then readFrame .hourRd data
  else if c = 0x86 then writeFrame .dateWr data
  else if c = 0x87 then readFrame .dateRd data
  else if c = 0x88 then writeFrame .monthWr data
  else if c = 0x89 then readFrame .monthRd data
  else if c = 0x8A then writeFrame .wdayWr data
  else if c = 0x8B then readFrame .wdayRd data
  else if c = 0x8C then writeFrame .yearWr data
  else if c = 0x8D then readFrame .yearRd data
  else if c = 0x8E then writeFrame .wpWr data
  else if c = 0x8F then readFrame .wpRd data
  else if c = 0x90 then writeFrame .tcsWr data
  else if c = 0x91 then readFrame .tcsRd data
  else if c = 0xBE then burstFrame data
  else if c = 0xBF then readFrame .clkBurstRd data
  else if c = 0xFE then writeFrame .ramBurstWr data
  else if c = 0xFF then readFrame .ramBurstRd data
  else if c.getLsbD 7 = false then
    if commandIsRead c then readFrame (.cmdBit7Clear (c.extractLsb' 0 7) 0) data
    else writeFrame (.cmdBit7Clear (c.extractLsb' 0 7)) data
  else if commandSpace c then
    if commandIsRead c then readFrame (.ramRd (commandNumber c)) data
    else writeFrame (.ramWr (commandNumber c)) data
  else
    if commandIsRead c then readFrame (.clkUnassignedRd (commandNumber c)) data
    else writeFrame (.clkUnassignedWr (commandNumber c)) data

def decodeWire : List Byte → Except Reject Instr
  | [] => .error .emptyFrame
  | c :: data => decodeFrame c data

/-- The decoder of the machine. -/
def decode : Command → Except Reject Instr
  | .host p => .ok (decodeHost p)
  | .wire frame => decodeWire frame

/-! ## Encoding -/

/-- Ports that carry a selector and no operand. -/
def HostPort.selector (op : BitVec 4) : HostPort where
  op := op
  addr := 0
  data := 0
  rel := false
  img := 0
  trec := 0
  lin := 0
  pins := ⟨0, 0, 0⟩

/-- The command that stands for an instruction: the ports of R122, or the frame of R102 and R103. A port that the
operation does not use is 0. -/
def encode : Instr → Command
  | .bind p => .host { HostPort.selector 0x0 with pins := p }
  | .start => .host (HostPort.selector 0x1)
  | .stop => .host (HostPort.selector 0x2)
  | .wrbyte d r => .host { HostPort.selector 0x3 with data := d, rel := r }
  | .rdbyte => .host (HostPort.selector 0x4)
  | .regrd a => .host { HostPort.selector 0x5 with addr := a }
  | .regwr a d => .host { HostPort.selector 0x6 with addr := a, data := d }
  | .burstrd => .host (HostPort.selector 0x7)
  | .burstwr v => .host { HostPort.selector 0x8 with img := packImage v }
  | .clkread => .host (HostPort.selector 0x9)
  | .clkwrite t => .host { HostPort.selector 0xA with trec := packTRec t }
  | .get => .host (HostPort.selector 0xB)
  | .set l => .host { HostPort.selector 0xC with lin := l }
  | .halt => .host (HostPort.selector 0xD)
  | .present => .host (HostPort.selector 0xE)
  | .reservedOp => .host (HostPort.selector 0xF)
  | .secWr d => .wire [0x80, d]
  | .secRd => .wire [0x81]
  | .minWr d => .wire [0x82, d]
  | .minRd => .wire [0x83]
  | .hourWr d => .wire [0x84, d]
  | .hourRd => .wire [0x85]
  | .dateWr d => .wire [0x86, d]
  | .dateRd => .wire [0x87]
  | .monthWr d => .wire [0x88, d]
  | .monthRd => .wire [0x89]
  | .wdayWr d => .wire [0x8A, d]
  | .wdayRd => .wire [0x8B]
  | .yearWr d => .wire [0x8C, d]
  | .yearRd => .wire [0x8D]
  | .wpWr d => .wire [0x8E, d]
  | .wpRd => .wire [0x8F]
  | .tcsWr d => .wire [0x90, d]
  | .tcsRd => .wire [0x91]
  | .clkBurstWr v => .wire (0xBE :: v.toList)
  | .clkBurstRd => .wire [0xBF]
  | .ramBurstWr d => .wire [0xFE, d]
  | .ramBurstRd => .wire [0xFF]
  | .ramWr a d => .wire [commandByte true a false, d]
  | .ramRd a => .wire [commandByte true a true]
  | .clkUnassignedWr a d => .wire [commandByte false a false, d]
  | .clkUnassignedRd a => .wire [commandByte false a true]
  | .cmdBit7Clear x d => if x.getLsbD 0 then .wire [0#1 ++ x] else .wire [0#1 ++ x, d]

/-! ## The table's words -/

/-- Byte `k` of a table word. -/
def wordByte (w k : Nat) : Byte := BitVec.ofNat 8 (w / 2 ^ (8 * k))

/-- The ports that a table word of a HOSTOP row stands for: the selector in the low byte, the operand ports in the
bytes after it, each from its own byte on (log entry 4). -/
def tableHostPort (w : Nat) : HostPort where
  op := BitVec.ofNat 4 w
  addr := wordByte w 1
  data := if w % 16 = 3 then wordByte w 1 else wordByte w 2
  rel := Nat.testBit w 16
  img := BitVec.ofNat 64 (w / 2 ^ 8)
  trec := BitVec.ofNat 56 (w / 2 ^ 8)
  lin := w / 2 ^ 8
  pins := ⟨(wordByte w 1).toNat, (wordByte w 2).toNat, (wordByte w 3).toNat⟩

/-- How many data bytes the block sends after the command byte `c` (R103, R104). -/
def dataBytesOut (c : Byte) : Nat :=
  if commandIsRead c then 0 else if c = 0xBE then 8 else 1

/-- The frame that a table word of a WIRECMD row stands for: the command byte in the low byte, the data bytes after it
in wire order. -/
def tableFrame (w : Nat) : List Byte :=
  wordByte w 0 :: (List.range (dataBytesOut (wordByte w 0))).map fun k => wordByte w (k + 1)

/-- The command that a word of spec/opcode_table.json stands for. The table numbers two kinds of row from bit 0: the
4-bit selector and the 8-bit command byte. A low byte below 16 is a selector; the command bytes 0x00 to 0x0F are
reached as frames only (log entry 4). -/
def tableCommand (nbits w : Nat) : Command :=
  if nbits < 8 ∨ w % 256 < 16 then .host (tableHostPort w) else .wire (tableFrame w)

/-- The instruction the decoder reads from a word of the opcode table. -/
def decodeTableWord (nbits w : Nat) : Option Instr :=
  match decode (tableCommand nbits w) with
  | .ok i => some i
  | .error _ => none

end Sys2Proof
end

