-- ==== Sys2Proof/Machine/Codec.lean ====
section
/-!
DEFINITION. The BCD register codec (spec/43_bcd_codec.md R210 to R236) at the bit positions of spec/30_encoding.md
R110. Values are computed over the naturals (R213) and narrowed to bytes at the end.
-/

namespace Sys2Proof.Machine

/-- `bcd_dec(t, u) = t * 10 + u`, total on every pair of digits (R210). -/
def bcdDec (t u : Nat) : Nat := t * 10 + u

/-- `bcd_tens(v) = v div 10` (R211). -/
def bcdTens (v : Nat) : Nat := v / 10

/-- `bcd_units(v) = v mod 10` (R211). -/
def bcdUnits (v : Nat) : Nat := v % 10

/-- The value of a BCD byte whose tens digit has `tensBits` bits from bit 4 up and whose units are bits 3 to 0. -/
def pairValue (b : Byte) (tensBits : Nat) : Nat := bcdDec (bits b 4 tensBits) (bits b 0 4)

/-- The BCD byte of a value: units in bits 3 to 0, tens in `tensBits` bits from bit 4 up, every other bit 0 (R230). -/
def pairByte (v tensBits : Nat) : Byte :=
  BitVec.ofNat 8 (bcdTens v % 2 ^ tensBits * 16 + bcdUnits v % 2 ^ 4)

/-- The mode bit of the hours byte: 1 = 12-hour layout (R111). -/
def hourMode12 (b : Byte) : Bool := b.getLsbD 7

/-- The AM/PM bit of the 12-hour layout (R111). -/
def hourPm (b : Byte) : Bool := b.getLsbD 5

/-- The hour by the layout the mode bit selects (R223, R224). -/
def hourValue (b : Byte) : Nat :=
  if hourMode12 b then pairValue b 1 + (if hourPm b then Config.pmOff else 0) else pairValue b 2

/-- `DECODE` (R220). -/
def decodeImage (v : Image) : TRec where
  sec := BitVec.ofNat 8 (pairValue v.b0 3)
  min := BitVec.ofNat 8 (pairValue v.b1 3)
  hour := BitVec.ofNat 8 (hourValue v.b2)
  wday := BitVec.ofNat 8 (bits v.b5 0 3)
  day := BitVec.ofNat 8 (pairValue v.b3 2)
  month := BitVec.ofNat 8 (pairValue v.b4 1)
  year := BitVec.ofNat 8 (pairValue v.b6 4 + Config.yearOff)

/-- `ENCODE` (R230). Its precondition is R234; the operations that use it check it (X9). -/
def encodeImage (t : TRec) : Image where
  b0 := pairByte t.sec.toNat 3
  b1 := pairByte t.min.toNat 3
  b2 := pairByte t.hour.toNat 2
  b3 := pairByte t.day.toNat 2
  b4 := pairByte t.month.toNat 1
  b5 := BitVec.ofNat 8 (t.wday.toNat % 2 ^ 3)
  b6 := pairByte (t.year.toNat - Config.yearOff) 4
  b7 := 0

/-- The precondition of `ENCODE`: every field in the range the spec gives (R234). -/
def trecInRange (t : TRec) : Bool :=
  decide (t.sec.toNat ≤ 59) && decide (t.min.toNat ≤ 59) && decide (t.hour.toNat ≤ 23) &&
  decide (1 ≤ t.wday.toNat) && decide (t.wday.toNat ≤ 7) && decide (1 ≤ t.day.toNat) && decide (t.day.toNat ≤ 31) &&
  decide (1 ≤ t.month.toNat) && decide (t.month.toNat ≤ 12) && decide (30 ≤ t.year.toNat) &&
  decide (t.year.toNat ≤ 129)

/-! ## Flags inside the image (R32, R110) -/

/-- `CH`, the clock-halt flag, in the seconds byte. -/
def clockHalt (v : Image) : Bool := v.b0.getLsbD 7

/-! ## Valid peer times (R88; log entry 9) -/

/-- Both digits of a BCD byte are decimal. -/
def pairDecimal (b : Byte) (tensBits : Nat) : Bool := decide (bits b 4 tensBits ≤ 9) && decide (bits b 0 4 ≤ 9)

/-- The hours byte holds a valid hour of its layout: 0 to 23, or 1 to 12 (R110). -/
def hourValid (b : Byte) : Bool :=
  decide (bits b 0 4 ≤ 9) &&
    if hourMode12 b then decide (1 ≤ pairValue b 1) && decide (pairValue b 1 ≤ 12) else decide (pairValue b 2 ≤ 23)

/-- Registers 0 to 6 hold a valid time, each field in the range of R110. -/
def validTime (v : Image) : Bool :=
  pairDecimal v.b0 3 && decide (pairValue v.b0 3 ≤ 59) && pairDecimal v.b1 3 && decide (pairValue v.b1 3 ≤ 59) &&
  hourValid v.b2 && pairDecimal v.b3 2 && decide (1 ≤ pairValue v.b3 2) && decide (pairValue v.b3 2 ≤ 31) &&
  pairDecimal v.b4 1 && decide (1 ≤ pairValue v.b4 1) && decide (pairValue v.b4 1 ≤ 12) && decide (1 ≤ bits v.b5 0 3) &&
  pairDecimal v.b6 4

/-- The hour of the day 0 to 23 that a valid hours byte stands for on the peer's own clock face. -/
def hourOfDay (b : Byte) : Nat :=
  if hourMode12 b then pairValue b 1 % 12 + (if hourPm b then 12 else 0) else pairValue b 2

/-- A number that orders valid times within a century. -/
def timeOrder (v : Image) : Nat :=
  ((((pairValue v.b6 4 * 13 + pairValue v.b4 1) * 32 + pairValue v.b3 2) * 24 + hourOfDay v.b2) * 60 +
    pairValue v.b1 3) * 60 + pairValue v.b0 3

/-- `new` may follow `now`: `now` holds no valid time, or the last year of the peer's two digits, or an earlier time. -/
def laterTime (now new : Image) : Bool :=
  !validTime now || pairValue now.b6 4 == 99 || decide (timeOrder now < timeOrder new)

end Sys2Proof.Machine
end

