-- ==== Sys2Proof/Machine/State.lean ====
section
/-!
DEFINITION. The state of the machine (spec/10_state.md R20 to R36, spec/20_memory.md R90), the reasons a step can
stop, and the state after reset.

INVENTORY.md, '## State', lists every field with the rule that names it and its reset value. Fields that are the
model's own and not the spec's are marked MODEL here and there.
-/

namespace Sys2Proof.Machine

/-! ## Lines and line events -/

/-- One line's output latch and output enable (R22): `oe = true` is the output direction. -/
structure Pad where
  out : Bool
  oe  : Bool
deriving DecidableEq, Repr, Inhabited

/-- The line state of the block (R22). -/
structure Pads where
  ce   : Pad
  sclk : Pad
  io   : Pad
deriving DecidableEq, Repr, Inhabited

/-- The direction operand of `DIR` (R142). -/
inductive Dir where
  | out
  | inp
deriving DecidableEq, Repr, Inhabited

/-- The two durations a `DLY` can name (R144). -/
inductive Delay where
  | tCe
  | tHold
deriving DecidableEq, Repr, Inhabited

/-- A line event (R35, R140 to R144); `smp` carries the sampled bit. -/
inductive Event where
  | drv (l : Line) (v : Bool)
  | dir (l : Line) (d : Dir)
  | smp (b : Bool)
  | dly (t : Delay)
deriving DecidableEq, Repr, Inhabited

/-- `sess` (R25). -/
inductive Sess where
  | closed
  | opened
deriving DecidableEq, Repr, Inhabited

/-- MODEL: what has been exchanged since the last `START`. The preconditions X5, X7 and X8 of R284 speak of it ("at
least one byte exchanged", "directly after", "the first byte", "the first RDBYTE"), and no register of the spec holds
it (log entry 6). -/
inductive FrameHist where
  | fresh      -- no byte since `START`
  | written    -- last byte a `WRBYTE` with `rel = 0`
  | released   -- last byte a `WRBYTE` with `rel = 1`
  | reading    -- last byte an `RDBYTE`
deriving DecidableEq, Repr, Inhabited

/-! ## The sequencer (R30, R31) -/

/-- `seq.op` while an operation is in progress: the operations that emit line events. `BIND`, `PRESENT` and the
reserved selector emit none and complete at once, so they are never in progress. -/
inductive Op where
  | start
  | stop
  | wrbyte
  | rdbyte
  | regrd
  | regwr
  | burstrd
  | burstwr
  | clkread
  | clkwrite
  | get
  | set
  | halt
deriving DecidableEq, Repr, Inhabited

/-- `seq.ph`, the phases of R31. -/
inductive Phase where
  | s0 | s1 | s2 | s3 | s4 | s5
  | t0 | t1
  | w0 | w1 | w2 | w3 | w4 | w5 | wr
  | b0 | b1 | b2 | b3 | b4
deriving DecidableEq, Repr, Inhabited

/-- `seq` without its parts `k` and `i`, which are the registers `bytecnt` and `bitcnt` (R30). `stage` is R30's; `sub`
is the engine sub-operation within the transaction (log entry 7). -/
inductive SeqPos where
  | idle
  | at (op : Op) (stage sub : Nat) (ph : Phase)
deriving DecidableEq, Repr, Inhabited

/-! ## The peer (spec/20_memory.md) -/

/-- A register space as (key, byte) pairs: the key of a register is its write command byte (R61, R62, R63). -/
abbrev Memory := List Host.Cell

/-- What is at the other end of the lines. -/
inductive PeerKind where
  /-- No peer: nobody drives `IO` (R88). -/
  | absent
  /-- Any peer at all: every level it may decide is free (R3 c, D20). -/
  | oracle
  /-- The reference peer of R90 to R97, which refuses where the spec is silent. -/
  | reference
  /-- A peer that keeps the contract R80 to R88: the reference peer with a timekeeper, which goes on with free values
  where the spec is silent instead of refusing (log entry 9). -/
  | chip
deriving DecidableEq, Repr, Inhabited

/-- Where the spec says nothing of a peer's behaviour, so that the reference peer refuses. -/
inductive PeerStop where
  /-- `CE` rises while `SCLK` is high (R91). -/
  | clockHighAtOpen
  /-- A command byte with bit 7 equal to 0 (R64, R93). -/
  | commandBit7Clear
  /-- A RAM burst command (R63, R93). -/
  | ramBurst
  /-- A clock-space register number 9 to 30 (R64, R93). -/
  | clockUnassigned
  /-- A falling edge beyond the last data bit of a read frame (R94). -/
  | readOverrun
  /-- A rising edge beyond the last data bit of a write frame (R95). -/
  | writeOverrun
deriving DecidableEq, Repr

/-- The peer's state (R90). `mem` is `p.clk` and `p.ram`, the other fields are R90's by name; `lost` is the refusal of
R91 to R95, once it has happened. -/
structure Peer where
  mem  : Memory
  act  : Bool
  n    : Nat
  f    : Nat
  cmd  : Byte
  buf  : Image
  drv  : Bool
  dout : Bool
  lost : Option PeerStop
deriving DecidableEq, Repr

/-- MODEL: the answers of the external time conversion (R5 a, D22) that the test bench fixes, as finite tables; what a
table does not list is the free function of Config (log entry 8). -/
structure Conv where
  toLin : List (TRec × Nat)
  ofLin : List (Nat × TRec)
deriving DecidableEq, Repr, Inhabited

/-! ## Outcomes -/

/-- A step that stops with a fault. -/
inductive Fault where
  /-- Raised by `microStep` at a sequencer position that no operation visits (R30, R31); reset and the operations
  never make one. Safe: the model stops. -/
  | sequencerLost
deriving DecidableEq, Repr

/-- A step that is given no meaning. Each precondition refusal is R284's; all are safe: the model stops where the
hardware goes on unchecked in a way the spec does not state. -/
inductive Refusal where
  /-- Raised only by an arm of `exec` whose instruction has no meaning yet. Safe. -/
  | notModelled (mnemonic : String)
  /-- X1, raised by every operation but `BIND`, `PRESENT`: `present = 0`. Safe. -/
  | notBound
  /-- X2, raised by every operation, and so by `step` for any command offered while one is in progress: `seq` is not
  `IDLE`. Safe. -/
  | busy
  /-- X3, raised by `BIND`: it has been executed already. Safe. -/
  | alreadyBound
  /-- X3, raised by `BIND`: the identifiers are not pairwise distinct. Safe. -/
  | pinsNotDistinct
  /-- X4, raised by `START` and every transaction: a session is open. Safe. -/
  | sessionOpen
  /-- X5, X6, X8, raised by `STOP`, `WRBYTE`, `RDBYTE`: no session is open. Safe. -/
  | sessionClosed
  /-- X5, raised by `STOP`: directly after a `WRBYTE` with `rel = 1`. Safe. -/
  | stopAfterRelease
  /-- X5, raised by `STOP`: no byte exchanged since `START`. Safe. -/
  | nothingExchanged
  /-- X6, raised by `WRBYTE`: `IO.oe = 0`. Safe. -/
  | lineReleased
  /-- X6, raised by `WRBYTE`: `SCLK.out = 1`. Safe. -/
  | clockHigh
  /-- X7, raised by `WRBYTE` with `rel = 1`: not the first byte after `START`. Safe. -/
  | releaseNotFirst
  /-- X8, raised by `RDBYTE`: `IO.oe = 1`. Safe. -/
  | lineDriven
  /-- X8, raised by the first `RDBYTE` of a session: `SCLK.out = 0`. Safe. -/
  | clockLow
  /-- X9, raised by `CLKWRITE`, `SET`: a field of the time record is out of the range of R234. Safe. -/
  | recordOutOfRange
  /-- X10, raised by `checkedStep` for selector 0xF, which R284 never admits; `step` gives it the hardware's effect
  (R123, log entry 1). Safe. -/
  | reservedSelector
  /-- Raised by any operation with line events against the reference peer, which refuses (R91 to R95). Safe. -/
  | peerRefuses (why : PeerStop)
  /-- Raised by `step` when the bytes of a frame are no frame of R103. Safe. -/
  | badFrame
  /-- Raised by `step` in a state that carries R284's mark: a run that refused has no further step. Safe. -/
  | marked
deriving DecidableEq, Repr

/-! ## State -/

@[ext]
structure State where
  pins     : Pins
  present  : Bool
  pads     : Pads
  sess     : Sess
  hist     : FrameHist
  sr       : Byte
  bitcnt   : BitVec 3
  bytecnt  : BitVec 4
  rel      : Bool
  trec     : TRec
  img      : Image
  addr     : Byte
  wdata    : Byte
  rdata    : Byte
  ok       : Bool
  lin      : Nat
  seq      : SeqPos
  rspValid : Bool
  ev       : List Event
  mark     : Option Refusal
  peerKind : PeerKind
  peer     : Peer
  conv     : Conv
  pend     : List Command
  draws    : Nat
deriving DecidableEq, Repr

/-- A peer that has seen nothing: no session (R90: `p.act = 0`, `p.drv = 0`), the rest at values of the model's (log
entry 5). -/
def Peer.quiet : Peer where
  mem := []
  act := false
  n := 0
  f := 0
  cmd := 0
  buf := ⟨0, 0, 0, 0, 0, 0, 0, 0⟩
  drv := false
  dout := false
  lost := none

/-- After power-up of the block, before `BIND` (R36, R310). Values R36 leaves unspecified are 0 (log entry 5); the peer
is any peer (log entry 5). -/
def State.reset : State where
  pins := ⟨0, 0, 0⟩
  present := false
  pads := ⟨⟨false, false⟩, ⟨false, false⟩, ⟨false, false⟩⟩
  sess := .closed
  hist := .fresh
  sr := 0
  bitcnt := 0
  bytecnt := 0
  rel := false
  trec := ⟨0, 0, 0, 0, 0, 0, 0⟩
  img := ⟨0, 0, 0, 0, 0, 0, 0, 0⟩
  addr := 0
  wdata := 0
  rdata := 0
  ok := false
  lin := 0
  seq := .idle
  rspValid := false
  ev := []
  mark := none
  peerKind := .oracle
  peer := Peer.quiet
  conv := ⟨[], []⟩
  pend := []
  draws := 0

/-- What an operation answers. -/
abbrev Answer := Host.Outcome State Fault Refusal

end Sys2Proof.Machine
end

