-- ==== Sys2Proof/Machine/Operands.lean ====
section
/-!
DEFINITION. Operands and results: the effective command byte (spec/42_transactions.md R190, R192), the operand latches
(spec/10_state.md R27 to R29), and the response ports (spec/30_encoding.md R121) as views of the state.
-/

namespace Sys2Proof.Machine

/-- The command byte `REGRD` sends: bit 0 forced to 1, the other bits as given (R101, R190). -/
def readCommand (addr : Byte) : Byte := addr ||| 0x01

/-- The command byte `REGWR` sends: bit 0 forced to 0, the other bits as given (R101, R192). -/
def writeCommand (addr : Byte) : Byte := addr &&& 0xFE

/-- The constants the block issues (R102, R197). -/
def clkBurstReadCommand : Byte := 0xBF
def clkBurstWriteCommand : Byte := 0xBE
def wpWriteCommand : Byte := 0x8E
def tcsWriteCommand : Byte := 0x90

/-! ## Operand latches, written by the host with the operation (R29; log entry 11) -/

def latchAddr (a : Byte) (s : State) : State := { s with addr := a }
def latchData (d : Byte) (s : State) : State := { s with wdata := d }
def latchRel (r : Bool) (s : State) : State := { s with rel := r }
def latchImage (v : Image) (s : State) : State := { s with img := v }
def latchTRec (t : TRec) (s : State) : State := { s with trec := t }
def latchLin (l : Nat) (s : State) : State := { s with lin := l }

/-! ## The external time conversion (R5 a, R256, R257; log entry 8) -/

/-- The first entry of a finite table at a key, else the default. -/
def lookupOr {α β : Type} [DecidableEq α] (d : β) : List (α × β) → α → β
  | [], _ => d
  | (k, v) :: m, a => if a = k then v else lookupOr d m a

/-- `LIN_OF_TR(t)`. -/
def linOfTr (s : State) (t : TRec) : Nat := lookupOr (Config.linOfTr t) s.conv.toLin t

/-- `TR_OF_LIN(l)`. -/
def trOfLin (s : State) (l : Nat) : TRec := lookupOr (Config.trOfLin l) s.conv.ofLin l

/-! ## The response ports (R121) -/

/-- `busy`: 1 while `seq.op` is not `IDLE` (R32). -/
def State.busy (s : State) : Bool := s.seq != .idle

def State.rspOk (s : State) : Bool := s.ok
def State.rspData (s : State) : Byte := s.rdata
def State.rspImage (s : State) : BitVec 64 := packImage s.img
def State.rspTRec (s : State) : BitVec 56 := packTRec s.trec
def State.rspLin (s : State) : Nat := s.lin
def State.rspPresent (s : State) : Bool := s.present

end Sys2Proof.Machine
end

