-- ==== Sys2Proof/Machine/Flags.lean ====
section
/-!
DEFINITION. The status bits and the preconditions that are tested on them (spec/60_exceptions.md R284).

The block has no condition codes (spec/10_state.md R32): an operation computes none. What it tests are the
preconditions X1 to X10. The first that fails, in the table's order, names the refusal (R285).
-/

namespace Sys2Proof.Machine

/-- A precondition: whether it fails, and the refusal it then names. -/
abbrev Precondition := Bool × Refusal

/-- The refusal of the first precondition that fails, in the order given (R285). -/
def firstRefusal : List Precondition → Option Refusal
  | [] => none
  | (failed, r) :: ps => if failed then some r else firstRefusal ps

/-- X1. -/
def needsBound (s : State) : Precondition := (!s.present, .notBound)

/-- X2. -/
def needsIdle (s : State) : Precondition := (s.busy, .busy)

/-- X4. -/
def needsClosed (s : State) : Precondition := (s.sess == .opened, .sessionOpen)

/-- The first condition of X5, X6, X8. -/
def needsOpen (s : State) : Precondition := (s.sess == .closed, .sessionClosed)

/-- X9: the time record meets R234. -/
def needsInRange (t : TRec) : Precondition := (!trecInRange t, .recordOutOfRange)

/-- X3. -/
def preBind (p : Pins) (s : State) : Option Refusal :=
  firstRefusal [needsIdle s, (s.present, .alreadyBound),
    (p.io == p.sclk || p.io == p.ce || p.sclk == p.ce, .pinsNotDistinct)]

/-- Of `PRESENT` and the reserved selector only X2 is asked. -/
def preIdle (s : State) : Option Refusal := firstRefusal [needsIdle s]

/-- X1, X2, X4: `START`, `REGRD`, `REGWR`, `BURSTRD`, `BURSTWR`, `CLKREAD`, `GET`, `HALT`. -/
def preSession (s : State) : Option Refusal := firstRefusal [needsBound s, needsIdle s, needsClosed s]

/-- X1, X2, X5. -/
def preStop (s : State) : Option Refusal :=
  firstRefusal [needsBound s, needsIdle s, needsOpen s, (s.hist == .released, .stopAfterRelease),
    (s.hist == .fresh, .nothingExchanged)]

/-- X1, X2, X6, X7. -/
def preWrbyte (rel : Bool) (s : State) : Option Refusal :=
  firstRefusal [needsBound s, needsIdle s, needsOpen s, (!s.pads.io.oe, .lineReleased), (s.pads.sclk.out, .clockHigh),
    (rel && s.hist != .fresh, .releaseNotFirst)]

/-- X1, X2, X8. -/
def preRdbyte (s : State) : Option Refusal :=
  firstRefusal [needsBound s, needsIdle s, needsOpen s, (s.pads.io.oe, .lineDriven),
    (s.hist != .reading && !s.pads.sclk.out, .clockLow)]

/-- X1, X2, X4, X9: `CLKWRITE` and `SET`. -/
def preClkwrite (t : TRec) (s : State) : Option Refusal :=
  firstRefusal [needsBound s, needsIdle s, needsClosed s, needsInRange t]

/-- X10: selector 0xF is never admitted. R284's step asks it (`checkedStep`); the hardware does not (R123). -/
def preSelector (c : Command) : Option Refusal :=
  match c with
  | .host p => firstRefusal [(p.op == 0xF, .reservedSelector)]
  | .wire _ => none

end Sys2Proof.Machine
end

