-- ==== Sys2Proof/Machine/Memory.lean ====
section
/-!
DEFINITION. The peer's register spaces (spec/20_memory.md R60 to R64, R90) as memory.

The key of register `a` of space `s` is its write command byte `{1, s, a, 0}`: 0x80 to 0x90 (even) for clock registers
0 to 8, 0xC0 to 0xFC (even) for RAM bytes 0 to 30. The list is canonical: keys strictly rising, keys of registers only,
and no entry that equals what an unlisted key reads as.
-/

namespace Sys2Proof.Machine

/-- What a register that no entry lists reads as. The spec gives no power-up contents (R312): 0 is DESIGN CHOICE (log
entry 5). -/
def unlistedByte : Byte := 0

/-- The key of register `a` of the clock space (`s = false`) or the RAM space (`s = true`): R61 with `r = 0`. -/
def regKey (s : Bool) (a : Nat) : Nat := 0x80 + (if s then 0x40 else 0) + 2 * a

/-- The keys of the nine clock registers (R62). -/
def clockKeys : List Nat := [0x80, 0x82, 0x84, 0x86, 0x88, 0x8A, 0x8C, 0x8E, 0x90]

/-- The keys of the thirty-one RAM bytes (R63). -/
def ramKeys : List Nat := (List.range 31).map fun a => regKey true a

/-- The key is a register's (R62, R63). -/
def isRegKey (k : Nat) : Bool :=
  k % 2 == 0 && (decide (0x80 ≤ k) && decide (k ≤ 0x90) || decide (0xC0 ≤ k) && decide (k ≤ 0xFC))

/-- The byte in a register. -/
def Memory.read : Memory → Nat → Byte
  | [], _ => unlistedByte
  | (k, b) :: m, a => if a = k then b else Memory.read m a

/-- The memory with one register replaced, in canonical form. -/
def Memory.write : Memory → Nat → Byte → Memory
  | [], a, b => if b = unlistedByte then [] else [(a, b)]
  | (k, c) :: m, a, b =>
    if a < k then (if b = unlistedByte then (k, c) :: m else (a, b) :: (k, c) :: m)
    else if a = k then (if b = unlistedByte then m else (a, b) :: m)
    else (k, c) :: Memory.write m a b

/-- A write to a key that is no register's changes nothing: there is nothing at it. -/
def Memory.store (m : Memory) (k : Nat) (b : Byte) : Memory :=
  if isRegKey k then m.write k b else m

/-- The canonical form from key `lo` on. -/
def Memory.wfFrom : Nat → Memory → Bool
  | _, [] => true
  | lo, (k, b) :: m => decide (lo ≤ k) && isRegKey k && b != unlistedByte && Memory.wfFrom (k + 1) m

def Memory.wf (m : Memory) : Bool := Memory.wfFrom 0 m

/-- Registers 0 to 7 as one image (R66, R86). -/
def Memory.clockImage (m : Memory) : Image where
  b0 := m.read 0x80
  b1 := m.read 0x82
  b2 := m.read 0x84
  b3 := m.read 0x86
  b4 := m.read 0x88
  b5 := m.read 0x8A
  b6 := m.read 0x8C
  b7 := m.read 0x8E

/-- Registers 0 to 6, the time registers, replaced together (R88). -/
def Memory.storeTime (m : Memory) (v : Image) : Memory :=
  (((((((m.store 0x80 v.b0).store 0x82 v.b1).store 0x84 v.b2).store 0x86 v.b3).store 0x88 v.b4).store 0x8A v.b5).store
    0x8C v.b6)

/-- Registers 0 to 7 replaced together (R87). -/
def Memory.storeImage (m : Memory) (v : Image) : Memory := (m.storeTime v).store 0x8E v.b7

/-- The registers of a list replaced by free bytes: a write whose effect on them the spec leaves unknown (U1, U6). -/
def Memory.scramble (m : Memory) (ks : List Nat) (d : Nat) : Memory :=
  ks.foldl (fun m k => m.store k (Config.freeByte d k)) m

end Sys2Proof.Machine
end

