-- ==== Sys2Proof/Machine/Peer.lean ====
section
/-!
DEFINITION. The levels of the lines (spec/10_state.md R23) and the peer (spec/20_memory.md R80 to R97).

One machine serves two kinds of peer. The reference peer (R90 to R95) refuses where the spec is silent, which `lost`
records. The `chip` is the same machine with the timekeeper of R88; where the reference peer refuses it goes on, with
free levels to the end of the session and, after a write, free registers (log entry 9). `absent` and `oracle` have no
state of their own here.
-/

namespace Sys2Proof.Machine

/-! ## Levels (R23) -/

/-- `CE` is low at the peer while the block does not drive it: the peer's pull-down. -/
def ceLevel (pd : Pads) : Bool := pd.ce.oe && pd.ce.out

/-- `SCLK` floats while the block does not drive it. -/
def sclkLevel (pd : Pads) (d : Nat) : Bool := if pd.sclk.oe then pd.sclk.out else Config.floatLevel .sclk d

/-- What the model knows of the peer's driver on `IO`: the driven value, not driving, or unknown. -/
inductive IoDrive where
  | driven (v : Bool)
  | idle
  | unknown
deriving DecidableEq, Repr

def Peer.ioDrive (p : Peer) : IoDrive :=
  if p.lost.isSome then .unknown else if p.drv then .driven p.dout else .idle

def ioDrive (k : PeerKind) (p : Peer) : IoDrive :=
  match k with
  | .absent => .idle
  | .oracle => .unknown
  | .reference => p.ioDrive
  | .chip => p.ioDrive

/-- `level(IO)`: the one side's value if one side drives, free if nobody or both do (R23, U2, U11). -/
def ioLevel (k : PeerKind) (pd : Pads) (p : Peer) (d : Nat) : Bool :=
  match pd.io.oe, ioDrive k p with
  | true, .idle => pd.io.out
  | false, .driven v => v
  | true, .driven _ => Config.floatLevel .io d
  | true, .unknown => Config.floatLevel .io d
  | false, .idle => Config.floatLevel .io d
  | false, .unknown => Config.floatLevel .io d

/-! ## The command the peer holds (R84) -/

def Peer.cmdSpace (p : Peer) : Bool := commandSpace p.cmd
def Peer.cmdNumber (p : Peer) : Nat := (commandNumber p.cmd).toNat
def Peer.cmdRead (p : Peer) : Bool := commandIsRead p.cmd

/-- The clock burst: register number 31 of the clock space. -/
def Peer.clockBurst (p : Peer) : Bool := !p.cmdSpace && p.cmdNumber == 31

/-- `len`: 8 data bytes in a clock burst, else 1 (R93). -/
def Peer.len (p : Peer) : Nat := if p.clockBurst then 8 else 1

/-- The write-protect flag (R95). -/
def Peer.writeProtected (p : Peer) : Bool := (p.mem.read 0x8E).getLsbD 7

/-- The peer has met a case the spec is silent on. -/
def Peer.lose (r : PeerStop) (p : Peer) : Peer := { p with lost := some r }

/-! ## The edges -/

/-- `CE` rises (R91): a new frame begins. The reference peer's refusal is kept for good. -/
def Peer.openSession (k : PeerKind) (sclk : Bool) (p : Peer) : Peer :=
  { p with
    act := true, n := 0, f := 0, drv := false
    lost := if sclk then some .clockHighAtOpen else if k = .reference then p.lost else none }

/-- A write of which the spec does not say what the peer keeps: a lost frame that is no read, or a write frame that ends
before its last data bit, be it right after its command byte, as `START`, `WRBYTE 0xBE`, `STOP` is (U1, U6). The spec
leaves open whether a burst cut short writes anything or nothing (N9), so neither is taken. That a frame of a peer in step
that ends within its command byte writes nothing is the model's choice (DESIGN CHOICE, log entry 9). -/
def Peer.writeUnknown (p : Peer) : Bool :=
  p.act && match p.lost with
    | some _ => decide (p.n < 8) || !p.cmdRead
    | none => !p.cmdRead && decide (8 ≤ p.n) && decide (p.n < 8 + 8 * p.len)

/-- A write of which the spec does not say what the peer keeps may be one to the enable/write-protect register: its
command byte names that register, or is none the map assigns, or was not received in step. -/
def Peer.mayWriteControl (p : Peer) : Bool :=
  match p.lost with
  | some .clockHighAtOpen => true
  | some .commandBit7Clear => true
  | some .clockUnassigned => true
  | some .ramBurst => false
  | some .readOverrun => false
  | some .writeOverrun => !p.cmdSpace && p.cmdNumber == 7
  | none => !p.cmdSpace && p.cmdNumber == 7

/-- The registers of which nothing is known after the session. While write protection is on no write takes effect but
one to the enable/write-protect register, whatever the frame was (R85). -/
def Peer.unknownKeys (p : Peer) : List Nat :=
  if !p.writeUnknown then []
  else if !p.writeProtected then clockKeys ++ ramKeys
  else if p.mayWriteControl then [0x8E]
  else []

/-- `CE` falls (R91): the reference peer drops what is incomplete; what the chip keeps of it is free (U1, U6), within
R85. -/
def Peer.closeSession (k : PeerKind) (d : Nat) (p : Peer) : Peer :=
  if k = .chip then { p with act := false, drv := false, lost := none, mem := p.mem.scramble p.unknownKeys d }
  else { p with act := false, drv := false }

/-- The command byte is complete (R93). -/
def Peer.decodeCommand (p : Peer) : Peer :=
  if !p.cmd.getLsbD 7 then p.lose .commandBit7Clear
  else if p.cmdSpace && p.cmdNumber == 31 then p.lose .ramBurst
  else if !p.cmdSpace && decide (9 ≤ p.cmdNumber) && decide (p.cmdNumber ≤ 30) then p.lose .clockUnassigned
  else if !p.cmdRead then p
  else if p.clockBurst then { p with buf := p.mem.clockImage }
  else { p with buf := p.buf.set 0 (p.mem.read (regKey p.cmdSpace p.cmdNumber)) }

/-- The commit check (R95): all eight registers of a burst at once, a single register always if it is the
write-protect register, every other write only while write protection is off (R85). -/
def Peer.commit (p : Peer) : Peer :=
  if p.n != 8 + 8 * p.len then p
  else if p.clockBurst then (if p.writeProtected then p else { p with mem := p.mem.storeImage p.buf })
  else if (!p.cmdSpace && p.cmdNumber == 7) || !p.writeProtected then
    { p with mem := p.mem.store (regKey p.cmdSpace p.cmdNumber) p.buf.b0 }
  else p

/-- A rising edge of `SCLK` with `IO` at level `b` (R92). -/
def Peer.rise (b : Bool) (p : Peer) : Peer :=
  if p.n < 8 then
    if p.n = 7 then Peer.decodeCommand { p with cmd := setBit p.cmd 7 b, n := 8 }
    else { p with cmd := setBit p.cmd p.n b, n := p.n + 1 }
  else if p.cmdRead then { p with n := p.n + 1 }
  else if 8 + 8 * p.len ≤ p.n then p.lose .writeOverrun
  else
    Peer.commit { p with
      buf := p.buf.set ((p.n - 8) / 8) (setBit (p.buf.get ((p.n - 8) / 8)) ((p.n - 8) % 8) b)
      n := p.n + 1 }

/-- A falling edge of `SCLK` (R94): after a read command it brings out the next data bit. -/
def Peer.fall (p : Peer) : Peer :=
  if p.n < 8 then p
  else if !p.cmdRead then p
  else if 8 * p.len ≤ p.f then p.lose .readOverrun
  else { p with drv := true, dout := (p.buf.get (p.f / 8)).getLsbD (p.f % 8), f := p.f + 1 }

/-- The timekeeper (R88, U17): while `CH = 0`, registers 0 to 6 may be replaced by a later valid time. A burst snapshot
is not touched: it is in `buf`. -/
def Peer.timeStep (d : Nat) (p : Peer) : Peer :=
  if clockHalt p.mem.clockImage then p
  else if !clockHalt (Config.freeTime d) && validTime (Config.freeTime d) &&
      laterTime p.mem.clockImage (Config.freeTime d) then
    { p with mem := p.mem.storeTime (Config.freeTime d) }
  else p

/-- The peer's reaction to one line event of the block: to the change of `CE`, and in a session to the edges of
`SCLK`, with `IO` as it stands (R80, R83, R91 to R95). A lost peer is lost until `CE` changes. -/
def Peer.edges (k : PeerKind) (old new : Pads) (d : Nat) (p : Peer) : Peer :=
  if !ceLevel old && ceLevel new then p.openSession k (sclkLevel new d)
  else if ceLevel old && !ceLevel new then p.closeSession k d
  else if !p.act then p
  else if p.lost.isSome then p
  else if !sclkLevel old d && sclkLevel new d then p.rise (ioLevel k new p d)
  else if sclkLevel old d && !sclkLevel new d then p.fall
  else p

/-- The peer after one line event that takes the pads from `old` to `new`. -/
def peerReact (k : PeerKind) (old new : Pads) (d : Nat) (p : Peer) : Peer :=
  match k with
  | .absent => p
  | .oracle => p
  | .reference => p.edges k old new d
  | .chip => (p.timeStep d).edges k old new d

/-- The refusal the run must end in: the reference peer's (R91, R93 to R95). Every other peer goes on. -/
def peerRefusal (k : PeerKind) (p : Peer) : Option PeerStop :=
  match k with
  | .absent => none
  | .oracle => none
  | .reference => p.lost
  | .chip => none

/-! ## The byte-level summary (R97)

What the transactions do to the reference peer's registers, from a closed session. The statements about the reference
peer say that the bit-level machine above does exactly this. -/

/-- The key of the register that the operand of `REGRD` or `REGWR` names: its space and number, R61. -/
def summaryKey (x : Byte) : Nat := regKey (commandSpace x) (commandNumber x).toNat

/-- `REGRD(x)` returns `p.clk[a]` or `p.ram[a]`, and changes nothing in the peer. -/
def summaryRegRead (x : Byte) (m : Memory) : Byte := m.read (summaryKey x)

/-- `REGWR(x, d)` performs the commit of R95 with `p.buf[0] = d`. -/
def summaryRegWrite (x d : Byte) (m : Memory) : Memory :=
  (Peer.commit { Peer.quiet with mem := m, cmd := x, n := 16, buf := Peer.quiet.buf.set 0 d }).mem

/-- `BURSTRD` returns `p.clk[0..7]`, and changes nothing in the peer. -/
def summaryBurstRead (m : Memory) : Image := m.clockImage

/-- `BURSTWR(v)` sets `p.clk[0..7] <- v` if `p.clk[7][7] = 0`, and changes nothing otherwise. -/
def summaryBurstWrite (v : Image) (m : Memory) : Memory := if (m.read 0x8E).getLsbD 7 then m else m.storeImage v

end Sys2Proof.Machine
end

