-- ==== Sys2Proof/Machine/Ops.lean ====
section
/-!
DEFINITION. The shared operations: one line event, the four engine sub-operations, the four transactions, and how an
operation ends.

The block raises no exception, takes no interrupt and returns from none (spec/60_exceptions.md R280, R281, R283,
R286), so there is no exception entry here: an operation ends by `finish` or is refused by its precondition.
-/

namespace Sys2Proof.Machine

/-! ## Line events (R140 to R146) -/

def Pads.setOut (pd : Pads) (l : Line) (v : Bool) : Pads :=
  match l with
  | .ce => { pd with ce := { pd.ce with out := v } }
  | .sclk => { pd with sclk := { pd.sclk with out := v } }
  | .io => { pd with io := { pd.io with out := v } }

def Pads.setOe (pd : Pads) (l : Line) (v : Bool) : Pads :=
  match l with
  | .ce => { pd with ce := { pd.ce with oe := v } }
  | .sclk => { pd with sclk := { pd.sclk with oe := v } }
  | .io => { pd with io := { pd.io with oe := v } }

/-- What an event does to the latches and enables: `DRV` writes a latch (R141), `DIR` an enable (R142), `SMP` and
`DLY` nothing (R143, R144). -/
def Event.onPads (e : Event) (pd : Pads) : Pads :=
  match e with
  | .drv l v => pd.setOut l v
  | .dir l .out => pd.setOe l true
  | .dir l .inp => pd.setOe l false
  | .smp _ => pd
  | .dly _ => pd

/-- One line of the block. -/
def Pads.get (pd : Pads) : Line → Pad
  | .ce => pd.ce
  | .sclk => pd.sclk
  | .io => pd.io

/-- The event is a rising edge of line `l` (R145): a `DRV` that raises the latch of a driven line, or a `DIR` that puts
a latch of 1 on a line that was low. The peer sees the same edges as changes of level (`Peer.edges`). -/
def Event.rises (l : Line) (low : Bool) (e : Event) (pd : Pads) : Bool :=
  match e with
  | .drv l' true => l' == l && (pd.get l).oe && !(pd.get l).out
  | .dir l' .out => l' == l && (pd.get l).out && low
  | .drv _ false => false
  | .dir _ .inp => false
  | .smp _ => false
  | .dly _ => false

/-- The event is a falling edge of line `l` (R145): a `DRV` that lowers the latch of a driven line. -/
def Event.falls (l : Line) (e : Event) (pd : Pads) : Bool :=
  match e with
  | .drv l' false => l' == l && (pd.get l).oe && (pd.get l).out
  | .drv _ true => false
  | .dir _ _ => false
  | .smp _ => false
  | .dly _ => false

/-- `emit e` (R8): the event goes into the trace and takes its effect on the lines; the peer reacts to it (R3). `draws`
counts the events, so that every event has its own free values. -/
def emit (e : Event) (s : State) : State :=
  { s with
    pads := e.onPads s.pads
    peer := peerReact s.peerKind s.pads (e.onPads s.pads) s.draws s.peer
    ev := s.ev ++ [e]
    draws := s.draws + 1 }

/-- A list of events in order. -/
def emitAll : List Event → State → State
  | [], s => s
  | e :: es, s => emitAll es (emit e s)

/-- The level `SMP()` reads (R143). -/
def sampleIo (s : State) : Bool := ioLevel s.peerKind s.pads s.peer s.draws

/-- The bit indices of a byte in the order of the wire: least significant first, `N_BITS = 8` (R6, R65). -/
def bitOrder : List (BitVec 3) := [0, 1, 2, 3, 4, 5, 6, 7]

/-! ## START (R160) and STOP (R162) -/

def startEvents : List Event :=
  [.drv .ce false, .dir .ce .out, .dir .sclk .out, .dir .io .out, .drv .ce true, .dly .tCe]

def startSession (s : State) : State :=
  { emitAll startEvents s with sess := .opened, hist := .fresh }

def stopEvents : List Event := [.drv .ce false, .dly .tCe]

def stopSession (s : State) : State := { emitAll stopEvents s with sess := .closed }

/-! ## WRBYTE (R164) -/

/-- The events of bit `i`: the release takes the place of the falling edge at bit 7 of a byte with `rel = 1`. -/
def writeBitEvents (data : Byte) (rel : Bool) (i : BitVec 3) : List Event :=
  [.drv .io (data.getLsbD i.toNat), .dly .tHold, .drv .sclk true, .dly .tHold] ++
    if rel && i == 7 then [.dir .io .inp] else [.drv .sclk false, .dly .tHold]

def writeByteEvents (data : Byte) (rel : Bool) : List Event := bitOrder.flatMap (writeBitEvents data rel)

def writeByte (data : Byte) (rel : Bool) (s : State) : State :=
  { emitAll (writeByteEvents data rel) s with
    sr := data, rel := rel, bitcnt := 7, hist := if rel then .released else .written }

/-! ## RDBYTE (R168) -/

/-- The events of a bit before its sample. -/
def readBitEvents : List Event := [.drv .sclk true, .dly .tHold, .drv .sclk false, .dly .tHold]

/-- `SMP()` into `sr[i]` (R143, R168). -/
def sampleBit (i : BitVec 3) (s : State) : State :=
  { emit (.smp (sampleIo s)) s with sr := setBit s.sr i.toNat (sampleIo s), bitcnt := i }

def readBit (i : BitVec 3) (s : State) : State := sampleBit i (emitAll readBitEvents s)

def readBits : List (BitVec 3) → State → State
  | [], s => s
  | i :: is, s => readBits is (readBit i s)

/-- After it `sr` holds the assembled byte. -/
def readByte (s : State) : State := { readBits bitOrder s with hist := .reading }

/-! ## Transactions (R190 to R196) -/

/-- The read session of `REGRD` with effective command byte `c`; the byte read is in `sr`, and `rdata` takes it. -/
def regRead (c : Byte) (s : State) : State :=
  let t := stopSession (readByte (writeByte c true (startSession s)))
  { t with rdata := t.sr }

/-- The write session of `REGWR` with effective command byte `c`. -/
def regWrite (c data : Byte) (s : State) : State :=
  stopSession (writeByte data false (writeByte c false (startSession s)))

/-- The byte indices of a burst: `N_IMG = 8` (R6, R66). -/
def byteOrder : List (BitVec 4) := [0, 1, 2, 3, 4, 5, 6, 7]

/-- `img[k] <- RDBYTE()` with `bytecnt = k`. -/
def burstReadByte (k : BitVec 4) (s : State) : State :=
  let t := readByte { s with bytecnt := k }
  { t with img := t.img.set k.toNat t.sr }

def burstReadBytes : List (BitVec 4) → State → State
  | [], s => s
  | k :: ks, s => burstReadBytes ks (burstReadByte k s)

def burstRead (s : State) : State :=
  stopSession (burstReadBytes byteOrder (writeByte clkBurstReadCommand true (startSession s)))

/-- `WRBYTE(img[k], rel = 0)` with `bytecnt = k`. -/
def burstWriteByte (k : BitVec 4) (s : State) : State :=
  writeByte (s.img.get k.toNat) false { s with bytecnt := k }

def burstWriteBytes : List (BitVec 4) → State → State
  | [], s => s
  | k :: ks, s => burstWriteBytes ks (burstWriteByte k s)

/-- The burst write of the image buffer. -/
def burstWrite (s : State) : State :=
  stopSession (burstWriteBytes byteOrder (writeByte clkBurstWriteCommand false (startSession s)))

/-! ## Clock access (R250, R252) -/

/-- The common part of `CLKREAD` and `GET`. -/
def readClock (s : State) : State :=
  let t := burstRead s
  { t with trec := decodeImage t.img, ok := Config.okFlag }

/-- The common part of `CLKWRITE` and `SET`: the time record is in `trec`. -/
def writeClock (s : State) : State :=
  let t := regWrite tcsWriteCommand 0 (regWrite wpWriteCommand 0 s)
  { burstWrite (latchImage (encodeImage t.trec) t) with ok := Config.okFlag }

/-! ## How an operation ends -/

/-- The operation is complete: its results are valid (R121). If the peer is the reference peer and has refused, the
run is refused (R91, R93 to R95). -/
def finish (k : PeerKind) (t : State) : Answer :=
  match peerRefusal k t.peer with
  | some r => .refused (.peerRefuses r)
  | none => .next { t with rspValid := true }

/-- `rsp_valid` pulses with the results (R121, R283, D28): it is 1 until the next step, which ends the pulse (log entry
16). -/
def endPulse (s : State) : State := { s with rspValid := false }

/-- An operation takes `s` to `t` if its precondition holds on `s`, else it is refused (R284). -/
def guarded (s : State) (pre : Option Refusal) (t : State) : Answer :=
  match pre with
  | some r => .refused r
  | none => finish s.peerKind t

/-- The same for an operation without line events: no peer takes part. -/
def guardedQuietly (pre : Option Refusal) (t : State) : Answer :=
  match pre with
  | some r => .refused r
  | none => .next { t with rspValid := true }

/-- A reset of the block in any state (R310, R311): every register of the block takes its reset value, the lines become
inputs, and the peer sees `CE` fall to its pull-down. The peer, the time conversion and the host's commands are outside
the block; R284's mark is never cleared. -/
def resetBlock (s : State) : State :=
  { State.reset with
    peerKind := s.peerKind
    peer := peerReact s.peerKind s.pads State.reset.pads s.draws s.peer
    conv := s.conv
    pend := s.pend
    mark := s.mark
    draws := s.draws + 1 }

end Sys2Proof.Machine
end

