-- ==== Sys2Proof/Machine/ClockAccess.lean ====
section
/-!
DEFINITION. The clock access operations (spec/44_clock_access.md): `CLKREAD`, `CLKWRITE`, `HALT`, `PRESENT`, `GET`,
`SET`, `BIND`; and the reserved selector (spec/30_encoding.md R123).
-/

namespace Sys2Proof.Machine

/-- `BIND(io, sclk, ce)` (R258): no line event. -/
def execBind (p : Pins) (s : State) : Answer := guardedQuietly (preBind p s) { s with pins := p, present := true }

/-- `CLKREAD()` (R250). -/
def execClkread (s : State) : Answer := guarded s (preSession s) (readClock s)

/-- `CLKWRITE(t)` (R252). -/
def execClkwrite (t : TRec) (s : State) : Answer := guarded s (preClkwrite t s) (writeClock (latchTRec t s))

/-- `GET()` (R256): `CLKREAD`, then the external conversion. -/
def execGet (s : State) : Answer :=
  guarded s (preSession s) (let t := readClock s; { t with lin := linOfTr t t.trec })

/-- `SET(l)` (R257): the external conversion, then `CLKWRITE`. -/
def execSet (l : Nat) (s : State) : Answer :=
  guarded s (preClkwrite (trOfLin s l) s) (writeClock (latchTRec (trOfLin s l) (latchLin l s)))

/-- `HALT()` (R254): one write of 0x00 to the enable/write-protect register, and nothing else. -/
def execHalt (s : State) : Answer := guarded s (preSession s) (regWrite wpWriteCommand 0 s)

/-- `PRESENT()` (R255): the result is the port `rsp_present`; no line event. -/
def execPresent (s : State) : Answer := guardedQuietly (preIdle s) s

/-- Selector 0xF (R123): the hardware accepts it, emits no event, changes no state and completes at once (log entry
1). -/
def execReservedOp (s : State) : Answer :=
  match preIdle s with
  | some r => .refused r
  | none => .next s

end Sys2Proof.Machine
end

