-- ==== Sys2Proof/Machine/Engine.lean ====
section
/-!
DEFINITION. The protocol engine's operations (spec/41_protocol_engine.md): `START`, `STOP`, `WRBYTE`, `RDBYTE`.
-/

namespace Sys2Proof.Machine

/-- `START` (R160). -/
def execStart (s : State) : Answer := guarded s (preSession s) (startSession s)

/-- `STOP` (R162). -/
def execStop (s : State) : Answer := guarded s (preStop s) (stopSession s)

/-- `WRBYTE(data, rel)` (R164). -/
def execWrbyte (data : Byte) (rel : Bool) (s : State) : Answer :=
  guarded s (preWrbyte rel s) (writeByte data rel (latchData data s))

/-- `RDBYTE()` (R168): the result is latched in `rdata`. -/
def execRdbyte (s : State) : Answer :=
  guarded s (preRdbyte s) (let t := readByte s; { t with rdata := t.sr })

end Sys2Proof.Machine
end

