-- ==== Sys2Proof/Machine/Transactions.lean ====
section
/-!
DEFINITION. The transactions (spec/42_transactions.md): `REGRD`, `REGWR`, `BURSTRD`, `BURSTWR`, the block's loads and
stores (R2).
-/

namespace Sys2Proof.Machine

/-- `REGRD(addr)` (R190). -/
def execRegrd (addr : Byte) (s : State) : Answer :=
  guarded s (preSession s) (regRead (readCommand addr) (latchAddr addr s))

/-- `REGWR(addr, data)` (R192). -/
def execRegwr (addr data : Byte) (s : State) : Answer :=
  guarded s (preSession s) (regWrite (writeCommand addr) data (latchData data (latchAddr addr s)))

/-- `BURSTRD()` (R194). -/
def execBurstrd (s : State) : Answer := guarded s (preSession s) (burstRead s)

/-- `BURSTWR(v)` (R196): the operand is latched in the image buffer. -/
def execBurstwr (v : Image) (s : State) : Answer := guarded s (preSession s) (burstWrite (latchImage v s))

end Sys2Proof.Machine
end

