-- ==== Sys2Proof/Machine/Wire.lean ====
section
/-!
DEFINITION. The wire command rows (spec/30_encoding.md R102, R103): the frame that begins with the command byte.

A read row is the block's `MemRead` and a write row its `MemWrite` (spec/00_scope.md R8) with that command byte: one
session, which the block sends whatever the command byte is (R101, R124). Bytes of the named registers, of RAM, of
unassigned numbers and outside the map reach the wire as the operand of `REGRD` or `REGWR`, so their frames are the
frames of those operations, with the command byte in the address latch; the clock bursts are `BURSTRD` and `BURSTWR`
(log entry 2).
-/

namespace Sys2Proof.Machine

/-- The single read frame with command byte `c` (R103, R190). -/
def readFrameOf (c : Byte) (s : State) : Answer := guarded s (preSession s) (regRead c (latchAddr c s))

/-- The single write frame with command byte `c` and data byte `d` (R103, R192). -/
def writeFrameOf (c d : Byte) (s : State) : Answer :=
  guarded s (preSession s) (regWrite c d (latchData d (latchAddr c s)))

/-! ## The named clock registers (R62) -/

/-- Write of the seconds register, command byte 0x80. -/
def execSecWr (d : Byte) (s : State) : Answer := writeFrameOf 0x80 d s

/-- Read of the seconds register, command byte 0x81. -/
def execSecRd (s : State) : Answer := readFrameOf 0x81 s

/-- Write of the minutes register, command byte 0x82. -/
def execMinWr (d : Byte) (s : State) : Answer := writeFrameOf 0x82 d s

/-- Read of the minutes register, command byte 0x83. -/
def execMinRd (s : State) : Answer := readFrameOf 0x83 s

/-- Write of the hours register, command byte 0x84. -/
def execHourWr (d : Byte) (s : State) : Answer := writeFrameOf 0x84 d s

/-- Read of the hours register, command byte 0x85. -/
def execHourRd (s : State) : Answer := readFrameOf 0x85 s

/-- Write of the date register, command byte 0x86. -/
def execDateWr (d : Byte) (s : State) : Answer := writeFrameOf 0x86 d s

/-- Read of the date register, command byte 0x87. -/
def execDateRd (s : State) : Answer := readFrameOf 0x87 s

/-- Write of the month register, command byte 0x88. -/
def execMonthWr (d : Byte) (s : State) : Answer := writeFrameOf 0x88 d s

/-- Read of the month register, command byte 0x89. -/
def execMonthRd (s : State) : Answer := readFrameOf 0x89 s

/-- Write of the weekday register, command byte 0x8A. -/
def execWdayWr (d : Byte) (s : State) : Answer := writeFrameOf 0x8A d s

/-- Read of the weekday register, command byte 0x8B. -/
def execWdayRd (s : State) : Answer := readFrameOf 0x8B s

/-- Write of the year register, command byte 0x8C. -/
def execYearWr (d : Byte) (s : State) : Answer := writeFrameOf 0x8C d s

/-- Read of the year register, command byte 0x8D. -/
def execYearRd (s : State) : Answer := readFrameOf 0x8D s

/-- Write of the enable/write-protect register, command byte 0x8E. -/
def execWpWr (d : Byte) (s : State) : Answer := writeFrameOf 0x8E d s

/-- Read of the enable/write-protect register, command byte 0x8F. -/
def execWpRd (s : State) : Answer := readFrameOf 0x8F s

/-- Write of the trickle-charge register, command byte 0x90. -/
def execTcsWr (d : Byte) (s : State) : Answer := writeFrameOf 0x90 d s

/-- Read of the trickle-charge register, command byte 0x91. -/
def execTcsRd (s : State) : Answer := readFrameOf 0x91 s

/-! ## The bursts -/

/-- The clock burst write frame, command byte 0xBE and eight data bytes (R196). -/
def execClkBurstWr (v : Image) (s : State) : Answer := guarded s (preSession s) (burstWrite (latchImage v s))

/-- The clock burst read frame, command byte 0xBF and eight bytes in (R194). -/
def execClkBurstRd (s : State) : Answer := guarded s (preSession s) (burstRead s)

/-- 0xFE given to `REGWR`: the block sends it with one data byte (R63, R124, U14). -/
def execRamBurstWr (d : Byte) (s : State) : Answer := writeFrameOf 0xFE d s

/-- 0xFF given to `REGRD`: the block sends it and reads one byte (R63, R124, U14). -/
def execRamBurstRd (s : State) : Answer := readFrameOf 0xFF s

/-! ## RAM bytes, unassigned clock numbers, bytes outside the map -/

/-- Write of RAM byte `a` (R63). -/
def execRamWr (a : BitVec 5) (d : Byte) (s : State) : Answer := writeFrameOf (commandByte true a false) d s

/-- Read of RAM byte `a` (R63). -/
def execRamRd (a : BitVec 5) (s : State) : Answer := readFrameOf (commandByte true a true) s

/-- Write of an unassigned clock register: the block sends it; what the peer does is unspecified (R64, U1). -/
def execClkUnassignedWr (a : BitVec 5) (d : Byte) (s : State) : Answer := writeFrameOf (commandByte false a false) d s

/-- Read of an unassigned clock register: the block sends it; the data is free (R64, U1). -/
def execClkUnassignedRd (a : BitVec 5) (s : State) : Answer := readFrameOf (commandByte false a true) s

/-- A command byte with bit 7 equal to 0: the block sends it, as a read if its bit 0 is 1 and else as a write (R64,
R100, R124, U1). -/
def execCmdBit7Clear (x : BitVec 7) (d : Byte) (s : State) : Answer :=
  if x.getLsbD 0 then readFrameOf (0#1 ++ x) s else writeFrameOf (0#1 ++ x) d s

end Sys2Proof.Machine
end

