-- ==== Sys2Proof/Machine/Dispatch.lean ====
section
/-!
DEFINITION. `exec`: one arm per constructor of `Instr`, each one call of that instruction's meaning.
-/

namespace Sys2Proof.Machine

def exec (i : Instr) (s : State) : Host.Outcome State Fault Refusal :=
  match i with
  | .bind pins => Sys2Proof.Machine.execBind pins s
  | .start => Sys2Proof.Machine.execStart s
  | .stop => Sys2Proof.Machine.execStop s
  | .wrbyte data rel => Sys2Proof.Machine.execWrbyte data rel s
  | .rdbyte => Sys2Proof.Machine.execRdbyte s
  | .regrd addr => Sys2Proof.Machine.execRegrd addr s
  | .regwr addr data => Sys2Proof.Machine.execRegwr addr data s
  | .burstrd => Sys2Proof.Machine.execBurstrd s
  | .burstwr img => Sys2Proof.Machine.execBurstwr img s
  | .clkread => Sys2Proof.Machine.execClkread s
  | .clkwrite t => Sys2Proof.Machine.execClkwrite t s
  | .get => Sys2Proof.Machine.execGet s
  | .set l => Sys2Proof.Machine.execSet l s
  | .halt => Sys2Proof.Machine.execHalt s
  | .present => Sys2Proof.Machine.execPresent s
  | .reservedOp => Sys2Proof.Machine.execReservedOp s
  | .secWr d => Sys2Proof.Machine.execSecWr d s
  | .secRd => Sys2Proof.Machine.execSecRd s
  | .minWr d => Sys2Proof.Machine.execMinWr d s
  | .minRd => Sys2Proof.Machine.execMinRd s
  | .hourWr d => Sys2Proof.Machine.execHourWr d s
  | .hourRd => Sys2Proof.Machine.execHourRd s
  | .dateWr d => Sys2Proof.Machine.execDateWr d s
  | .dateRd => Sys2Proof.Machine.execDateRd s
  | .monthWr d => Sys2Proof.Machine.execMonthWr d s
  | .monthRd => Sys2Proof.Machine.execMonthRd s
  | .wdayWr d => Sys2Proof.Machine.execWdayWr d s
  | .wdayRd => Sys2Proof.Machine.execWdayRd s
  | .yearWr d => Sys2Proof.Machine.execYearWr d s
  | .yearRd => Sys2Proof.Machine.execYearRd s
  | .wpWr d => Sys2Proof.Machine.execWpWr d s
  | .wpRd => Sys2Proof.Machine.execWpRd s
  | .tcsWr d => Sys2Proof.Machine.execTcsWr d s
  | .tcsRd => Sys2Proof.Machine.execTcsRd s
  | .clkBurstWr img => Sys2Proof.Machine.execClkBurstWr img s
  | .clkBurstRd => Sys2Proof.Machine.execClkBurstRd s
  | .ramBurstWr d => Sys2Proof.Machine.execRamBurstWr d s
  | .ramBurstRd => Sys2Proof.Machine.execRamBurstRd s
  | .ramWr a d => Sys2Proof.Machine.execRamWr a d s
  | .ramRd a => Sys2Proof.Machine.execRamRd a s
  | .clkUnassignedWr a d => Sys2Proof.Machine.execClkUnassignedWr a d s
  | .clkUnassignedRd a => Sys2Proof.Machine.execClkUnassignedRd a s
  | .cmdBit7Clear x d => Sys2Proof.Machine.execCmdBit7Clear x d s

end Sys2Proof.Machine
end

