-- ==== Sys2Proof/Machine/Accept.lean ====
section
/-!
DEFINITION. How the block answers a command at its host port (spec/30_encoding.md R121, spec/60_exceptions.md R284).
-/

namespace Sys2Proof.Machine

/-- A command is offered (`cmd_valid = 1`), the ones after it in `pend`. With `busy = 0` it is accepted and executed
(R121); with `busy = 1` it is refused, as every meaning asks X2 (R284, U13). Bytes that are no frame of R103 are refused
(log entry 12). -/
def answerCommand (c : Command) (s : State) : Answer :=
  match decode c with
  | .ok i => exec i s
  | .error _ => .refused .badFrame

end Sys2Proof.Machine
end

