-- ==== Sys2Proof/Machine/Sequencer.lean ====
section
/-!
DEFINITION. The small-step form (spec/10_state.md R30, R31, spec/00_scope.md R9): the sequencer, one line event a step.

An operation in progress is a state whose `seq` is not `IDLE`. `microStep` emits the event of the present phase and
moves on by one place. The operations of Engine.lean, Transactions.lean and ClockAccess.lean are the same behaviour in
one step; R9 asks that the two forms agree.
-/

namespace Sys2Proof.Machine

/-- An engine sub-operation, with the byte index it sets in a burst. -/
inductive Sub where
  | start
  | stop
  | write (data : Byte) (rel : Bool) (k : Option (BitVec 4))
  | read (k : Option (BitVec 4))
deriving DecidableEq, Repr

/-- The sub-operations of a single-register read and write (R190, R192). -/
def readPlan (c : Byte) : List Sub := [.start, .write c true none, .read none, .stop]
def writePlan (c data : Byte) : List Sub := [.start, .write c false none, .write data false none, .stop]

/-- The sub-operations of a clock burst (R194, R196). -/
def burstReadPlan : List Sub :=
  .start :: .write clkBurstReadCommand true none :: byteOrder.map (fun k => .read (some k)) ++ [.stop]
def burstWritePlan (v : Image) : List Sub :=
  .start :: .write clkBurstWriteCommand false none ::
    byteOrder.map (fun k => .write (v.get k.toNat) false (some k)) ++ [.stop]

/-- The sub-operations of each stage of an operation: `CLKWRITE` and `SET` have the stages 0, 1, 2 of R30, every other
operation has stage 0 only. -/
def plan (op : Op) (stage : Nat) (s : State) : List Sub :=
  match op, stage with
  | .start, 0 => [.start]
  | .stop, 0 => [.stop]
  | .wrbyte, 0 => [.write s.wdata s.rel none]
  | .rdbyte, 0 => [.read none]
  | .regrd, 0 => readPlan (readCommand s.addr)
  | .regwr, 0 => writePlan (writeCommand s.addr) s.wdata
  | .burstrd, 0 => burstReadPlan
  | .burstwr, 0 => burstWritePlan s.img
  | .clkread, 0 => burstReadPlan
  | .get, 0 => burstReadPlan
  | .halt, 0 => writePlan wpWriteCommand 0
  | .clkwrite, 0 => writePlan wpWriteCommand 0
  | .clkwrite, 1 => writePlan tcsWriteCommand 0
  | .clkwrite, 2 => burstWritePlan s.img
  | .set, 0 => writePlan wpWriteCommand 0
  | .set, 1 => writePlan tcsWriteCommand 0
  | .set, 2 => burstWritePlan s.img
  | _, _ => []

/-- The first phase of a sub-operation (R31). -/
def Sub.first : Sub → Phase
  | .start => .s0
  | .stop => .t0
  | .write _ _ _ => .w0
  | .read _ => .b0

/-- The registers a sub-operation loads before its first event (R164: `sr <- data`; R26). -/
def Sub.enter (u : Sub) (s : State) : State :=
  match u with
  | .start => s
  | .stop => s
  | .write d r k => { s with sr := d, rel := r, bitcnt := 0, bytecnt := k.getD s.bytecnt }
  | .read k => { s with bitcnt := 0, bytecnt := k.getD s.bytecnt }

/-- What a sub-operation leaves behind after its last event. -/
def Sub.leave (u : Sub) (s : State) : State :=
  match u with
  | .start => { s with hist := .fresh }
  | .stop => s
  | .write _ r _ => { s with hist := if r then .released else .written }
  | .read none => { s with hist := .reading }
  | .read (some k) => { s with hist := .reading, img := s.img.set k.toNat s.sr }

/-- The event of a phase (R31) and the phase after it; none after the last phase of the sub-operation. A phase that
the sub-operation does not visit has no event. -/
def Sub.phase (u : Sub) (ph : Phase) (s : State) : Option (State × Option Phase) :=
  match u, ph with
  | .start, .s0 => some (emit (.drv .ce false) s, some .s1)
  | .start, .s1 => some (emit (.dir .ce .out) s, some .s2)
  | .start, .s2 => some (emit (.dir .sclk .out) s, some .s3)
  | .start, .s3 => some (emit (.dir .io .out) s, some .s4)
  | .start, .s4 => some ({ emit (.drv .ce true) s with sess := .opened }, some .s5)
  | .start, .s5 => some (emit (.dly .tCe) s, none)
  | .stop, .t0 => some ({ emit (.drv .ce false) s with sess := .closed }, some .t1)
  | .stop, .t1 => some (emit (.dly .tCe) s, none)
  | .write _ _ _, .w0 => some (emit (.drv .io (s.sr.getLsbD s.bitcnt.toNat)) s, some .w1)
  | .write _ _ _, .w1 => some (emit (.dly .tHold) s, some .w2)
  | .write _ _ _, .w2 => some (emit (.drv .sclk true) s, some .w3)
  | .write _ _ _, .w3 => some (emit (.dly .tHold) s, some (if s.rel && s.bitcnt == 7 then .wr else .w4))
  | .write _ _ _, .wr => some (emit (.dir .io .inp) s, none)
  | .write _ _ _, .w4 => some (emit (.drv .sclk false) s, some .w5)
  | .write _ _ _, .w5 =>
    if s.bitcnt == 7 then some (emit (.dly .tHold) s, none)
    else some ({ emit (.dly .tHold) s with bitcnt := s.bitcnt + 1 }, some .w0)
  | .read _, .b0 => some (emit (.drv .sclk true) s, some .b1)
  | .read _, .b1 => some (emit (.dly .tHold) s, some .b2)
  | .read _, .b2 => some (emit (.drv .sclk false) s, some .b3)
  | .read _, .b3 => some (emit (.dly .tHold) s, some .b4)
  | .read _, .b4 =>
    if s.bitcnt == 7 then some (sampleBit s.bitcnt s, none)
    else some ({ sampleBit s.bitcnt s with bitcnt := s.bitcnt + 1 }, some .b0)
  | _, _ => none

/-- The end of an operation: its results are latched, `seq` returns to `IDLE` (R29, R30). -/
def completeOp (op : Op) (s : State) : State :=
  match op with
  | .rdbyte => { s with rdata := s.sr, seq := .idle, rspValid := true }
  | .regrd => { s with rdata := s.sr, seq := .idle, rspValid := true }
  | .clkread => { s with trec := decodeImage s.img, ok := Config.okFlag, seq := .idle, rspValid := true }
  | .get =>
    { s with
      trec := decodeImage s.img, ok := Config.okFlag, lin := linOfTr s (decodeImage s.img), seq := .idle
      rspValid := true }
  | .clkwrite => { s with ok := Config.okFlag, seq := .idle, rspValid := true }
  | .set => { s with ok := Config.okFlag, seq := .idle, rspValid := true }
  | .start => { s with seq := .idle, rspValid := true }
  | .stop => { s with seq := .idle, rspValid := true }
  | .wrbyte => { s with seq := .idle, rspValid := true }
  | .regwr => { s with seq := .idle, rspValid := true }
  | .burstrd => { s with seq := .idle, rspValid := true }
  | .burstwr => { s with seq := .idle, rspValid := true }
  | .halt => { s with seq := .idle, rspValid := true }

/-- What a stage computes before its first event: stage 2 of `CLKWRITE` and `SET` fills the image (R252). -/
def enterStage (op : Op) (stage : Nat) (s : State) : State :=
  match op, stage with
  | .clkwrite, 2 => { s with img := encodeImage s.trec }
  | .set, 2 => { s with img := encodeImage s.trec }
  | _, _ => s

/-- The sequencer stands before the first event of a sub-operation. -/
def goTo (op : Op) (stage sub : Nat) (u : Sub) (s : State) : State :=
  { u.enter s with seq := .at op stage sub u.first }

/-- After the last event of a sub-operation: the next one, the first of the next stage, or the end. -/
def advance (op : Op) (stage sub : Nat) (s : State) : State :=
  match (plan op stage s)[sub + 1]? with
  | some u => goTo op stage (sub + 1) u s
  | none =>
    match (plan op (stage + 1) s)[0]? with
    | some u => goTo op (stage + 1) 0 u (enterStage op (stage + 1) s)
    | none => completeOp op s

/-- The reference peer's refusal ends the run at the event at which it happens. -/
def unlessPeerRefuses (t : State) : Answer :=
  match peerRefusal t.peerKind t.peer with
  | some r => .refused (.peerRefuses r)
  | none => .next t

/-- One line event of the operation in progress. -/
def microStep (s : State) : Answer :=
  match s.seq with
  | .idle => .next s
  | .at op stage sub ph =>
    match (plan op stage s)[sub]? with
    | none => .fault .sequencerLost
    | some u =>
      match u.phase ph s with
      | none => .fault .sequencerLost
      | some (t, some next) => unlessPeerRefuses { t with seq := .at op stage sub next }
      | some (t, none) => unlessPeerRefuses (advance op stage sub (u.leave t))

/-- The operation an instruction starts, if it has line events. -/
def opOf : Instr → Option Op
  | .bind _ => none
  | .start => some .start
  | .stop => some .stop
  | .wrbyte _ _ => some .wrbyte
  | .rdbyte => some .rdbyte
  | .regrd _ => some .regrd
  | .regwr _ _ => some .regwr
  | .burstrd => some .burstrd
  | .burstwr _ => some .burstwr
  | .clkread => some .clkread
  | .clkwrite _ => some .clkwrite
  | .get => some .get
  | .set _ => some .set
  | .halt => some .halt
  | .present => none
  | .reservedOp => none
  | .secWr _ | .minWr _ | .hourWr _ | .dateWr _ | .monthWr _ | .wdayWr _ | .yearWr _ | .wpWr _ | .tcsWr _
  | .ramBurstWr _ | .ramWr _ _ | .clkUnassignedWr _ _ => some .regwr
  | .secRd | .minRd | .hourRd | .dateRd | .monthRd | .wdayRd | .yearRd | .wpRd | .tcsRd | .ramBurstRd | .ramRd _
  | .clkUnassignedRd _ => some .regrd
  | .clkBurstWr _ => some .burstwr
  | .clkBurstRd => some .burstrd
  | .cmdBit7Clear x _ => some (if x.getLsbD 0 then .regrd else .regwr)

/-- The operands of an instruction in their latches (R29): those of a host operation from its ports, those of a wire
command row from its frame. -/
def latchOperands (i : Instr) (s : State) : State :=
  match i with
  | .wrbyte d r => latchData d (latchRel r s)
  | .regrd a => latchAddr a s
  | .regwr a d => latchData d (latchAddr a s)
  | .burstwr v => latchImage v s
  | .clkBurstWr v => latchImage v s
  | .clkwrite t => latchTRec t s
  | .set l => latchTRec (trOfLin s l) (latchLin l s)
  | .bind _ | .start | .stop | .rdbyte | .burstrd | .clkread | .get | .halt | .present | .reservedOp | .clkBurstRd => s
  | i =>
    match encode i with
    | .wire [c, d] => latchData d (latchAddr c s)
    | .wire [c] => latchAddr c s
    | .wire _ => s
    | .host _ => s

/-- The state in which an operation stands before its first event: operands latched, `busy = 1`, no results yet. -/
def beginOp (op : Op) (s : State) : State :=
  match (plan op 0 s)[0]? with
  | some u => goTo op 0 0 u (endPulse s)
  | none => s

/-- How many line events an operation emits (R171, R198, R252). -/
def eventCount (op : Op) (rel : Bool) : Nat :=
  match op with
  | .start => 6
  | .stop => 2
  | .wrbyte => if rel then 47 else 48
  | .rdbyte => 40
  | .regrd => 95
  | .regwr => 104
  | .burstrd => 375
  | .burstwr => 440
  | .clkread => 375
  | .clkwrite => 648
  | .get => 375
  | .set => 648
  | .halt => 104

end Sys2Proof.Machine
end

