-- ==== Sys2Proof/Machine/Step.lean ====
section
/-!
DEFINITION. One step of the machine, and how a command comes to be the next.

The host's commands stand in `pend`, the one it offers first (spec/30_encoding.md R121, R125; log entry 12): `cmd_valid`
is `pend ≠ []`. A command is accepted when `busy = 0` and is then executed to its end; a command offered while an
operation is in progress is refused (spec/60_exceptions.md R284, X2); with none offered a step of an operation in
progress is one line event (spec/10_state.md R30), and an idle block waits (R311).
-/

namespace Sys2Proof.Machine

def step (s : State) : Host.Outcome State Fault Refusal :=
  match s.mark with
  | some _ => .refused .marked
  | none =>
    match s.pend with
    | [] => microStep (endPulse s)
    | c :: cs => answerCommand c { endPulse s with pend := cs }

/-- The step of R284, which refuses selector 0xF too (X10, U8): the hardware would accept it (R123), and `step` gives
that effect (log entry 1). -/
def checkedStep (s : State) : Answer :=
  match s.mark, s.busy, s.pend with
  | none, false, c :: _ =>
    match preSelector c with
    | some r => .refused r
    | none => step s
  | _, _, _ => step s

/-- A step as a state sees it (R284, D14): a refusal sets a mark that is never cleared, and a marked state has no
step. A fault leaves the state as it is. -/
def stepOrMark (s : State) : State :=
  match checkedStep s with
  | .next t => t
  | .fault _ => s
  | .refused r => { s with mark := some (s.mark.getD r) }

/-- The driver is constructed (R258, R313): what `BIND` leaves, for a state in which it has not been executed. -/
def State.constructed (s : State) : State :=
  if s.present then s else { s with pins := ⟨2, 3, 4⟩, present := true }

/-- The operations that may come before `BIND` (R313). -/
def beforeBind : Command → Bool
  | .host p => p.op == 0x0 || p.op == 0xE || p.op == 0xF
  | .wire _ => false

/-- The state with an instruction where the next step takes it: its command first in `pend`, the block idle and, for
an operation that has no meaning before `BIND` (R313), constructed (log entry 13). -/
def State.withFetchWord (s : State) (nbits w : Nat) : State :=
  let c := tableCommand nbits w
  { (if beforeBind c then s else s.constructed) with pend := c :: s.pend, seq := .idle }

end Sys2Proof.Machine
end

