-- ==== Sys2Proof/Safety.lean ====
section
/-!
DEFINITION. What claims say of a run: the machine's invariant and the reading of the event trace.
-/

namespace Sys2Proof.Machine

/-- In a session the lines stand as the last byte left them (R161, R165, R168), and the peer is in the session too
(R84). -/
def State.openLines (s : State) : Bool :=
  s.pads.ce.oe && s.pads.ce.out && s.pads.sclk.oe &&
  match s.hist with
  | .fresh => s.pads.io.oe && !s.pads.sclk.out
  | .written => s.pads.io.oe && !s.pads.sclk.out
  | .released => !s.pads.io.oe && s.pads.sclk.out
  | .reading => !s.pads.io.oe && !s.pads.sclk.out

/-- Between transactions `CE` and `SCLK` are low (R161, R170). -/
def State.closedLines (s : State) : Bool := !(s.pads.ce.oe && s.pads.ce.out) && !s.pads.ce.out && !s.pads.sclk.out

/-- In a session, at any event of it: `CE` high and both `CE` and `SCLK` driven (R24, R25). -/
def State.sessionLines (s : State) : Bool := s.sess == .opened && s.pads.ce.oe && s.pads.ce.out && s.pads.sclk.oe

/-- The peer is in a session exactly while the block is, and drives `IO` only then (R83, R91). -/
def State.peerInStep (s : State) : Bool :=
  match s.peerKind with
  | .absent => true
  | .oracle => true
  | .reference => s.peer.act == (s.sess == .opened) && (s.peer.act || !s.peer.drv)
  | .chip => s.peer.act == (s.sess == .opened) && (s.peer.act || !s.peer.drv)

/-- The invariant of a machine that has completed every operation it began: the peer's registers are in canonical form,
`sess` is what the lines say (R25), nothing is driven before `BIND` (R258), and the lines stand as R161 and R170 say. -/
def State.inv (s : State) : Bool :=
  s.peer.mem.wf && s.seq == .idle && s.peerInStep &&
  (s.present || (!s.pads.ce.oe && !s.pads.sclk.oe && !s.pads.io.oe && s.sess == .closed && s.ev == [])) &&
  match s.sess with
  | .closed => s.closedLines
  | .opened => s.openLines

/-- The lines and the session before the event of each phase of `START` (R31, R160): closed, the lines driven one after
the other, then open. A phase it does not visit has no lines. -/
def State.startLines (ph : Phase) (s : State) : Bool :=
  match ph with
  | .s0 => s.sess == .closed && s.closedLines
  | .s1 => s.sess == .closed && s.closedLines
  | .s2 => s.sess == .closed && s.closedLines && s.pads.ce.oe
  | .s3 => s.sess == .closed && s.closedLines && s.pads.ce.oe && s.pads.sclk.oe
  | .s4 => s.sess == .closed && s.closedLines && s.pads.ce.oe && s.pads.sclk.oe && s.pads.io.oe
  | .s5 => s.sessionLines && s.pads.io.oe && !s.pads.sclk.out
  | _ => false

/-- The same of `STOP` (R162). -/
def State.stopLines (ph : Phase) (s : State) : Bool :=
  match ph with
  | .t0 => s.sessionLines && !s.pads.sclk.out
  | .t1 => s.sess == .closed && s.closedLines
  | _ => false

/-- The same of `WRBYTE` with release operand `r` (R164): `IO` driven, the clock high from `W3` to the falling edge or
the release. -/
def State.writeLines (r : Bool) (ph : Phase) (s : State) : Bool :=
  s.sessionLines && s.pads.io.oe && s.rel == r &&
  match ph with
  | .w0 => !s.pads.sclk.out
  | .w1 => !s.pads.sclk.out
  | .w2 => !s.pads.sclk.out
  | .w3 => s.pads.sclk.out
  | .w4 => s.pads.sclk.out && !(r && s.bitcnt == 7)
  | .w5 => !s.pads.sclk.out && !(r && s.bitcnt == 7)
  | .wr => s.pads.sclk.out && r && s.bitcnt == 7
  | _ => false

/-- The same of `RDBYTE` (R168): `IO` released, the clock high for `B1` and `B2`. -/
def State.readLines (ph : Phase) (s : State) : Bool :=
  s.sessionLines && !s.pads.io.oe &&
  match ph with
  | .b0 => true
  | .b1 => s.pads.sclk.out
  | .b2 => s.pads.sclk.out
  | .b3 => !s.pads.sclk.out
  | .b4 => !s.pads.sclk.out
  | _ => false

/-- The lines and the session at a phase of a sub-operation (R25, R31). -/
def State.linesAt (u : Sub) (ph : Phase) (s : State) : Bool :=
  match u with
  | .start => s.startLines ph
  | .stop => s.stopLines ph
  | .write _ r _ => s.writeLines r ph
  | .read _ => s.readLines ph

/-- The invariant of a machine with an operation in progress, at every position of the sequencer that an operation
visits: the peer's registers in canonical form, the peer in the session exactly while the block is, and the lines as
the position says. -/
def State.midInv (s : State) : Bool :=
  s.peer.mem.wf && s.peerInStep && s.present &&
  match s.seq with
  | .idle => false
  | .at op stage sub ph =>
    match (plan op stage s)[sub]? with
    | none => false
    | some u => s.linesAt u ph

/-- A state in which a transaction runs (R284, X1, X2, X4). -/
abbrev State.ready (s : State) : Prop := s.present = true ∧ s.seq = .idle ∧ s.sess = .closed

/-- A reference peer that has refused nothing, before a machine that meets the invariant. Of any other peer nothing is
asked. -/
abbrev State.calm (s : State) : Prop := s.peerKind = .reference → s.inv = true ∧ s.peer.lost = none

/-- The block's peer goes on over a single frame with command byte `x`: any peer but the reference peer does, and the
reference peer does if it has refused nothing and the byte is that of a register or of the clock burst (R93). -/
abbrev State.serves (s : State) (x : Byte) : Prop :=
  s.calm ∧ (s.peerKind = .reference → isRegKey (writeCommand x).toNat = true ∨ writeCommand x = 0xBE)

/-! ## Shapes of instructions -/

/-- The command byte of the rows whose frame is one byte in (R102, R103). -/
def singleRead : Instr → Option Byte
  | .secRd => some 0x81
  | .minRd => some 0x83
  | .hourRd => some 0x85
  | .dateRd => some 0x87
  | .monthRd => some 0x89
  | .wdayRd => some 0x8B
  | .yearRd => some 0x8D
  | .wpRd => some 0x8F
  | .tcsRd => some 0x91
  | .ramBurstRd => some 0xFF
  | .ramRd a => some (0b11#2 ++ a ++ 1#1)
  | .clkUnassignedRd a => some (0b10#2 ++ a ++ 1#1)
  | .cmdBit7Clear x _ => if x.getLsbD 0 then some (0#1 ++ x) else none
  | _ => none

/-- The command byte and the data byte of the rows whose frame is one byte out (R102, R103). -/
def singleWrite : Instr → Option (Byte × Byte)
  | .secWr d => some (0x80, d)
  | .minWr d => some (0x82, d)
  | .hourWr d => some (0x84, d)
  | .dateWr d => some (0x86, d)
  | .monthWr d => some (0x88, d)
  | .wdayWr d => some (0x8A, d)
  | .yearWr d => some (0x8C, d)
  | .wpWr d => some (0x8E, d)
  | .tcsWr d => some (0x90, d)
  | .ramBurstWr d => some (0xFE, d)
  | .ramWr a d => some (0b11#2 ++ a ++ 0#1, d)
  | .clkUnassignedWr a d => some (0b10#2 ++ a ++ 0#1, d)
  | .cmdBit7Clear x d => if x.getLsbD 0 then none else some (0#1 ++ x, d)
  | _ => none

/-- The keys of clock registers 0 to 7, which a clock burst write replaces (R62). -/
def burstKeys : List Nat := [0x80, 0x82, 0x84, 0x86, 0x88, 0x8A, 0x8C, 0x8E]

/-- The keys of clock registers 0 to 6, which the timekeeper replaces (R88). -/
def timeKeys : List Nat := [0x80, 0x82, 0x84, 0x86, 0x88, 0x8A, 0x8C]

/-- The peer registers an engine operation may complete a write of: those the peer's command byte names (R95). -/
def peerStores (p : Peer) : List Nat :=
  if p.n < 8 then [] else if p.clockBurst then burstKeys else [regKey p.cmdSpace p.cmdNumber]

/-- The keys of the peer registers an instruction stores to. -/
def storedKeys (i : Instr) (s : State) : List Nat :=
  match i with
  | .wrbyte _ _ => peerStores s.peer
  | .rdbyte => peerStores s.peer
  | .regwr x _ => [(writeCommand x).toNat]
  | .burstwr _ => burstKeys
  | .clkBurstWr _ => burstKeys
  | .clkwrite _ => 0x90 :: burstKeys
  | .set _ => 0x90 :: burstKeys
  | .halt => [0x8E]
  | i =>
    match singleWrite i with
    | some (c, _) => [c.toNat]
    | none => []

/-- Operations executed one after the other, to the first that does not complete (R125, R126). -/
def runSeq : List Instr → State → Answer
  | [], s => .next s
  | i :: is, s =>
    match exec i s with
    | .next t => runSeq is t
    | .fault f => .fault f
    | .refused r => .refused r

/-- The release operand of a `WRBYTE`; no other instruction has one. -/
def relOf : Instr → Bool
  | .wrbyte _ r => r
  | _ => false

/-! ## Reading the trace -/

/-- The lines after a list of events. -/
def padsAfter : List Event → Pads → Pads
  | [], pd => pd
  | e :: es, pd => padsAfter es (e.onPads pd)

/-- The edges of `SCLK` an event makes on the lines as they stand before the `d`-th event (R145). -/
def Event.risesSclk (e : Event) (pd : Pads) (d : Nat) : Bool := e.rises .sclk (!sclkLevel pd d) pd
def Event.fallsSclk (e : Event) (pd : Pads) (_ : Nat) : Bool := e.falls .sclk pd

/-- The number of events of a list, the first the `d`-th, emitted one after the other from `pd`, that a test on event,
lines and index counts. -/
def countAlong (test : Event → Pads → Nat → Bool) : List Event → Pads → Nat → Nat
  | [], _, _ => 0
  | e :: es, pd, d => (if test e pd d then 1 else 0) + countAlong test es (e.onPads pd) (d + 1)

def Event.isSample : Event → Bool
  | .smp _ => true
  | _ => false

/-- The event without its sampled bit: what the block decides by itself (R172). -/
def Event.blind : Event → Event
  | .smp _ => .smp false
  | e => e

/-- The events of a byte read in, by its samples in order (R168). -/
def readByteEvents (b : Byte) : List Event :=
  bitOrder.flatMap fun i => readBitEvents ++ [.smp (b.getLsbD i.toNat)]

/-- The event lists of the transactions (R190 to R196). -/
def regReadEvents (c got : Byte) : List Event :=
  startEvents ++ writeByteEvents c true ++ readByteEvents got ++ stopEvents

def regWriteEvents (c data : Byte) : List Event :=
  startEvents ++ writeByteEvents c false ++ writeByteEvents data false ++ stopEvents

def burstReadEvents (got : Image) : List Event :=
  startEvents ++ writeByteEvents 0xBF true ++ got.toList.flatMap readByteEvents ++ stopEvents

def burstWriteEvents (v : Image) : List Event :=
  startEvents ++ writeByteEvents 0xBE false ++ v.toList.flatMap (fun b => writeByteEvents b false) ++ stopEvents

end Sys2Proof.Machine
end

