-- ==== Sys2Proof/Certificates/Slice0/Obligations.lean ====
section
/-!
DEFINITION. The statements for the provers. Each docstring names the rule or section of spec/ it formalises.

Where a statement gives the next state as `{ s with … }`, every field it does not name is unchanged: that is its frame.
The fields `hist` and `draws` are the model's own (log entries 6 and 14); a statement gives them so that the equation is
exact. `peer` is what the peer has become, which a statement about the block leaves open and a statement about the
reference peer gives. `rspValid` is 1 with the results of an operation (R121), for one step (log entry 16). That the
latches `addr` and `wdata` are written by the operations that carry them, and keep their values over a composite
operation's own sends, is log entry 11.
-/

open Sys2Proof Sys2Proof.Machine

/-! ## Decoding, encoding, the step -/

/-- Words written out from R122, R121, R102, R103 decode to the instructions they stand for. That a frame is a host
command of its own is the model's choice (log entry 2), and so is the reading of a table word, by which a low byte below
16 is a selector and any other a frame (log entry 4). -/
def Obligations.WordsDecodeAsTheTablesSay : Prop :=
  decode (.host ⟨0x5, 0x8E, 0, false, 0, 0, 0, ⟨0, 0, 0⟩⟩) = .ok (.regrd 0x8E) ∧
  decode (.host ⟨0x3, 0, 0x85, true, 0, 0, 0, ⟨0, 0, 0⟩⟩) = .ok (.wrbyte 0x85 true) ∧
  decode (.host ⟨0x8, 0, 0, false, 0x0007060504030201, 0, 0, ⟨0, 0, 0⟩⟩) =
    .ok (.burstwr ⟨0x01, 0x02, 0x03, 0x04, 0x05, 0x06, 0x07, 0x00⟩) ∧
  decode (.host ⟨0xA, 0, 0, false, 0, 0x35060F03171E2D, 0, ⟨0, 0, 0⟩⟩) = .ok (.clkwrite ⟨45, 30, 23, 3, 15, 6, 53⟩) ∧
  decode (.wire [0b10001110, 0]) = .ok (.wpWr 0) ∧ decode (.wire [0b10111111]) = .ok .clkBurstRd ∧
  decode (.wire [0b11000001]) = .ok (.ramRd 0) ∧ decode (.wire [0b10010011]) = .ok (.clkUnassignedRd 9) ∧
  decode (.wire [0b01111110, 1]) = .ok (.cmdBit7Clear 0b1111110 1) ∧
  decodeTableWord 8 0x0D = some .halt ∧ decodeTableWord 8 0x91 = some .tcsRd

/-- Every well-formed instruction is decoded from its encoding, with every operand (R100, R103, R115, R121, R122). -/
def Obligations.DecodeOfEncodeIsTheInstruction : Prop :=
  ∀ i : Instr, i.wf = true → decode (encode i) = .ok i

/-- A frame that decodes at all decodes to a well-formed instruction whose encoding is that frame: no byte of a frame
is dropped or reread (R102, R103). -/
def Obligations.FramesDecodeUnambiguously : Prop :=
  ∀ (f : List Byte) (i : Instr), decode (.wire f) = .ok i → i.wf = true ∧ encode i = .wire f

/-- An idle block whose first pending command decodes to an instruction executes that instruction, with the command
taken from the list and the response of the operation before ended; a command that is no frame of R103 is refused; and
without a command the block waits (R121, R125, R311; the list of pending commands is the model's, log entry 12, and so
is the length of the pulse of `rsp_valid`, log entry 16). -/
def Obligations.IdleStepExecutesTheNextCommand : Prop :=
  ∀ s : State, s.mark = none → s.seq = .idle →
    (∀ c cs i, s.pend = c :: cs → decode c = .ok i → i.wf = true ∧ step s = exec i { s with pend := cs, rspValid := false }) ∧
    (∀ c cs e, s.pend = c :: cs → decode c = .error e → step s = .refused .badFrame) ∧
    (s.pend = [] → step s = .next { s with rspValid := false })

/-- While an operation is in progress and no command is offered a step is one line event (R30, R31), and `rsp_valid` is
0 until the step that ends the operation (R121, log entry 16). A command offered meanwhile has no step: whatever it is,
the step is refused and the mark set, and after `BIND` the reason is X2 if it decodes to an instruction (R284, U13). That
`cmd_valid` is the list `pend`, and that bytes that are no frame are refused by that name, is log entry 12; that
`stepOrMark` sets the mark is log entry 15. -/
def Obligations.BusyStepEmitsOneEvent : Prop :=
  (∀ s t : State, s.seq ≠ .idle → step s = .next t →
    ∃ e, t.ev = s.ev ++ [e] ∧ s.pend = [] ∧ t.pend = [] ∧ t.rspValid = (t.seq == .idle)) ∧
  (∀ s : State, s.mark = none → s.seq ≠ .idle → s.pend ≠ [] →
    ∃ r, step s = .refused r ∧ (stepOrMark s).mark = some r) ∧
  (∀ (s : State) (c : Command) (cs : List Command) (i : Instr), s.mark = none → s.present = true → s.seq ≠ .idle →
    s.pend = c :: cs → decode c = .ok i → step s = .refused .busy)

/-- The two forms of an operation agree (R9, R31): begun and stepped one line event at a time, for as many steps as the
operation has events, with no command offered meanwhile (X2), it ends in the state that executing it gives. -/
def Obligations.SmallStepsComposeToTheOperation : Prop :=
  ∀ (i : Instr) (op : Op) (s t : State), opOf i = some op → s.mark = none → exec i s = .next t →
    Host.Core.run core (eventCount op (relOf i)) { beginOp op (latchOperands i s) with pend := [] } =
      .next { t with pend := [] }

/-- The state after power-up (R36, R310; the values are the spec's decision D16). -/
def Obligations.ResetStateIsPowerUp : Prop :=
  let s := State.reset
  s.present = false ∧ (∀ l, s.pads.get l = ⟨false, false⟩) ∧ ceLevel s.pads = false ∧ s.sess = .closed ∧
    s.seq = .idle ∧ s.busy = false ∧ s.ev = []

/-- A reset of the block in any state, in the middle of an operation too, leaves its registers as after power-up, and a
peer that was in the session of the lines has it closed by the pull-down of `CE` (R311; log entry 17). -/
def Obligations.ResetClosesThePeerSession : Prop :=
  ∀ s : State, { resetBlock s with
      peerKind := .oracle, peer := Peer.quiet, conv := ⟨[], []⟩, pend := [], mark := none, draws := 0 } = State.reset ∧
    (s.peerKind = .reference ∨ s.peerKind = .chip → s.peer.act = ceLevel s.pads → s.peer.act = true ∨ s.peer.drv = false →
      (resetBlock s).peer.act = false ∧ (resetBlock s).peer.drv = false)

/-! ## Invariants -/

/-- The invariant holds after power-up. -/
def Obligations.InvariantHoldsAtReset : Prop := State.reset.inv = true

/-- The invariant, between operations and at every position of the sequencer within one: memory canonical, `sess` as the
lines show it (R25), the clock low between transactions (R161, R170), the lines in a session as the last byte or the last
event left them (R31, R165, R168), the peer in the session exactly while the block is (R83, R84). Every step keeps it,
with any command pending and any peer; and an operation that is accepted stands, before its first event, in a state that
meets it. -/
def Obligations.EveryStepKeepsTheInvariant : Prop :=
  (∀ s t : State, s.inv = true → step s = .next t → t.inv = true) ∧
  (∀ s t : State, s.midInv = true → step s = .next t → t.midInv = true ∨ t.inv = true) ∧
  (∀ (i : Instr) (op : Op) (s t : State), s.inv = true → opOf i = some op → exec i s = .next t →
    (beginOp op (latchOperands i s)).midInv = true)

/-- The mark of a refused run is never cleared, and a marked state has no step (R284, D14); no operation writes it. That
`stepOrMark` sets it, and that a marked run does not go on, is the model's choice (log entry 15). Selector 0xF is refused
by the step of R284 (X10) and by no other precondition; that `step` gives it the hardware's effect is log entry 1. -/
def Obligations.MarkIsNeverCleared : Prop :=
  (∀ (s : State) (r : Refusal), s.mark = some r → step s = .refused .marked ∧ stepOrMark s = s) ∧
  (∀ (s : State) (r : Refusal), s.mark = none → step s = .refused r → (stepOrMark s).mark = some r) ∧
  (∀ s t : State, step s = .next t → t.mark = s.mark) ∧
  (∀ (s : State) (p : HostPort) (cs : List Command), s.mark = none → s.seq = .idle → s.pend = .host p :: cs →
    p.op = 0xF → checkedStep s = .refused .reservedSelector ∧ (stepOrMark s).mark = some .reservedSelector) ∧
  (∀ s : State, s.seq ≠ .idle ∨ (∀ p cs, s.pend = .host p :: cs → p.op ≠ 0xF) → checkedStep s = step s)

/-- What every operation leaves unchanged (R20, R21, R27 to R30): the sequencer, the mark, the pending commands and what
stands outside the block; and the pins, `present`, the time record, `ok`, the linear time, the image buffer, `bytecnt`
and the latches `addr`, `wdata`, `rdata`, each but for the operations that may write it (the latches by log entry 11). -/
def Obligations.RegistersChangeOnlyByTheirOperations : Prop :=
  ∀ (i : Instr) (s t : State), exec i s = .next t →
    t.seq = s.seq ∧ t.mark = s.mark ∧ t.conv = s.conv ∧ t.pend = s.pend ∧ t.peerKind = s.peerKind ∧
    ((∀ p, i ≠ .bind p) → t.pins = s.pins ∧ t.present = s.present) ∧
    (i ≠ .clkread → i ≠ .get → (∀ r, i ≠ .clkwrite r) → (∀ l, i ≠ .set l) → t.trec = s.trec ∧ t.ok = s.ok) ∧
    (i ≠ .get → (∀ l, i ≠ .set l) → t.lin = s.lin) ∧
    (i ≠ .rdbyte → (∀ x, i ≠ .regrd x) → singleRead i = none → t.rdata = s.rdata) ∧
    ((∀ x, i ≠ .regrd x) → (∀ x d, i ≠ .regwr x d) → singleRead i = none → singleWrite i = none →
      t.addr = s.addr) ∧
    ((∀ d r, i ≠ .wrbyte d r) → (∀ x d, i ≠ .regwr x d) → singleWrite i = none → t.wdata = s.wdata) ∧
    (i ≠ .burstrd → i ≠ .clkBurstRd → i ≠ .clkread → i ≠ .get → (∀ v, i ≠ .burstwr v) → (∀ v, i ≠ .clkBurstWr v) →
      (∀ r, i ≠ .clkwrite r) → (∀ l, i ≠ .set l) → t.img = s.img ∧ t.bytecnt = s.bytecnt)

/-- Against the reference peer no operation changes a peer register it does not store to (R92, R95, R97). -/
def Obligations.PeerRegistersChangeOnlyByStores : Prop :=
  ∀ (i : Instr) (s t : State) (k : Nat), s.inv = true → s.peerKind = .reference → exec i s = .next t →
    k ∉ storedKeys i s → t.peer.mem.read k = s.peer.mem.read k

/-- Every operation appends to the trace a number of events fixed by its name and operands (R171, R172, R198). -/
def Obligations.EventCountIsFixedByTheOperation : Prop :=
  ∀ (i : Instr) (s t : State), exec i s = .next t →
    ∃ es, t.ev = s.ev ++ es ∧ es.length = match opOf i with
      | none => 0
      | some op => eventCount op (relOf i)

/-- No choice depends on data received: with any two peers, and any free values, the block emits the same events but
for the sampled bits, and leaves the lines and the session alike (R172; spec/95_test_vectors.md P5). -/
def Obligations.EventsDoNotDependOnThePeer : Prop :=
  ∀ (i : Instr) (s t t' : State) (k : PeerKind) (p : Peer) (n : Nat), exec i s = .next t →
    exec i { s with peerKind := k, peer := p, draws := n } = .next t' →
    t'.ev.map Event.blind = t.ev.map Event.blind ∧ t'.pads = t.pads ∧ t'.sess = t.sess

/-! ## Refusals -/

/-- The preconditions of R284 (the spec's decision D14), in the order of R285: each refuses where it fails and the ones
before it hold. -/
def Obligations.BrokenPreconditionsAreRefused : Prop :=
  (∀ (i : Instr) (s : State), s.present = false → (∀ p, i ≠ .bind p) → i ≠ .present → i ≠ .reservedOp →
    exec i s = .refused .notBound) ∧
  (∀ (i : Instr) (s : State), s.present = true ∨ (∃ p, i = .bind p) ∨ i = .present ∨ i = .reservedOp →
    s.seq ≠ .idle → exec i s = .refused .busy) ∧
  (∀ (p : Pins) (s : State), s.seq = .idle → s.present = true → exec (.bind p) s = .refused .alreadyBound) ∧
  (∀ (p : Pins) (s : State), s.seq = .idle → s.present = false → p.io = p.sclk ∨ p.io = p.ce ∨ p.sclk = p.ce →
    exec (.bind p) s = .refused .pinsNotDistinct) ∧
  (∀ (i : Instr) (op : Op) (s : State), opOf i = some op → op ≠ .stop → op ≠ .wrbyte → op ≠ .rdbyte →
    s.present = true → s.seq = .idle → s.sess = .opened → exec i s = .refused .sessionOpen) ∧
  (∀ (i : Instr) (op : Op) (s : State), opOf i = some op → op = .stop ∨ op = .wrbyte ∨ op = .rdbyte →
    s.present = true → s.seq = .idle → s.sess = .closed → exec i s = .refused .sessionClosed) ∧
  (∀ s : State, s.present = true → s.seq = .idle → s.sess = .opened →
    (s.hist = .released → exec .stop s = .refused .stopAfterRelease) ∧
    (s.hist = .fresh → exec .stop s = .refused .nothingExchanged) ∧
    (∀ d r, s.pads.io.oe = false → exec (.wrbyte d r) s = .refused .lineReleased) ∧
    (∀ d r, s.pads.io.oe = true → s.pads.sclk.out = true → exec (.wrbyte d r) s = .refused .clockHigh) ∧
    (∀ d, s.pads.io.oe = true → s.pads.sclk.out = false → s.hist ≠ .fresh →
      exec (.wrbyte d true) s = .refused .releaseNotFirst) ∧
    (s.pads.io.oe = true → exec .rdbyte s = .refused .lineDriven) ∧
    (s.pads.io.oe = false → s.hist ≠ .reading → s.pads.sclk.out = false → exec .rdbyte s = .refused .clockLow)) ∧
  (∀ (s : State) (r : TRec) (l : Nat), s.ready →
    (trecInRange r = false → exec (.clkwrite r) s = .refused .recordOutOfRange) ∧
    (trecInRange (trOfLin s l) = false → exec (.set l) s = .refused .recordOutOfRange))

/-- Straight after power-up only `PRESENT` and `BIND` run (R311), and the reserved selector, which is accepted whatever
the state (R123, log entry 1). -/
def Obligations.OnlyPresentAndBindRunAfterReset : Prop :=
  (∀ (i : Instr) (t : State), exec i State.reset = .next t → i = .present ∨ i = .reservedOp ∨ ∃ p, i = .bind p) ∧
  (∃ t, exec .present State.reset = .next t ∧ t.rspPresent = false) ∧
  (∀ p : Pins, p.io ≠ p.sclk → p.io ≠ p.ce → p.sclk ≠ p.ce →
    ∃ t, exec (.bind p) State.reset = .next t ∧ t.rspPresent = true ∧ t.pins = p)

/-! ## Line events -/

/-- `DRV` writes one latch and `DIR` one enable; each is emitted whether or not it changes anything (R141, R142). -/
def Obligations.DrvAndDirWriteOneLine : Prop :=
  ∀ (l : Line) (s : State),
    (∀ v, (emit (.drv l v) s).pads.get l = ⟨v, (s.pads.get l).oe⟩ ∧ (emit (.drv l v) s).ev = s.ev ++ [.drv l v] ∧
      ∀ l', l' ≠ l → (emit (.drv l v) s).pads.get l' = s.pads.get l') ∧
    (∀ d, (emit (.dir l d) s).pads.get l = ⟨(s.pads.get l).out, d == .out⟩ ∧
      (emit (.dir l d) s).ev = s.ev ++ [.dir l d] ∧
      ∀ l', l' ≠ l → (emit (.dir l d) s).pads.get l' = s.pads.get l')

/-- `SMP` and `DLY` write no line and no register: the event goes into the trace, and the peer does nothing but, if it
keeps time, step its time (R143, R144). The level read is the one driver's if there is one driver, and a free value if
nobody or both drive (R23; the free level is the spec's decision D24). -/
def Obligations.SampleReadsTheLevel : Prop :=
  (∀ (e : Event) (s : State), (∃ b, e = .smp b) ∨ (∃ t, e = .dly t) → emit e s = { s with
    ev := s.ev ++ [e], draws := s.draws + 1
    peer := if s.peerKind = .chip then s.peer.timeStep s.draws else s.peer }) ∧
  (∀ s : State, s.peerKind = .reference → s.peer.lost = none →
    (s.pads.io.oe = true → s.peer.drv = false → sampleIo s = s.pads.io.out) ∧
    (s.pads.io.oe = false → s.peer.drv = true → sampleIo s = s.peer.dout) ∧
    (s.pads.io.oe = s.peer.drv → sampleIo s = Config.floatLevel .io s.draws)) ∧
  (∀ s : State, s.peerKind = .absent → s.pads.io.oe = false → sampleIo s = Config.floatLevel .io s.draws)

/-- Of an event that leaves `CE` alone a peer in its session sees nothing but the edges of `SCLK`, both forms of a rising
edge and the falling edge of R145, and the level of `IO` at a rising edge (R92, R94, R145). The clock is a driven line, or
its latch is high; no operation releases it (R24). -/
def Obligations.PeerReactsToTheEdgesOfTheClock : Prop :=
  ∀ (e : Event) (s : State), s.peerKind = .reference → s.peer.act = true → s.peer.lost = none → ceLevel s.pads = true →
    (∀ v, e ≠ .drv .ce v) → (∀ a, e ≠ .dir .ce a) → e ≠ .dir .sclk .inp →
    s.pads.sclk.oe = true ∨ s.pads.sclk.out = true →
    (emit e s).peer =
      if e.rises .sclk (!sclkLevel s.pads s.draws) s.pads then s.peer.rise (ioLevel .reference s.pads s.peer s.draws)
      else if e.falls .sclk s.pads then s.peer.fall
      else s.peer

/-! ## The protocol engine -/

/-- `START` (R160; the order of the last two direction changes is the spec's decision D5): its six events, the three
lines driven, `CE` high, `SCLK` and `IO` at their latches, the session open. -/
def Obligations.StartOpensASession : Prop :=
  ∀ s : State, s.ready → s.calm → ∃ p, exec .start s = .next { s with
    sess := .opened, hist := .fresh, rspValid := true, peer := p, draws := s.draws + 6
    pads := ⟨⟨true, true⟩, ⟨s.pads.sclk.out, true⟩, ⟨s.pads.io.out, true⟩⟩
    ev := s.ev ++ [.drv .ce false, .dir .ce .out, .dir .sclk .out, .dir .io .out, .drv .ce true, .dly .tCe] }

/-- `STOP` (R162), after a byte sent without release or a byte read (X5): its two events, `CE` low, the session closed,
and no other line or register changed. -/
def Obligations.StopClosesTheSession : Prop :=
  ∀ s : State, s.present = true → s.seq = .idle → s.sess = .opened → s.hist = .written ∨ s.hist = .reading →
    s.calm → ∃ p, exec .stop s = .next { s with
      sess := .closed, rspValid := true, peer := p, draws := s.draws + 2
      pads := { s.pads with ce := { s.pads.ce with out := false } }
      ev := s.ev ++ [.drv .ce false, .dly .tCe] }

/-- `WRBYTE` (R164, R165), with a peer that goes on whatever it is sent: the events bit by bit, least significant bit
first, the release in place of the last falling edge if `rel = 1`; `sr` and the data latch hold the byte, and `IO` its
last bit. -/
def Obligations.WrbyteSendsAByte : Prop :=
  ∀ (d : Byte) (rel : Bool) (s : State), s.present = true → s.seq = .idle → s.sess = .opened →
    s.pads.io.oe = true → s.pads.sclk.out = false → (rel = true → s.hist = .fresh) → s.peerKind ≠ .reference →
    ∃ p, exec (.wrbyte d rel) s = .next { s with
      wdata := d, sr := d, rel := rel, bitcnt := 7, hist := if rel then .released else .written
      rspValid := true, peer := p, draws := s.draws + (if rel then 47 else 48)
      pads := ⟨s.pads.ce, ⟨rel, s.pads.sclk.oe⟩, ⟨d.getLsbD 7, !rel⟩⟩
      ev := s.ev ++ (List.range 8).flatMap fun i =>
        [.drv .io (d.getLsbD i), .dly .tHold, .drv .sclk true, .dly .tHold] ++
          if rel = true ∧ i = 7 then [.dir .io .inp] else [.drv .sclk false, .dly .tHold] }

/-- `RDBYTE` (R168), with a peer that goes on: five events a bit, the byte is the eight samples, least significant
first, in `sr` and in `rdata`; the clock ends low. -/
def Obligations.RdbyteReadsAByte : Prop :=
  ∀ s : State, s.present = true → s.seq = .idle → s.sess = .opened → s.pads.io.oe = false →
    s.hist = .reading ∨ s.pads.sclk.out = true → s.peerKind ≠ .reference →
    ∃ (b : Byte) (p : Peer), exec .rdbyte s = .next { s with
      sr := b, rdata := b, bitcnt := 7, hist := .reading, rspValid := true, peer := p, draws := s.draws + 40
      pads := { s.pads with sclk := { s.pads.sclk with out := false } }
      ev := s.ev ++ (List.range 8).flatMap fun i =>
        [.drv .sclk true, .dly .tHold, .drv .sclk false, .dly .tHold, .smp (b.getLsbD i)] }

/-- The reference peer byte by byte (R92 to R95; it is the spec's decision D21). In a session in which it has refused
nothing, `WRBYTE` of a register's or the clock burst's command byte as the first byte completes and the peer holds that
byte; `WRBYTE` of a data byte within a write frame completes and the peer's buffer holds it in its place; `RDBYTE` within
a read frame completes and gives the byte of the peer's buffer. Commands and reads change no register of the peer. -/
def Obligations.ReferencePeerExchangesWholeBytes : Prop :=
  ∀ s : State, s.present = true → s.seq = .idle → s.sess = .opened → s.inv = true → s.peerKind = .reference →
    s.peer.lost = none →
    (∀ (d : Byte) (rel : Bool), s.hist = .fresh → s.peer.n = 0 → s.peer.f = 0 → s.peer.drv = false →
      isRegKey (writeCommand d).toNat = true ∨ writeCommand d = 0xBE →
      ∃ t, exec (.wrbyte d rel) s = .next t ∧ t.peer.cmd = d ∧ t.peer.n = 8 ∧ t.peer.mem = s.peer.mem) ∧
    (∀ (d : Byte) (j : Nat), s.hist = .written → s.peer.drv = false → s.peer.cmdRead = false → s.peer.n = 8 + 8 * j →
      j < s.peer.len →
      ∃ t, exec (.wrbyte d false) s = .next t ∧ t.peer.n = s.peer.n + 8 ∧ t.peer.buf = s.peer.buf.set j d) ∧
    (∀ j : Nat, s.hist = .released ∨ s.hist = .reading → s.peer.cmdRead = true → 8 ≤ s.peer.n → s.peer.f = 8 * j →
      j < s.peer.len →
      ∃ t, exec .rdbyte s = .next t ∧ t.rdata = s.peer.buf.get j ∧ t.peer.f = s.peer.f + 8 ∧ t.peer.mem = s.peer.mem)

/-- The engine sequence of `REGRD` (R126), against the reference peer: `START`, the command byte of any register with
`rel = 1`, `RDBYTE`, `STOP` completes and reads that register, whose peer's registers do not change (R97; the reference
peer is the spec's decision D21). -/
def Obligations.EngineReadsARegisterOfTheReferencePeer : Prop :=
  ∀ (x : Byte) (s : State), s.ready → s.inv = true → s.peerKind = .reference → s.peer.lost = none →
    isRegKey (writeCommand x).toNat = true →
    ∃ t, runSeq [.start, .wrbyte (readCommand x) true, .rdbyte, .stop] s = .next t ∧
      t.rdata = s.peer.mem.read (writeCommand x).toNat ∧ t.peer.mem = s.peer.mem ∧ t.sess = .closed

/-- `REGRD` is `START; WRBYTE (x | 1), rel=1; RDBYTE; STOP`, `REGWR` is `START; WRBYTE (x & 0xFE), rel=0; WRBYTE d, rel=0;
STOP`, `CLKWRITE` is two `REGWR` and a `BURSTWR`, and `HALT` is a `REGWR` (R126, R190, R192, R252, R254). The operand
latches, which the host loads with its own operation, are the composite operation's (log entry 11). -/
def Obligations.CompositeOperationsAreTheirExpansions : Prop :=
  ∀ (x d : Byte) (r : TRec) (s t : State),
    (runSeq [.start, .wrbyte (readCommand x) true, .rdbyte, .stop] s = .next t →
      exec (.regrd x) s = .next { t with addr := x, wdata := s.wdata }) ∧
    (runSeq [.start, .wrbyte (writeCommand x) false, .wrbyte d false, .stop] s = .next t →
      exec (.regwr x d) s = .next { t with addr := x }) ∧
    (trecInRange r = true → runSeq [.regwr 0x8E 0, .regwr 0x90 0, .burstwr (encodeImage r)] s = .next t →
      exec (.clkwrite r) s = .next { t with trec := r, ok := true, addr := s.addr, wdata := s.wdata }) ∧
    (runSeq [.regwr 0x8E 0] s = .next t → exec .halt s = .next { t with addr := s.addr, wdata := s.wdata })

/-! ## Transactions and clock access

With any peer: of the reference peer it is asked that it has refused nothing and that the command byte is one it knows
(`State.calm`, `State.serves`); what it refuses stands in a statement of its own. -/

/-- `REGRD` (R190, R101): 95 events; the command byte is the operand with bit 0 set and no other bit altered. -/
def Obligations.RegrdReadsOneRegister : Prop :=
  ∀ (x : Byte) (s : State), s.ready → s.serves x →
    ∃ (b : Byte) (p : Peer), (regReadEvents (x ||| 1) b).length = 95 ∧ exec (.regrd x) s = .next { s with
      addr := x, sr := b, rdata := b, rel := true, bitcnt := 7, hist := .reading, rspValid := true, peer := p
      draws := s.draws + 95, pads := ⟨⟨false, true⟩, ⟨false, true⟩, ⟨x.getLsbD 7, false⟩⟩
      ev := s.ev ++ regReadEvents (x ||| 1) b }

/-- `REGWR` (R192, R101): 104 events; the command byte is the operand with bit 0 clear and no other bit altered. -/
def Obligations.RegwrWritesOneRegister : Prop :=
  ∀ (x d : Byte) (s : State), s.ready → s.serves x →
    ∃ p : Peer, (regWriteEvents (x &&& 0xFE) d).length = 104 ∧ exec (.regwr x d) s = .next { s with
      addr := x, wdata := d, sr := d, rel := false, bitcnt := 7, hist := .written, rspValid := true, peer := p
      draws := s.draws + 104, pads := ⟨⟨false, true⟩, ⟨false, true⟩, ⟨d.getLsbD 7, true⟩⟩
      ev := s.ev ++ regWriteEvents (x &&& 0xFE) d }

/-- `BURSTRD` (R194): 375 events, all eight bytes of the image overwritten by the bytes read, in order; and the wire row
of 0xBF, which stands for the same frame (log entry 2). -/
def Obligations.BurstrdReadsTheImage : Prop :=
  ∀ (i : Instr) (s : State), i = .burstrd ∨ i = .clkBurstRd → s.ready → s.calm →
    ∃ (v : Image) (p : Peer), (burstReadEvents v).length = 375 ∧ exec i s = .next { s with
      img := v, sr := v.b7, rel := true, bitcnt := 7, bytecnt := 7, hist := .reading, rspValid := true, peer := p
      draws := s.draws + 375, pads := ⟨⟨false, true⟩, ⟨false, true⟩, ⟨true, false⟩⟩
      ev := s.ev ++ burstReadEvents v }

/-- `BURSTWR` (R196): 440 events, nine bytes out; and the wire row of 0xBE, which stands for the same frame (log entry
2). That the operand is in the image buffer afterwards is log entry 11. -/
def Obligations.BurstwrWritesTheImage : Prop :=
  ∀ (i : Instr) (v : Image) (s : State), i = .burstwr v ∨ i = .clkBurstWr v → s.ready → s.calm →
    ∃ p : Peer, (burstWriteEvents v).length = 440 ∧ exec i s = .next { s with
      img := v, sr := v.b7, rel := false, bitcnt := 7, bytecnt := 7, hist := .written, rspValid := true, peer := p
      draws := s.draws + 440, pads := ⟨⟨false, true⟩, ⟨false, true⟩, ⟨v.b7.getLsbD 7, true⟩⟩
      ev := s.ev ++ burstWriteEvents v }

/-- `CLKREAD` (R250): one burst read, the time record is the decoded image, success is reported. `GET` (R256) is the
same and converts the record by the external function. -/
def Obligations.ClkreadAndGetDecodeTheImage : Prop :=
  ∀ s : State, s.ready → s.calm → ∃ (v : Image) (p : Peer),
    exec .clkread s = .next { s with
      trec := decodeImage v, ok := true
      img := v, sr := v.b7, rel := true, bitcnt := 7, bytecnt := 7, hist := .reading, rspValid := true, peer := p
      draws := s.draws + 375, pads := ⟨⟨false, true⟩, ⟨false, true⟩, ⟨true, false⟩⟩
      ev := s.ev ++ burstReadEvents v } ∧
    exec .get s = .next { s with
      trec := decodeImage v, ok := true, lin := linOfTr s (decodeImage v)
      img := v, sr := v.b7, rel := true, bitcnt := 7, bytecnt := 7, hist := .reading, rspValid := true, peer := p
      draws := s.draws + 375, pads := ⟨⟨false, true⟩, ⟨false, true⟩, ⟨true, false⟩⟩
      ev := s.ev ++ burstReadEvents v }

/-- `CLKWRITE` (R252, R253): three sessions, `8E 00`, `90 00`, then the burst of the encoded record; success is
reported. That `trec` holds the operand, and that `addr` and `wdata` keep their values although the first two sessions
are writes of a register, is log entry 11. -/
def Obligations.ClkwriteForcesTwoRegistersThenBursts : Prop :=
  ∀ (r : TRec) (s : State), s.ready → s.calm → trecInRange r = true → ∃ p : Peer,
    exec (.clkwrite r) s = .next { s with
      trec := r, ok := true, img := encodeImage r, sr := 0, rel := false, bitcnt := 7, bytecnt := 7, hist := .written
      rspValid := true, peer := p, draws := s.draws + 648, pads := ⟨⟨false, true⟩, ⟨false, true⟩, ⟨false, true⟩⟩
      ev := s.ev ++ regWriteEvents 0x8E 0 ++ regWriteEvents 0x90 0 ++ burstWriteEvents (encodeImage r) }

/-- `SET` (R257; the conversion is an uninterpreted function, D22): the linear time is converted and written as by
`CLKWRITE`. That `lin` and `trec` hold the operand and its conversion, and that `addr` and `wdata` keep their values, is
log entry 11. -/
def Obligations.SetWritesTheConvertedTime : Prop :=
  ∀ (l : Nat) (s : State), s.ready → s.calm → trecInRange (trOfLin s l) = true → ∃ p : Peer,
    exec (.set l) s = .next { s with
      lin := l, trec := trOfLin s l, ok := true, img := encodeImage (trOfLin s l), sr := 0, rel := false, bitcnt := 7
      bytecnt := 7, hist := .written, rspValid := true, peer := p, draws := s.draws + 648
      pads := ⟨⟨false, true⟩, ⟨false, true⟩, ⟨false, true⟩⟩
      ev := s.ev ++ regWriteEvents 0x8E 0 ++ regWriteEvents 0x90 0 ++ burstWriteEvents (encodeImage (trOfLin s l)) }

/-- `HALT` (R254): the one frame `8E 00`, and nothing else. That `addr` and `wdata` keep their values although the frame
is that of `REGWR 0x8E, 0x00` is log entry 11. -/
def Obligations.HaltOnlyClearsWriteProtect : Prop :=
  ∀ s : State, s.ready → s.calm → ∃ p : Peer, exec .halt s = .next { s with
    sr := 0, rel := false, bitcnt := 7, hist := .written, rspValid := true, peer := p, draws := s.draws + 104
    pads := ⟨⟨false, true⟩, ⟨false, true⟩, ⟨false, true⟩⟩, ev := s.ev ++ regWriteEvents 0x8E 0 }

/-- `PRESENT` (R255): no line event, in any state in which no operation is in progress; the result is `present`. -/
def Obligations.PresentReportsConstruction : Prop :=
  ∀ s : State, s.seq = .idle →
    exec .present s = .next { s with rspValid := true } ∧ State.rspPresent { s with rspValid := true } = s.present

/-- `BIND` (R258; that it is given once and pairwise distinct identifiers are the spec's decisions D17, D18): the pins
and `present`, and no line event. -/
def Obligations.BindSetsPinsAndPresent : Prop :=
  ∀ (p : Pins) (s : State), s.seq = .idle → s.present = false → p.io ≠ p.sclk → p.io ≠ p.ce → p.sclk ≠ p.ce →
    exec (.bind p) s = .next { s with pins := p, present := true, rspValid := true }

/-- Selector 0xF (R123; the spec's decision D3, log entry 1): accepted by an idle block, no event, no change. -/
def Obligations.ReservedSelectorChangesNothing : Prop := ∀ s : State, s.seq = .idle → exec .reservedOp s = .next s

/-- The rows of R102 whose frame is one byte in, SEC_RD, MIN_RD, HOUR_RD, DATE_RD, MONTH_RD, WDAY_RD, YEAR_RD, WP_RD,
TCS_RD, RAM_BURST_RD, RAM_RD, CLK_UNASSIGNED_RD and CMD_BIT7_CLEAR with bit 0 set: the block sends the command byte
whatever it is and reads one byte (R63, R64, R101, R124). That a row stands for the whole frame of `REGRD` and latches its
command byte in `addr` is the model's reading (log entry 2). -/
def Obligations.ReadRowsRunTheirFrame : Prop :=
  ∀ (i : Instr) (c : Byte) (s : State), singleRead i = some c → s.ready → s.serves c →
    ∃ (b : Byte) (p : Peer), exec i s = .next { s with
      addr := c, sr := b, rdata := b, rel := true, bitcnt := 7, hist := .reading, rspValid := true, peer := p
      draws := s.draws + 95, pads := ⟨⟨false, true⟩, ⟨false, true⟩, ⟨c.getLsbD 7, false⟩⟩
      ev := s.ev ++ regReadEvents c b }

/-- The rows of R102 whose frame is one byte out, SEC_WR, MIN_WR, HOUR_WR, DATE_WR, MONTH_WR, WDAY_WR, YEAR_WR, WP_WR,
TCS_WR, RAM_BURST_WR, RAM_WR, CLK_UNASSIGNED_WR and CMD_BIT7_CLEAR with bit 0 clear: the block sends the command byte
whatever it is and then the data byte (R63, R64, R101, R124). That a row stands for the whole frame of `REGWR` and
latches its two bytes in `addr` and `wdata` is the model's reading (log entry 2). -/
def Obligations.WriteRowsRunTheirFrame : Prop :=
  ∀ (i : Instr) (c d : Byte) (s : State), singleWrite i = some (c, d) → s.ready → s.serves c →
    ∃ p : Peer, exec i s = .next { s with
      addr := c, wdata := d, sr := d, rel := false, bitcnt := 7, hist := .written, rspValid := true, peer := p
      draws := s.draws + 104, pads := ⟨⟨false, true⟩, ⟨false, true⟩, ⟨d.getLsbD 7, true⟩⟩
      ev := s.ev ++ regWriteEvents c d }

/-- A wire row is the host operation that carries its command byte, with any peer. This is the model's reading of the
rows of R102, that a row stands for the frame of R103 that such an operation sends (log entry 2). -/
def Obligations.WireRowsAreHostOperations : Prop :=
  (∀ (i : Instr) (c : Byte) (s : State), singleRead i = some c → exec i s = exec (.regrd c) s) ∧
  (∀ (i : Instr) (c d : Byte) (s : State), singleWrite i = some (c, d) → exec i s = exec (.regwr c d) s) ∧
  (∀ s : State, exec .clkBurstRd s = exec .burstrd s) ∧
  (∀ (v : Image) (s : State), exec (.clkBurstWr v) s = exec (.burstwr v) s)

/-! ## The peer -/

/-- Byte-level summary, reads (R97): `REGRD` of a register returns it, `BURSTRD` returns registers 0 to 7, `CLKREAD` and
`GET` decode them and `GET` converts the record (R250, R256), 0xBF given to `REGRD` returns the first byte of the snapshot
(U6), and nothing in the peer's registers changes. `summaryRegRead` and `summaryBurstRead` are R97's own functions of the
registers. -/
def Obligations.ReferencePeerReads : Prop :=
  ∀ s : State, s.ready → s.inv = true → s.peerKind = .reference → s.peer.lost = none →
    (∀ x : Byte, isRegKey (writeCommand x).toNat = true →
      ∃ t, exec (.regrd x) s = .next t ∧ t.rdata = s.peer.mem.read (writeCommand x).toNat ∧
        t.rdata = summaryRegRead x s.peer.mem ∧
        t.ev = s.ev ++ regReadEvents (readCommand x) t.rdata ∧ t.peer.mem = s.peer.mem) ∧
    (∀ x : Byte, writeCommand x = 0xBE →
      ∃ t, exec (.regrd x) s = .next t ∧ t.rdata = s.peer.mem.read 0x80 ∧ t.peer.mem = s.peer.mem) ∧
    (∃ t, exec .burstrd s = .next t ∧ t.img = s.peer.mem.clockImage ∧ t.img = summaryBurstRead s.peer.mem ∧
      t.ev = s.ev ++ burstReadEvents t.img ∧ t.peer.mem = s.peer.mem) ∧
    (∃ t u, exec .clkread s = .next t ∧ exec .get s = .next u ∧ t.img = s.peer.mem.clockImage ∧
      t.trec = decodeImage s.peer.mem.clockImage ∧ t.ok = true ∧ t.peer.mem = s.peer.mem ∧
      u = { t with lin := linOfTr s (decodeImage s.peer.mem.clockImage) })

/-- Byte-level summary, writes (R97, R85, R95): `REGWR` takes effect in the write-protect register always and in any
other register while write protection is off; `BURSTWR` replaces registers 0 to 7 together while it is off; else nothing
changes. 0xBE given to `REGWR` is dropped when `CE` falls (R91, U6). `summaryRegWrite`, the commit of R95, and
`summaryBurstWrite` are R97's own functions of the registers. -/
def Obligations.ReferencePeerWrites : Prop :=
  ∀ s : State, s.ready → s.inv = true → s.peerKind = .reference → s.peer.lost = none →
    (∀ x d : Byte, isRegKey (writeCommand x).toNat = true →
      ∃ t, exec (.regwr x d) s = .next t ∧ t.ev = s.ev ++ regWriteEvents (writeCommand x) d ∧
        t.peer.mem = summaryRegWrite x d s.peer.mem ∧ ∀ k, t.peer.mem.read k =
          if k = (writeCommand x).toNat ∧ (k = 0x8E ∨ (s.peer.mem.read 0x8E).getLsbD 7 = false) then d
          else s.peer.mem.read k) ∧
    (∀ x d : Byte, writeCommand x = 0xBE → ∃ t, exec (.regwr x d) s = .next t ∧ t.peer.mem = s.peer.mem) ∧
    (∀ v : Image, ∃ t, exec (.burstwr v) s = .next t ∧ t.ev = s.ev ++ burstWriteEvents v ∧
      t.peer.mem = summaryBurstWrite v s.peer.mem ∧
      ((s.peer.mem.read 0x8E).getLsbD 7 = false → t.peer.mem.clockImage = v) ∧
      ((s.peer.mem.read 0x8E).getLsbD 7 = true → t.peer.mem.clockImage = s.peer.mem.clockImage) ∧
      ∀ k, k ∉ burstKeys → t.peer.mem.read k = s.peer.mem.read k)

/-- Where the spec is silent on the peer, the reference peer refuses (R64, R93): any command byte but that of a register
or of the clock burst. -/
def Obligations.ReferencePeerRefusesUnassignedCommands : Prop :=
  ∀ (x : Byte) (s : State), s.ready → s.inv = true → s.peerKind = .reference → s.peer.lost = none →
    isRegKey (writeCommand x).toNat = false → writeCommand x ≠ 0xBE →
    ∃ why, (∀ d, exec (.regwr x d) s = .refused (.peerRefuses why)) ∧ exec (.regrd x) s = .refused (.peerRefuses why) ∧
      (why = .commandBit7Clear ∨ why = .ramBurst ∨ why = .clockUnassigned)

/-- The burst round trip (R260): against the reference peer, whatever it held and whether or not it was
write-protected, a record in range that `CLKWRITE` or `SET` writes is read back by `CLKREAD` or `GET` field for field. In
between registers 0 to 7 are the encoded record, write protection with them off, the trickle-charge register is 0, and the
RAM is what it was (R252, R253, R257). -/
def Obligations.WrittenTimeIsReadBack : Prop :=
  ∀ (i j : Instr) (r : TRec) (s : State), s.ready → s.inv = true → s.peerKind = .reference → s.peer.lost = none →
    i = .clkwrite r ∨ (∃ l, i = .set l ∧ trOfLin s l = r) → j = .clkread ∨ j = .get → trecInRange r = true →
    ∃ t u, exec i s = .next t ∧ exec j t = .next u ∧ t.trec = r ∧ t.ok = true ∧ u.trec = r ∧ u.ok = true ∧
      (j = .get → u.lin = linOfTr s r) ∧ t.peer.mem.clockImage = encodeImage r ∧ t.peer.mem.read 0x90 = 0 ∧
      (t.peer.mem.read 0x8E).getLsbD 7 = false ∧
      (∀ k, k ∉ 0x90 :: burstKeys → t.peer.mem.read k = s.peer.mem.read k) ∧ u.peer.mem = t.peer.mem

/-- `HALT` against the reference peer (R254): the write-protect register is 0 and every other register, the seconds
register with its clock-halt flag among them, is what it was. -/
def Obligations.HaltLeavesTheClockHaltFlag : Prop :=
  ∀ s : State, s.ready → s.inv = true → s.peerKind = .reference → s.peer.lost = none →
    ∃ t, exec .halt s = .next t ∧ ∀ k, t.peer.mem.read k = if k = 0x8E then 0 else s.peer.mem.read k

/-- With no peer, a byte read is eight free levels (R88, R251; the free level is the spec's decision D24). -/
def Obligations.AbsentPeerReadsFloat : Prop :=
  ∀ (x : Byte) (s t : State), s.peerKind = .absent → exec (.regrd x) s = .next t →
    ∀ i, i < 8 → t.rdata.getLsbD i = Config.floatLevel .io (s.draws + 57 + 5 * i)

/-- The timekeeper (R88): it stands still while `CH = 1`; and where it steps, the time registers are a valid time with
`CH = 0` that may follow the one before, and no other register changes. What a valid time is and which may follow is the
model's choice (log entry 9). -/
def Obligations.TimekeeperStepsToALaterValidTime : Prop :=
  ∀ (d : Nat) (p : Peer), p.mem.wf = true →
    (clockHalt p.mem.clockImage = true → p.timeStep d = p) ∧
    (∀ k, k ∉ timeKeys → (p.timeStep d).mem.read k = p.mem.read k) ∧
    ((p.timeStep d).mem = p.mem ∨
      validTime (p.timeStep d).mem.clockImage = true ∧ clockHalt (p.timeStep d).mem.clockImage = false ∧
        laterTime p.mem.clockImage (p.timeStep d).mem.clockImage = true)

/-- A halted chip keeps its time: against the peer with a timekeeper, while `CH = 1`, `CLKREAD` returns the registers as
they stand and leaves every register as it was (R71, R86, R88). That such a peer is the reference machine with a
timekeeper is the model's choice (log entry 9). -/
def Obligations.HaltedChipReadsAsItStands : Prop :=
  ∀ s : State, s.ready → s.inv = true → s.peerKind = .chip → clockHalt s.peer.mem.clockImage = true →
    ∃ t, exec .clkread s = .next t ∧ t.trec = decodeImage s.peer.mem.clockImage ∧ t.peer.mem = s.peer.mem

/-- The peer with a timekeeper never loses more than the time registers to a read: the write-protect register, the
trickle-charge register and the RAM are what they were after any read row, register read or burst read, and after
`START`, and `RDBYTE` and `STOP` in a frame whose command is a read (R88). R71 leaves open whether a read is idempotent at
the peer: that it is, for unassigned command bytes too, is the model's choice (log entry 9). -/
def Obligations.ReadsOfAChipKeepItsOtherRegisters : Prop :=
  ∀ (i : Instr) (s t : State) (k : Nat), s.inv = true → s.peerKind = .chip →
    (singleRead i).isSome ∨ (∃ x, i = .regrd x) ∨ i ∈ [.start, .burstrd, .clkBurstRd, .clkread, .get] ∨
      i ∈ [.rdbyte, .stop] ∧ s.peer.cmdRead = true ∧ 8 ≤ s.peer.n →
    exec i s = .next t → k ∉ timeKeys → t.peer.mem.read k = s.peer.mem.read k

/-- Write protection at a chip (R85): while it is on, no operation of one session, nor any operation of the engine, with
any bytes and however the frame was built, changes a register but the enable/write-protect register; the time registers
are the timekeeper's, and stand too while `CH = 1`. That a read, of any command byte, changes no register is left open by
R71 and is the model's choice: the chip is the reference machine otherwise, its reads idempotent (log entry 9). -/
def Obligations.ProtectedChipKeepsItsRegisters : Prop :=
  ∀ (i : Instr) (s t : State) (k : Nat), s.inv = true → s.peerKind = .chip →
    (s.peer.mem.read 0x8E).getLsbD 7 = true → (∀ r, i ≠ .clkwrite r) → (∀ l, i ≠ .set l) → exec i s = .next t →
    k ≠ 0x8E → k ∉ timeKeys ∨ clockHalt s.peer.mem.clockImage = true → t.peer.mem.read k = s.peer.mem.read k

/-- Writes of a register at a chip (R85): `REGWR`, and with it every write row of a register (log entry 2), takes effect
in the write-protect register always and in any other register while write protection is off, and changes no register
else; and `HALT` is the write of 0 to the write-protect register (R254). The time registers are the timekeeper's; of them
it is said while `CH = 1` and stays so. That the chip commits as the reference peer does is the model's choice (log entry
9). -/
def Obligations.ChipRegisterWrites : Prop :=
  ∀ (i : Instr) (x d : Byte) (s : State), s.ready → s.inv = true → s.peerKind = .chip →
    isRegKey (writeCommand x).toNat = true →
    i = .regwr x d ∨ singleWrite i = some (x, d) ∨ i = .halt ∧ x = 0x8E ∧ d = 0 →
    ∃ t, exec i s = .next t ∧
      ∀ k, k ∉ timeKeys ∨
          clockHalt s.peer.mem.clockImage = true ∧ ((writeCommand x).toNat = 0x80 → d.getLsbD 7 = true) →
        t.peer.mem.read k =
          if k = (writeCommand x).toNat ∧ (k = 0x8E ∨ (s.peer.mem.read 0x8E).getLsbD 7 = false) then d
          else s.peer.mem.read k

/-- Clock burst writes at a chip (R85, R87): while write protection is off registers 0 to 7 are replaced together, so
that afterwards they are the image, or, if the image lets the clock run, a valid time the timekeeper has gone on to; while
it is on they are not written; and no other register changes. `CLKWRITE` and `SET` turn it off first and set the
trickle-charge register to 0 (R252, R257). The instant of the commit and what a valid time is are the model's choice (log
entry 9), and that the row of 0xBE is the frame of `BURSTWR` is log entry 2. -/
def Obligations.ChipBurstWrites : Prop :=
  ∀ s : State, s.ready → s.inv = true → s.peerKind = .chip →
    (∀ (i : Instr) (v : Image), i = .burstwr v ∨ i = .clkBurstWr v →
      ∃ t, exec i s = .next t ∧ (∀ k, k ∉ burstKeys → t.peer.mem.read k = s.peer.mem.read k) ∧
        ((s.peer.mem.read 0x8E).getLsbD 7 = true → t.peer.mem.read 0x8E = s.peer.mem.read 0x8E ∧
          (clockHalt s.peer.mem.clockImage = true → t.peer.mem.clockImage = s.peer.mem.clockImage)) ∧
        ((s.peer.mem.read 0x8E).getLsbD 7 = false → t.peer.mem.read 0x8E = v.b7 ∧
          (t.peer.mem.clockImage = v ∨ clockHalt v = false ∧ validTime t.peer.mem.clockImage = true ∧
            clockHalt t.peer.mem.clockImage = false))) ∧
    (∀ (i : Instr) (r : TRec), i = .clkwrite r ∨ (∃ l, i = .set l ∧ trOfLin s l = r) → trecInRange r = true →
      ∃ t, exec i s = .next t ∧ t.peer.mem.read 0x8E = 0 ∧ t.peer.mem.read 0x90 = 0 ∧
        (t.peer.mem.clockImage = encodeImage r ∨
          validTime t.peer.mem.clockImage = true ∧ clockHalt t.peer.mem.clockImage = false) ∧
        ∀ k, k ∉ 0x90 :: burstKeys → t.peer.mem.read k = s.peer.mem.read k)

/-! ## Counts and framing -/

/-- The counts of the table of R198, and of `CLKREAD`: rising edges, falling edges, samples, `DLY(T_HOLD)`,
`DLY(T_CE)`. -/
def Obligations.TransactionsHaveTheCountsOfTheTable : Prop :=
  ∀ (i : Instr) (s t : State) (es : List Event) (rises falls samples holds : Nat), s.inv = true →
    (i, rises, falls, samples, holds) ∈ [(.burstrd, 71, 71, 64, 151), (.clkread, 71, 71, 64, 151)] ∨
      (∃ x, (i, rises, falls, samples, holds) = (.regrd x, 15, 15, 8, 39)) ∨
      (∃ x d, (i, rises, falls, samples, holds) = (.regwr x d, 16, 16, 0, 48)) ∨
      (∃ v, (i, rises, falls, samples, holds) = (.burstwr v, 72, 72, 0, 216)) →
    exec i s = .next t → t.ev = s.ev ++ es →
    countAlong Event.risesSclk es s.pads s.draws = rises ∧ countAlong Event.fallsSclk es s.pads s.draws = falls ∧
      es.countP Event.isSample = samples ∧ es.count (.dly .tHold) = holds ∧ es.count (.dly .tCe) = 2

/-- Session framing (R170; DOC0 §8): a transaction raises `CE` once, `CLKWRITE` and `SET` three times, and each rise is
followed by its fall before the next. -/
def Obligations.SessionsDoNotOverlap : Prop :=
  ∀ (i : Instr) (op : Op) (s t : State) (es : List Event), opOf i = some op → op ≠ .start → op ≠ .stop →
    op ≠ .wrbyte → op ≠ .rdbyte → exec i s = .next t → t.ev = s.ev ++ es →
    es.filter (fun e => e == .drv .ce true || e == .drv .ce false) =
      (List.replicate (if op = .clkwrite ∨ op = .set then 3 else 1)
        [Event.drv .ce false, .drv .ce true, .drv .ce false]).flatten

/-! ## The codec -/

/-- R211, R212: tens and units of any number give it back, and `bcd_dec` is not injective. -/
def Obligations.BcdDigitsRoundTrip : Prop :=
  (∀ v : Nat, bcdDec (bcdTens v) (bcdUnits v) = v ∧ bcdUnits v ≤ 9) ∧ bcdDec 0 10 = bcdDec 1 0

/-- `DECODE`, field by field and for every image (R220 to R224, R227; weekday, date and month by R225, which the spec
marks as its decision D29). -/
def Obligations.DecodeFollowsTheFieldRules : Prop :=
  ∀ v : Image,
    (decodeImage v).sec.toNat = (v.b0.extractLsb' 4 3).toNat * 10 + (v.b0.extractLsb' 0 4).toNat ∧
    (decodeImage v).min.toNat = (v.b1.extractLsb' 4 3).toNat * 10 + (v.b1.extractLsb' 0 4).toNat ∧
    (v.b2.getLsbD 7 = false →
      (decodeImage v).hour.toNat = (v.b2.extractLsb' 4 2).toNat * 10 + (v.b2.extractLsb' 0 4).toNat) ∧
    (v.b2.getLsbD 7 = true →
      (decodeImage v).hour.toNat = (v.b2.extractLsb' 4 1).toNat * 10 + (v.b2.extractLsb' 0 4).toNat +
        if v.b2.getLsbD 5 then 12 else 0) ∧
    (decodeImage v).wday.toNat = (v.b5.extractLsb' 0 3).toNat ∧
    (decodeImage v).day.toNat = (v.b3.extractLsb' 4 2).toNat * 10 + (v.b3.extractLsb' 0 4).toNat ∧
    (decodeImage v).month.toNat = (v.b4.extractLsb' 4 1).toNat * 10 + (v.b4.extractLsb' 0 4).toNat ∧
    (decodeImage v).year.toNat = (v.b6.extractLsb' 4 4).toNat * 10 + (v.b6.extractLsb' 0 4).toNat + 30

/-- `DECODE` ignores the clock-halt flag, the whole of byte 7 and every unused bit (R226, R112). -/
def Obligations.DecodeIgnoresFlagsAndUnusedBits : Prop :=
  ∀ (v : Image) (b : Byte), decodeImage ⟨v.b0 &&& 0x7F, v.b1 &&& 0x7F, v.b2 &&& 0xBF, v.b3 &&& 0x3F, v.b4 &&& 0x1F,
    v.b5 &&& 0x07, v.b6, b⟩ = decodeImage v

/-- `ENCODE` of a record in range (R230 to R233): every byte is the packed BCD of its value, the layout is the 24-hour
one, and `CH`, `WP` and the unused bits are 0. -/
def Obligations.EncodePacksBcd : Prop :=
  ∀ r : TRec, trecInRange r = true →
    (encodeImage r).b0.toNat = r.sec.toNat / 10 * 16 + r.sec.toNat % 10 ∧
    (encodeImage r).b1.toNat = r.min.toNat / 10 * 16 + r.min.toNat % 10 ∧
    (encodeImage r).b2.toNat = r.hour.toNat / 10 * 16 + r.hour.toNat % 10 ∧
    (encodeImage r).b3.toNat = r.day.toNat / 10 * 16 + r.day.toNat % 10 ∧
    (encodeImage r).b4.toNat = r.month.toNat / 10 * 16 + r.month.toNat % 10 ∧
    (encodeImage r).b5 = r.wday ∧
    (encodeImage r).b6.toNat = (r.year.toNat - 30) / 10 * 16 + (r.year.toNat - 30) % 10 ∧
    (encodeImage r).b7 = 0 ∧ (encodeImage r).b2.getLsbD 7 = false ∧ (encodeImage r).b0.getLsbD 7 = false

/-- `DECODE(ENCODE(t)) = t` for every record in range (R235). -/
def Obligations.DecodeOfEncodeIsTheRecord : Prop :=
  ∀ r : TRec, trecInRange r = true → decodeImage (encodeImage r) = r
end

