-- ==== Sys2Proof/Laws/Memory.lean ====
section
/-!
SUPPORT. The laws of the peer's register memory: read after write, the canonical form kept by every operation, and
that equal contents are equal lists.
-/

namespace Sys2Proof.Machine

theorem Memory.wfFrom_mono {lo lo' : Nat} (h : lo' ≤ lo) : {m : Memory} → m.wfFrom lo = true → m.wfFrom lo' = true
  | [], _ => rfl
  | (k, b) :: m, hm => by
    simp only [Memory.wfFrom, Bool.and_eq_true, decide_eq_true_eq] at hm ⊢
    exact ⟨⟨⟨by omega, hm.1.1.2⟩, hm.1.2⟩, hm.2⟩

/-- A key below the list's first reads as unlisted. -/
theorem Memory.read_of_lt {a lo : Nat} (h : a < lo) : {m : Memory} → m.wfFrom lo = true → m.read a = unlistedByte
  | [], _ => rfl
  | (k, b) :: m, hm => by
    simp only [Memory.wfFrom, Bool.and_eq_true, decide_eq_true_eq] at hm
    rw [Memory.read, if_neg (by omega)]
    exact Memory.read_of_lt (by omega) hm.2

theorem Memory.read_write_from {lo : Nat} (a x : Nat) (b : Byte) :
    {m : Memory} → m.wfFrom lo = true → (m.write a b).read x = if x = a then b else m.read x
  | [], _ => by
    by_cases hb : b = unlistedByte <;> by_cases hx : x = a <;> simp [Memory.write, Memory.read, hb, hx]
  | (k, c) :: m, hm => by
    simp only [Memory.wfFrom, Bool.and_eq_true, decide_eq_true_eq] at hm
    rw [Memory.write]
    split
    · split
      · by_cases hx : x = a
        · rw [if_pos hx, Memory.read, if_neg (by omega), Memory.read_of_lt (by omega) hm.2]; simp_all
        · rw [if_neg hx]
      · rw [Memory.read]
    · split
      · rename_i hk
        subst hk
        split
        · by_cases hx : x = a
          · rw [if_pos hx, hx, Memory.read_of_lt (by omega) hm.2]; simp_all
          · rw [if_neg hx, Memory.read, if_neg hx]
        · by_cases hx : x = a <;> simp [Memory.read, hx]
      · by_cases hx : x = k
        · rw [Memory.read, if_pos hx, Memory.read, if_pos hx, if_neg (by omega)]
        · rw [Memory.read, if_neg hx, Memory.read_write_from a x b hm.2, Memory.read, if_neg hx]

/-- Read after write: the written register holds the byte written, every other register what it held. -/
theorem Memory.read_write {m : Memory} (hm : m.wf = true) (a x : Nat) (b : Byte) :
    (m.write a b).read x = if x = a then b else m.read x := Memory.read_write_from a x b hm

theorem Memory.write_wfFrom {lo a : Nat} (hlo : lo ≤ a) (ha : isRegKey a = true) (b : Byte) :
    {m : Memory} → m.wfFrom lo = true → (m.write a b).wfFrom lo = true
  | [], _ => by
    rw [Memory.write]
    split
    · rfl
    · simp_all [Memory.wfFrom]
  | (k, c) :: m, hm => by
    have hm' := hm
    simp only [Memory.wfFrom, Bool.and_eq_true, decide_eq_true_eq, bne_iff_ne] at hm
    obtain ⟨⟨⟨hk, hreg⟩, hc⟩, hrest⟩ := hm
    rw [Memory.write]
    split
    · split
      · exact hm'
      · simp only [Memory.wfFrom, Bool.and_eq_true, decide_eq_true_eq, bne_iff_ne]
        exact ⟨⟨⟨hlo, ha⟩, ‹_›⟩, ⟨⟨⟨by omega, hreg⟩, hc⟩, hrest⟩⟩
    · split
      · rename_i heq
        subst heq
        split
        · exact Memory.wfFrom_mono (by omega) hrest
        · simp only [Memory.wfFrom, Bool.and_eq_true, decide_eq_true_eq, bne_iff_ne]
          exact ⟨⟨⟨hlo, ha⟩, ‹_›⟩, hrest⟩
      · simp only [Memory.wfFrom, Bool.and_eq_true, decide_eq_true_eq, bne_iff_ne]
        exact ⟨⟨⟨hk, hreg⟩, hc⟩, Memory.write_wfFrom (by omega) ha b hrest⟩

/-- A write to a register keeps the canonical form. -/
theorem Memory.write_wf {m : Memory} {a : Nat} (hm : m.wf = true) (ha : isRegKey a = true) (b : Byte) :
    (m.write a b).wf = true := Memory.write_wfFrom (Nat.zero_le a) ha b hm

theorem Memory.store_wf {m : Memory} (hm : m.wf = true) (k : Nat) (b : Byte) : (m.store k b).wf = true := by
  rw [Memory.store]
  split
  · exact Memory.write_wf hm ‹_› b
  · exact hm

theorem Memory.read_store {m : Memory} (hm : m.wf = true) (k x : Nat) (b : Byte) :
    (m.store k b).read x = if x = k ∧ isRegKey k = true then b else m.read x := by
  rw [Memory.store]
  by_cases hk : isRegKey k = true
  · rw [if_pos hk, Memory.read_write hm]; simp [hk]
  · rw [if_neg hk]; simp [hk]

theorem Memory.storeTime_wf {m : Memory} (hm : m.wf = true) (v : Image) : (m.storeTime v).wf = true := by
  unfold Memory.storeTime
  repeat' first | exact hm | refine Memory.store_wf ?_ _ _

theorem Memory.storeImage_wf {m : Memory} (hm : m.wf = true) (v : Image) : (m.storeImage v).wf = true :=
  Memory.store_wf (Memory.storeTime_wf hm v) _ _

/-- What each register holds after the eight clock registers are replaced (R87). -/
theorem Memory.read_storeImage {m : Memory} (hm : m.wf = true) (v : Image) (x : Nat) :
    (m.storeImage v).read x =
      if x = 0x8E then v.b7 else if x = 0x8C then v.b6 else if x = 0x8A then v.b5 else if x = 0x88 then v.b4
      else if x = 0x86 then v.b3 else if x = 0x84 then v.b2 else if x = 0x82 then v.b1 else if x = 0x80 then v.b0
      else m.read x := by
  have h0 := Memory.store_wf hm 0x80 v.b0
  have h1 := Memory.store_wf h0 0x82 v.b1
  have h2 := Memory.store_wf h1 0x84 v.b2
  have h3 := Memory.store_wf h2 0x86 v.b3
  have h4 := Memory.store_wf h3 0x88 v.b4
  have h5 := Memory.store_wf h4 0x8A v.b5
  have h6 := Memory.store_wf h5 0x8C v.b6
  simp only [Memory.storeImage, Memory.storeTime, Memory.read_store hm, Memory.read_store h0, Memory.read_store h1,
    Memory.read_store h2, Memory.read_store h3, Memory.read_store h4, Memory.read_store h5, Memory.read_store h6]
  simp [isRegKey]

theorem Memory.clockImage_storeImage {m : Memory} (hm : m.wf = true) (v : Image) :
    (m.storeImage v).clockImage = v := by
  simp [Memory.clockImage, Memory.read_storeImage hm]

theorem Memory.read_storeImage_other {m : Memory} (hm : m.wf = true) (v : Image) {x : Nat}
    (hx : ¬(0x80 ≤ x ∧ x ≤ 0x8E)) : (m.storeImage v).read x = m.read x := by
  rw [Memory.read_storeImage hm]
  repeat rw [if_neg (by omega)]

theorem Memory.scramble_wf {m : Memory} (hm : m.wf = true) (ks : List Nat) (d : Nat) : (m.scramble ks d).wf = true := by
  unfold Memory.scramble
  induction ks generalizing m with
  | nil => exact hm
  | cons k ks ih => exact ih (Memory.store_wf hm k _)

@[simp] theorem Memory.scramble_nil (m : Memory) (d : Nat) : m.scramble [] d = m := (rfl)

/-- A register that is not in the list keeps its byte. -/
theorem Memory.read_scramble {m : Memory} (hm : m.wf = true) {ks : List Nat} {x : Nat} (hx : x ∉ ks) (d : Nat) :
    (m.scramble ks d).read x = m.read x := by
  unfold Memory.scramble
  induction ks generalizing m with
  | nil => rfl
  | cons k ks ih =>
    simp only [List.mem_cons, not_or] at hx
    rw [List.foldl_cons, ih (Memory.store_wf hm k _) hx.2, Memory.read_store hm, if_neg fun h => hx.1 h.1]

/-- What each register holds after the time registers are replaced (R88). -/
theorem Memory.read_storeTime {m : Memory} (hm : m.wf = true) (v : Image) (x : Nat) :
    (m.storeTime v).read x =
      if x = 0x8C then v.b6 else if x = 0x8A then v.b5 else if x = 0x88 then v.b4
      else if x = 0x86 then v.b3 else if x = 0x84 then v.b2 else if x = 0x82 then v.b1 else if x = 0x80 then v.b0
      else m.read x := by
  have h0 := Memory.store_wf hm 0x80 v.b0
  have h1 := Memory.store_wf h0 0x82 v.b1
  have h2 := Memory.store_wf h1 0x84 v.b2
  have h3 := Memory.store_wf h2 0x86 v.b3
  have h4 := Memory.store_wf h3 0x88 v.b4
  have h5 := Memory.store_wf h4 0x8A v.b5
  simp only [Memory.storeTime, Memory.read_store hm, Memory.read_store h0, Memory.read_store h1,
    Memory.read_store h2, Memory.read_store h3, Memory.read_store h4, Memory.read_store h5]
  simp [isRegKey]

/-- Every listed key is a register's. -/
theorem Memory.read_of_not_reg {lo x : Nat} (hx : isRegKey x = false) :
    {m : Memory} → m.wfFrom lo = true → m.read x = unlistedByte
  | [], _ => rfl
  | (k, b) :: m, hm => by
    simp only [Memory.wfFrom, Bool.and_eq_true, decide_eq_true_eq] at hm
    rw [Memory.read, if_neg (by rintro rfl; simp_all)]
    exact Memory.read_of_not_reg hx hm.2

/-- Canonical memories with equal contents are equal lists. -/
theorem Memory.ext_from {lo : Nat} : {m m' : Memory} → m.wfFrom lo = true → m'.wfFrom lo = true →
    (∀ x, m.read x = m'.read x) → m = m'
  | [], [], _, _, _ => rfl
  | [], (k, b) :: m', _, hm', h => by
    simp only [Memory.wfFrom, Bool.and_eq_true, bne_iff_ne] at hm'
    have := h k
    simp only [Memory.read, if_true] at this
    exact absurd this.symm hm'.1.2
  | (k, b) :: m, [], hm, _, h => by
    simp only [Memory.wfFrom, Bool.and_eq_true, bne_iff_ne] at hm
    have := h k
    simp only [Memory.read, if_true] at this
    exact absurd this hm.1.2
  | (k, b) :: m, (k', b') :: m', hm, hm', h => by
    simp only [Memory.wfFrom, Bool.and_eq_true, decide_eq_true_eq, bne_iff_ne] at hm hm'
    have hkk : k = k' := by
      rcases Nat.lt_trichotomy k k' with hlt | heq | hlt
      · have := h k
        rw [Memory.read, if_pos rfl, Memory.read, if_neg (by omega), Memory.read_of_lt (by omega) hm'.2] at this
        exact absurd this hm.1.2
      · exact heq
      · have := h k'
        rw [Memory.read, if_neg (by omega), Memory.read_of_lt (by omega) hm.2, Memory.read, if_pos rfl] at this
        exact absurd this.symm hm'.1.2
    subst hkk
    have hb : b = b' := by simpa [Memory.read] using h k
    subst hb
    congr 1
    refine Memory.ext_from hm.2 hm'.2 fun x => ?_
    by_cases hx : x = k
    · rw [hx, Memory.read_of_lt (by omega) hm.2, Memory.read_of_lt (by omega) hm'.2]
    · simpa [Memory.read, hx] using h x

theorem Memory.ext {m m' : Memory} (hm : m.wf = true) (hm' : m'.wf = true) (h : ∀ x, m.read x = m'.read x) :
    m = m' := Memory.ext_from hm hm' h

end Sys2Proof.Machine
end

