-- ==== Sys2Proof/Laws/State.lean ====
section
/-!
SUPPORT. One lemma per field per update: what the shared updates of the state leave in each field. No later proof
unfolds a record update.
-/

namespace Sys2Proof.Machine

/-! ### emit -/

@[simp] theorem emit_pins (e : Event) (s : State) : (emit e s).pins = s.pins := (rfl)
@[simp] theorem emit_present (e : Event) (s : State) : (emit e s).present = s.present := (rfl)
@[simp] theorem emit_pads (e : Event) (s : State) : (emit e s).pads = e.onPads s.pads := (rfl)
@[simp] theorem emit_sess (e : Event) (s : State) : (emit e s).sess = s.sess := (rfl)
@[simp] theorem emit_hist (e : Event) (s : State) : (emit e s).hist = s.hist := (rfl)
@[simp] theorem emit_sr (e : Event) (s : State) : (emit e s).sr = s.sr := (rfl)
@[simp] theorem emit_bitcnt (e : Event) (s : State) : (emit e s).bitcnt = s.bitcnt := (rfl)
@[simp] theorem emit_bytecnt (e : Event) (s : State) : (emit e s).bytecnt = s.bytecnt := (rfl)
@[simp] theorem emit_rel (e : Event) (s : State) : (emit e s).rel = s.rel := (rfl)
@[simp] theorem emit_trec (e : Event) (s : State) : (emit e s).trec = s.trec := (rfl)
@[simp] theorem emit_img (e : Event) (s : State) : (emit e s).img = s.img := (rfl)
@[simp] theorem emit_addr (e : Event) (s : State) : (emit e s).addr = s.addr := (rfl)
@[simp] theorem emit_wdata (e : Event) (s : State) : (emit e s).wdata = s.wdata := (rfl)
@[simp] theorem emit_rdata (e : Event) (s : State) : (emit e s).rdata = s.rdata := (rfl)
@[simp] theorem emit_ok (e : Event) (s : State) : (emit e s).ok = s.ok := (rfl)
@[simp] theorem emit_lin (e : Event) (s : State) : (emit e s).lin = s.lin := (rfl)
@[simp] theorem emit_seq (e : Event) (s : State) : (emit e s).seq = s.seq := (rfl)
@[simp] theorem emit_rspValid (e : Event) (s : State) : (emit e s).rspValid = s.rspValid := (rfl)
@[simp] theorem emit_ev (e : Event) (s : State) : (emit e s).ev = s.ev ++ [e] := (rfl)
@[simp] theorem emit_mark (e : Event) (s : State) : (emit e s).mark = s.mark := (rfl)
@[simp] theorem emit_peerKind (e : Event) (s : State) : (emit e s).peerKind = s.peerKind := (rfl)
@[simp] theorem emit_peer (e : Event) (s : State) : (emit e s).peer = peerReact s.peerKind s.pads (e.onPads s.pads) s.draws s.peer := (rfl)
@[simp] theorem emit_conv (e : Event) (s : State) : (emit e s).conv = s.conv := (rfl)
@[simp] theorem emit_pend (e : Event) (s : State) : (emit e s).pend = s.pend := (rfl)
@[simp] theorem emit_draws (e : Event) (s : State) : (emit e s).draws = s.draws + 1 := (rfl)

/-! ### latchAddr -/

@[simp] theorem latchAddr_pins (a : Byte) (s : State) : (latchAddr a s).pins = s.pins := (rfl)
@[simp] theorem latchAddr_present (a : Byte) (s : State) : (latchAddr a s).present = s.present := (rfl)
@[simp] theorem latchAddr_pads (a : Byte) (s : State) : (latchAddr a s).pads = s.pads := (rfl)
@[simp] theorem latchAddr_sess (a : Byte) (s : State) : (latchAddr a s).sess = s.sess := (rfl)
@[simp] theorem latchAddr_hist (a : Byte) (s : State) : (latchAddr a s).hist = s.hist := (rfl)
@[simp] theorem latchAddr_sr (a : Byte) (s : State) : (latchAddr a s).sr = s.sr := (rfl)
@[simp] theorem latchAddr_bitcnt (a : Byte) (s : State) : (latchAddr a s).bitcnt = s.bitcnt := (rfl)
@[simp] theorem latchAddr_bytecnt (a : Byte) (s : State) : (latchAddr a s).bytecnt = s.bytecnt := (rfl)
@[simp] theorem latchAddr_rel (a : Byte) (s : State) : (latchAddr a s).rel = s.rel := (rfl)
@[simp] theorem latchAddr_trec (a : Byte) (s : State) : (latchAddr a s).trec = s.trec := (rfl)
@[simp] theorem latchAddr_img (a : Byte) (s : State) : (latchAddr a s).img = s.img := (rfl)
@[simp] theorem latchAddr_addr (a : Byte) (s : State) : (latchAddr a s).addr = a := (rfl)
@[simp] theorem latchAddr_wdata (a : Byte) (s : State) : (latchAddr a s).wdata = s.wdata := (rfl)
@[simp] theorem latchAddr_rdata (a : Byte) (s : State) : (latchAddr a s).rdata = s.rdata := (rfl)
@[simp] theorem latchAddr_ok (a : Byte) (s : State) : (latchAddr a s).ok = s.ok := (rfl)
@[simp] theorem latchAddr_lin (a : Byte) (s : State) : (latchAddr a s).lin = s.lin := (rfl)
@[simp] theorem latchAddr_seq (a : Byte) (s : State) : (latchAddr a s).seq = s.seq := (rfl)
@[simp] theorem latchAddr_rspValid (a : Byte) (s : State) : (latchAddr a s).rspValid = s.rspValid := (rfl)
@[simp] theorem latchAddr_ev (a : Byte) (s : State) : (latchAddr a s).ev = s.ev := (rfl)
@[simp] theorem latchAddr_mark (a : Byte) (s : State) : (latchAddr a s).mark = s.mark := (rfl)
@[simp] theorem latchAddr_peerKind (a : Byte) (s : State) : (latchAddr a s).peerKind = s.peerKind := (rfl)
@[simp] theorem latchAddr_peer (a : Byte) (s : State) : (latchAddr a s).peer = s.peer := (rfl)
@[simp] theorem latchAddr_conv (a : Byte) (s : State) : (latchAddr a s).conv = s.conv := (rfl)
@[simp] theorem latchAddr_pend (a : Byte) (s : State) : (latchAddr a s).pend = s.pend := (rfl)
@[simp] theorem latchAddr_draws (a : Byte) (s : State) : (latchAddr a s).draws = s.draws := (rfl)

/-! ### latchData -/

@[simp] theorem latchData_pins (d : Byte) (s : State) : (latchData d s).pins = s.pins := (rfl)
@[simp] theorem latchData_present (d : Byte) (s : State) : (latchData d s).present = s.present := (rfl)
@[simp] theorem latchData_pads (d : Byte) (s : State) : (latchData d s).pads = s.pads := (rfl)
@[simp] theorem latchData_sess (d : Byte) (s : State) : (latchData d s).sess = s.sess := (rfl)
@[simp] theorem latchData_hist (d : Byte) (s : State) : (latchData d s).hist = s.hist := (rfl)
@[simp] theorem latchData_sr (d : Byte) (s : State) : (latchData d s).sr = s.sr := (rfl)
@[simp] theorem latchData_bitcnt (d : Byte) (s : State) : (latchData d s).bitcnt = s.bitcnt := (rfl)
@[simp] theorem latchData_bytecnt (d : Byte) (s : State) : (latchData d s).bytecnt = s.bytecnt := (rfl)
@[simp] theorem latchData_rel (d : Byte) (s : State) : (latchData d s).rel = s.rel := (rfl)
@[simp] theorem latchData_trec (d : Byte) (s : State) : (latchData d s).trec = s.trec := (rfl)
@[simp] theorem latchData_img (d : Byte) (s : State) : (latchData d s).img = s.img := (rfl)
@[simp] theorem latchData_addr (d : Byte) (s : State) : (latchData d s).addr = s.addr := (rfl)
@[simp] theorem latchData_wdata (d : Byte) (s : State) : (latchData d s).wdata = d := (rfl)
@[simp] theorem latchData_rdata (d : Byte) (s : State) : (latchData d s).rdata = s.rdata := (rfl)
@[simp] theorem latchData_ok (d : Byte) (s : State) : (latchData d s).ok = s.ok := (rfl)
@[simp] theorem latchData_lin (d : Byte) (s : State) : (latchData d s).lin = s.lin := (rfl)
@[simp] theorem latchData_seq (d : Byte) (s : State) : (latchData d s).seq = s.seq := (rfl)
@[simp] theorem latchData_rspValid (d : Byte) (s : State) : (latchData d s).rspValid = s.rspValid := (rfl)
@[simp] theorem latchData_ev (d : Byte) (s : State) : (latchData d s).ev = s.ev := (rfl)
@[simp] theorem latchData_mark (d : Byte) (s : State) : (latchData d s).mark = s.mark := (rfl)
@[simp] theorem latchData_peerKind (d : Byte) (s : State) : (latchData d s).peerKind = s.peerKind := (rfl)
@[simp] theorem latchData_peer (d : Byte) (s : State) : (latchData d s).peer = s.peer := (rfl)
@[simp] theorem latchData_conv (d : Byte) (s : State) : (latchData d s).conv = s.conv := (rfl)
@[simp] theorem latchData_pend (d : Byte) (s : State) : (latchData d s).pend = s.pend := (rfl)
@[simp] theorem latchData_draws (d : Byte) (s : State) : (latchData d s).draws = s.draws := (rfl)

/-! ### latchRel -/

@[simp] theorem latchRel_pins (r : Bool) (s : State) : (latchRel r s).pins = s.pins := (rfl)
@[simp] theorem latchRel_present (r : Bool) (s : State) : (latchRel r s).present = s.present := (rfl)
@[simp] theorem latchRel_pads (r : Bool) (s : State) : (latchRel r s).pads = s.pads := (rfl)
@[simp] theorem latchRel_sess (r : Bool) (s : State) : (latchRel r s).sess = s.sess := (rfl)
@[simp] theorem latchRel_hist (r : Bool) (s : State) : (latchRel r s).hist = s.hist := (rfl)
@[simp] theorem latchRel_sr (r : Bool) (s : State) : (latchRel r s).sr = s.sr := (rfl)
@[simp] theorem latchRel_bitcnt (r : Bool) (s : State) : (latchRel r s).bitcnt = s.bitcnt := (rfl)
@[simp] theorem latchRel_bytecnt (r : Bool) (s : State) : (latchRel r s).bytecnt = s.bytecnt := (rfl)
@[simp] theorem latchRel_rel (r : Bool) (s : State) : (latchRel r s).rel = r := (rfl)
@[simp] theorem latchRel_trec (r : Bool) (s : State) : (latchRel r s).trec = s.trec := (rfl)
@[simp] theorem latchRel_img (r : Bool) (s : State) : (latchRel r s).img = s.img := (rfl)
@[simp] theorem latchRel_addr (r : Bool) (s : State) : (latchRel r s).addr = s.addr := (rfl)
@[simp] theorem latchRel_wdata (r : Bool) (s : State) : (latchRel r s).wdata = s.wdata := (rfl)
@[simp] theorem latchRel_rdata (r : Bool) (s : State) : (latchRel r s).rdata = s.rdata := (rfl)
@[simp] theorem latchRel_ok (r : Bool) (s : State) : (latchRel r s).ok = s.ok := (rfl)
@[simp] theorem latchRel_lin (r : Bool) (s : State) : (latchRel r s).lin = s.lin := (rfl)
@[simp] theorem latchRel_seq (r : Bool) (s : State) : (latchRel r s).seq = s.seq := (rfl)
@[simp] theorem latchRel_rspValid (r : Bool) (s : State) : (latchRel r s).rspValid = s.rspValid := (rfl)
@[simp] theorem latchRel_ev (r : Bool) (s : State) : (latchRel r s).ev = s.ev := (rfl)
@[simp] theorem latchRel_mark (r : Bool) (s : State) : (latchRel r s).mark = s.mark := (rfl)
@[simp] theorem latchRel_peerKind (r : Bool) (s : State) : (latchRel r s).peerKind = s.peerKind := (rfl)
@[simp] theorem latchRel_peer (r : Bool) (s : State) : (latchRel r s).peer = s.peer := (rfl)
@[simp] theorem latchRel_conv (r : Bool) (s : State) : (latchRel r s).conv = s.conv := (rfl)
@[simp] theorem latchRel_pend (r : Bool) (s : State) : (latchRel r s).pend = s.pend := (rfl)
@[simp] theorem latchRel_draws (r : Bool) (s : State) : (latchRel r s).draws = s.draws := (rfl)

/-! ### latchImage -/

@[simp] theorem latchImage_pins (v : Image) (s : State) : (latchImage v s).pins = s.pins := (rfl)
@[simp] theorem latchImage_present (v : Image) (s : State) : (latchImage v s).present = s.present := (rfl)
@[simp] theorem latchImage_pads (v : Image) (s : State) : (latchImage v s).pads = s.pads := (rfl)
@[simp] theorem latchImage_sess (v : Image) (s : State) : (latchImage v s).sess = s.sess := (rfl)
@[simp] theorem latchImage_hist (v : Image) (s : State) : (latchImage v s).hist = s.hist := (rfl)
@[simp] theorem latchImage_sr (v : Image) (s : State) : (latchImage v s).sr = s.sr := (rfl)
@[simp] theorem latchImage_bitcnt (v : Image) (s : State) : (latchImage v s).bitcnt = s.bitcnt := (rfl)
@[simp] theorem latchImage_bytecnt (v : Image) (s : State) : (latchImage v s).bytecnt = s.bytecnt := (rfl)
@[simp] theorem latchImage_rel (v : Image) (s : State) : (latchImage v s).rel = s.rel := (rfl)
@[simp] theorem latchImage_trec (v : Image) (s : State) : (latchImage v s).trec = s.trec := (rfl)
@[simp] theorem latchImage_img (v : Image) (s : State) : (latchImage v s).img = v := (rfl)
@[simp] theorem latchImage_addr (v : Image) (s : State) : (latchImage v s).addr = s.addr := (rfl)
@[simp] theorem latchImage_wdata (v : Image) (s : State) : (latchImage v s).wdata = s.wdata := (rfl)
@[simp] theorem latchImage_rdata (v : Image) (s : State) : (latchImage v s).rdata = s.rdata := (rfl)
@[simp] theorem latchImage_ok (v : Image) (s : State) : (latchImage v s).ok = s.ok := (rfl)
@[simp] theorem latchImage_lin (v : Image) (s : State) : (latchImage v s).lin = s.lin := (rfl)
@[simp] theorem latchImage_seq (v : Image) (s : State) : (latchImage v s).seq = s.seq := (rfl)
@[simp] theorem latchImage_rspValid (v : Image) (s : State) : (latchImage v s).rspValid = s.rspValid := (rfl)
@[simp] theorem latchImage_ev (v : Image) (s : State) : (latchImage v s).ev = s.ev := (rfl)
@[simp] theorem latchImage_mark (v : Image) (s : State) : (latchImage v s).mark = s.mark := (rfl)
@[simp] theorem latchImage_peerKind (v : Image) (s : State) : (latchImage v s).peerKind = s.peerKind := (rfl)
@[simp] theorem latchImage_peer (v : Image) (s : State) : (latchImage v s).peer = s.peer := (rfl)
@[simp] theorem latchImage_conv (v : Image) (s : State) : (latchImage v s).conv = s.conv := (rfl)
@[simp] theorem latchImage_pend (v : Image) (s : State) : (latchImage v s).pend = s.pend := (rfl)
@[simp] theorem latchImage_draws (v : Image) (s : State) : (latchImage v s).draws = s.draws := (rfl)

/-! ### latchTRec -/

@[simp] theorem latchTRec_pins (t : TRec) (s : State) : (latchTRec t s).pins = s.pins := (rfl)
@[simp] theorem latchTRec_present (t : TRec) (s : State) : (latchTRec t s).present = s.present := (rfl)
@[simp] theorem latchTRec_pads (t : TRec) (s : State) : (latchTRec t s).pads = s.pads := (rfl)
@[simp] theorem latchTRec_sess (t : TRec) (s : State) : (latchTRec t s).sess = s.sess := (rfl)
@[simp] theorem latchTRec_hist (t : TRec) (s : State) : (latchTRec t s).hist = s.hist := (rfl)
@[simp] theorem latchTRec_sr (t : TRec) (s : State) : (latchTRec t s).sr = s.sr := (rfl)
@[simp] theorem latchTRec_bitcnt (t : TRec) (s : State) : (latchTRec t s).bitcnt = s.bitcnt := (rfl)
@[simp] theorem latchTRec_bytecnt (t : TRec) (s : State) : (latchTRec t s).bytecnt = s.bytecnt := (rfl)
@[simp] theorem latchTRec_rel (t : TRec) (s : State) : (latchTRec t s).rel = s.rel := (rfl)
@[simp] theorem latchTRec_trec (t : TRec) (s : State) : (latchTRec t s).trec = t := (rfl)
@[simp] theorem latchTRec_img (t : TRec) (s : State) : (latchTRec t s).img = s.img := (rfl)
@[simp] theorem latchTRec_addr (t : TRec) (s : State) : (latchTRec t s).addr = s.addr := (rfl)
@[simp] theorem latchTRec_wdata (t : TRec) (s : State) : (latchTRec t s).wdata = s.wdata := (rfl)
@[simp] theorem latchTRec_rdata (t : TRec) (s : State) : (latchTRec t s).rdata = s.rdata := (rfl)
@[simp] theorem latchTRec_ok (t : TRec) (s : State) : (latchTRec t s).ok = s.ok := (rfl)
@[simp] theorem latchTRec_lin (t : TRec) (s : State) : (latchTRec t s).lin = s.lin := (rfl)
@[simp] theorem latchTRec_seq (t : TRec) (s : State) : (latchTRec t s).seq = s.seq := (rfl)
@[simp] theorem latchTRec_rspValid (t : TRec) (s : State) : (latchTRec t s).rspValid = s.rspValid := (rfl)
@[simp] theorem latchTRec_ev (t : TRec) (s : State) : (latchTRec t s).ev = s.ev := (rfl)
@[simp] theorem latchTRec_mark (t : TRec) (s : State) : (latchTRec t s).mark = s.mark := (rfl)
@[simp] theorem latchTRec_peerKind (t : TRec) (s : State) : (latchTRec t s).peerKind = s.peerKind := (rfl)
@[simp] theorem latchTRec_peer (t : TRec) (s : State) : (latchTRec t s).peer = s.peer := (rfl)
@[simp] theorem latchTRec_conv (t : TRec) (s : State) : (latchTRec t s).conv = s.conv := (rfl)
@[simp] theorem latchTRec_pend (t : TRec) (s : State) : (latchTRec t s).pend = s.pend := (rfl)
@[simp] theorem latchTRec_draws (t : TRec) (s : State) : (latchTRec t s).draws = s.draws := (rfl)

/-! ### latchLin -/

@[simp] theorem latchLin_pins (l : Nat) (s : State) : (latchLin l s).pins = s.pins := (rfl)
@[simp] theorem latchLin_present (l : Nat) (s : State) : (latchLin l s).present = s.present := (rfl)
@[simp] theorem latchLin_pads (l : Nat) (s : State) : (latchLin l s).pads = s.pads := (rfl)
@[simp] theorem latchLin_sess (l : Nat) (s : State) : (latchLin l s).sess = s.sess := (rfl)
@[simp] theorem latchLin_hist (l : Nat) (s : State) : (latchLin l s).hist = s.hist := (rfl)
@[simp] theorem latchLin_sr (l : Nat) (s : State) : (latchLin l s).sr = s.sr := (rfl)
@[simp] theorem latchLin_bitcnt (l : Nat) (s : State) : (latchLin l s).bitcnt = s.bitcnt := (rfl)
@[simp] theorem latchLin_bytecnt (l : Nat) (s : State) : (latchLin l s).bytecnt = s.bytecnt := (rfl)
@[simp] theorem latchLin_rel (l : Nat) (s : State) : (latchLin l s).rel = s.rel := (rfl)
@[simp] theorem latchLin_trec (l : Nat) (s : State) : (latchLin l s).trec = s.trec := (rfl)
@[simp] theorem latchLin_img (l : Nat) (s : State) : (latchLin l s).img = s.img := (rfl)
@[simp] theorem latchLin_addr (l : Nat) (s : State) : (latchLin l s).addr = s.addr := (rfl)
@[simp] theorem latchLin_wdata (l : Nat) (s : State) : (latchLin l s).wdata = s.wdata := (rfl)
@[simp] theorem latchLin_rdata (l : Nat) (s : State) : (latchLin l s).rdata = s.rdata := (rfl)
@[simp] theorem latchLin_ok (l : Nat) (s : State) : (latchLin l s).ok = s.ok := (rfl)
@[simp] theorem latchLin_lin (l : Nat) (s : State) : (latchLin l s).lin = l := (rfl)
@[simp] theorem latchLin_seq (l : Nat) (s : State) : (latchLin l s).seq = s.seq := (rfl)
@[simp] theorem latchLin_rspValid (l : Nat) (s : State) : (latchLin l s).rspValid = s.rspValid := (rfl)
@[simp] theorem latchLin_ev (l : Nat) (s : State) : (latchLin l s).ev = s.ev := (rfl)
@[simp] theorem latchLin_mark (l : Nat) (s : State) : (latchLin l s).mark = s.mark := (rfl)
@[simp] theorem latchLin_peerKind (l : Nat) (s : State) : (latchLin l s).peerKind = s.peerKind := (rfl)
@[simp] theorem latchLin_peer (l : Nat) (s : State) : (latchLin l s).peer = s.peer := (rfl)
@[simp] theorem latchLin_conv (l : Nat) (s : State) : (latchLin l s).conv = s.conv := (rfl)
@[simp] theorem latchLin_pend (l : Nat) (s : State) : (latchLin l s).pend = s.pend := (rfl)
@[simp] theorem latchLin_draws (l : Nat) (s : State) : (latchLin l s).draws = s.draws := (rfl)

/-! ### endPulse -/

@[simp] theorem endPulse_pins (s : State) : (endPulse s).pins = s.pins := (rfl)
@[simp] theorem endPulse_present (s : State) : (endPulse s).present = s.present := (rfl)
@[simp] theorem endPulse_pads (s : State) : (endPulse s).pads = s.pads := (rfl)
@[simp] theorem endPulse_sess (s : State) : (endPulse s).sess = s.sess := (rfl)
@[simp] theorem endPulse_hist (s : State) : (endPulse s).hist = s.hist := (rfl)
@[simp] theorem endPulse_sr (s : State) : (endPulse s).sr = s.sr := (rfl)
@[simp] theorem endPulse_bitcnt (s : State) : (endPulse s).bitcnt = s.bitcnt := (rfl)
@[simp] theorem endPulse_bytecnt (s : State) : (endPulse s).bytecnt = s.bytecnt := (rfl)
@[simp] theorem endPulse_rel (s : State) : (endPulse s).rel = s.rel := (rfl)
@[simp] theorem endPulse_trec (s : State) : (endPulse s).trec = s.trec := (rfl)
@[simp] theorem endPulse_img (s : State) : (endPulse s).img = s.img := (rfl)
@[simp] theorem endPulse_addr (s : State) : (endPulse s).addr = s.addr := (rfl)
@[simp] theorem endPulse_wdata (s : State) : (endPulse s).wdata = s.wdata := (rfl)
@[simp] theorem endPulse_rdata (s : State) : (endPulse s).rdata = s.rdata := (rfl)
@[simp] theorem endPulse_ok (s : State) : (endPulse s).ok = s.ok := (rfl)
@[simp] theorem endPulse_lin (s : State) : (endPulse s).lin = s.lin := (rfl)
@[simp] theorem endPulse_seq (s : State) : (endPulse s).seq = s.seq := (rfl)
@[simp] theorem endPulse_rspValid (s : State) : (endPulse s).rspValid = false := (rfl)
@[simp] theorem endPulse_ev (s : State) : (endPulse s).ev = s.ev := (rfl)
@[simp] theorem endPulse_mark (s : State) : (endPulse s).mark = s.mark := (rfl)
@[simp] theorem endPulse_peerKind (s : State) : (endPulse s).peerKind = s.peerKind := (rfl)
@[simp] theorem endPulse_peer (s : State) : (endPulse s).peer = s.peer := (rfl)
@[simp] theorem endPulse_conv (s : State) : (endPulse s).conv = s.conv := (rfl)
@[simp] theorem endPulse_pend (s : State) : (endPulse s).pend = s.pend := (rfl)
@[simp] theorem endPulse_draws (s : State) : (endPulse s).draws = s.draws := (rfl)

/-! ### emitAll -/

theorem emitAll_append (es fs : List Event) (s : State) : emitAll (es ++ fs) s = emitAll fs (emitAll es s) := by
  induction es generalizing s with
  | nil => rfl
  | cons e es ih => exact ih (emit e s)

@[simp] theorem emitAll_nil (s : State) : emitAll [] s = s := (rfl)

theorem emitAll_cons (e : Event) (es : List Event) (s : State) : emitAll (e :: es) s = emitAll es (emit e s) := (rfl)

@[simp] theorem emitAll_pads (es : List Event) (s : State) : (emitAll es s).pads = padsAfter es s.pads := by
  induction es generalizing s with
  | nil => rfl
  | cons e es ih => rw [emitAll_cons, ih]; rfl

@[simp] theorem emitAll_ev (es : List Event) (s : State) : (emitAll es s).ev = s.ev ++ es := by
  induction es generalizing s with
  | nil => simp
  | cons e es ih => rw [emitAll_cons, ih]; simp

@[simp] theorem emitAll_draws (es : List Event) (s : State) : (emitAll es s).draws = s.draws + es.length := by
  induction es generalizing s with
  | nil => rfl
  | cons e es ih => rw [emitAll_cons, ih]; simp; omega

@[simp] theorem emitAll_pins (es : List Event) (s : State) : (emitAll es s).pins = s.pins := by
  induction es generalizing s with
  | nil => rfl
  | cons e es ih => exact ih (emit e s)
@[simp] theorem emitAll_present (es : List Event) (s : State) : (emitAll es s).present = s.present := by
  induction es generalizing s with
  | nil => rfl
  | cons e es ih => exact ih (emit e s)
@[simp] theorem emitAll_sess (es : List Event) (s : State) : (emitAll es s).sess = s.sess := by
  induction es generalizing s with
  | nil => rfl
  | cons e es ih => exact ih (emit e s)
@[simp] theorem emitAll_hist (es : List Event) (s : State) : (emitAll es s).hist = s.hist := by
  induction es generalizing s with
  | nil => rfl
  | cons e es ih => exact ih (emit e s)
@[simp] theorem emitAll_sr (es : List Event) (s : State) : (emitAll es s).sr = s.sr := by
  induction es generalizing s with
  | nil => rfl
  | cons e es ih => exact ih (emit e s)
@[simp] theorem emitAll_bitcnt (es : List Event) (s : State) : (emitAll es s).bitcnt = s.bitcnt := by
  induction es generalizing s with
  | nil => rfl
  | cons e es ih => exact ih (emit e s)
@[simp] theorem emitAll_bytecnt (es : List Event) (s : State) : (emitAll es s).bytecnt = s.bytecnt := by
  induction es generalizing s with
  | nil => rfl
  | cons e es ih => exact ih (emit e s)
@[simp] theorem emitAll_rel (es : List Event) (s : State) : (emitAll es s).rel = s.rel := by
  induction es generalizing s with
  | nil => rfl
  | cons e es ih => exact ih (emit e s)
@[simp] theorem emitAll_trec (es : List Event) (s : State) : (emitAll es s).trec = s.trec := by
  induction es generalizing s with
  | nil => rfl
  | cons e es ih => exact ih (emit e s)
@[simp] theorem emitAll_img (es : List Event) (s : State) : (emitAll es s).img = s.img := by
  induction es generalizing s with
  | nil => rfl
  | cons e es ih => exact ih (emit e s)
@[simp] theorem emitAll_addr (es : List Event) (s : State) : (emitAll es s).addr = s.addr := by
  induction es generalizing s with
  | nil => rfl
  | cons e es ih => exact ih (emit e s)
@[simp] theorem emitAll_wdata (es : List Event) (s : State) : (emitAll es s).wdata = s.wdata := by
  induction es generalizing s with
  | nil => rfl
  | cons e es ih => exact ih (emit e s)
@[simp] theorem emitAll_rdata (es : List Event) (s : State) : (emitAll es s).rdata = s.rdata := by
  induction es generalizing s with
  | nil => rfl
  | cons e es ih => exact ih (emit e s)
@[simp] theorem emitAll_ok (es : List Event) (s : State) : (emitAll es s).ok = s.ok := by
  induction es generalizing s with
  | nil => rfl
  | cons e es ih => exact ih (emit e s)
@[simp] theorem emitAll_lin (es : List Event) (s : State) : (emitAll es s).lin = s.lin := by
  induction es generalizing s with
  | nil => rfl
  | cons e es ih => exact ih (emit e s)
@[simp] theorem emitAll_seq (es : List Event) (s : State) : (emitAll es s).seq = s.seq := by
  induction es generalizing s with
  | nil => rfl
  | cons e es ih => exact ih (emit e s)
@[simp] theorem emitAll_rspValid (es : List Event) (s : State) : (emitAll es s).rspValid = s.rspValid := by
  induction es generalizing s with
  | nil => rfl
  | cons e es ih => exact ih (emit e s)
@[simp] theorem emitAll_mark (es : List Event) (s : State) : (emitAll es s).mark = s.mark := by
  induction es generalizing s with
  | nil => rfl
  | cons e es ih => exact ih (emit e s)
@[simp] theorem emitAll_peerKind (es : List Event) (s : State) : (emitAll es s).peerKind = s.peerKind := by
  induction es generalizing s with
  | nil => rfl
  | cons e es ih => exact ih (emit e s)
@[simp] theorem emitAll_conv (es : List Event) (s : State) : (emitAll es s).conv = s.conv := by
  induction es generalizing s with
  | nil => rfl
  | cons e es ih => exact ih (emit e s)
@[simp] theorem emitAll_pend (es : List Event) (s : State) : (emitAll es s).pend = s.pend := by
  induction es generalizing s with
  | nil => rfl
  | cons e es ih => exact ih (emit e s)

/-! ### startSession -/

@[simp] theorem startSession_pins (s : State) : (startSession s).pins = s.pins := (rfl)
@[simp] theorem startSession_present (s : State) : (startSession s).present = s.present := (rfl)
@[simp] theorem startSession_sess (s : State) : (startSession s).sess = .opened := (rfl)
@[simp] theorem startSession_hist (s : State) : (startSession s).hist = .fresh := (rfl)
@[simp] theorem startSession_sr (s : State) : (startSession s).sr = s.sr := (rfl)
@[simp] theorem startSession_bitcnt (s : State) : (startSession s).bitcnt = s.bitcnt := (rfl)
@[simp] theorem startSession_bytecnt (s : State) : (startSession s).bytecnt = s.bytecnt := (rfl)
@[simp] theorem startSession_rel (s : State) : (startSession s).rel = s.rel := (rfl)
@[simp] theorem startSession_trec (s : State) : (startSession s).trec = s.trec := (rfl)
@[simp] theorem startSession_img (s : State) : (startSession s).img = s.img := (rfl)
@[simp] theorem startSession_addr (s : State) : (startSession s).addr = s.addr := (rfl)
@[simp] theorem startSession_wdata (s : State) : (startSession s).wdata = s.wdata := (rfl)
@[simp] theorem startSession_rdata (s : State) : (startSession s).rdata = s.rdata := (rfl)
@[simp] theorem startSession_ok (s : State) : (startSession s).ok = s.ok := (rfl)
@[simp] theorem startSession_lin (s : State) : (startSession s).lin = s.lin := (rfl)
@[simp] theorem startSession_seq (s : State) : (startSession s).seq = s.seq := (rfl)
@[simp] theorem startSession_rspValid (s : State) : (startSession s).rspValid = s.rspValid := (rfl)
@[simp] theorem startSession_ev (s : State) : (startSession s).ev = s.ev ++ startEvents := by simp [startSession]
@[simp] theorem startSession_mark (s : State) : (startSession s).mark = s.mark := (rfl)
@[simp] theorem startSession_peerKind (s : State) : (startSession s).peerKind = s.peerKind := (rfl)
@[simp] theorem startSession_conv (s : State) : (startSession s).conv = s.conv := (rfl)
@[simp] theorem startSession_pend (s : State) : (startSession s).pend = s.pend := (rfl)
@[simp] theorem startSession_draws (s : State) : (startSession s).draws = s.draws + 6 := (rfl)

@[simp] theorem startSession_pads (s : State) :
    (startSession s).pads = ⟨⟨true, true⟩, ⟨s.pads.sclk.out, true⟩, ⟨s.pads.io.out, true⟩⟩ := (rfl)

/-! ### stopSession -/

@[simp] theorem stopSession_pins (s : State) : (stopSession s).pins = s.pins := (rfl)
@[simp] theorem stopSession_present (s : State) : (stopSession s).present = s.present := (rfl)
@[simp] theorem stopSession_pads (s : State) : (stopSession s).pads = { s.pads with ce := { s.pads.ce with out := false } } := (rfl)
@[simp] theorem stopSession_sess (s : State) : (stopSession s).sess = .closed := (rfl)
@[simp] theorem stopSession_hist (s : State) : (stopSession s).hist = s.hist := (rfl)
@[simp] theorem stopSession_sr (s : State) : (stopSession s).sr = s.sr := (rfl)
@[simp] theorem stopSession_bitcnt (s : State) : (stopSession s).bitcnt = s.bitcnt := (rfl)
@[simp] theorem stopSession_bytecnt (s : State) : (stopSession s).bytecnt = s.bytecnt := (rfl)
@[simp] theorem stopSession_rel (s : State) : (stopSession s).rel = s.rel := (rfl)
@[simp] theorem stopSession_trec (s : State) : (stopSession s).trec = s.trec := (rfl)
@[simp] theorem stopSession_img (s : State) : (stopSession s).img = s.img := (rfl)
@[simp] theorem stopSession_addr (s : State) : (stopSession s).addr = s.addr := (rfl)
@[simp] theorem stopSession_wdata (s : State) : (stopSession s).wdata = s.wdata := (rfl)
@[simp] theorem stopSession_rdata (s : State) : (stopSession s).rdata = s.rdata := (rfl)
@[simp] theorem stopSession_ok (s : State) : (stopSession s).ok = s.ok := (rfl)
@[simp] theorem stopSession_lin (s : State) : (stopSession s).lin = s.lin := (rfl)
@[simp] theorem stopSession_seq (s : State) : (stopSession s).seq = s.seq := (rfl)
@[simp] theorem stopSession_rspValid (s : State) : (stopSession s).rspValid = s.rspValid := (rfl)
@[simp] theorem stopSession_ev (s : State) : (stopSession s).ev = s.ev ++ stopEvents := by simp [stopSession]
@[simp] theorem stopSession_mark (s : State) : (stopSession s).mark = s.mark := (rfl)
@[simp] theorem stopSession_peerKind (s : State) : (stopSession s).peerKind = s.peerKind := (rfl)
@[simp] theorem stopSession_conv (s : State) : (stopSession s).conv = s.conv := (rfl)
@[simp] theorem stopSession_pend (s : State) : (stopSession s).pend = s.pend := (rfl)
@[simp] theorem stopSession_draws (s : State) : (stopSession s).draws = s.draws + 2 := (rfl)

/-! ### writeByte -/

@[simp] theorem writeByte_pins (d : Byte) (r : Bool) (s : State) : (writeByte d r s).pins = s.pins := by simp [writeByte]
@[simp] theorem writeByte_present (d : Byte) (r : Bool) (s : State) : (writeByte d r s).present = s.present := by simp [writeByte]
@[simp] theorem writeByte_sess (d : Byte) (r : Bool) (s : State) : (writeByte d r s).sess = s.sess := by simp [writeByte]
@[simp] theorem writeByte_hist (d : Byte) (r : Bool) (s : State) : (writeByte d r s).hist = if r then .released else .written := by simp [writeByte]
@[simp] theorem writeByte_sr (d : Byte) (r : Bool) (s : State) : (writeByte d r s).sr = d := by simp [writeByte]
@[simp] theorem writeByte_bitcnt (d : Byte) (r : Bool) (s : State) : (writeByte d r s).bitcnt = 7 := by simp [writeByte]
@[simp] theorem writeByte_bytecnt (d : Byte) (r : Bool) (s : State) : (writeByte d r s).bytecnt = s.bytecnt := by simp [writeByte]
@[simp] theorem writeByte_rel (d : Byte) (r : Bool) (s : State) : (writeByte d r s).rel = r := by simp [writeByte]
@[simp] theorem writeByte_trec (d : Byte) (r : Bool) (s : State) : (writeByte d r s).trec = s.trec := by simp [writeByte]
@[simp] theorem writeByte_img (d : Byte) (r : Bool) (s : State) : (writeByte d r s).img = s.img := by simp [writeByte]
@[simp] theorem writeByte_addr (d : Byte) (r : Bool) (s : State) : (writeByte d r s).addr = s.addr := by simp [writeByte]
@[simp] theorem writeByte_wdata (d : Byte) (r : Bool) (s : State) : (writeByte d r s).wdata = s.wdata := by simp [writeByte]
@[simp] theorem writeByte_rdata (d : Byte) (r : Bool) (s : State) : (writeByte d r s).rdata = s.rdata := by simp [writeByte]
@[simp] theorem writeByte_ok (d : Byte) (r : Bool) (s : State) : (writeByte d r s).ok = s.ok := by simp [writeByte]
@[simp] theorem writeByte_lin (d : Byte) (r : Bool) (s : State) : (writeByte d r s).lin = s.lin := by simp [writeByte]
@[simp] theorem writeByte_seq (d : Byte) (r : Bool) (s : State) : (writeByte d r s).seq = s.seq := by simp [writeByte]
@[simp] theorem writeByte_rspValid (d : Byte) (r : Bool) (s : State) : (writeByte d r s).rspValid = s.rspValid := by simp [writeByte]
@[simp] theorem writeByte_ev (d : Byte) (r : Bool) (s : State) : (writeByte d r s).ev = s.ev ++ writeByteEvents d r := by simp [writeByte]
@[simp] theorem writeByte_mark (d : Byte) (r : Bool) (s : State) : (writeByte d r s).mark = s.mark := by simp [writeByte]
@[simp] theorem writeByte_peerKind (d : Byte) (r : Bool) (s : State) : (writeByte d r s).peerKind = s.peerKind := by simp [writeByte]
@[simp] theorem writeByte_conv (d : Byte) (r : Bool) (s : State) : (writeByte d r s).conv = s.conv := by simp [writeByte]
@[simp] theorem writeByte_pend (d : Byte) (r : Bool) (s : State) : (writeByte d r s).pend = s.pend := by simp [writeByte]

/-- R165: the lines after a byte sent. -/
@[simp] theorem writeByte_pads (d : Byte) (r : Bool) (s : State) :
    (writeByte d r s).pads = { s.pads with
      sclk := { s.pads.sclk with out := r }, io := ⟨d.getLsbD 7, !r && s.pads.io.oe⟩ } := by
  cases r <;> simp [writeByte, writeByteEvents, bitOrder, writeBitEvents, padsAfter, Event.onPads, Pads.setOut,
    Pads.setOe]

/-! ### sampleBit -/

@[simp] theorem sampleBit_pins (i : BitVec 3) (s : State) : (sampleBit i s).pins = s.pins := (rfl)
@[simp] theorem sampleBit_present (i : BitVec 3) (s : State) : (sampleBit i s).present = s.present := (rfl)
@[simp] theorem sampleBit_pads (i : BitVec 3) (s : State) : (sampleBit i s).pads = s.pads := (rfl)
@[simp] theorem sampleBit_sess (i : BitVec 3) (s : State) : (sampleBit i s).sess = s.sess := (rfl)
@[simp] theorem sampleBit_hist (i : BitVec 3) (s : State) : (sampleBit i s).hist = s.hist := (rfl)
@[simp] theorem sampleBit_sr (i : BitVec 3) (s : State) : (sampleBit i s).sr = setBit s.sr i.toNat (sampleIo s) := (rfl)
@[simp] theorem sampleBit_bitcnt (i : BitVec 3) (s : State) : (sampleBit i s).bitcnt = i := (rfl)
@[simp] theorem sampleBit_bytecnt (i : BitVec 3) (s : State) : (sampleBit i s).bytecnt = s.bytecnt := (rfl)
@[simp] theorem sampleBit_rel (i : BitVec 3) (s : State) : (sampleBit i s).rel = s.rel := (rfl)
@[simp] theorem sampleBit_trec (i : BitVec 3) (s : State) : (sampleBit i s).trec = s.trec := (rfl)
@[simp] theorem sampleBit_img (i : BitVec 3) (s : State) : (sampleBit i s).img = s.img := (rfl)
@[simp] theorem sampleBit_addr (i : BitVec 3) (s : State) : (sampleBit i s).addr = s.addr := (rfl)
@[simp] theorem sampleBit_wdata (i : BitVec 3) (s : State) : (sampleBit i s).wdata = s.wdata := (rfl)
@[simp] theorem sampleBit_rdata (i : BitVec 3) (s : State) : (sampleBit i s).rdata = s.rdata := (rfl)
@[simp] theorem sampleBit_ok (i : BitVec 3) (s : State) : (sampleBit i s).ok = s.ok := (rfl)
@[simp] theorem sampleBit_lin (i : BitVec 3) (s : State) : (sampleBit i s).lin = s.lin := (rfl)
@[simp] theorem sampleBit_seq (i : BitVec 3) (s : State) : (sampleBit i s).seq = s.seq := (rfl)
@[simp] theorem sampleBit_rspValid (i : BitVec 3) (s : State) : (sampleBit i s).rspValid = s.rspValid := (rfl)
@[simp] theorem sampleBit_ev (i : BitVec 3) (s : State) : (sampleBit i s).ev = s.ev ++ [.smp (sampleIo s)] := (rfl)
@[simp] theorem sampleBit_mark (i : BitVec 3) (s : State) : (sampleBit i s).mark = s.mark := (rfl)
@[simp] theorem sampleBit_peerKind (i : BitVec 3) (s : State) : (sampleBit i s).peerKind = s.peerKind := (rfl)
@[simp] theorem sampleBit_conv (i : BitVec 3) (s : State) : (sampleBit i s).conv = s.conv := (rfl)
@[simp] theorem sampleBit_pend (i : BitVec 3) (s : State) : (sampleBit i s).pend = s.pend := (rfl)
@[simp] theorem sampleBit_draws (i : BitVec 3) (s : State) : (sampleBit i s).draws = s.draws + 1 := (rfl)

/-! ### readBit -/

@[simp] theorem readBit_pins (i : BitVec 3) (s : State) : (readBit i s).pins = s.pins := (rfl)
@[simp] theorem readBit_present (i : BitVec 3) (s : State) : (readBit i s).present = s.present := (rfl)
@[simp] theorem readBit_pads (i : BitVec 3) (s : State) : (readBit i s).pads = { s.pads with sclk := { s.pads.sclk with out := false } } := (rfl)
@[simp] theorem readBit_sess (i : BitVec 3) (s : State) : (readBit i s).sess = s.sess := (rfl)
@[simp] theorem readBit_hist (i : BitVec 3) (s : State) : (readBit i s).hist = s.hist := (rfl)
@[simp] theorem readBit_bitcnt (i : BitVec 3) (s : State) : (readBit i s).bitcnt = i := (rfl)
@[simp] theorem readBit_bytecnt (i : BitVec 3) (s : State) : (readBit i s).bytecnt = s.bytecnt := (rfl)
@[simp] theorem readBit_rel (i : BitVec 3) (s : State) : (readBit i s).rel = s.rel := (rfl)
@[simp] theorem readBit_trec (i : BitVec 3) (s : State) : (readBit i s).trec = s.trec := (rfl)
@[simp] theorem readBit_img (i : BitVec 3) (s : State) : (readBit i s).img = s.img := (rfl)
@[simp] theorem readBit_addr (i : BitVec 3) (s : State) : (readBit i s).addr = s.addr := (rfl)
@[simp] theorem readBit_wdata (i : BitVec 3) (s : State) : (readBit i s).wdata = s.wdata := (rfl)
@[simp] theorem readBit_rdata (i : BitVec 3) (s : State) : (readBit i s).rdata = s.rdata := (rfl)
@[simp] theorem readBit_ok (i : BitVec 3) (s : State) : (readBit i s).ok = s.ok := (rfl)
@[simp] theorem readBit_lin (i : BitVec 3) (s : State) : (readBit i s).lin = s.lin := (rfl)
@[simp] theorem readBit_seq (i : BitVec 3) (s : State) : (readBit i s).seq = s.seq := (rfl)
@[simp] theorem readBit_rspValid (i : BitVec 3) (s : State) : (readBit i s).rspValid = s.rspValid := (rfl)
@[simp] theorem readBit_mark (i : BitVec 3) (s : State) : (readBit i s).mark = s.mark := (rfl)
@[simp] theorem readBit_peerKind (i : BitVec 3) (s : State) : (readBit i s).peerKind = s.peerKind := (rfl)
@[simp] theorem readBit_conv (i : BitVec 3) (s : State) : (readBit i s).conv = s.conv := (rfl)
@[simp] theorem readBit_pend (i : BitVec 3) (s : State) : (readBit i s).pend = s.pend := (rfl)
@[simp] theorem readBit_draws (i : BitVec 3) (s : State) : (readBit i s).draws = s.draws + 5 := (rfl)

/-! ### readBits and readByte -/

@[simp] theorem readBits_pins (is : List (BitVec 3)) (s : State) : (readBits is s).pins = s.pins := by
  induction is generalizing s with
  | nil => rfl
  | cons i is ih => exact (ih (readBit i s)).trans (readBit_pins i s)
@[simp] theorem readBits_present (is : List (BitVec 3)) (s : State) : (readBits is s).present = s.present := by
  induction is generalizing s with
  | nil => rfl
  | cons i is ih => exact (ih (readBit i s)).trans (readBit_present i s)
@[simp] theorem readBits_sess (is : List (BitVec 3)) (s : State) : (readBits is s).sess = s.sess := by
  induction is generalizing s with
  | nil => rfl
  | cons i is ih => exact (ih (readBit i s)).trans (readBit_sess i s)
@[simp] theorem readBits_hist (is : List (BitVec 3)) (s : State) : (readBits is s).hist = s.hist := by
  induction is generalizing s with
  | nil => rfl
  | cons i is ih => exact (ih (readBit i s)).trans (readBit_hist i s)
@[simp] theorem readBits_bytecnt (is : List (BitVec 3)) (s : State) : (readBits is s).bytecnt = s.bytecnt := by
  induction is generalizing s with
  | nil => rfl
  | cons i is ih => exact (ih (readBit i s)).trans (readBit_bytecnt i s)
@[simp] theorem readBits_rel (is : List (BitVec 3)) (s : State) : (readBits is s).rel = s.rel := by
  induction is generalizing s with
  | nil => rfl
  | cons i is ih => exact (ih (readBit i s)).trans (readBit_rel i s)
@[simp] theorem readBits_trec (is : List (BitVec 3)) (s : State) : (readBits is s).trec = s.trec := by
  induction is generalizing s with
  | nil => rfl
  | cons i is ih => exact (ih (readBit i s)).trans (readBit_trec i s)
@[simp] theorem readBits_img (is : List (BitVec 3)) (s : State) : (readBits is s).img = s.img := by
  induction is generalizing s with
  | nil => rfl
  | cons i is ih => exact (ih (readBit i s)).trans (readBit_img i s)
@[simp] theorem readBits_addr (is : List (BitVec 3)) (s : State) : (readBits is s).addr = s.addr := by
  induction is generalizing s with
  | nil => rfl
  | cons i is ih => exact (ih (readBit i s)).trans (readBit_addr i s)
@[simp] theorem readBits_wdata (is : List (BitVec 3)) (s : State) : (readBits is s).wdata = s.wdata := by
  induction is generalizing s with
  | nil => rfl
  | cons i is ih => exact (ih (readBit i s)).trans (readBit_wdata i s)
@[simp] theorem readBits_rdata (is : List (BitVec 3)) (s : State) : (readBits is s).rdata = s.rdata := by
  induction is generalizing s with
  | nil => rfl
  | cons i is ih => exact (ih (readBit i s)).trans (readBit_rdata i s)
@[simp] theorem readBits_ok (is : List (BitVec 3)) (s : State) : (readBits is s).ok = s.ok := by
  induction is generalizing s with
  | nil => rfl
  | cons i is ih => exact (ih (readBit i s)).trans (readBit_ok i s)
@[simp] theorem readBits_lin (is : List (BitVec 3)) (s : State) : (readBits is s).lin = s.lin := by
  induction is generalizing s with
  | nil => rfl
  | cons i is ih => exact (ih (readBit i s)).trans (readBit_lin i s)
@[simp] theorem readBits_seq (is : List (BitVec 3)) (s : State) : (readBits is s).seq = s.seq := by
  induction is generalizing s with
  | nil => rfl
  | cons i is ih => exact (ih (readBit i s)).trans (readBit_seq i s)
@[simp] theorem readBits_rspValid (is : List (BitVec 3)) (s : State) : (readBits is s).rspValid = s.rspValid := by
  induction is generalizing s with
  | nil => rfl
  | cons i is ih => exact (ih (readBit i s)).trans (readBit_rspValid i s)
@[simp] theorem readBits_mark (is : List (BitVec 3)) (s : State) : (readBits is s).mark = s.mark := by
  induction is generalizing s with
  | nil => rfl
  | cons i is ih => exact (ih (readBit i s)).trans (readBit_mark i s)
@[simp] theorem readBits_peerKind (is : List (BitVec 3)) (s : State) : (readBits is s).peerKind = s.peerKind := by
  induction is generalizing s with
  | nil => rfl
  | cons i is ih => exact (ih (readBit i s)).trans (readBit_peerKind i s)
@[simp] theorem readBits_conv (is : List (BitVec 3)) (s : State) : (readBits is s).conv = s.conv := by
  induction is generalizing s with
  | nil => rfl
  | cons i is ih => exact (ih (readBit i s)).trans (readBit_conv i s)
@[simp] theorem readBits_pend (is : List (BitVec 3)) (s : State) : (readBits is s).pend = s.pend := by
  induction is generalizing s with
  | nil => rfl
  | cons i is ih => exact (ih (readBit i s)).trans (readBit_pend i s)

@[simp] theorem readByte_pins (s : State) : (readByte s).pins = s.pins := readBits_pins bitOrder s
@[simp] theorem readByte_present (s : State) : (readByte s).present = s.present := readBits_present bitOrder s
@[simp] theorem readByte_sess (s : State) : (readByte s).sess = s.sess := readBits_sess bitOrder s
@[simp] theorem readByte_hist (s : State) : (readByte s).hist = .reading := (rfl)
@[simp] theorem readByte_bytecnt (s : State) : (readByte s).bytecnt = s.bytecnt := readBits_bytecnt bitOrder s
@[simp] theorem readByte_rel (s : State) : (readByte s).rel = s.rel := readBits_rel bitOrder s
@[simp] theorem readByte_trec (s : State) : (readByte s).trec = s.trec := readBits_trec bitOrder s
@[simp] theorem readByte_img (s : State) : (readByte s).img = s.img := readBits_img bitOrder s
@[simp] theorem readByte_addr (s : State) : (readByte s).addr = s.addr := readBits_addr bitOrder s
@[simp] theorem readByte_wdata (s : State) : (readByte s).wdata = s.wdata := readBits_wdata bitOrder s
@[simp] theorem readByte_rdata (s : State) : (readByte s).rdata = s.rdata := readBits_rdata bitOrder s
@[simp] theorem readByte_ok (s : State) : (readByte s).ok = s.ok := readBits_ok bitOrder s
@[simp] theorem readByte_lin (s : State) : (readByte s).lin = s.lin := readBits_lin bitOrder s
@[simp] theorem readByte_seq (s : State) : (readByte s).seq = s.seq := readBits_seq bitOrder s
@[simp] theorem readByte_rspValid (s : State) : (readByte s).rspValid = s.rspValid := readBits_rspValid bitOrder s
@[simp] theorem readByte_mark (s : State) : (readByte s).mark = s.mark := readBits_mark bitOrder s
@[simp] theorem readByte_peerKind (s : State) : (readByte s).peerKind = s.peerKind := readBits_peerKind bitOrder s
@[simp] theorem readByte_conv (s : State) : (readByte s).conv = s.conv := readBits_conv bitOrder s
@[simp] theorem readByte_pend (s : State) : (readByte s).pend = s.pend := readBits_pend bitOrder s
@[simp] theorem readByte_bitcnt (s : State) : (readByte s).bitcnt = 7 := by simp [readByte, readBits, bitOrder]
@[simp] theorem readByte_draws (s : State) : (readByte s).draws = s.draws + 40 := by simp [readByte, readBits, bitOrder]

/-- R168: the lines after a byte read. -/
@[simp] theorem readByte_pads (s : State) :
    (readByte s).pads = { s.pads with sclk := { s.pads.sclk with out := false } } := by simp [readByte, readBits, bitOrder]

end Sys2Proof.Machine
end

