-- ==== Sys2Proof/Laws/Ops.lean ====
section
/-!
SUPPORT. What each shared operation can do, said once: the form of the state after a byte, a transaction, a clock
access, and when a guarded operation answers a next state. Statements about instructions cite these.
-/

namespace Sys2Proof.Machine

/-! ## Bits -/

theorem getLsbD_setBit (b : Byte) {i : Nat} (hi : i < 8) (v : Bool) (j : Nat) :
    (setBit b i v).getLsbD j = if j = i then v else b.getLsbD j := by
  by_cases hj : j < 8
  · interval_cases i <;> interval_cases j <;> cases v <;> simp [setBit]
  · have h : ¬ j = i := by omega
    rw [if_neg h, BitVec.getLsbD_of_ge _ j (by omega), BitVec.getLsbD_of_ge _ j (by omega)]

/-! ## Guards -/

/-- An operation with line events answers a next state exactly if its precondition holds and the reference peer, if it
is the peer, has not refused. -/
theorem guarded_next {s t u : State} {pre : Option Refusal} :
    guarded s pre t = .next u ↔
      pre = none ∧ peerRefusal s.peerKind t.peer = none ∧ u = { t with rspValid := true } := by
  cases pre with
  | some r => simp [guarded]
  | none =>
    cases h : peerRefusal s.peerKind t.peer <;> simp [guarded, finish, h, eq_comm]

theorem guardedQuietly_next {t u : State} {pre : Option Refusal} :
    guardedQuietly pre t = .next u ↔ pre = none ∧ u = { t with rspValid := true } := by
  cases pre <;> simp [guardedQuietly, eq_comm]

theorem peerRefusal_of_ne {k : PeerKind} (h : k ≠ .reference) (p : Peer) : peerRefusal k p = none := by
  cases k <;> simp_all [peerRefusal]

/-- With a peer that goes on, an operation whose precondition holds completes. -/
theorem guarded_of_going_on {s t : State} {pre : Option Refusal} (hpre : pre = none) (h : s.peerKind ≠ .reference) :
    guarded s pre t = .next { t with rspValid := true } :=
  guarded_next.2 ⟨hpre, peerRefusal_of_ne h _, rfl⟩

theorem firstRefusal_none {ps : List Precondition} : firstRefusal ps = none ↔ ∀ q ∈ ps, q.1 = false := by
  induction ps with
  | nil => simp [firstRefusal]
  | cons q ps ih => cases h : q.1 <;> simp [firstRefusal, h, ih]

theorem sess_ne_opened {x : Sess} : x ≠ .opened ↔ x = .closed := by cases x <;> simp
theorem sess_ne_closed {x : Sess} : x ≠ .closed ↔ x = .opened := by cases x <;> simp

theorem preSession_none {s : State} : preSession s = none ↔ s.ready := by
  simp [preSession, firstRefusal_none, needsBound, needsIdle, needsClosed, State.busy, State.ready, sess_ne_opened]

theorem preClkwrite_none {r : TRec} {s : State} : preClkwrite r s = none ↔ s.ready ∧ trecInRange r = true := by
  simp [preClkwrite, firstRefusal_none, needsBound, needsIdle, needsClosed, needsInRange, State.busy, State.ready,
    sess_ne_opened, and_assoc]

theorem preStop_none {s : State} : preStop s = none ↔
    s.present = true ∧ s.seq = .idle ∧ s.sess = .opened ∧ (s.hist = .written ∨ s.hist = .reading) := by
  simp only [preStop, firstRefusal_none, needsBound, needsIdle, needsOpen, State.busy, List.mem_cons, List.not_mem_nil,
    or_false, forall_eq_or_imp, forall_eq, Bool.not_eq_false', bne_eq_false_iff_eq, beq_eq_false_iff_ne,
    sess_ne_closed]
  cases s.hist <;> simp

theorem preWrbyte_none {rel : Bool} {s : State} : preWrbyte rel s = none ↔
    s.present = true ∧ s.seq = .idle ∧ s.sess = .opened ∧ s.pads.io.oe = true ∧ s.pads.sclk.out = false ∧
      (rel = true → s.hist = .fresh) := by
  simp only [preWrbyte, firstRefusal_none, needsBound, needsIdle, needsOpen, State.busy, List.mem_cons,
    List.not_mem_nil, or_false, forall_eq_or_imp, forall_eq, Bool.not_eq_false', bne_eq_false_iff_eq,
    beq_eq_false_iff_ne, sess_ne_closed]
  cases rel <;> simp

theorem preRdbyte_none {s : State} : preRdbyte s = none ↔
    s.present = true ∧ s.seq = .idle ∧ s.sess = .opened ∧ s.pads.io.oe = false ∧
      (s.hist = .reading ∨ s.pads.sclk.out = true) := by
  simp only [preRdbyte, firstRefusal_none, needsBound, needsIdle, needsOpen, State.busy, List.mem_cons,
    List.not_mem_nil, or_false, forall_eq_or_imp, forall_eq, Bool.not_eq_false', bne_eq_false_iff_eq,
    beq_eq_false_iff_ne, sess_ne_closed]
  cases s.hist <;> simp

theorem preBind_none {p : Pins} {s : State} : preBind p s = none ↔
    s.seq = .idle ∧ s.present = false ∧ p.io ≠ p.sclk ∧ p.io ≠ p.ce ∧ p.sclk ≠ p.ce := by
  simp [preBind, firstRefusal_none, needsIdle, State.busy, and_assoc]

theorem preIdle_none {s : State} : preIdle s = none ↔ s.seq = .idle := by
  simp [preIdle, firstRefusal_none, needsIdle, State.busy]

/-! ## Bytes -/

@[simp] theorem writeByte_draws (d : Byte) (r : Bool) (s : State) :
    (writeByte d r s).draws = s.draws + if r then 47 else 48 := by
  cases r <;> simp [writeByte, writeByteEvents, bitOrder, writeBitEvents]

/-- Everything `WRBYTE` does to the block (R164, R165). -/
theorem writeByte_spec (d : Byte) (r : Bool) (s : State) : writeByte d r s = { s with
    sr := d, rel := r, bitcnt := 7, hist := if r then .released else .written
    pads := ⟨s.pads.ce, ⟨r, s.pads.sclk.oe⟩, ⟨d.getLsbD 7, !r && s.pads.io.oe⟩⟩
    ev := s.ev ++ writeByteEvents d r, draws := s.draws + (if r then 47 else 48)
    peer := (writeByte d r s).peer } := by
  ext1 <;> simp

/-- `RDBYTE` as its eight bits. -/
theorem readByte_eq (s : State) : readByte s =
    { readBit 7 (readBit 6 (readBit 5 (readBit 4 (readBit 3 (readBit 2 (readBit 1 (readBit 0 s)))))))
      with hist := .reading } := rfl

/-- The trace of one bit read tells the bit (R168). -/
theorem readBit_ev (i : BitVec 3) (s : State) :
    (readBit i s).ev = s.ev ++ readBitEvents ++ [.smp ((readBit i s).sr.getLsbD i.toNat)] := by
  simp [readBit, getLsbD_setBit _ i.isLt]

theorem readBit_sr_other (i : BitVec 3) (s : State) {j : Nat} (h : j ≠ i.toNat) :
    (readBit i s).sr.getLsbD j = s.sr.getLsbD j := by
  simp [readBit, getLsbD_setBit _ i.isLt, h]

/-- The samples of a byte, in order, are its bits: the trace of `RDBYTE` tells the byte (R168). -/
theorem readByte_ev (s : State) : (readByte s).ev = s.ev ++ readByteEvents (readByte s).sr := by
  simp [readByte_eq, readBit_ev, readByteEvents, bitOrder, readBit_sr_other, -BitVec.getLsbD_eq_getElem]

/-- Everything `RDBYTE` does to the block (R168). -/
theorem readByte_spec (s : State) : readByte s = { s with
    sr := (readByte s).sr, bitcnt := 7, hist := .reading
    pads := { s.pads with sclk := { s.pads.sclk with out := false } }
    ev := s.ev ++ readByteEvents (readByte s).sr, draws := s.draws + 40, peer := (readByte s).peer } := by
  ext1 <;> simp [readByte_ev]

/-! ## Transactions -/

@[simp] theorem regRead_pins (c : Byte) (s : State) : (regRead c s).pins = s.pins := by rw [regRead]; simp
@[simp] theorem regRead_present (c : Byte) (s : State) : (regRead c s).present = s.present := by rw [regRead]; simp
@[simp] theorem regRead_pads (c : Byte) (s : State) : (regRead c s).pads = ⟨⟨false, true⟩, ⟨false, true⟩, ⟨c.getLsbD 7, false⟩⟩ := by
  rw [regRead]; simp
@[simp] theorem regRead_sess (c : Byte) (s : State) : (regRead c s).sess = .closed := by rw [regRead]; simp
@[simp] theorem regRead_hist (c : Byte) (s : State) : (regRead c s).hist = .reading := by rw [regRead]; simp
@[simp] theorem regRead_sr (c : Byte) (s : State) : (regRead c s).sr = (regRead c s).rdata := by rw [regRead]
@[simp] theorem regRead_bitcnt (c : Byte) (s : State) : (regRead c s).bitcnt = 7 := by rw [regRead]; simp
@[simp] theorem regRead_bytecnt (c : Byte) (s : State) : (regRead c s).bytecnt = s.bytecnt := by rw [regRead]; simp
@[simp] theorem regRead_rel (c : Byte) (s : State) : (regRead c s).rel = true := by rw [regRead]; simp
@[simp] theorem regRead_trec (c : Byte) (s : State) : (regRead c s).trec = s.trec := by rw [regRead]; simp
@[simp] theorem regRead_img (c : Byte) (s : State) : (regRead c s).img = s.img := by rw [regRead]; simp
@[simp] theorem regRead_addr (c : Byte) (s : State) : (regRead c s).addr = s.addr := by rw [regRead]; simp
@[simp] theorem regRead_wdata (c : Byte) (s : State) : (regRead c s).wdata = s.wdata := by rw [regRead]; simp
@[simp] theorem regRead_ok (c : Byte) (s : State) : (regRead c s).ok = s.ok := by rw [regRead]; simp
@[simp] theorem regRead_lin (c : Byte) (s : State) : (regRead c s).lin = s.lin := by rw [regRead]; simp
@[simp] theorem regRead_seq (c : Byte) (s : State) : (regRead c s).seq = s.seq := by rw [regRead]; simp
@[simp] theorem regRead_rspValid (c : Byte) (s : State) : (regRead c s).rspValid = s.rspValid := by rw [regRead]; simp
@[simp] theorem regRead_ev (c : Byte) (s : State) : (regRead c s).ev = s.ev ++ regReadEvents c (regRead c s).rdata := by
  rw [regRead]; simp [readByte_ev, regReadEvents]
@[simp] theorem regRead_mark (c : Byte) (s : State) : (regRead c s).mark = s.mark := by rw [regRead]; simp
@[simp] theorem regRead_peerKind (c : Byte) (s : State) : (regRead c s).peerKind = s.peerKind := by rw [regRead]; simp
@[simp] theorem regRead_conv (c : Byte) (s : State) : (regRead c s).conv = s.conv := by rw [regRead]; simp
@[simp] theorem regRead_pend (c : Byte) (s : State) : (regRead c s).pend = s.pend := by rw [regRead]; simp
@[simp] theorem regRead_draws (c : Byte) (s : State) : (regRead c s).draws = s.draws + 95 := by rw [regRead]; simp

/-- Everything a single-register read session does to the block (R190). -/
theorem regRead_spec (c : Byte) (s : State) : regRead c s = { s with
    sr := (regRead c s).rdata, rdata := (regRead c s).rdata, rel := true, bitcnt := 7, hist := .reading
    sess := .closed, pads := ⟨⟨false, true⟩, ⟨false, true⟩, ⟨c.getLsbD 7, false⟩⟩
    ev := s.ev ++ regReadEvents c (regRead c s).rdata, draws := s.draws + 95, peer := (regRead c s).peer } := by
  ext1 <;> simp

@[simp] theorem regWrite_pins (c d : Byte) (s : State) : (regWrite c d s).pins = s.pins := by rw [regWrite]; simp
@[simp] theorem regWrite_present (c d : Byte) (s : State) : (regWrite c d s).present = s.present := by rw [regWrite]; simp
@[simp] theorem regWrite_pads (c d : Byte) (s : State) : (regWrite c d s).pads = ⟨⟨false, true⟩, ⟨false, true⟩, ⟨d.getLsbD 7, true⟩⟩ := by
  rw [regWrite]; simp
@[simp] theorem regWrite_sess (c d : Byte) (s : State) : (regWrite c d s).sess = .closed := by rw [regWrite]; simp
@[simp] theorem regWrite_hist (c d : Byte) (s : State) : (regWrite c d s).hist = .written := by rw [regWrite]; simp
@[simp] theorem regWrite_sr (c d : Byte) (s : State) : (regWrite c d s).sr = d := by rw [regWrite]; simp
@[simp] theorem regWrite_bitcnt (c d : Byte) (s : State) : (regWrite c d s).bitcnt = 7 := by rw [regWrite]; simp
@[simp] theorem regWrite_bytecnt (c d : Byte) (s : State) : (regWrite c d s).bytecnt = s.bytecnt := by rw [regWrite]; simp
@[simp] theorem regWrite_rel (c d : Byte) (s : State) : (regWrite c d s).rel = false := by rw [regWrite]; simp
@[simp] theorem regWrite_trec (c d : Byte) (s : State) : (regWrite c d s).trec = s.trec := by rw [regWrite]; simp
@[simp] theorem regWrite_img (c d : Byte) (s : State) : (regWrite c d s).img = s.img := by rw [regWrite]; simp
@[simp] theorem regWrite_addr (c d : Byte) (s : State) : (regWrite c d s).addr = s.addr := by rw [regWrite]; simp
@[simp] theorem regWrite_wdata (c d : Byte) (s : State) : (regWrite c d s).wdata = s.wdata := by rw [regWrite]; simp
@[simp] theorem regWrite_rdata (c d : Byte) (s : State) : (regWrite c d s).rdata = s.rdata := by rw [regWrite]; simp
@[simp] theorem regWrite_ok (c d : Byte) (s : State) : (regWrite c d s).ok = s.ok := by rw [regWrite]; simp
@[simp] theorem regWrite_lin (c d : Byte) (s : State) : (regWrite c d s).lin = s.lin := by rw [regWrite]; simp
@[simp] theorem regWrite_seq (c d : Byte) (s : State) : (regWrite c d s).seq = s.seq := by rw [regWrite]; simp
@[simp] theorem regWrite_rspValid (c d : Byte) (s : State) : (regWrite c d s).rspValid = s.rspValid := by
  rw [regWrite]; simp
@[simp] theorem regWrite_ev (c d : Byte) (s : State) : (regWrite c d s).ev = s.ev ++ regWriteEvents c d := by
  rw [regWrite]; simp [regWriteEvents]
@[simp] theorem regWrite_mark (c d : Byte) (s : State) : (regWrite c d s).mark = s.mark := by rw [regWrite]; simp
@[simp] theorem regWrite_peerKind (c d : Byte) (s : State) : (regWrite c d s).peerKind = s.peerKind := by
  rw [regWrite]; simp
@[simp] theorem regWrite_conv (c d : Byte) (s : State) : (regWrite c d s).conv = s.conv := by rw [regWrite]; simp
@[simp] theorem regWrite_pend (c d : Byte) (s : State) : (regWrite c d s).pend = s.pend := by rw [regWrite]; simp
@[simp] theorem regWrite_draws (c d : Byte) (s : State) : (regWrite c d s).draws = s.draws + 104 := by rw [regWrite]; simp

/-- Everything a single-register write session does to the block (R192). -/
theorem regWrite_spec (c d : Byte) (s : State) : regWrite c d s = { s with
    sr := d, rel := false, bitcnt := 7, hist := .written
    sess := .closed, pads := ⟨⟨false, true⟩, ⟨false, true⟩, ⟨d.getLsbD 7, true⟩⟩
    ev := s.ev ++ regWriteEvents c d, draws := s.draws + 104, peer := (regWrite c d s).peer } := by
  ext1 <;> simp

/-! ### The bytes of a burst -/

@[simp] theorem burstReadByte_pins (k : BitVec 4) (s : State) :
    (burstReadByte k s).pins = s.pins := by simp [burstReadByte]
@[simp] theorem burstReadByte_present (k : BitVec 4) (s : State) :
    (burstReadByte k s).present = s.present := by simp [burstReadByte]
@[simp] theorem burstReadByte_pads (k : BitVec 4) (s : State) :
    (burstReadByte k s).pads = { s.pads with sclk := { s.pads.sclk with out := false } } := by simp [burstReadByte]
@[simp] theorem burstReadByte_sess (k : BitVec 4) (s : State) :
    (burstReadByte k s).sess = s.sess := by simp [burstReadByte]
@[simp] theorem burstReadByte_hist (k : BitVec 4) (s : State) :
    (burstReadByte k s).hist = .reading := by simp [burstReadByte]
@[simp] theorem burstReadByte_bitcnt (k : BitVec 4) (s : State) :
    (burstReadByte k s).bitcnt = 7 := by simp [burstReadByte]
@[simp] theorem burstReadByte_bytecnt (k : BitVec 4) (s : State) :
    (burstReadByte k s).bytecnt = k := by simp [burstReadByte]
@[simp] theorem burstReadByte_rel (k : BitVec 4) (s : State) :
    (burstReadByte k s).rel = s.rel := by simp [burstReadByte]
@[simp] theorem burstReadByte_trec (k : BitVec 4) (s : State) :
    (burstReadByte k s).trec = s.trec := by simp [burstReadByte]
@[simp] theorem burstReadByte_img (k : BitVec 4) (s : State) :
    (burstReadByte k s).img = s.img.set k.toNat (burstReadByte k s).sr := by simp [burstReadByte]
@[simp] theorem burstReadByte_addr (k : BitVec 4) (s : State) :
    (burstReadByte k s).addr = s.addr := by simp [burstReadByte]
@[simp] theorem burstReadByte_wdata (k : BitVec 4) (s : State) :
    (burstReadByte k s).wdata = s.wdata := by simp [burstReadByte]
@[simp] theorem burstReadByte_rdata (k : BitVec 4) (s : State) :
    (burstReadByte k s).rdata = s.rdata := by simp [burstReadByte]
@[simp] theorem burstReadByte_ok (k : BitVec 4) (s : State) :
    (burstReadByte k s).ok = s.ok := by simp [burstReadByte]
@[simp] theorem burstReadByte_lin (k : BitVec 4) (s : State) :
    (burstReadByte k s).lin = s.lin := by simp [burstReadByte]
@[simp] theorem burstReadByte_seq (k : BitVec 4) (s : State) :
    (burstReadByte k s).seq = s.seq := by simp [burstReadByte]
@[simp] theorem burstReadByte_rspValid (k : BitVec 4) (s : State) :
    (burstReadByte k s).rspValid = s.rspValid := by simp [burstReadByte]
@[simp] theorem burstReadByte_mark (k : BitVec 4) (s : State) :
    (burstReadByte k s).mark = s.mark := by simp [burstReadByte]
@[simp] theorem burstReadByte_peerKind (k : BitVec 4) (s : State) :
    (burstReadByte k s).peerKind = s.peerKind := by simp [burstReadByte]
@[simp] theorem burstReadByte_conv (k : BitVec 4) (s : State) :
    (burstReadByte k s).conv = s.conv := by simp [burstReadByte]
@[simp] theorem burstReadByte_pend (k : BitVec 4) (s : State) :
    (burstReadByte k s).pend = s.pend := by simp [burstReadByte]
@[simp] theorem burstReadByte_draws (k : BitVec 4) (s : State) :
    (burstReadByte k s).draws = s.draws + 40 := by simp [burstReadByte]

theorem image_get_set (v : Image) (b : Byte) {k j : Nat} (hk : k < 8) (hj : j < 8) :
    (v.set k b).get j = if j = k then b else v.get j := by
  interval_cases k <;> interval_cases j <;> rfl

/-- The trace of one burst byte tells the byte. -/
theorem burstReadByte_ev (k : BitVec 4) (s : State) :
    (burstReadByte k s).ev = s.ev ++ readByteEvents (burstReadByte k s).sr := by
  simp [burstReadByte, readByte_ev]

/-! A burst changes in the block only the fields its bytes change. -/

@[simp] theorem burstReadBytes_pins (ks : List (BitVec 4)) (s : State) : (burstReadBytes ks s).pins = s.pins := by
  induction ks generalizing s with
  | nil => rfl
  | cons k ks ih => rw [burstReadBytes, ih]; simp
@[simp] theorem burstWriteBytes_pins (ks : List (BitVec 4)) (s : State) : (burstWriteBytes ks s).pins = s.pins := by
  induction ks generalizing s with
  | nil => rfl
  | cons k ks ih => rw [burstWriteBytes, ih]; simp [burstWriteByte]
@[simp] theorem burstReadBytes_present (ks : List (BitVec 4)) (s : State) : (burstReadBytes ks s).present = s.present := by
  induction ks generalizing s with
  | nil => rfl
  | cons k ks ih => rw [burstReadBytes, ih]; simp
@[simp] theorem burstWriteBytes_present (ks : List (BitVec 4)) (s : State) : (burstWriteBytes ks s).present = s.present := by
  induction ks generalizing s with
  | nil => rfl
  | cons k ks ih => rw [burstWriteBytes, ih]; simp [burstWriteByte]
@[simp] theorem burstReadBytes_sess (ks : List (BitVec 4)) (s : State) : (burstReadBytes ks s).sess = s.sess := by
  induction ks generalizing s with
  | nil => rfl
  | cons k ks ih => rw [burstReadBytes, ih]; simp
@[simp] theorem burstWriteBytes_sess (ks : List (BitVec 4)) (s : State) : (burstWriteBytes ks s).sess = s.sess := by
  induction ks generalizing s with
  | nil => rfl
  | cons k ks ih => rw [burstWriteBytes, ih]; simp [burstWriteByte]
@[simp] theorem burstReadBytes_trec (ks : List (BitVec 4)) (s : State) : (burstReadBytes ks s).trec = s.trec := by
  induction ks generalizing s with
  | nil => rfl
  | cons k ks ih => rw [burstReadBytes, ih]; simp
@[simp] theorem burstWriteBytes_trec (ks : List (BitVec 4)) (s : State) : (burstWriteBytes ks s).trec = s.trec := by
  induction ks generalizing s with
  | nil => rfl
  | cons k ks ih => rw [burstWriteBytes, ih]; simp [burstWriteByte]
@[simp] theorem burstReadBytes_addr (ks : List (BitVec 4)) (s : State) : (burstReadBytes ks s).addr = s.addr := by
  induction ks generalizing s with
  | nil => rfl
  | cons k ks ih => rw [burstReadBytes, ih]; simp
@[simp] theorem burstWriteBytes_addr (ks : List (BitVec 4)) (s : State) : (burstWriteBytes ks s).addr = s.addr := by
  induction ks generalizing s with
  | nil => rfl
  | cons k ks ih => rw [burstWriteBytes, ih]; simp [burstWriteByte]
@[simp] theorem burstReadBytes_wdata (ks : List (BitVec 4)) (s : State) : (burstReadBytes ks s).wdata = s.wdata := by
  induction ks generalizing s with
  | nil => rfl
  | cons k ks ih => rw [burstReadBytes, ih]; simp
@[simp] theorem burstWriteBytes_wdata (ks : List (BitVec 4)) (s : State) : (burstWriteBytes ks s).wdata = s.wdata := by
  induction ks generalizing s with
  | nil => rfl
  | cons k ks ih => rw [burstWriteBytes, ih]; simp [burstWriteByte]
@[simp] theorem burstReadBytes_rdata (ks : List (BitVec 4)) (s : State) : (burstReadBytes ks s).rdata = s.rdata := by
  induction ks generalizing s with
  | nil => rfl
  | cons k ks ih => rw [burstReadBytes, ih]; simp
@[simp] theorem burstWriteBytes_rdata (ks : List (BitVec 4)) (s : State) : (burstWriteBytes ks s).rdata = s.rdata := by
  induction ks generalizing s with
  | nil => rfl
  | cons k ks ih => rw [burstWriteBytes, ih]; simp [burstWriteByte]
@[simp] theorem burstReadBytes_ok (ks : List (BitVec 4)) (s : State) : (burstReadBytes ks s).ok = s.ok := by
  induction ks generalizing s with
  | nil => rfl
  | cons k ks ih => rw [burstReadBytes, ih]; simp
@[simp] theorem burstWriteBytes_ok (ks : List (BitVec 4)) (s : State) : (burstWriteBytes ks s).ok = s.ok := by
  induction ks generalizing s with
  | nil => rfl
  | cons k ks ih => rw [burstWriteBytes, ih]; simp [burstWriteByte]
@[simp] theorem burstReadBytes_lin (ks : List (BitVec 4)) (s : State) : (burstReadBytes ks s).lin = s.lin := by
  induction ks generalizing s with
  | nil => rfl
  | cons k ks ih => rw [burstReadBytes, ih]; simp
@[simp] theorem burstWriteBytes_lin (ks : List (BitVec 4)) (s : State) : (burstWriteBytes ks s).lin = s.lin := by
  induction ks generalizing s with
  | nil => rfl
  | cons k ks ih => rw [burstWriteBytes, ih]; simp [burstWriteByte]
@[simp] theorem burstReadBytes_seq (ks : List (BitVec 4)) (s : State) : (burstReadBytes ks s).seq = s.seq := by
  induction ks generalizing s with
  | nil => rfl
  | cons k ks ih => rw [burstReadBytes, ih]; simp
@[simp] theorem burstWriteBytes_seq (ks : List (BitVec 4)) (s : State) : (burstWriteBytes ks s).seq = s.seq := by
  induction ks generalizing s with
  | nil => rfl
  | cons k ks ih => rw [burstWriteBytes, ih]; simp [burstWriteByte]
@[simp] theorem burstReadBytes_rspValid (ks : List (BitVec 4)) (s : State) : (burstReadBytes ks s).rspValid = s.rspValid := by
  induction ks generalizing s with
  | nil => rfl
  | cons k ks ih => rw [burstReadBytes, ih]; simp
@[simp] theorem burstWriteBytes_rspValid (ks : List (BitVec 4)) (s : State) : (burstWriteBytes ks s).rspValid = s.rspValid := by
  induction ks generalizing s with
  | nil => rfl
  | cons k ks ih => rw [burstWriteBytes, ih]; simp [burstWriteByte]
@[simp] theorem burstReadBytes_mark (ks : List (BitVec 4)) (s : State) : (burstReadBytes ks s).mark = s.mark := by
  induction ks generalizing s with
  | nil => rfl
  | cons k ks ih => rw [burstReadBytes, ih]; simp
@[simp] theorem burstWriteBytes_mark (ks : List (BitVec 4)) (s : State) : (burstWriteBytes ks s).mark = s.mark := by
  induction ks generalizing s with
  | nil => rfl
  | cons k ks ih => rw [burstWriteBytes, ih]; simp [burstWriteByte]
@[simp] theorem burstReadBytes_peerKind (ks : List (BitVec 4)) (s : State) : (burstReadBytes ks s).peerKind = s.peerKind := by
  induction ks generalizing s with
  | nil => rfl
  | cons k ks ih => rw [burstReadBytes, ih]; simp
@[simp] theorem burstWriteBytes_peerKind (ks : List (BitVec 4)) (s : State) : (burstWriteBytes ks s).peerKind = s.peerKind := by
  induction ks generalizing s with
  | nil => rfl
  | cons k ks ih => rw [burstWriteBytes, ih]; simp [burstWriteByte]
@[simp] theorem burstReadBytes_conv (ks : List (BitVec 4)) (s : State) : (burstReadBytes ks s).conv = s.conv := by
  induction ks generalizing s with
  | nil => rfl
  | cons k ks ih => rw [burstReadBytes, ih]; simp
@[simp] theorem burstWriteBytes_conv (ks : List (BitVec 4)) (s : State) : (burstWriteBytes ks s).conv = s.conv := by
  induction ks generalizing s with
  | nil => rfl
  | cons k ks ih => rw [burstWriteBytes, ih]; simp [burstWriteByte]
@[simp] theorem burstReadBytes_pend (ks : List (BitVec 4)) (s : State) : (burstReadBytes ks s).pend = s.pend := by
  induction ks generalizing s with
  | nil => rfl
  | cons k ks ih => rw [burstReadBytes, ih]; simp
@[simp] theorem burstWriteBytes_pend (ks : List (BitVec 4)) (s : State) : (burstWriteBytes ks s).pend = s.pend := by
  induction ks generalizing s with
  | nil => rfl
  | cons k ks ih => rw [burstWriteBytes, ih]; simp [burstWriteByte]

/-- A burst read as its eight bytes. -/
theorem burstReadBytes_eq (s : State) : burstReadBytes byteOrder s =
    burstReadByte 7 (burstReadByte 6 (burstReadByte 5 (burstReadByte 4 (burstReadByte 3 (burstReadByte 2
      (burstReadByte 1 (burstReadByte 0 s))))))) := by
  simp only [burstReadBytes, byteOrder]

/-- A burst write as its eight bytes. -/
theorem burstWriteBytes_eq (s : State) : burstWriteBytes byteOrder s =
    burstWriteByte 7 (burstWriteByte 6 (burstWriteByte 5 (burstWriteByte 4 (burstWriteByte 3 (burstWriteByte 2
      (burstWriteByte 1 (burstWriteByte 0 s))))))) := by
  simp only [burstWriteBytes, byteOrder]

/-! The fields that a burst's bytes do change. -/

@[simp] theorem burstReadBytes_ev (s : State) : (burstReadBytes byteOrder s).ev =
    s.ev ++ (burstReadBytes byteOrder s).img.toList.flatMap readByteEvents := by
  simp [burstReadBytes_eq, burstReadByte_ev, Image.set, Image.toList]
@[simp] theorem burstReadBytes_sr (s : State) :
    (burstReadBytes byteOrder s).sr = (burstReadBytes byteOrder s).img.b7 := by
  simp [burstReadBytes_eq, Image.set]
@[simp] theorem burstReadBytes_pads (s : State) : (burstReadBytes byteOrder s).pads =
    { s.pads with sclk := { s.pads.sclk with out := false } } := by simp [burstReadBytes_eq]
@[simp] theorem burstReadBytes_hist (s : State) : (burstReadBytes byteOrder s).hist = .reading := by
  simp [burstReadBytes_eq]
@[simp] theorem burstReadBytes_bitcnt (s : State) : (burstReadBytes byteOrder s).bitcnt = 7 := by
  simp [burstReadBytes_eq]
@[simp] theorem burstReadBytes_bytecnt (s : State) : (burstReadBytes byteOrder s).bytecnt = 7 := by
  simp [burstReadBytes_eq]
@[simp] theorem burstReadBytes_rel (s : State) : (burstReadBytes byteOrder s).rel = s.rel := by
  simp [burstReadBytes_eq]
@[simp] theorem burstReadBytes_draws (s : State) : (burstReadBytes byteOrder s).draws = s.draws + 320 := by
  simp [burstReadBytes_eq]

@[simp] theorem burstWriteBytes_ev (s : State) : (burstWriteBytes byteOrder s).ev =
    s.ev ++ s.img.toList.flatMap (fun b => writeByteEvents b false) := by
  simp [burstWriteBytes_eq, burstWriteByte, Image.get, Image.toList]
@[simp] theorem burstWriteBytes_sr (s : State) : (burstWriteBytes byteOrder s).sr = s.img.b7 := by
  simp [burstWriteBytes_eq, burstWriteByte, Image.get]
@[simp] theorem burstWriteBytes_pads (s : State) : (burstWriteBytes byteOrder s).pads =
    ⟨s.pads.ce, ⟨false, s.pads.sclk.oe⟩, ⟨s.img.b7.getLsbD 7, s.pads.io.oe⟩⟩ := by
  simp [burstWriteBytes_eq, burstWriteByte, Image.get]
@[simp] theorem burstWriteBytes_hist (s : State) : (burstWriteBytes byteOrder s).hist = .written := by
  simp [burstWriteBytes_eq, burstWriteByte]
@[simp] theorem burstWriteBytes_bitcnt (s : State) : (burstWriteBytes byteOrder s).bitcnt = 7 := by
  simp [burstWriteBytes_eq, burstWriteByte]
@[simp] theorem burstWriteBytes_bytecnt (s : State) : (burstWriteBytes byteOrder s).bytecnt = 7 := by
  simp [burstWriteBytes_eq, burstWriteByte]
@[simp] theorem burstWriteBytes_rel (s : State) : (burstWriteBytes byteOrder s).rel = false := by
  simp [burstWriteBytes_eq, burstWriteByte]
@[simp] theorem burstWriteBytes_img (s : State) : (burstWriteBytes byteOrder s).img = s.img := by
  simp [burstWriteBytes_eq, burstWriteByte]
@[simp] theorem burstWriteBytes_draws (s : State) : (burstWriteBytes byteOrder s).draws = s.draws + 384 := by
  simp [burstWriteBytes_eq, burstWriteByte]

@[simp] theorem burstRead_pins (s : State) : (burstRead s).pins = s.pins := by rw [burstRead]; simp
@[simp] theorem burstRead_present (s : State) : (burstRead s).present = s.present := by rw [burstRead]; simp
@[simp] theorem burstRead_pads (s : State) : (burstRead s).pads = ⟨⟨false, true⟩, ⟨false, true⟩, ⟨true, false⟩⟩ := by
  rw [burstRead]; simp [clkBurstReadCommand]
@[simp] theorem burstRead_sess (s : State) : (burstRead s).sess = .closed := by rw [burstRead]; simp
@[simp] theorem burstRead_hist (s : State) : (burstRead s).hist = .reading := by rw [burstRead]; simp
@[simp] theorem burstRead_sr (s : State) : (burstRead s).sr = (burstRead s).img.b7 := by rw [burstRead]; simp
@[simp] theorem burstRead_bitcnt (s : State) : (burstRead s).bitcnt = 7 := by rw [burstRead]; simp
@[simp] theorem burstRead_bytecnt (s : State) : (burstRead s).bytecnt = 7 := by rw [burstRead]; simp
@[simp] theorem burstRead_rel (s : State) : (burstRead s).rel = true := by rw [burstRead]; simp
@[simp] theorem burstRead_trec (s : State) : (burstRead s).trec = s.trec := by rw [burstRead]; simp
@[simp] theorem burstRead_addr (s : State) : (burstRead s).addr = s.addr := by rw [burstRead]; simp
@[simp] theorem burstRead_wdata (s : State) : (burstRead s).wdata = s.wdata := by rw [burstRead]; simp
@[simp] theorem burstRead_rdata (s : State) : (burstRead s).rdata = s.rdata := by rw [burstRead]; simp
@[simp] theorem burstRead_ok (s : State) : (burstRead s).ok = s.ok := by rw [burstRead]; simp
@[simp] theorem burstRead_lin (s : State) : (burstRead s).lin = s.lin := by rw [burstRead]; simp
@[simp] theorem burstRead_seq (s : State) : (burstRead s).seq = s.seq := by rw [burstRead]; simp
@[simp] theorem burstRead_rspValid (s : State) : (burstRead s).rspValid = s.rspValid := by rw [burstRead]; simp
@[simp] theorem burstRead_ev (s : State) : (burstRead s).ev = s.ev ++ burstReadEvents (burstRead s).img := by
  rw [burstRead]; simp [burstReadEvents, clkBurstReadCommand]
@[simp] theorem burstRead_mark (s : State) : (burstRead s).mark = s.mark := by rw [burstRead]; simp
@[simp] theorem burstRead_peerKind (s : State) : (burstRead s).peerKind = s.peerKind := by rw [burstRead]; simp
@[simp] theorem burstRead_conv (s : State) : (burstRead s).conv = s.conv := by rw [burstRead]; simp
@[simp] theorem burstRead_pend (s : State) : (burstRead s).pend = s.pend := by rw [burstRead]; simp
@[simp] theorem burstRead_draws (s : State) : (burstRead s).draws = s.draws + 375 := by rw [burstRead]; simp

/-- Everything a burst read does to the block (R194). -/
theorem burstRead_spec (s : State) : burstRead s = { s with
    img := (burstRead s).img, sr := (burstRead s).img.b7, rel := true, bitcnt := 7, bytecnt := 7, hist := .reading
    sess := .closed, pads := ⟨⟨false, true⟩, ⟨false, true⟩, ⟨true, false⟩⟩
    ev := s.ev ++ burstReadEvents (burstRead s).img, draws := s.draws + 375, peer := (burstRead s).peer } := by
  ext1 <;> simp

@[simp] theorem burstWrite_pins (s : State) : (burstWrite s).pins = s.pins := by rw [burstWrite]; simp
@[simp] theorem burstWrite_present (s : State) : (burstWrite s).present = s.present := by rw [burstWrite]; simp
@[simp] theorem burstWrite_pads (s : State) : (burstWrite s).pads = ⟨⟨false, true⟩, ⟨false, true⟩, ⟨s.img.b7.getLsbD 7, true⟩⟩ := by
  rw [burstWrite]; simp
@[simp] theorem burstWrite_sess (s : State) : (burstWrite s).sess = .closed := by rw [burstWrite]; simp
@[simp] theorem burstWrite_hist (s : State) : (burstWrite s).hist = .written := by rw [burstWrite]; simp
@[simp] theorem burstWrite_sr (s : State) : (burstWrite s).sr = s.img.b7 := by rw [burstWrite]; simp
@[simp] theorem burstWrite_bitcnt (s : State) : (burstWrite s).bitcnt = 7 := by rw [burstWrite]; simp
@[simp] theorem burstWrite_bytecnt (s : State) : (burstWrite s).bytecnt = 7 := by rw [burstWrite]; simp
@[simp] theorem burstWrite_rel (s : State) : (burstWrite s).rel = false := by rw [burstWrite]; simp
@[simp] theorem burstWrite_trec (s : State) : (burstWrite s).trec = s.trec := by rw [burstWrite]; simp
@[simp] theorem burstWrite_img (s : State) : (burstWrite s).img = s.img := by rw [burstWrite]; simp
@[simp] theorem burstWrite_addr (s : State) : (burstWrite s).addr = s.addr := by rw [burstWrite]; simp
@[simp] theorem burstWrite_wdata (s : State) : (burstWrite s).wdata = s.wdata := by rw [burstWrite]; simp
@[simp] theorem burstWrite_rdata (s : State) : (burstWrite s).rdata = s.rdata := by rw [burstWrite]; simp
@[simp] theorem burstWrite_ok (s : State) : (burstWrite s).ok = s.ok := by rw [burstWrite]; simp
@[simp] theorem burstWrite_lin (s : State) : (burstWrite s).lin = s.lin := by rw [burstWrite]; simp
@[simp] theorem burstWrite_seq (s : State) : (burstWrite s).seq = s.seq := by rw [burstWrite]; simp
@[simp] theorem burstWrite_rspValid (s : State) : (burstWrite s).rspValid = s.rspValid := by rw [burstWrite]; simp
@[simp] theorem burstWrite_ev (s : State) : (burstWrite s).ev = s.ev ++ burstWriteEvents s.img := by
  rw [burstWrite]; simp [burstWriteEvents, clkBurstWriteCommand]
@[simp] theorem burstWrite_mark (s : State) : (burstWrite s).mark = s.mark := by rw [burstWrite]; simp
@[simp] theorem burstWrite_peerKind (s : State) : (burstWrite s).peerKind = s.peerKind := by rw [burstWrite]; simp
@[simp] theorem burstWrite_conv (s : State) : (burstWrite s).conv = s.conv := by rw [burstWrite]; simp
@[simp] theorem burstWrite_pend (s : State) : (burstWrite s).pend = s.pend := by rw [burstWrite]; simp
@[simp] theorem burstWrite_draws (s : State) : (burstWrite s).draws = s.draws + 440 := by rw [burstWrite]; simp

/-- Everything a burst write does to the block (R196). -/
theorem burstWrite_spec (s : State) : burstWrite s = { s with
    sr := s.img.b7, rel := false, bitcnt := 7, bytecnt := 7, hist := .written
    sess := .closed, pads := ⟨⟨false, true⟩, ⟨false, true⟩, ⟨s.img.b7.getLsbD 7, true⟩⟩
    ev := s.ev ++ burstWriteEvents s.img, draws := s.draws + 440, peer := (burstWrite s).peer } := by
  ext1 <;> simp

/-! ## Clock access -/

/-- Everything the common part of `CLKREAD` and `GET` does to the block (R250). -/
theorem readClock_spec (s : State) : readClock s = { s with
    trec := decodeImage (burstRead s).img, ok := true
    img := (burstRead s).img, sr := (burstRead s).img.b7, rel := true, bitcnt := 7, bytecnt := 7, hist := .reading
    sess := .closed, pads := ⟨⟨false, true⟩, ⟨false, true⟩, ⟨true, false⟩⟩
    ev := s.ev ++ burstReadEvents (burstRead s).img, draws := s.draws + 375, peer := (burstRead s).peer } := by
  ext1 <;> simp [readClock, Config.okFlag]

@[simp] theorem writeClock_pins (s : State) : (writeClock s).pins = s.pins := by rw [writeClock]; simp
@[simp] theorem writeClock_present (s : State) : (writeClock s).present = s.present := by rw [writeClock]; simp
@[simp] theorem writeClock_pads (s : State) : (writeClock s).pads = ⟨⟨false, true⟩, ⟨false, true⟩, ⟨(encodeImage s.trec).b7.getLsbD 7, true⟩⟩ := by
  rw [writeClock]; simp
@[simp] theorem writeClock_sess (s : State) : (writeClock s).sess = .closed := by rw [writeClock]; simp
@[simp] theorem writeClock_hist (s : State) : (writeClock s).hist = .written := by rw [writeClock]; simp
@[simp] theorem writeClock_sr (s : State) : (writeClock s).sr = (encodeImage s.trec).b7 := by rw [writeClock]; simp
@[simp] theorem writeClock_bitcnt (s : State) : (writeClock s).bitcnt = 7 := by rw [writeClock]; simp
@[simp] theorem writeClock_bytecnt (s : State) : (writeClock s).bytecnt = 7 := by rw [writeClock]; simp
@[simp] theorem writeClock_rel (s : State) : (writeClock s).rel = false := by rw [writeClock]; simp
@[simp] theorem writeClock_trec (s : State) : (writeClock s).trec = s.trec := by rw [writeClock]; simp
@[simp] theorem writeClock_img (s : State) : (writeClock s).img = encodeImage s.trec := by rw [writeClock]; simp
@[simp] theorem writeClock_addr (s : State) : (writeClock s).addr = s.addr := by rw [writeClock]; simp
@[simp] theorem writeClock_wdata (s : State) : (writeClock s).wdata = s.wdata := by rw [writeClock]; simp
@[simp] theorem writeClock_rdata (s : State) : (writeClock s).rdata = s.rdata := by rw [writeClock]; simp
@[simp] theorem writeClock_ok (s : State) : (writeClock s).ok = true := by rw [writeClock]; simp [Config.okFlag]
@[simp] theorem writeClock_lin (s : State) : (writeClock s).lin = s.lin := by rw [writeClock]; simp
@[simp] theorem writeClock_seq (s : State) : (writeClock s).seq = s.seq := by rw [writeClock]; simp
@[simp] theorem writeClock_rspValid (s : State) : (writeClock s).rspValid = s.rspValid := by rw [writeClock]; simp
@[simp] theorem writeClock_ev (s : State) : (writeClock s).ev = s.ev ++ regWriteEvents 0x8E 0 ++ regWriteEvents 0x90 0 ++ burstWriteEvents (encodeImage s.trec) := by
  rw [writeClock]; simp [wpWriteCommand, tcsWriteCommand]
@[simp] theorem writeClock_mark (s : State) : (writeClock s).mark = s.mark := by rw [writeClock]; simp
@[simp] theorem writeClock_peerKind (s : State) : (writeClock s).peerKind = s.peerKind := by rw [writeClock]; simp
@[simp] theorem writeClock_conv (s : State) : (writeClock s).conv = s.conv := by rw [writeClock]; simp
@[simp] theorem writeClock_pend (s : State) : (writeClock s).pend = s.pend := by rw [writeClock]; simp
@[simp] theorem writeClock_draws (s : State) : (writeClock s).draws = s.draws + 648 := by rw [writeClock]; simp

/-- Everything the common part of `CLKWRITE` and `SET` does to the block (R252). -/
theorem writeClock_spec (s : State) : writeClock s = { s with
    ok := true, img := encodeImage s.trec, sr := (encodeImage s.trec).b7, rel := false, bitcnt := 7, bytecnt := 7
    hist := .written, sess := .closed
    pads := ⟨⟨false, true⟩, ⟨false, true⟩, ⟨(encodeImage s.trec).b7.getLsbD 7, true⟩⟩
    ev := s.ev ++ regWriteEvents 0x8E 0 ++ regWriteEvents 0x90 0 ++ burstWriteEvents (encodeImage s.trec)
    draws := s.draws + 648, peer := (writeClock s).peer } := by
  ext1 <;> simp

end Sys2Proof.Machine
end

