-- ==== Sys2Proof/Laws/Peer.lean ====
section
/-!
SUPPORT. What the peer's reactions can do: every one keeps the registers in canonical form, and only three of them, the
commit of a write, the timekeeper's step and the end of a chip's session, change a register at all.
-/

namespace Sys2Proof.Machine

/-! ## Edges (R145) -/

/-- The edges of `SCLK` by R145 are the changes of its level that the peer sees, as long as the line is not released,
which no operation does (R24); a falling edge is one of a driven line. -/
theorem sclk_edges {e : Event} (h : e ≠ .dir .sclk .inp) (pd : Pads) (d : Nat) :
    (!sclkLevel pd d && sclkLevel (e.onPads pd) d) = e.rises .sclk (!sclkLevel pd d) pd ∧
    (pd.sclk.oe = true → (sclkLevel pd d && !sclkLevel (e.onPads pd) d) = e.falls .sclk pd) := by
  obtain ⟨ce, ⟨o, oe⟩, io⟩ := pd
  rcases e with ⟨l, v⟩ | ⟨l, a⟩ | b | t
  · cases l <;> cases v <;> cases o <;> cases oe <;>
      simp [sclkLevel, Event.onPads, Pads.setOut, Event.rises, Event.falls, Pads.get]
  · cases l <;> cases a <;> cases o <;> cases oe <;>
      simp_all [sclkLevel, Event.onPads, Pads.setOe, Event.rises, Event.falls, Pads.get]
  · simp [Event.onPads, Event.rises, Event.falls]
  · simp [Event.onPads, Event.rises, Event.falls]

/-! ## The registers stay in canonical form -/

theorem Peer.openSession_mem (k : PeerKind) (b : Bool) (p : Peer) : (p.openSession k b).mem = p.mem := (rfl)

theorem Peer.decodeCommand_mem (p : Peer) : p.decodeCommand.mem = p.mem := by
  unfold Peer.decodeCommand Peer.lose
  repeat' split
  all_goals rfl

theorem Peer.fall_mem (p : Peer) : p.fall.mem = p.mem := by
  unfold Peer.fall Peer.lose
  repeat' split
  all_goals rfl

theorem Peer.closeSession_mem_of_ne {k : PeerKind} (h : k ≠ .chip) (d : Nat) (p : Peer) :
    (p.closeSession k d).mem = p.mem := by
  rw [Peer.closeSession, if_neg h]

theorem Peer.closeSession_wf {p : Peer} (h : p.mem.wf = true) (k : PeerKind) (d : Nat) :
    (p.closeSession k d).mem.wf = true := by
  unfold Peer.closeSession
  split
  · exact Memory.scramble_wf h _ d
  · exact h

/-- While write protection is on, the end of a session changes no register but the enable/write-protect register
(R85). -/
theorem Peer.closeSession_protected {p : Peer} (h : p.mem.wf = true) (hwp : p.writeProtected = true) (k : PeerKind)
    (d : Nat) {x : Nat} (hx : x ≠ 0x8E) : (p.closeSession k d).mem.read x = p.mem.read x := by
  unfold Peer.closeSession
  split
  · refine Memory.read_scramble h ?_ d
    unfold Peer.unknownKeys
    rw [hwp]
    repeat' split
    all_goals simp_all
  · rfl

/-- A session that ends with no write of unknown effect changes no register. -/
theorem Peer.closeSession_known {p : Peer} (h : p.writeUnknown = false) (k : PeerKind) (d : Nat) :
    (p.closeSession k d).mem = p.mem := by
  unfold Peer.closeSession Peer.unknownKeys
  rw [h]
  split <;> simp

/-- The timekeeper changes the time registers alone (R88). -/
theorem Peer.timeStep_read {p : Peer} (h : p.mem.wf = true) (d : Nat) {x : Nat} (hx : x ∉ timeKeys) :
    (p.timeStep d).mem.read x = p.mem.read x := by
  simp only [timeKeys, List.mem_cons, List.not_mem_nil, or_false, not_or] at hx
  unfold Peer.timeStep
  repeat' split
  · rfl
  · rw [Memory.read_storeTime h]; simp [hx]
  · rfl

/-- While `CH = 1` the timekeeper stands still (R88). -/
theorem Peer.timeStep_halted {p : Peer} (h : clockHalt p.mem.clockImage = true) (d : Nat) : p.timeStep d = p := by
  rw [Peer.timeStep, if_pos h]

/-- What the commit check stores: nothing, the eight clock registers, or one register (R95). -/
theorem Peer.commit_mem (p : Peer) : p.commit.mem = p.mem ∨ p.commit.mem = p.mem.storeImage p.buf ∨
    p.commit.mem = p.mem.store (regKey p.cmdSpace p.cmdNumber) p.buf.b0 := by
  unfold Peer.commit
  repeat' split
  all_goals simp

theorem Peer.commit_wf {p : Peer} (h : p.mem.wf = true) : p.commit.mem.wf = true := by
  obtain e | e | e := p.commit_mem <;> rw [e]
  · exact h
  · exact Memory.storeImage_wf h _
  · exact Memory.store_wf h _ _

theorem Peer.rise_wf {p : Peer} (h : p.mem.wf = true) (b : Bool) : (p.rise b).mem.wf = true := by
  unfold Peer.rise
  repeat' split
  · rw [Peer.decodeCommand_mem]; exact h
  · exact h
  · exact h
  · exact h
  · exact Peer.commit_wf h

/-- A rising edge before the last bit of a frame, or in a read frame, stores nothing (R92). -/
theorem Peer.rise_mem_of_read {p : Peer} (h : p.n < 8 ∨ p.cmdRead = true) (b : Bool) : (p.rise b).mem = p.mem := by
  unfold Peer.rise
  split
  · split
    · rw [Peer.decodeCommand_mem]
    · rfl
  · rw [if_pos (h.resolve_left ‹_›)]

theorem Peer.timeStep_wf {p : Peer} (h : p.mem.wf = true) (d : Nat) : (p.timeStep d).mem.wf = true := by
  unfold Peer.timeStep
  repeat' split
  · exact h
  · exact Memory.storeTime_wf h _
  · exact h

theorem Peer.edges_wf {p : Peer} (h : p.mem.wf = true) (k : PeerKind) (old new : Pads) (d : Nat) :
    (p.edges k old new d).mem.wf = true := by
  unfold Peer.edges
  repeat' split
  · exact h
  · exact Peer.closeSession_wf h k d
  · exact h
  · exact h
  · exact Peer.rise_wf h _
  · rw [Peer.fall_mem]; exact h
  · exact h

/-- Every reaction of every peer keeps its registers in canonical form. -/
theorem peerReact_wf {p : Peer} (h : p.mem.wf = true) (k : PeerKind) (old new : Pads) (d : Nat) :
    (peerReact k old new d p).mem.wf = true := by
  cases k
  · exact h
  · exact h
  · exact Peer.edges_wf h _ _ _ _
  · exact Peer.edges_wf (Peer.timeStep_wf h d) _ _ _ _

theorem emit_wf {s : State} (h : s.peer.mem.wf = true) (e : Event) : (emit e s).peer.mem.wf = true :=
  peerReact_wf h _ _ _ _

theorem emitAll_wf (es : List Event) {s : State} (h : s.peer.mem.wf = true) : (emitAll es s).peer.mem.wf = true := by
  induction es generalizing s with
  | nil => exact h
  | cons e es ih => exact ih (emit_wf h e)

/-! ## The peer after each shared operation -/

theorem startSession_peer (s : State) : (startSession s).peer = (emitAll startEvents s).peer := (rfl)
theorem stopSession_peer (s : State) : (stopSession s).peer = (emitAll stopEvents s).peer := (rfl)
theorem writeByte_peer (d : Byte) (r : Bool) (s : State) :
    (writeByte d r s).peer = (emitAll (writeByteEvents d r) s).peer := by rw [writeByte]
theorem sampleBit_peer (i : BitVec 3) (s : State) :
    (sampleBit i s).peer = (emit (.smp (sampleIo s)) s).peer := (rfl)
theorem readByte_peer (s : State) : (readByte s).peer = (readBits bitOrder s).peer := by rw [readByte]
theorem burstReadByte_peer (k : BitVec 4) (s : State) :
    (burstReadByte k s).peer = (readByte { s with bytecnt := k }).peer := by rw [burstReadByte]
theorem burstWriteByte_peer (k : BitVec 4) (s : State) : (burstWriteByte k s).peer =
    (writeByte (s.img.get k.toNat) false { s with bytecnt := k }).peer := by rw [burstWriteByte]
theorem regRead_peer (c : Byte) (s : State) :
    (regRead c s).peer = (stopSession (readByte (writeByte c true (startSession s)))).peer := by rw [regRead]
theorem readClock_peer (s : State) : (readClock s).peer = (burstRead s).peer := by rw [readClock]
theorem writeClock_peer (s : State) : (writeClock s).peer =
    (burstWrite (latchImage (encodeImage s.trec) (regWrite tcsWriteCommand 0 (regWrite wpWriteCommand 0 s)))).peer := by
  rw [writeClock, regWrite_trec, regWrite_trec]

/-! ## The shared operations keep the canonical form -/

theorem startSession_wf {s : State} (h : s.peer.mem.wf = true) : (startSession s).peer.mem.wf = true := by
  rw [startSession_peer]; exact emitAll_wf _ h

theorem stopSession_wf {s : State} (h : s.peer.mem.wf = true) : (stopSession s).peer.mem.wf = true := by
  rw [stopSession_peer]; exact emitAll_wf _ h

theorem writeByte_wf {s : State} (h : s.peer.mem.wf = true) (d : Byte) (r : Bool) :
    (writeByte d r s).peer.mem.wf = true := by
  rw [writeByte_peer]; exact emitAll_wf _ h

theorem readBits_wf (is : List (BitVec 3)) {s : State} (h : s.peer.mem.wf = true) :
    (readBits is s).peer.mem.wf = true := by
  induction is generalizing s with
  | nil => exact h
  | cons i is ih =>
    rw [readBits]
    refine ih ?_
    rw [readBit, sampleBit_peer]
    exact emit_wf (emitAll_wf _ h) _

theorem readByte_wf {s : State} (h : s.peer.mem.wf = true) : (readByte s).peer.mem.wf = true := by
  rw [readByte_peer]; exact readBits_wf _ h

theorem regRead_wf {s : State} (h : s.peer.mem.wf = true) (c : Byte) : (regRead c s).peer.mem.wf = true := by
  rw [regRead_peer]
  exact stopSession_wf (readByte_wf (writeByte_wf (startSession_wf h) c true))

theorem regWrite_wf {s : State} (h : s.peer.mem.wf = true) (c d : Byte) : (regWrite c d s).peer.mem.wf = true := by
  rw [regWrite]
  exact stopSession_wf (writeByte_wf (writeByte_wf (startSession_wf h) c false) d false)

theorem burstReadBytes_wf (ks : List (BitVec 4)) {s : State} (h : s.peer.mem.wf = true) :
    (burstReadBytes ks s).peer.mem.wf = true := by
  induction ks generalizing s with
  | nil => exact h
  | cons k ks ih =>
    rw [burstReadBytes]
    refine ih ?_
    rw [burstReadByte_peer]
    exact readByte_wf (s := { s with bytecnt := k }) h

theorem burstRead_wf {s : State} (h : s.peer.mem.wf = true) : (burstRead s).peer.mem.wf = true := by
  rw [burstRead]
  exact stopSession_wf (burstReadBytes_wf byteOrder (writeByte_wf (startSession_wf h) clkBurstReadCommand true))

theorem burstWriteBytes_wf (ks : List (BitVec 4)) {s : State} (h : s.peer.mem.wf = true) :
    (burstWriteBytes ks s).peer.mem.wf = true := by
  induction ks generalizing s with
  | nil => exact h
  | cons k ks ih =>
    rw [burstWriteBytes]
    refine ih ?_
    rw [burstWriteByte_peer]
    exact writeByte_wf (s := { s with bytecnt := k }) h _ _

theorem burstWrite_wf {s : State} (h : s.peer.mem.wf = true) : (burstWrite s).peer.mem.wf = true := by
  rw [burstWrite]
  exact stopSession_wf (burstWriteBytes_wf byteOrder (writeByte_wf (startSession_wf h) clkBurstWriteCommand false))

theorem readClock_wf {s : State} (h : s.peer.mem.wf = true) : (readClock s).peer.mem.wf = true := by
  rw [readClock_peer]; exact burstRead_wf h

theorem writeClock_wf {s : State} (h : s.peer.mem.wf = true) : (writeClock s).peer.mem.wf = true := by
  rw [writeClock_peer]
  exact burstWrite_wf (by rw [latchImage_peer]; exact regWrite_wf (regWrite_wf h wpWriteCommand 0) tcsWriteCommand 0)

theorem resetBlock_wf {s : State} (h : s.peer.mem.wf = true) : (resetBlock s).peer.mem.wf = true :=
  peerReact_wf h s.peerKind s.pads State.reset.pads s.draws

theorem reset_wf : State.reset.peer.mem.wf = true := rfl

end Sys2Proof.Machine
end

