-- ==== Sys2Proof/Laws/Frames.lean ====
section
/-!
SUPPORT. The reference peer byte by byte: what a command byte, a data byte out and a data byte in do to it (R92 to R95),
and the opening and the closing of a session (R91). Statements about values read from the peer or stored in it are
put together from these.
-/

namespace Sys2Proof.Machine

/-! ## The peer's part of a list of events -/

/-- The peer after a list of events, from the lines, the event count and the peer alone. -/
def peerAfter (k : PeerKind) : List Event → Pads → Nat → Peer → Peer
  | [], _, _, p => p
  | e :: es, pd, d, p => peerAfter k es (e.onPads pd) (d + 1) (peerReact k pd (e.onPads pd) d p)

theorem emitAll_peer (es : List Event) (s : State) :
    (emitAll es s).peer = peerAfter s.peerKind es s.pads s.draws s.peer := by
  induction es generalizing s with
  | nil => rfl
  | cons e es ih => rw [emitAll_cons, ih, emit_peerKind, emit_pads, emit_draws, emit_peer, peerAfter]

theorem peerAfter_append (k : PeerKind) (es fs : List Event) (pd : Pads) (d : Nat) (p : Peer) :
    peerAfter k (es ++ fs) pd d p = peerAfter k fs (padsAfter es pd) (d + es.length) (peerAfter k es pd d p) := by
  induction es generalizing pd d p with
  | nil => rfl
  | cons e es ih => simp [peerAfter, padsAfter, ih, Nat.add_assoc, Nat.add_comm 1]

/-! ## Edges -/

theorem Peer.edges_quiet (k : PeerKind) {old new : Pads} {d : Nat} (hce : ceLevel new = ceLevel old)
    (hclk : sclkLevel new d = sclkLevel old d) (p : Peer) : p.edges k old new d = p := by
  unfold Peer.edges
  rw [hce, hclk]
  cases ceLevel old <;> cases sclkLevel old d <;> simp

/-- A rising edge of the clock reaches a peer in its session that has not refused. -/
theorem Peer.edges_rise {k : PeerKind} {old new : Pads} {d : Nat} {p : Peer} (hce : ceLevel new = ceLevel old)
    (h0 : sclkLevel old d = false) (h1 : sclkLevel new d = true) (hact : p.act = true) (hlost : p.lost = none) :
    p.edges k old new d = p.rise (ioLevel k new p d) := by
  unfold Peer.edges
  rw [hce, h0, h1, hact, hlost]
  cases ceLevel old <;> simp

theorem Peer.edges_fall {k : PeerKind} {old new : Pads} {d : Nat} {p : Peer} (hce : ceLevel new = ceLevel old)
    (h0 : sclkLevel old d = true) (h1 : sclkLevel new d = false) (hact : p.act = true) (hlost : p.lost = none) :
    p.edges k old new d = p.fall := by
  unfold Peer.edges
  rw [hce, h0, h1, hact, hlost]
  cases ceLevel old <;> simp

/-- A peer that has refused sees no edge of the clock. -/
theorem Peer.edges_lost {k : PeerKind} {old new : Pads} {d : Nat} {p : Peer} (hce : ceLevel new = ceLevel old)
    (hlost : p.lost.isSome = true) : p.edges k old new d = p := by
  unfold Peer.edges
  rw [hce, hlost]
  cases ceLevel old <;> simp

@[simp] theorem Peer.lose_act (r : PeerStop) (p : Peer) : (p.lose r).act = p.act := (rfl)

theorem Peer.decodeCommand_act (p : Peer) : p.decodeCommand.act = p.act := by
  unfold Peer.decodeCommand Peer.lose
  repeat' split
  all_goals rfl

theorem Peer.decodeCommand_drv (p : Peer) : p.decodeCommand.drv = p.drv := by
  unfold Peer.decodeCommand Peer.lose
  repeat' split
  all_goals rfl

theorem Peer.commit_act (p : Peer) : p.commit.act = p.act := by
  unfold Peer.commit
  repeat' split
  all_goals rfl

theorem Peer.commit_lost (p : Peer) : p.commit.lost = p.lost := by
  unfold Peer.commit
  repeat' split
  all_goals rfl

theorem Peer.commit_drv (p : Peer) : p.commit.drv = p.drv := by
  unfold Peer.commit
  repeat' split
  all_goals rfl

theorem Peer.commit_n (p : Peer) : p.commit.n = p.n := by
  unfold Peer.commit
  repeat' split
  all_goals rfl

theorem Peer.commit_cmd (p : Peer) : p.commit.cmd = p.cmd := by
  unfold Peer.commit
  repeat' split
  all_goals rfl

theorem Peer.commit_buf (p : Peer) : p.commit.buf = p.buf := by
  unfold Peer.commit
  repeat' split
  all_goals rfl

theorem Peer.rise_act (b : Bool) (p : Peer) : (p.rise b).act = p.act := by
  unfold Peer.rise
  repeat' split
  · rw [Peer.decodeCommand_act]
  · rfl
  · rfl
  · rfl
  · rw [Peer.commit_act]

theorem Peer.rise_drv (b : Bool) (p : Peer) : (p.rise b).drv = p.drv := by
  unfold Peer.rise
  repeat' split
  · rw [Peer.decodeCommand_drv]
  · rfl
  · rfl
  · rfl
  · rw [Peer.commit_drv]

/-! ## In step with the lines -/

theorem Peer.fall_act (p : Peer) : p.fall.act = p.act := by
  unfold Peer.fall
  repeat' split
  all_goals rfl

theorem Peer.timeStep_act (d : Nat) (p : Peer) : (p.timeStep d).act = p.act ∧ (p.timeStep d).drv = p.drv := by
  unfold Peer.timeStep
  repeat' split
  all_goals exact ⟨rfl, rfl⟩

/-- A peer that is in its session exactly while `CE` is high, and drives `IO` only then, stays so (R83, R91). -/
theorem Peer.edges_inStep {p : Peer} {old : Pads} (ha : p.act = ceLevel old) (hd : p.act = true ∨ p.drv = false)
    (k : PeerKind) (new : Pads) (d : Nat) : (p.edges k old new d).act = ceLevel new ∧
      ((p.edges k old new d).act = true ∨ (p.edges k old new d).drv = false) := by
  unfold Peer.edges
  cases ho : ceLevel old <;> cases hn : ceLevel new <;> rw [ho] at ha
  · simp [ha, hd.resolve_left (by rw [ha]; decide)]
  · exact ⟨rfl, .inl rfl⟩
  · refine ⟨?_, .inr ?_⟩ <;>
    · simp only [Bool.not_true, Bool.not_false, Bool.false_and, Bool.and_true, if_true, if_false, Bool.false_eq_true]
      unfold Peer.closeSession
      split <;> rfl
  · suffices h : (p.edges k old new d).act = true by
      unfold Peer.edges at h
      rw [ho, hn] at h
      exact ⟨h, .inl h⟩
    unfold Peer.edges
    rw [ho, hn]
    simp only [Bool.not_true, Bool.false_and, Bool.and_false, if_false, Bool.false_eq_true]
    repeat' split
    · exact ha
    · exact ha
    · exact (Peer.rise_act _ _).trans ha
    · exact (Peer.fall_act _).trans ha
    · exact ha

theorem peerReact_inStep {k : PeerKind} (hk : k = .reference ∨ k = .chip) {p : Peer} {old : Pads}
    (ha : p.act = ceLevel old) (hd : p.act = true ∨ p.drv = false) (new : Pads) (d : Nat) :
    (peerReact k old new d p).act = ceLevel new ∧
      ((peerReact k old new d p).act = true ∨ (peerReact k old new d p).drv = false) := by
  rcases hk with rfl | rfl
  · exact Peer.edges_inStep ha hd .reference new d
  · obtain ⟨h1, h2⟩ := Peer.timeStep_act d p
    exact Peer.edges_inStep (h1.trans ha) (by rw [h1, h2]; exact hd) .chip new d

/-! ## One bit out -/

/-- The lines in a session with the block driving `IO`, the clock at `c`. -/
def linesOut (c v : Bool) : Pads := ⟨⟨true, true⟩, ⟨c, true⟩, ⟨v, true⟩⟩

/-- The lines in a session after the release. -/
def linesIn (c v : Bool) : Pads := ⟨⟨true, true⟩, ⟨c, true⟩, ⟨v, false⟩⟩

/-- The falling edge that ends a bit, for a peer that has not refused. -/
def Peer.fallIfSeen (p : Peer) : Peer := if p.lost.isSome then p else p.fall

/-- An event that leaves `CE` and `SCLK` alone leaves the peer alone. -/
theorem Peer.edges_same (k : PeerKind) (ce sclk io io' : Pad) (d : Nat) (p : Peer) :
    p.edges k ⟨ce, sclk, io⟩ ⟨ce, sclk, io'⟩ d = p :=
  Peer.edges_quiet k (old := ⟨ce, sclk, io⟩) (new := ⟨ce, sclk, io'⟩) rfl rfl p

theorem peerAfter_writeBit {p : Peer} (hact : p.act = true) (hlost : p.lost = none) (hdrv : p.drv = false)
    (data : Byte) (rel : Bool) (i : BitVec 3) (v : Bool) (d : Nat) :
    peerAfter .reference (writeBitEvents data rel i) (linesOut false v) d p =
      if rel && i == 7 then p.rise (data.getLsbD i.toNat) else (p.rise (data.getLsbD i.toNat)).fallIfSeen := by
  have hrise : ∀ (b : Bool) (d : Nat), p.edges .reference ⟨⟨true, true⟩, ⟨false, true⟩, ⟨b, true⟩⟩
      ⟨⟨true, true⟩, ⟨true, true⟩, ⟨b, true⟩⟩ d = p.rise b := by
    intro b d
    rw [Peer.edges_rise (old := ⟨⟨true, true⟩, ⟨false, true⟩, ⟨b, true⟩⟩)
      (new := ⟨⟨true, true⟩, ⟨true, true⟩, ⟨b, true⟩⟩) rfl rfl rfl hact hlost]
    simp [ioLevel, ioDrive, Peer.ioDrive, hlost, hdrv]
  have hfall : ∀ (b : Bool) (q : Peer) (d : Nat), q.act = true →
      q.edges .reference ⟨⟨true, true⟩, ⟨true, true⟩, ⟨b, true⟩⟩ ⟨⟨true, true⟩, ⟨false, true⟩, ⟨b, true⟩⟩ d =
        q.fallIfSeen := by
    intro b q d hq
    rw [Peer.fallIfSeen]
    split
    · exact Peer.edges_lost rfl ‹_›
    · exact Peer.edges_fall rfl rfl rfl hq (by simp_all)
  unfold writeBitEvents linesOut
  split
  · simp only [List.cons_append, List.nil_append, peerAfter, peerReact, Event.onPads, Pads.setOut, Pads.setOe,
      Peer.edges_same, hrise]
  · simp only [List.cons_append, List.nil_append, peerAfter, peerReact, Event.onPads, Pads.setOut,
      Peer.edges_same, hrise, hfall _ _ _ ((Peer.rise_act _ p).trans hact)]

/-! ## One byte out -/

/-- What one bit with its falling edge does to the peer. -/
def Peer.bitOut (b : Bool) (p : Peer) : Peer := (p.rise b).fallIfSeen

/-- The peer can take a bit: in its session, not refused, not driving `IO`. -/
def Peer.listens (p : Peer) : Prop := p.act = true ∧ p.lost = none ∧ p.drv = false

/-- A byte out takes the peer along a chain of peers, bit by bit; the last bit has no falling edge if `rel = 1`. -/
theorem peerAfter_writeByte (data : Byte) (rel v : Bool) (d : Nat) (q : Nat → Peer) (hq : ∀ i, i < 8 → (q i).listens)
    (hs : ∀ i, i < 7 → (q i).bitOut (data.getLsbD i) = q (i + 1)) :
    peerAfter .reference (writeByteEvents data rel) (linesOut false v) d (q 0) =
      if rel then (q 7).rise (data.getLsbD 7) else (q 7).bitOut (data.getLsbD 7) := by
  have step : ∀ (i : BitVec 3) (v : Bool) (d : Nat), i.toNat < 7 →
      peerAfter .reference (writeBitEvents data rel i) (linesOut false v) d (q i.toNat) = q (i.toNat + 1) := by
    intro i v d hi
    obtain ⟨h1, h2, h3⟩ := hq i.toNat (by omega)
    have h7 : (i == 7) = false := by
      rw [beq_eq_false_iff_ne]
      rintro rfl
      exact absurd hi (by decide)
    rw [peerAfter_writeBit h1 h2 h3, h7, Bool.and_false, if_neg (by decide)]
    exact hs i.toNat hi
  have pads : ∀ (i : BitVec 3) (v : Bool), (i == 7) = false →
      padsAfter (writeBitEvents data rel i) (linesOut false v) = linesOut false (data.getLsbD i.toNat) := by
    intro i v h
    rw [writeBitEvents, h, Bool.and_false, if_neg (by decide)]
    rfl
  obtain ⟨h1, h2, h3⟩ := hq 7 (by decide)
  have last : ∀ (v : Bool) (d : Nat), peerAfter .reference (writeBitEvents data rel 7) (linesOut false v) d (q 7) =
      if rel then (q 7).rise (data.getLsbD 7) else (q 7).bitOut (data.getLsbD 7) := by
    intro v d
    rw [peerAfter_writeBit h1 h2 h3]
    cases rel <;> rfl
  simp only [writeByteEvents, bitOrder, List.flatMap_cons, List.flatMap_nil, List.append_nil, peerAfter_append]
  rw [pads 0 _ rfl, pads 1 _ rfl, pads 2 _ rfl, pads 3 _ rfl, pads 4 _ rfl, pads 5 _ rfl, pads 6 _ rfl]
  have s0 : ∀ v d, peerAfter _ _ (linesOut false v) d (q 0) = q 1 := fun v d => step 0 v d (by decide)
  have s1 : ∀ v d, peerAfter _ _ (linesOut false v) d (q 1) = q 2 := fun v d => step 1 v d (by decide)
  have s2 : ∀ v d, peerAfter _ _ (linesOut false v) d (q 2) = q 3 := fun v d => step 2 v d (by decide)
  have s3 : ∀ v d, peerAfter _ _ (linesOut false v) d (q 3) = q 4 := fun v d => step 3 v d (by decide)
  have s4 : ∀ v d, peerAfter _ _ (linesOut false v) d (q 4) = q 5 := fun v d => step 4 v d (by decide)
  have s5 : ∀ v d, peerAfter _ _ (linesOut false v) d (q 5) = q 6 := fun v d => step 5 v d (by decide)
  have s6 : ∀ v d, peerAfter _ _ (linesOut false v) d (q 6) = q 7 := fun v d => step 6 v d (by decide)
  rw [s0, s1, s2, s3, s4, s5, s6, last]

/-- The first `i` bits of `data` over the bits of `old`. -/
def takeBits (data old : Byte) : Nat → Byte
  | 0 => old
  | i + 1 => setBit (takeBits data old i) i (data.getLsbD i)

theorem getLsbD_takeBits (data old : Byte) (i j : Nat) (hi : i ≤ 8) :
    (takeBits data old i).getLsbD j = if j < i then data.getLsbD j else old.getLsbD j := by
  induction i with
  | zero => rw [takeBits, if_neg (by omega)]
  | succ i ih =>
    rw [takeBits, getLsbD_setBit _ (by omega), ih (by omega)]
    by_cases h : j = i
    · rw [if_pos h, if_pos (by omega), h]
    · rw [if_neg h]
      by_cases h' : j < i
      · rw [if_pos h', if_pos (by omega)]
      · rw [if_neg h', if_neg (by omega)]

theorem takeBits_all (data old : Byte) : takeBits data old 8 = data := by
  refine BitVec.eq_of_getLsbD_eq fun j hj => ?_
  rw [getLsbD_takeBits _ _ _ _ (Nat.le_refl 8), if_pos hj]

/-- A command byte out (R92, R93): the peer has it and has counted eight edges. -/
theorem peerAfter_command {p : Peer} (hp : p.listens) (hn : p.n = 0) (data : Byte) (rel v : Bool) (d : Nat) :
    peerAfter .reference (writeByteEvents data rel) (linesOut false v) d p =
      if rel then Peer.decodeCommand { p with cmd := data, n := 8 }
      else (Peer.decodeCommand { p with cmd := data, n := 8 }).fallIfSeen := by
  have hq : ∀ i, i < 7 →
      Peer.bitOut (data.getLsbD i) { p with cmd := takeBits data p.cmd i, n := i } =
        { p with cmd := takeBits data p.cmd (i + 1), n := i + 1 } := by
    intro i hi
    have h7 : ¬ i = 7 := by omega
    have h8 : i < 8 := by omega
    have h8' : i + 1 < 8 := by omega
    simp [Peer.bitOut, Peer.rise, Peer.fallIfSeen, Peer.fall, h7, h8, h8', hp.2.1, takeBits]
  have h := peerAfter_writeByte data rel v d (fun i => { p with cmd := takeBits data p.cmd i, n := i })
    (fun i _ => hp) hq
  have h0 : ({ p with cmd := takeBits data p.cmd 0, n := 0 } : Peer) = p := by rw [takeBits, ← hn]
  have h7 : Peer.rise (data.getLsbD 7) { p with cmd := takeBits data p.cmd 7, n := 7 } =
      Peer.decodeCommand { p with cmd := data, n := 8 } := by
    have h8 : setBit (takeBits data p.cmd 7) 7 (data.getLsbD 7) = data := takeBits_all data p.cmd
    simp only [Peer.rise, h8, Nat.reduceLT, if_true]
  rw [← h0, h, h0, Peer.bitOut, h7]

theorem Image.set_set (v : Image) {k : Nat} (hk : k < 8) (a b : Byte) : (v.set k a).set k b = v.set k b := by
  interval_cases k <;> rfl

theorem Image.set_get_self (v : Image) {k : Nat} (hk : k < 8) : v.set k (v.get k) = v := by
  interval_cases k <;> rfl

theorem Peer.len_le (p : Peer) : p.len ≤ 8 := by
  unfold Peer.len
  split <;> omega

/-- A data byte out (R92, R95): it stands in the buffer, and the commit check follows its last bit. -/
theorem peerAfter_data {p : Peer} (hp : p.listens) (hw : p.cmdRead = false) {j : Nat} (hn : p.n = 8 + 8 * j)
    (hj : j < p.len) (data : Byte) (v : Bool) (d : Nat) :
    peerAfter .reference (writeByteEvents data false) (linesOut false v) d p =
      Peer.commit { p with buf := p.buf.set j data, n := 8 + 8 * (j + 1) } := by
  have hj8 : j < 8 := Nat.lt_of_lt_of_le hj p.len_le
  let q : Nat → Peer := fun i => { p with buf := p.buf.set j (takeBits data (p.buf.get j) i), n := 8 + 8 * j + i }
  have hrise : ∀ i, i < 8 → (q i).rise (data.getLsbD i) =
      Peer.commit { p with buf := p.buf.set j (takeBits data (p.buf.get j) (i + 1)), n := 8 + 8 * j + i + 1 } := by
    intro i hi
    have e1 : ¬ (8 + 8 * j + i < 8) := by omega
    have e2 : ¬ (8 + 8 * p.len ≤ 8 + 8 * j + i) := by omega
    have e3 : (8 + 8 * j + i - 8) / 8 = j := by omega
    have e4 : (8 + 8 * j + i - 8) % 8 = i := by omega
    have e5 : (q i).cmdRead = false := hw
    have e6 : (q i).len = p.len := rfl
    rw [Peer.rise, if_neg e1, e5, if_neg (by decide), e6, if_neg e2, e3, e4]
    simp only [q, Image.set_set _ hj8, image_get_set _ _ hj8 hj8, if_true, takeBits]
  have hfall : ∀ u : Peer, u.lost = none → 8 ≤ u.n → u.cmdRead = false → u.fallIfSeen = u := by
    intro u h1 h2 h3
    have h4 : ¬ u.n < 8 := by omega
    simp [Peer.fallIfSeen, Peer.fall, h1, h3, h4]
  have hs : ∀ i, i < 7 → (q i).bitOut (data.getLsbD i) = q (i + 1) := by
    intro i hi
    have e : ((8 + 8 * j + i + 1) != 8 + 8 * p.len) = true := by
      rw [bne_iff_ne]
      omega
    have hc : Peer.commit { p with buf := p.buf.set j (takeBits data (p.buf.get j) (i + 1)), n := 8 + 8 * j + i + 1 } =
        q (i + 1) := if_pos e
    rw [Peer.bitOut, hrise i (by omega), hc]
    exact hfall _ hp.2.1 (by simp only [q]; omega) hw
  have h := peerAfter_writeByte data false v d q (fun i _ => hp) hs
  have h0 : q 0 = p := by
    simp only [q, takeBits, Image.set_get_self _ hj8, Nat.add_zero, ← hn]
  rw [h0] at h
  rw [h, if_neg (by decide), Peer.bitOut, hrise 7 (by decide), takeBits_all]
  refine hfall _ ?_ ?_ ?_
  · rw [Peer.commit_lost]; exact hp.2.1
  · rw [Peer.commit_n]; simp only; omega
  · rw [Peer.cmdRead, Peer.commit_cmd]; exact hw

/-! ## One byte in -/

theorem readBit_peer (i : BitVec 3) (s : State) : (readBit i s).peer =
    (emit (.smp (sampleIo (emitAll readBitEvents s))) (emitAll readBitEvents s)).peer := (rfl)

theorem readBit_sr (i : BitVec 3) (s : State) :
    (readBit i s).sr = setBit s.sr i.toNat (sampleIo (emitAll readBitEvents s)) := by
  rw [readBit, sampleBit]
  simp

/-- The reference peer can give a bit: a session, a read frame, nothing refused, and bits left. -/
structure Gives (s : State) (c v : Bool) : Prop where
  kind : s.peerKind = .reference
  pads : s.pads = linesIn c v
  act : s.peer.act = true
  lost : s.peer.lost = none
  n : 8 ≤ s.peer.n
  read : s.peer.cmdRead = true

/-- One bit in (R92, R94): the falling edge brings out bit `f` of the buffer, and the sample is that bit. -/
theorem readBit_reference {s : State} {c v : Bool} (h : Gives s c v) (hf : s.peer.f < 8 * s.peer.len) (i : BitVec 3) :
    (∃ n, s.peer.n ≤ n ∧ (readBit i s).peer = { s.peer with
      n := n, f := s.peer.f + 1, drv := true, dout := (s.peer.buf.get (s.peer.f / 8)).getLsbD (s.peer.f % 8) }) ∧
    (readBit i s).sr = setBit s.sr i.toNat ((s.peer.buf.get (s.peer.f / 8)).getLsbD (s.peer.f % 8)) := by
  obtain ⟨hk, hpads, hact, hlost, hn, hr⟩ := h
  have hn' : ¬ s.peer.n < 8 := by omega
  obtain ⟨n, hnn, hup⟩ : ∃ n, s.peer.n ≤ n ∧ ∀ d, s.peer.edges .reference ⟨⟨true, true⟩, ⟨c, true⟩, ⟨v, false⟩⟩
      ⟨⟨true, true⟩, ⟨true, true⟩, ⟨v, false⟩⟩ d = { s.peer with n := n } := by
    cases c
    · refine ⟨s.peer.n + 1, Nat.le_succ _, fun d => ?_⟩
      rw [Peer.edges_rise (old := ⟨⟨true, true⟩, ⟨false, true⟩, ⟨v, false⟩⟩)
        (new := ⟨⟨true, true⟩, ⟨true, true⟩, ⟨v, false⟩⟩) rfl rfl rfl hact hlost]
      simp [Peer.rise, hn', hr]
    · exact ⟨s.peer.n, Nat.le_refl _, fun d => Peer.edges_same _ _ _ _ _ d _⟩
  have hdown : ∀ d, Peer.edges .reference ⟨⟨true, true⟩, ⟨true, true⟩, ⟨v, false⟩⟩
      ⟨⟨true, true⟩, ⟨false, true⟩, ⟨v, false⟩⟩ d { s.peer with n := n } = { s.peer with
        n := n, f := s.peer.f + 1, drv := true
        dout := (s.peer.buf.get (s.peer.f / 8)).getLsbD (s.peer.f % 8) } := by
    intro d
    dsimp only
    rw [Peer.edges_fall (old := ⟨⟨true, true⟩, ⟨true, true⟩, ⟨v, false⟩⟩)
      (new := ⟨⟨true, true⟩, ⟨false, true⟩, ⟨v, false⟩⟩) (p := { s.peer with n := n }) rfl rfl rfl hact hlost]
    have e1 : ¬ n < 8 := by omega
    have e2 : Peer.cmdRead { s.peer with n := n } = true := hr
    have e3 : ¬ 8 * s.peer.len ≤ s.peer.f := by omega
    rw [Peer.fall, if_neg e1, e2, if_neg (by decide)]
    exact if_neg e3
  have hpeer : (emitAll readBitEvents s).peer = { s.peer with
      n := n, f := s.peer.f + 1, drv := true
      dout := (s.peer.buf.get (s.peer.f / 8)).getLsbD (s.peer.f % 8) } := by
    rw [emitAll_peer, hk, hpads]
    simp only [readBitEvents, peerAfter, peerReact, Event.onPads, Pads.setOut, linesIn, hup, hdown, Peer.edges_same]
  have hsmp : sampleIo (emitAll readBitEvents s) = (s.peer.buf.get (s.peer.f / 8)).getLsbD (s.peer.f % 8) := by
    rw [sampleIo, hpeer, emitAll_peerKind, emitAll_pads, hk, hpads]
    simp [ioLevel, ioDrive, Peer.ioDrive, hlost, readBitEvents, padsAfter, Event.onPads, Pads.setOut, linesIn]
  refine ⟨⟨n, hnn, ?_⟩, ?_⟩
  · rw [readBit_peer, emit_peer, hpeer, emitAll_peerKind, hk, peerReact]
    exact Peer.edges_quiet _ rfl rfl _
  · rw [readBit_sr, hsmp]

/-- `u` stands `i` bits into byte `j` of the frame that `s` stands before. -/
structure Giving (s : State) (v : Bool) (j i : Nat) (u : State) : Prop where
  gives : ∃ c, Gives u c v
  peer : u.peer = { s.peer with n := u.peer.n, f := 8 * j + i, drv := u.peer.drv, dout := u.peer.dout }
  last : 0 < i → u.peer.drv = true ∧ u.peer.dout = (s.peer.buf.get j).getLsbD (i - 1)
  sr : u.sr = takeBits (s.peer.buf.get j) s.sr i

theorem Giving.next {s : State} {v : Bool} {j : Nat} {u : State} (k : BitVec 3) (hj : j < s.peer.len)
    (h : Giving s v j k.toNat u) : Giving s v j (k.toNat + 1) (readBit k u) := by
  obtain ⟨⟨c, hg⟩, hp, -, hsr⟩ := h
  have hk := k.isLt
  have hlen : u.peer.len = s.peer.len := by rw [hp]; rfl
  have hfu : u.peer.f = 8 * j + k.toNat := by rw [hp]
  have hbuf : u.peer.buf = s.peer.buf := by rw [hp]
  obtain ⟨⟨n, hn, hpeer⟩, hs⟩ := readBit_reference hg (by rw [hlen, hfu]; omega) k
  have e1 : (8 * j + k.toNat) / 8 = j := by omega
  have e2 : (8 * j + k.toNat) % 8 = k.toNat := by omega
  rw [hfu, hbuf, e1, e2] at hpeer hs
  refine ⟨⟨false, ?_, ?_, ?_, ?_, ?_, ?_⟩, ?_, ?_, ?_⟩
  · rw [readBit_peerKind, hg.kind]
  · rw [readBit_pads, hg.pads]; rfl
  · rw [hpeer]; exact hg.act
  · rw [hpeer]; exact hg.lost
  · rw [hpeer]; exact Nat.le_trans hg.n hn
  · rw [hpeer]; exact hg.read
  · rw [hpeer, hp]; rfl
  · intro _; rw [hpeer]; exact ⟨rfl, rfl⟩
  · rw [hs, hsr, takeBits]

/-- A byte in (R94): byte `j` of the peer's buffer. -/
theorem readByte_reference {s : State} {c v : Bool} (h : Gives s c v) {j : Nat} (hf : s.peer.f = 8 * j)
    (hj : j < s.peer.len) :
    (∃ n, 8 ≤ n ∧ (readByte s).peer = { s.peer with
      n := n, f := 8 * (j + 1), drv := true, dout := (s.peer.buf.get j).getLsbD 7 }) ∧
    (readByte s).sr = s.peer.buf.get j := by
  have h0 : Giving s v j 0 s := ⟨⟨c, h⟩, by rw [Nat.add_zero, ← hf], fun h => absurd h (Nat.lt_irrefl 0), rfl⟩
  have h1 := Giving.next 0 hj h0
  have h2 := Giving.next 1 hj h1
  have h3 := Giving.next 2 hj h2
  have h4 := Giving.next 3 hj h3
  have h5 := Giving.next 4 hj h4
  have h6 := Giving.next 5 hj h5
  have h7 := Giving.next 6 hj h6
  have h8 := Giving.next 7 hj h7
  rw [readByte_eq]
  obtain ⟨⟨c', hg⟩, hp, hl, hs⟩ := h8
  obtain ⟨hd, ho⟩ := hl (Nat.succ_pos _)
  refine ⟨⟨_, hg.n, ?_⟩, hs.trans (takeBits_all _ _)⟩
  refine hp.trans ?_
  rw [hd, ho]
  rfl

/-! ## Sessions -/

/-- The block and the reference peer between sessions. -/
structure Rests (s : State) : Prop where
  kind : s.peerKind = .reference
  act : s.peer.act = false
  lost : s.peer.lost = none
  ce : s.pads.ce.out = false
  sclk : s.pads.sclk.out = false

theorem Peer.edges_idle {k : PeerKind} {old new : Pads} {d : Nat} {p : Peer} (hce : ceLevel new = ceLevel old)
    (hact : p.act = false) : p.edges k old new d = p := by
  unfold Peer.edges
  rw [hce, hact]
  cases ceLevel old <;> simp

/-- `START` opens the peer's session (R91, R160). -/
theorem startSession_reference {s : State} (h : Rests s) :
    (startSession s).peer = { s.peer with act := true, n := 0, f := 0, drv := false } := by
  obtain ⟨hk, hact, hlost, hce, hsclk⟩ := h
  have quiet : ∀ (a b : Pads) (d : Nat), ceLevel b = ceLevel a → s.peer.edges .reference a b d = s.peer :=
    fun a b d hab => Peer.edges_idle hab hact
  rw [startSession_peer, emitAll_peer, hk]
  simp only [startEvents, peerAfter, peerReact, Event.onPads, Pads.setOut, Pads.setOe, Peer.edges_same]
  rw [quiet _ _ _ (by simp [ceLevel, hce]), quiet _ _ _ (by simp [ceLevel]), quiet _ _ _ (by simp [ceLevel])]
  simp [Peer.edges, ceLevel, sclkLevel, hsclk, Peer.openSession, hlost]

/-- `STOP` closes the peer's session (R91, R162). -/
theorem stopSession_reference {s : State} (hk : s.peerKind = .reference) (hoe : s.pads.ce.oe = true)
    (hout : s.pads.ce.out = true) : (stopSession s).peer = { s.peer with act := false, drv := false } := by
  rw [stopSession_peer, emitAll_peer, hk]
  simp only [stopEvents, peerAfter, peerReact, Event.onPads, Pads.setOut]
  rw [Peer.edges_quiet _ rfl rfl]
  simp [Peer.edges, ceLevel, hoe, hout, Peer.closeSession]

theorem Rests.listens {s : State} (h : Rests s) : (startSession s).peer.listens ∧ (startSession s).peer.n = 0 := by
  rw [startSession_reference h]
  exact ⟨⟨rfl, h.lost, rfl⟩, rfl⟩

theorem Rests.lines {s : State} (h : Rests s) : (startSession s).pads = linesOut false s.pads.io.out := by
  rw [startSession_pads, h.sclk]
  rfl

/-! ## Command bytes -/

/-- The command byte of a register: its key is the write form, it is no burst, and the peer knows it. -/
theorem command_facts : ∀ c : Byte, isRegKey (writeCommand c).toNat = true →
    c.getLsbD 7 = true ∧ (commandSpace c && (commandNumber c).toNat == 31) = false ∧
    (!commandSpace c && (commandNumber c).toNat == 31) = false ∧
    (!commandSpace c && decide (9 ≤ (commandNumber c).toNat) && decide ((commandNumber c).toNat ≤ 30)) = false ∧
    regKey (commandSpace c) (commandNumber c).toNat = (writeCommand c).toNat ∧
    ((!commandSpace c && (commandNumber c).toNat == 7) = decide ((writeCommand c).toNat = 0x8E)) := by
  decide +kernel

/-- The peer decodes the command byte of a register (R93). -/
theorem Peer.decodeCommand_register {p : Peer} (h : isRegKey (writeCommand p.cmd).toNat = true) :
    p.decodeCommand =
      if p.cmdRead then { p with buf := p.buf.set 0 (p.mem.read (writeCommand p.cmd).toNat) } else p := by
  obtain ⟨h1, h2, h3, h4, h5, -⟩ := command_facts p.cmd h
  unfold Peer.decodeCommand Peer.clockBurst Peer.cmdSpace Peer.cmdNumber
  rw [h1, h2, h3, h4, h5]
  cases p.cmdRead <;> rfl

theorem Peer.len_register {p : Peer} (h : isRegKey (writeCommand p.cmd).toNat = true) : p.len = 1 := by
  obtain ⟨-, -, h3, -⟩ := command_facts p.cmd h
  unfold Peer.len Peer.clockBurst Peer.cmdSpace Peer.cmdNumber
  rw [h3]
  rfl

/-- The commit of a single write (R95). -/
theorem Peer.commit_register {p : Peer} (h : isRegKey (writeCommand p.cmd).toNat = true) (hn : p.n = 16) :
    p.commit.mem = if (writeCommand p.cmd).toNat = 0x8E ∨ p.writeProtected = false then
      p.mem.store (writeCommand p.cmd).toNat p.buf.b0 else p.mem := by
  obtain ⟨-, -, h3, -, h5, h6⟩ := command_facts p.cmd h
  have hl : (p.n != 8 + 8 * p.len) = false := by rw [Peer.len_register h, hn]; rfl
  have hb : p.clockBurst = false := h3
  unfold Peer.commit Peer.cmdSpace Peer.cmdNumber
  rw [hl, hb, h5, h6]
  by_cases h7 : (writeCommand p.cmd).toNat = 0x8E <;> cases p.writeProtected <;> simp [h7]

/-! ## The byte-level summary of a register (R97) -/

theorem summaryKey_register {x : Byte} (h : isRegKey (writeCommand x).toNat = true) :
    summaryKey x = (writeCommand x).toNat := (command_facts x h).2.2.2.2.1

theorem summaryRegRead_register {x : Byte} (h : isRegKey (writeCommand x).toNat = true) (m : Memory) :
    summaryRegRead x m = m.read (writeCommand x).toNat := by rw [summaryRegRead, summaryKey_register h]

theorem summaryRegWrite_register {x : Byte} (h : isRegKey (writeCommand x).toNat = true) (d : Byte) (m : Memory) :
    summaryRegWrite x d m = if (writeCommand x).toNat = 0x8E ∨ (m.read 0x8E).getLsbD 7 = false then
      m.store (writeCommand x).toNat d else m :=
  Peer.commit_register (p := { Peer.quiet with mem := m, cmd := x, n := 16, buf := Peer.quiet.buf.set 0 d }) h rfl

/-! ## A byte out, as a state -/

theorem writeByte_reference {s : State} {v : Bool} (hk : s.peerKind = .reference) (hpads : s.pads = linesOut false v)
    (d : Byte) (r : Bool) :
    (writeByte d r s).peer = peerAfter .reference (writeByteEvents d r) (linesOut false v) s.draws s.peer := by
  rw [writeByte_peer, emitAll_peer, hk, hpads]

/-! ## The single frames (R97) -/

/-- A single read session of a register: the byte it holds, and nothing changes in the registers. -/
theorem regRead_reference {s : State} (h : Rests s) {c : Byte} (hc : isRegKey (writeCommand c).toNat = true)
    (hr : commandIsRead c = true) :
    (regRead c s).rdata = s.peer.mem.read (writeCommand c).toNat ∧ (regRead c s).peer.mem = s.peer.mem ∧
      Rests (regRead c s) := by
  obtain ⟨hl, hn⟩ := h.listens
  have hk : (startSession s).peerKind = .reference := by rw [startSession_peerKind, h.kind]
  have hcmd : (writeByte c true (startSession s)).peer = { s.peer with
      act := true, n := 8, f := 0, drv := false, cmd := c
      buf := s.peer.buf.set 0 (s.peer.mem.read (writeCommand c).toNat) } := by
    rw [writeByte_reference hk h.lines, peerAfter_command hl hn, if_pos rfl,
      Peer.decodeCommand_register (p := { (startSession s).peer with cmd := c, n := 8 }) hc,
      if_pos (show Peer.cmdRead { (startSession s).peer with cmd := c, n := 8 } = true from hr),
      startSession_reference h]
  generalize ht : writeByte c true (startSession s) = t at hcmd
  have hg : Gives t true (c.getLsbD 7) := by
    refine ⟨?_, ?_, ?_, ?_, ?_, ?_⟩
    · rw [← ht, writeByte_peerKind, hk]
    · rw [← ht, writeByte_pads, h.lines]; rfl
    · rw [hcmd]
    · rw [hcmd]; exact h.lost
    · rw [hcmd]
    · rw [hcmd]; exact hr
  have hlen : t.peer.len = 1 := Peer.len_register (by rw [hcmd]; exact hc)
  obtain ⟨⟨n, -, hpeer⟩, hsr⟩ := readByte_reference hg (j := 0) (by rw [hcmd]) (by rw [hlen]; decide)
  have hstop := stopSession_reference (s := readByte t) (by rw [readByte_peerKind, hg.kind])
    (by rw [readByte_pads, hg.pads]; rfl) (by rw [readByte_pads, hg.pads]; rfl)
  have hfin : (regRead c s).peer = { (readByte t).peer with act := false, drv := false } := by
    rw [regRead_peer, ht, hstop]
  refine ⟨?_, ?_, ?_, ?_, ?_, ?_, ?_⟩
  · rw [regRead, ht]
    simp only [stopSession_sr]
    rw [hsr, hcmd]
    rfl
  · rw [hfin, hpeer, hcmd]
  · rw [regRead_peerKind, h.kind]
  · rw [hfin]
  · rw [hfin, hpeer, hcmd]; exact h.lost
  · rw [regRead_pads]
  · rw [regRead_pads]

/-- A single write session of a register: the commit of R95. -/
theorem regWrite_reference {s : State} (h : Rests s) {c : Byte} (hc : isRegKey (writeCommand c).toNat = true)
    (hw : commandIsRead c = false) (d : Byte) :
    (regWrite c d s).peer.mem = (if (writeCommand c).toNat = 0x8E ∨ s.peer.writeProtected = false then
      s.peer.mem.store (writeCommand c).toNat d else s.peer.mem) ∧ Rests (regWrite c d s) := by
  obtain ⟨hl, hn⟩ := h.listens
  have hk : (startSession s).peerKind = .reference := by rw [startSession_peerKind, h.kind]
  have hcmd : (writeByte c false (startSession s)).peer = { s.peer with
      act := true, n := 8, f := 0, drv := false, cmd := c } := by
    rw [writeByte_reference hk h.lines, peerAfter_command hl hn, if_neg (by decide),
      Peer.decodeCommand_register (p := { (startSession s).peer with cmd := c, n := 8 }) hc,
      if_neg (show ¬ Peer.cmdRead { (startSession s).peer with cmd := c, n := 8 } = true from by
        rw [Peer.cmdRead, hw]; decide), startSession_reference h]
    simp [Peer.fallIfSeen, Peer.fall, Peer.cmdRead, hw, h.lost]
  generalize ht : writeByte c false (startSession s) = t at hcmd
  have hpads : t.pads = linesOut false (c.getLsbD 7) := by rw [← ht, writeByte_pads, h.lines]; rfl
  have hkt : t.peerKind = .reference := by rw [← ht, writeByte_peerKind, hk]
  have hreg : isRegKey (writeCommand t.peer.cmd).toNat = true := by rw [hcmd]; exact hc
  have hdata : (writeByte d false t).peer = Peer.commit { t.peer with buf := t.peer.buf.set 0 d, n := 16 } := by
    rw [writeByte_reference hkt hpads,
      peerAfter_data (p := t.peer) (j := 0) ⟨by rw [hcmd], by rw [hcmd]; exact h.lost, by rw [hcmd]⟩
        (by rw [hcmd]; exact hw) (by rw [hcmd]) (by rw [Peer.len_register hreg]; decide)]
  have hstop := stopSession_reference (s := writeByte d false t) (by rw [writeByte_peerKind, hkt])
    (by rw [writeByte_pads, hpads]; rfl) (by rw [writeByte_pads, hpads]; rfl)
  have hfin : (regWrite c d s).peer = { (writeByte d false t).peer with act := false, drv := false } := by
    rw [regWrite, ht, hstop]
  refine ⟨?_, ?_, ?_, ?_, ?_, ?_⟩
  · rw [hfin]
    show (writeByte d false t).peer.mem = _
    rw [hdata, Peer.commit_register (p := { t.peer with buf := t.peer.buf.set 0 d, n := 16 }) hreg rfl, hcmd]
    rfl
  · rw [regWrite_peerKind, h.kind]
  · rw [hfin]
  · rw [hfin]
    show (writeByte d false t).peer.lost = none
    rw [hdata, Peer.commit_lost, hcmd]
    exact h.lost
  · rw [regWrite_pads]
  · rw [regWrite_pads]

/-! ## The burst frames (R97) -/

theorem Image.ext_get {v w : Image} (h : ∀ j, j < 8 → v.get j = w.get j) : v = w := by
  have h0 := h 0; have h1 := h 1; have h2 := h 2; have h3 := h 3
  have h4 := h 4; have h5 := h 5; have h6 := h 6; have h7 := h 7
  cases v
  cases w
  simp only [Image.get, Nat.reduceLT, forall_const] at *
  simp [*]

/-- The clock burst commands (R62, R93). -/
theorem Peer.burst_facts {p : Peer} (h : p.cmd = 0xBF ∨ p.cmd = 0xBE) :
    p.cmd.getLsbD 7 = true ∧ p.cmdSpace = false ∧ p.cmdNumber = 31 ∧ p.clockBurst = true ∧ p.len = 8 := by
  have hb : p.clockBurst = true := by
    unfold Peer.clockBurst Peer.cmdSpace Peer.cmdNumber
    rcases h with h | h <;> rw [h] <;> decide
  refine ⟨?_, ?_, ?_, hb, ?_⟩
  · rcases h with h | h <;> rw [h] <;> decide
  · unfold Peer.cmdSpace; rcases h with h | h <;> rw [h] <;> decide
  · unfold Peer.cmdNumber; rcases h with h | h <;> rw [h] <;> decide
  · rw [Peer.len, hb, if_pos rfl]

theorem Peer.cmdRead_burst {p : Peer} (h : p.cmd = 0xBF) : p.cmdRead = true := by
  rw [Peer.cmdRead, h]; decide

theorem Peer.cmdRead_burstWrite {p : Peer} (h : p.cmd = 0xBE) : p.cmdRead = false := by
  rw [Peer.cmdRead, h]; decide

theorem Peer.decodeCommand_burstRead {p : Peer} (h : p.cmd = 0xBF) :
    p.decodeCommand = { p with buf := p.mem.clockImage } := by
  obtain ⟨h1, h2, h3, h4, -⟩ := Peer.burst_facts (.inl h)
  unfold Peer.decodeCommand
  rw [h1, h2, h3, h4, Peer.cmdRead_burst h]
  rfl

theorem Peer.decodeCommand_burstWrite {p : Peer} (h : p.cmd = 0xBE) : p.decodeCommand = p := by
  obtain ⟨h1, h2, h3, h4, -⟩ := Peer.burst_facts (.inr h)
  unfold Peer.decodeCommand
  rw [h1, h2, h3, h4, Peer.cmdRead_burstWrite h]
  rfl

/-- The commit of a burst write (R95). -/
theorem Peer.commit_burst {p : Peer} (h : p.cmd = 0xBE) (hn : p.n = 72) :
    p.commit.mem = if p.writeProtected then p.mem else p.mem.storeImage p.buf := by
  obtain ⟨-, -, -, h4, h5⟩ := Peer.burst_facts (.inr h)
  have hl : (p.n != 8 + 8 * p.len) = false := by rw [h5, hn]; rfl
  unfold Peer.commit
  rw [hl, h4]
  cases p.writeProtected <;> simp

/-- `u` stands before byte `k` of the burst read that gives the image `b` and leaves the registers `m`. -/
structure BurstReads (b : Image) (m : Memory) (v : Bool) (k : Nat) (u : State) : Prop where
  gives : ∃ c, Gives u c v
  buf : u.peer.buf = b
  mem : u.peer.mem = m
  len : u.peer.len = 8
  f : u.peer.f = 8 * k
  img : ∀ j, j < k → u.img.get j = b.get j

theorem BurstReads.next {b : Image} {m : Memory} {v : Bool} {u : State} (k : BitVec 4) (hk : k.toNat < 8)
    (h : BurstReads b m v k.toNat u) : BurstReads b m v (k.toNat + 1) (burstReadByte k u) := by
  obtain ⟨⟨c, hg⟩, hbuf, hmem, hlen, hf, himg⟩ := h
  have hg' : Gives { u with bytecnt := k } c v := ⟨hg.kind, hg.pads, hg.act, hg.lost, hg.n, hg.read⟩
  obtain ⟨⟨n, hn, hpeer⟩, hsr⟩ := readByte_reference hg' (j := k.toNat) hf
    (show k.toNat < u.peer.len by rw [hlen]; exact hk)
  have hp : (burstReadByte k u).peer = { u.peer with
      n := n, f := 8 * (k.toNat + 1), drv := true, dout := (u.peer.buf.get k.toNat).getLsbD 7 } := by
    rw [burstReadByte_peer, hpeer]
  have hs : (burstReadByte k u).sr = b.get k.toNat := by
    rw [← hbuf]
    exact hsr
  refine ⟨⟨false, ?_, ?_, ?_, ?_, ?_, ?_⟩, ?_, ?_, ?_, ?_, ?_⟩
  · rw [burstReadByte_peerKind, hg.kind]
  · rw [burstReadByte_pads, hg.pads]; rfl
  · rw [hp]; exact hg.act
  · rw [hp]; exact hg.lost
  · rw [hp]; exact hn
  · rw [hp]; exact hg.read
  · rw [hp]; exact hbuf
  · rw [hp]; exact hmem
  · rw [hp]; exact hlen
  · rw [hp]
  · intro j hj
    rw [burstReadByte_img, image_get_set _ _ hk (by omega), hs]
    by_cases e : j = k.toNat
    · rw [if_pos e, e]
    · rw [if_neg e]; exact himg j (by omega)

/-- A clock burst read: registers 0 to 7 as they stand, and nothing changes in the registers. -/
theorem burstRead_reference {s : State} (h : Rests s) :
    (burstRead s).img = s.peer.mem.clockImage ∧ (burstRead s).peer.mem = s.peer.mem ∧ Rests (burstRead s) := by
  obtain ⟨hl, hn⟩ := h.listens
  have hk : (startSession s).peerKind = .reference := by rw [startSession_peerKind, h.kind]
  have hcmd : (writeByte clkBurstReadCommand true (startSession s)).peer = { s.peer with
      act := true, n := 8, f := 0, drv := false, cmd := 0xBF, buf := s.peer.mem.clockImage } := by
    rw [writeByte_reference hk h.lines, peerAfter_command hl hn, if_pos rfl,
      Peer.decodeCommand_burstRead (p := { (startSession s).peer with cmd := clkBurstReadCommand, n := 8 }) rfl,
      startSession_reference h]
    rfl
  generalize ht : writeByte clkBurstReadCommand true (startSession s) = t at hcmd
  have hg : Gives t true true := by
    refine ⟨?_, ?_, ?_, ?_, ?_, ?_⟩
    · rw [← ht, writeByte_peerKind, hk]
    · rw [← ht, writeByte_pads, h.lines]; rfl
    · rw [hcmd]
    · rw [hcmd]; exact h.lost
    · rw [hcmd]
    · exact Peer.cmdRead_burst (by rw [hcmd])
  have h0 : BurstReads s.peer.mem.clockImage s.peer.mem true 0 t :=
    ⟨⟨true, hg⟩, by rw [hcmd], by rw [hcmd], (Peer.burst_facts (.inl (by rw [hcmd]))).2.2.2.2, by rw [hcmd],
      fun j hj => absurd hj (Nat.not_lt_zero j)⟩
  have h1 := BurstReads.next 0 (by decide) h0
  have h2 := BurstReads.next 1 (by decide) h1
  have h3 := BurstReads.next 2 (by decide) h2
  have h4 := BurstReads.next 3 (by decide) h3
  have h5 := BurstReads.next 4 (by decide) h4
  have h6 := BurstReads.next 5 (by decide) h5
  have h7 := BurstReads.next 6 (by decide) h6
  have h8 := BurstReads.next 7 (by decide) h7
  rw [← burstReadBytes_eq] at h8
  obtain ⟨⟨c, hg8⟩, -, hmem, -, -, himg⟩ := h8
  have hstop := stopSession_reference (s := burstReadBytes byteOrder t) hg8.kind (by rw [hg8.pads]; rfl)
    (by rw [hg8.pads]; rfl)
  have hb : burstRead s = stopSession (burstReadBytes byteOrder t) := by rw [burstRead, ht]
  refine ⟨?_, ?_, ?_, ?_, ?_, ?_, ?_⟩
  · rw [hb, stopSession_img]
    exact Image.ext_get himg
  · rw [hb, hstop]; exact hmem
  · rw [burstRead_peerKind, h.kind]
  · rw [hb, hstop]
  · rw [hb, hstop]; exact hg8.lost
  · rw [burstRead_pads]
  · rw [burstRead_pads]

/-- `u` stands before byte `k` of the burst write of the image `b` to a peer `p`. -/
structure BurstWrites (b : Image) (p : Peer) (k : Nat) (u : State) : Prop where
  kind : u.peerKind = .reference
  pads : ∃ v, u.pads = linesOut false v
  img : u.img = b
  peer : u.peer = { p with n := 8 + 8 * k, buf := u.peer.buf }
  buf : ∀ j, j < k → u.peer.buf.get j = b.get j

theorem Peer.commit_early {p : Peer} (h : p.n ≠ 8 + 8 * p.len) : p.commit = p := by
  rw [Peer.commit, if_pos (bne_iff_ne.2 h)]

/-- What one data byte of a burst write does, before the commit check. -/
theorem BurstWrites.send {b : Image} {p : Peer} {u : State} (hp : p.listens) (hw : p.cmdRead = false)
    (hlen : p.len = 8) (k : BitVec 4) (hk : k.toNat < 8) (h : BurstWrites b p k.toNat u) :
    (burstWriteByte k u).peer = Peer.commit { p with
      n := 8 + 8 * (k.toNat + 1), buf := u.peer.buf.set k.toNat (b.get k.toNat) } := by
  obtain ⟨hkind, ⟨v, hpads⟩, himg, hpeer, -⟩ := h
  rw [burstWriteByte_peer, writeByte_reference (s := { u with bytecnt := k }) hkind hpads, himg]
  refine (peerAfter_data (p := u.peer) (j := k.toNat) ?_ ?_ ?_ ?_ _ _ _).trans ?_
  · rw [hpeer]; exact hp
  · rw [hpeer]; exact hw
  · rw [hpeer]
  · rw [hpeer]; show k.toNat < p.len; rw [hlen]; exact hk
  · rw [hpeer]

theorem BurstWrites.next {b : Image} {p : Peer} {u : State} (hp : p.listens) (hw : p.cmdRead = false)
    (hlen : p.len = 8) (k : BitVec 4) (hk : k.toNat < 7) (h : BurstWrites b p k.toNat u) :
    BurstWrites b p (k.toNat + 1) (burstWriteByte k u) := by
  have hs := h.send hp hw hlen k (by omega)
  rw [Peer.commit_early (by
    show 8 + 8 * (k.toNat + 1) ≠ 8 + 8 * p.len
    rw [hlen]; omega)] at hs
  obtain ⟨v, hpads⟩ := h.pads
  refine ⟨?_, ⟨(u.img.get k.toNat).getLsbD 7, ?_⟩, ?_, ?_, ?_⟩
  · rw [burstWriteByte, writeByte_peerKind]; exact h.kind
  · rw [burstWriteByte, writeByte_pads]; simp only [hpads]; rfl
  · rw [burstWriteByte, writeByte_img]; exact h.img
  · rw [hs]
  · intro j hj
    rw [hs]
    show (u.peer.buf.set k.toNat (b.get k.toNat)).get j = b.get j
    rw [image_get_set _ _ (by omega) (by omega)]
    by_cases e : j = k.toNat
    · rw [if_pos e, e]
    · rw [if_neg e]; exact h.buf j (by omega)

/-- A clock burst write: registers 0 to 7 together, while write protection is off (R95). -/
theorem burstWrite_reference {s : State} (h : Rests s) :
    (burstWrite s).peer.mem = (if s.peer.writeProtected then s.peer.mem else s.peer.mem.storeImage s.img) ∧
      Rests (burstWrite s) := by
  obtain ⟨hl, hn⟩ := h.listens
  have hk : (startSession s).peerKind = .reference := by rw [startSession_peerKind, h.kind]
  have hcmd : (writeByte clkBurstWriteCommand false (startSession s)).peer = { s.peer with
      act := true, n := 8, f := 0, drv := false, cmd := 0xBE } := by
    have hr : ∀ q : Peer, q.cmd = 0xBE → q.lost = none → q.fallIfSeen = q := by
      intro q h1 h2
      simp [Peer.fallIfSeen, Peer.fall, h2, Peer.cmdRead_burstWrite h1]
    rw [writeByte_reference hk h.lines, peerAfter_command hl hn, if_neg (by decide),
      Peer.decodeCommand_burstWrite (p := { (startSession s).peer with cmd := clkBurstWriteCommand, n := 8 }) rfl,
      hr { (startSession s).peer with cmd := clkBurstWriteCommand, n := 8 } rfl hl.2.1, startSession_reference h]
    rfl
  generalize ht : writeByte clkBurstWriteCommand false (startSession s) = t at hcmd
  have hp : t.peer.listens := ⟨by rw [hcmd], by rw [hcmd]; exact h.lost, by rw [hcmd]⟩
  have hbe : t.peer.cmd = 0xBE := by rw [hcmd]
  have hw : t.peer.cmdRead = false := Peer.cmdRead_burstWrite hbe
  have hlen : t.peer.len = 8 := (Peer.burst_facts (.inr hbe)).2.2.2.2
  have h0 : BurstWrites s.img t.peer 0 t := by
    refine ⟨?_, ⟨true, ?_⟩, ?_, ?_, fun j hj => absurd hj (Nat.not_lt_zero j)⟩
    · rw [← ht, writeByte_peerKind, hk]
    · rw [← ht, writeByte_pads, h.lines]; rfl
    · rw [← ht, writeByte_img, startSession_img]
    · rw [hcmd]
  have h1 := BurstWrites.next hp hw hlen 0 (by decide) h0
  have h2 := BurstWrites.next hp hw hlen 1 (by decide) h1
  have h3 := BurstWrites.next hp hw hlen 2 (by decide) h2
  have h4 := BurstWrites.next hp hw hlen 3 (by decide) h3
  have h5 := BurstWrites.next hp hw hlen 4 (by decide) h4
  have h6 := BurstWrites.next hp hw hlen 5 (by decide) h5
  have h7 := BurstWrites.next hp hw hlen 6 (by decide) h6
  have h8 := BurstWrites.send hp hw hlen 7 (by decide) h7
  have hbuf := h7.buf
  generalize hw7 : burstWriteByte 6 (burstWriteByte 5 (burstWriteByte 4 (burstWriteByte 3 (burstWriteByte 2
    (burstWriteByte 1 (burstWriteByte 0 t)))))) = w at h7 h8 hbuf
  have himg : w.peer.buf.set (7 : BitVec 4).toNat (s.img.get (7 : BitVec 4).toNat) = s.img := by
    refine Image.ext_get fun j hj => ?_
    rw [image_get_set _ _ (by decide) hj]
    by_cases e : j = 7
    · rw [if_pos (by rw [e]; rfl), e]; rfl
    · rw [if_neg (show ¬ j = (7 : BitVec 4).toNat from e)]
      exact hbuf j (show j < 7 by omega)
  rw [himg] at h8
  have hall : burstWriteBytes byteOrder t = burstWriteByte 7 w := by rw [← hw7]; rfl
  obtain ⟨v, hpads⟩ := h7.pads
  have hk8 : (burstWriteByte 7 w).peerKind = .reference := by
    rw [burstWriteByte, writeByte_peerKind]; exact h7.kind
  have hp8 : (burstWriteByte 7 w).pads = linesOut false ((w.img.get 7).getLsbD 7) := by
    rw [burstWriteByte, writeByte_pads]; simp only [hpads]; rfl
  have hstop := stopSession_reference (s := burstWriteByte 7 w) hk8 (by rw [hp8]; rfl) (by rw [hp8]; rfl)
  have hb : burstWrite s = stopSession (burstWriteByte 7 w) := by rw [burstWrite, ht, hall]
  refine ⟨?_, ?_, ?_, ?_, ?_, ?_⟩
  · rw [hb, hstop]
    show (burstWriteByte 7 w).peer.mem = _
    rw [h8]
    refine (Peer.commit_burst (p := { t.peer with n := 72, buf := s.img }) hbe rfl).trans ?_
    rw [hcmd]
    rfl
  · rw [burstWrite_peerKind, h.kind]
  · rw [hb, hstop]
  · rw [hb, hstop]
    show (burstWriteByte 7 w).peer.lost = none
    rw [h8, Peer.commit_lost, hcmd]
    exact h.lost
  · rw [burstWrite_pads]
  · rw [burstWrite_pads]

end Sys2Proof.Machine
end

