-- ==== Sys2Proof/Laws/Chip.lean ====
section
/-!
SUPPORT. The peer with a timekeeper beside the reference peer: between the rise and the fall of `CE` it does to its
registers what the reference peer does, but for the time registers, which its timekeeper may step (R88).
-/

namespace Sys2Proof.Machine

/-- A chip beside a reference peer `q`: they differ in the time registers at most and, after a read command, in what they
have read out of them. -/
inductive Peer.beside (q : Peer) : Peer → Prop
  | mk (m : Memory) (b : Image) (o : Bool) (data : (b = q.buf ∧ o = q.dout) ∨ (q.cmdRead = true ∧ 8 ≤ q.n))
      (wf : m.wf = true) (mem : ∀ k, k ∉ timeKeys → m.read k = q.mem.read k) :
      Peer.beside q { q with mem := m, buf := b, dout := o }

theorem Peer.beside_self {p : Peer} (h : p.mem.wf = true) : p.beside p :=
  .mk p.mem p.buf p.dout (.inl ⟨rfl, rfl⟩) h fun _ _ => rfl

theorem Peer.timeStep_fields (d : Nat) (p : Peer) : p.timeStep d = { p with mem := (p.timeStep d).mem } := by
  unfold Peer.timeStep
  repeat' split
  all_goals rfl

theorem Peer.beside.timeStep {p q : Peer} (h : q.beside p) (d : Nat) : q.beside (p.timeStep d) := by
  cases h with
  | mk m b o data wf mem =>
    rw [Peer.timeStep_fields]
    exact .mk _ b o data (Peer.timeStep_wf (p := { q with mem := m, buf := b, dout := o }) wf d) fun k hk =>
      (Peer.timeStep_read (p := { q with mem := m, buf := b, dout := o }) wf d hk).trans (mem k hk)

theorem Peer.beside.decodeCommand {p q : Peer} (h : q.beside p) (hn : q.n = 8) :
    q.decodeCommand.beside p.decodeCommand := by
  cases h with
  | mk m b o data wf mem =>
    unfold Peer.decodeCommand
    by_cases hr : q.cmdRead = true
    · have hd : q.cmdRead = true ∧ 8 ≤ q.n := ⟨hr, by omega⟩
      repeat' split
      all_goals first
        | exact absurd hr ‹_›
        | contradiction
        | exact .mk m _ o (.inr hd) wf mem
    · have hd := data.resolve_right fun h => hr h.1
      repeat' split
      all_goals first
        | contradiction
        | exact .mk m b o (.inl hd) wf mem
        | (simp only [Bool.not_eq_true] at hr; simp_all [Peer.cmdRead])

theorem Peer.beside.writeProtected {p q : Peer} (h : q.beside p) : p.writeProtected = q.writeProtected := by
  cases h with
  | mk m b o data wf mem => exact congrArg (·.getLsbD 7) (mem 0x8E (by decide))

theorem Peer.beside.commit {p q : Peer} (h : q.beside p) (hw : q.mem.wf = true) (hr : q.cmdRead = false) :
    q.commit.beside p.commit := by
  have hwp := h.writeProtected
  cases h with
  | mk m b o data wf mem =>
    obtain ⟨rfl, rfl⟩ := data.resolve_right fun h => by rw [hr] at h; exact absurd h.1 (by decide)
    unfold Peer.commit
    rw [hwp]
    repeat' split
    all_goals first
      | contradiction
      | exact .mk m _ _ (.inl ⟨rfl, rfl⟩) wf mem
      | exact .mk _ _ _ (.inl ⟨rfl, rfl⟩) (Memory.storeImage_wf wf _) fun k hk => by
          show Memory.read _ k = Memory.read _ k
          rw [Memory.read_storeImage wf, Memory.read_storeImage hw, mem k hk]
      | exact .mk _ _ _ (.inl ⟨rfl, rfl⟩) (Memory.store_wf wf _ _) fun k hk => by
          show Memory.read _ k = Memory.read _ k
          rw [Memory.read_store wf, Memory.read_store hw, mem k hk]
          rfl

theorem Peer.beside.fall {p q : Peer} (h : q.beside p) : q.fall.beside p.fall := by
  cases h with
  | mk m b o data wf mem =>
    unfold Peer.fall
    by_cases hd : q.cmdRead = true ∧ 8 ≤ q.n
    · repeat' split
      all_goals first
        | contradiction
        | exact .mk m b _ (.inr hd) wf mem
    · obtain ⟨rfl, rfl⟩ := data.resolve_right hd
      repeat' split
      all_goals first
        | contradiction
        | exact .mk m _ _ (.inl ⟨rfl, rfl⟩) wf mem

theorem Peer.beside.rise {p q : Peer} (h : q.beside p) (hw : q.mem.wf = true) {b c : Bool}
    (hb : b = c ∨ (q.cmdRead = true ∧ 8 ≤ q.n)) : (q.rise c).beside (p.rise b) := by
  by_cases hd : q.cmdRead = true ∧ 8 ≤ q.n
  · cases h with
    | mk m b' o data wf mem =>
      have h8 : ¬ q.n < 8 := by omega
      have e : q.rise c = { q with n := q.n + 1 } := by rw [Peer.rise, if_neg h8, if_pos hd.1]
      have e' : Peer.rise b { q with mem := m, buf := b', dout := o } =
          { q with mem := m, buf := b', dout := o, n := q.n + 1 } := by
        rw [Peer.rise, if_neg h8]
        exact if_pos hd.1
      rw [e, e']
      exact .mk (q := { q with n := q.n + 1 }) m b' o (.inr ⟨hd.1, Nat.le_succ_of_le hd.2⟩) wf mem
  · obtain rfl := hb.resolve_right hd
    cases h with
    | mk m b' o data wf mem =>
      obtain ⟨rfl, rfl⟩ := data.resolve_right hd
      unfold Peer.rise
      dsimp only
      split
      · split
        · exact (Peer.beside.mk (q := { q with cmd := setBit q.cmd 7 b, n := 8 }) m _ _ (.inl ⟨rfl, rfl⟩) wf
            mem).decodeCommand rfl
        · exact .mk (q := { q with cmd := setBit q.cmd q.n b, n := q.n + 1 }) m _ _ (.inl ⟨rfl, rfl⟩) wf mem
      · have hr : q.cmdRead = false := by
          cases hc : q.cmdRead
          · rfl
          · exact absurd ⟨hc, by omega⟩ hd
        have hr' : ∀ mm bb oo, Peer.cmdRead { q with mem := mm, buf := bb, dout := oo } = false := fun _ _ _ => hr
        rw [hr, hr' m q.buf q.dout]
        simp only [Bool.false_eq_true, if_false]
        have hl : ∀ mm bb oo, Peer.len { q with mem := mm, buf := bb, dout := oo } = q.len := fun _ _ _ => rfl
        rw [hl m q.buf q.dout]
        split
        · exact .mk (q := { q with lost := some .writeOverrun }) m _ _ (.inl ⟨rfl, rfl⟩) wf mem
        · exact (Peer.beside.mk (q := { q with
              buf := q.buf.set ((q.n - 8) / 8) (setBit (q.buf.get ((q.n - 8) / 8)) ((q.n - 8) % 8) b), n := q.n + 1 })
            m _ _ (.inl ⟨rfl, rfl⟩) wf mem).commit hw hr

/-- The level of `IO` is the same, or the peer takes nothing from it. -/
theorem Peer.beside.ioLevel {p q : Peer} (h : q.beside p) (pd : Pads) (d : Nat) :
    Machine.ioLevel .chip pd p d = Machine.ioLevel .reference pd q d ∨ (q.cmdRead = true ∧ 8 ≤ q.n) := by
  cases h with
  | mk m b o data wf mem =>
    by_cases hd : q.cmdRead = true ∧ 8 ≤ q.n
    · exact .inr hd
    · obtain ⟨rfl, rfl⟩ := data.resolve_right hd
      exact .inl rfl

/-- An event that leaves the level of `CE` alone. -/
theorem Peer.beside.edges {p q : Peer} (h : q.beside p) (hw : q.mem.wf = true) {old new : Pads}
    (hce : ceLevel new = ceLevel old) (d : Nat) :
    (q.edges .reference old new d).beside (p.edges .chip old new d) := by
  have hact : p.act = q.act := by cases h; rfl
  have hlost : p.lost = q.lost := by cases h; rfl
  unfold Peer.edges
  rw [hce, hact, hlost]
  cases ceLevel old <;> simp only [Bool.not_true, Bool.not_false, Bool.and_true, Bool.and_false,
    Bool.false_eq_true, if_false] <;> (
    repeat' split
    all_goals first
      | contradiction
      | exact h
      | exact h.fall
      | exact h.rise hw (h.ioLevel _ _))

/-- The events of a list leave the level of `CE` alone. -/
def ceKept : List Event → Pads → Prop
  | [], _ => True
  | e :: es, pd => ceLevel (e.onPads pd) = ceLevel pd ∧ ceKept es (e.onPads pd)

/-- Over events that leave `CE` alone, a chip and a reference peer that stood beside it stay so: what the reference peer
does to the registers, the chip does to all but the time registers (R88). -/
theorem Peer.beside.after {es : List Event} {p q : Peer} {pd : Pads} (hce : ceKept es pd) (h : q.beside p)
    (hw : q.mem.wf = true) (d : Nat) : (peerAfter .reference es pd d q).beside (peerAfter .chip es pd d p) := by
  induction es generalizing p q pd d with
  | nil => exact h
  | cons e es ih => exact ih hce.2 ((h.timeStep d).edges hw hce.1 d) (peerReact_wf hw .reference _ _ _) (d + 1)
end Sys2Proof.Machine
end

