-- ==== Sys2Proof/Laws/Encoding.lean ====
section
/-!
SUPPORT. The packed operand ports (spec/30_encoding.md R115, R121) and the command byte (R61) give back what was put in.
-/

namespace Sys2Proof

theorem toNat_append8 {n : Nat} (x : BitVec n) (y : Byte) : (x ++ y).toNat = x.toNat * 256 + y.toNat := by
  rw [BitVec.toNat_append, ← Nat.shiftLeft_add_eq_or_of_lt y.isLt, Nat.shiftLeft_eq]

/-- R121: the image port. -/
theorem unpackImage_packImage (v : Image) : unpackImage (packImage v) = v := by
  have h : (packImage v).toNat = ((((((v.b7.toNat * 256 + v.b6.toNat) * 256 + v.b5.toNat) * 256 + v.b4.toNat) * 256 +
      v.b3.toNat) * 256 + v.b2.toNat) * 256 + v.b1.toNat) * 256 + v.b0.toNat := by
    simp only [packImage, toNat_append8]
  have e0 := v.b0.isLt; have e1 := v.b1.isLt; have e2 := v.b2.isLt; have e3 := v.b3.isLt
  have e4 := v.b4.isLt; have e5 := v.b5.isLt; have e6 := v.b6.isLt; have e7 := v.b7.isLt
  cases v
  simp only [unpackImage, Image.mk.injEq, ← BitVec.toNat_inj, BitVec.extractLsb'_toNat, h, Nat.shiftRight_eq_div_pow]
  omega

/-- R115, R121: the time record port. -/
theorem unpackTRec_packTRec (t : TRec) : unpackTRec (packTRec t) = t := by
  have h : (packTRec t).toNat = (((((t.year.toNat * 256 + t.month.toNat) * 256 + t.day.toNat) * 256 + t.wday.toNat) *
      256 + t.hour.toNat) * 256 + t.min.toNat) * 256 + t.sec.toNat := by
    simp only [packTRec, toNat_append8]
  have e0 := t.sec.isLt; have e1 := t.min.isLt; have e2 := t.hour.isLt; have e3 := t.wday.isLt
  have e4 := t.day.isLt; have e5 := t.month.isLt; have e6 := t.year.isLt
  cases t
  simp only [unpackTRec, TRec.mk.injEq, ← BitVec.toNat_inj, BitVec.extractLsb'_toNat, h, Nat.shiftRight_eq_div_pow]
  omega

/-! ## The fields of a command byte (R61, R100) -/

theorem commandSpace_commandByte : ∀ (s : Bool) (a : BitVec 5) (r : Bool), commandSpace (commandByte s a r) = s := by
  decide +kernel

theorem commandNumber_commandByte : ∀ (s : Bool) (a : BitVec 5) (r : Bool), commandNumber (commandByte s a r) = a := by
  decide +kernel

theorem commandIsRead_commandByte : ∀ (s : Bool) (a : BitVec 5) (r : Bool), commandIsRead (commandByte s a r) = r := by
  decide +kernel

theorem commandByte_bit7 : ∀ (s : Bool) (a : BitVec 5) (r : Bool), (commandByte s a r).getLsbD 7 = true := by
  decide +kernel

end Sys2Proof
end

