-- ==== Sys2Proof/Laws/PerInstr.lean ====
section
/-!
SUPPORT. Per-instruction laws: the encoding of each well-formed instruction lies in the row of spec/opcode_table.json
that its constructor stands for.
-/

namespace Sys2Proof.Laws.TableRow

open Sys2Proof

/-- A row's pattern: the bits under `mask` are `pattern`. A host selector has 4 bits, a command byte 8. -/
structure Row where
  pattern : Byte
  mask : Byte
deriving DecidableEq, Repr

/-- The rows of spec/opcode_table.json. -/
def row : Instr → Row
  | .bind _ => ⟨0x0, 0xF⟩
  | .start => ⟨0x1, 0xF⟩
  | .stop => ⟨0x2, 0xF⟩
  | .wrbyte _ _ => ⟨0x3, 0xF⟩
  | .rdbyte => ⟨0x4, 0xF⟩
  | .regrd _ => ⟨0x5, 0xF⟩
  | .regwr _ _ => ⟨0x6, 0xF⟩
  | .burstrd => ⟨0x7, 0xF⟩
  | .burstwr _ => ⟨0x8, 0xF⟩
  | .clkread => ⟨0x9, 0xF⟩
  | .clkwrite _ => ⟨0xA, 0xF⟩
  | .get => ⟨0xB, 0xF⟩
  | .set _ => ⟨0xC, 0xF⟩
  | .halt => ⟨0xD, 0xF⟩
  | .present => ⟨0xE, 0xF⟩
  | .reservedOp => ⟨0xF, 0xF⟩
  | .secWr _ => ⟨0x80, 0xFF⟩
  | .secRd => ⟨0x81, 0xFF⟩
  | .minWr _ => ⟨0x82, 0xFF⟩
  | .minRd => ⟨0x83, 0xFF⟩
  | .hourWr _ => ⟨0x84, 0xFF⟩
  | .hourRd => ⟨0x85, 0xFF⟩
  | .dateWr _ => ⟨0x86, 0xFF⟩
  | .dateRd => ⟨0x87, 0xFF⟩
  | .monthWr _ => ⟨0x88, 0xFF⟩
  | .monthRd => ⟨0x89, 0xFF⟩
  | .wdayWr _ => ⟨0x8A, 0xFF⟩
  | .wdayRd => ⟨0x8B, 0xFF⟩
  | .yearWr _ => ⟨0x8C, 0xFF⟩
  | .yearRd => ⟨0x8D, 0xFF⟩
  | .wpWr _ => ⟨0x8E, 0xFF⟩
  | .wpRd => ⟨0x8F, 0xFF⟩
  | .tcsWr _ => ⟨0x90, 0xFF⟩
  | .tcsRd => ⟨0x91, 0xFF⟩
  | .clkBurstWr _ => ⟨0xBE, 0xFF⟩
  | .clkBurstRd => ⟨0xBF, 0xFF⟩
  | .ramBurstWr _ => ⟨0xFE, 0xFF⟩
  | .ramBurstRd => ⟨0xFF, 0xFF⟩
  | .ramWr _ _ => ⟨0xC0, 0xC1⟩
  | .ramRd _ => ⟨0xC1, 0xC1⟩
  | .clkUnassignedWr _ _ => ⟨0x80, 0xC1⟩
  | .clkUnassignedRd _ => ⟨0x81, 0xC1⟩
  | .cmdBit7Clear _ _ => ⟨0x00, 0x80⟩

/-- The bits of a command that the table numbers: the selector, or the first byte of the frame. -/
def headByte : Command → Byte
  | .host p => p.op.setWidth 8
  | .wire [] => 0
  | .wire (c :: _) => c

def Statement (i : Instr) : Prop := i.wf = true → headByte (encode i) &&& (row i).mask = (row i).pattern

/-- The head byte and the row, written out, and their comparison. -/
theorem Statement.of {i : Instr} (b : Byte) (r : Row) (hb : headByte (encode i) = b) (hr : row i = r)
    (h : b &&& r.mask = r.pattern) : Statement i := fun _ => by rw [hb, hr]; exact h

theorem bind (pins : Pins) : Statement (.bind pins) := .of 0x0 ⟨0x0, 0xF⟩ rfl rfl (by decide)
theorem start : Statement .start := .of 0x1 ⟨0x1, 0xF⟩ rfl rfl (by decide)
theorem stop : Statement .stop := .of 0x2 ⟨0x2, 0xF⟩ rfl rfl (by decide)
theorem wrbyte (data : Byte) (rel : Bool) : Statement (.wrbyte data rel) := .of 0x3 ⟨0x3, 0xF⟩ rfl rfl (by decide)
theorem rdbyte : Statement .rdbyte := .of 0x4 ⟨0x4, 0xF⟩ rfl rfl (by decide)
theorem regrd (addr : Byte) : Statement (.regrd addr) := .of 0x5 ⟨0x5, 0xF⟩ rfl rfl (by decide)
theorem regwr (addr : Byte) (data : Byte) : Statement (.regwr addr data) := .of 0x6 ⟨0x6, 0xF⟩ rfl rfl (by decide)
theorem burstrd : Statement .burstrd := .of 0x7 ⟨0x7, 0xF⟩ rfl rfl (by decide)
theorem burstwr (img : Image) : Statement (.burstwr img) := .of 0x8 ⟨0x8, 0xF⟩ rfl rfl (by decide)
theorem clkread : Statement .clkread := .of 0x9 ⟨0x9, 0xF⟩ rfl rfl (by decide)
theorem clkwrite (t : TRec) : Statement (.clkwrite t) := .of 0xA ⟨0xA, 0xF⟩ rfl rfl (by decide)
theorem get : Statement .get := .of 0xB ⟨0xB, 0xF⟩ rfl rfl (by decide)
theorem set (l : Nat) : Statement (.set l) := .of 0xC ⟨0xC, 0xF⟩ rfl rfl (by decide)
theorem halt : Statement .halt := .of 0xD ⟨0xD, 0xF⟩ rfl rfl (by decide)
theorem present : Statement .present := .of 0xE ⟨0xE, 0xF⟩ rfl rfl (by decide)
theorem reservedOp : Statement .reservedOp := .of 0xF ⟨0xF, 0xF⟩ rfl rfl (by decide)
theorem secWr (d : Byte) : Statement (.secWr d) := .of 0x80 ⟨0x80, 0xFF⟩ rfl rfl (by decide)
theorem secRd : Statement .secRd := .of 0x81 ⟨0x81, 0xFF⟩ rfl rfl (by decide)
theorem minWr (d : Byte) : Statement (.minWr d) := .of 0x82 ⟨0x82, 0xFF⟩ rfl rfl (by decide)
theorem minRd : Statement .minRd := .of 0x83 ⟨0x83, 0xFF⟩ rfl rfl (by decide)
theorem hourWr (d : Byte) : Statement (.hourWr d) := .of 0x84 ⟨0x84, 0xFF⟩ rfl rfl (by decide)
theorem hourRd : Statement .hourRd := .of 0x85 ⟨0x85, 0xFF⟩ rfl rfl (by decide)
theorem dateWr (d : Byte) : Statement (.dateWr d) := .of 0x86 ⟨0x86, 0xFF⟩ rfl rfl (by decide)
theorem dateRd : Statement .dateRd := .of 0x87 ⟨0x87, 0xFF⟩ rfl rfl (by decide)
theorem monthWr (d : Byte) : Statement (.monthWr d) := .of 0x88 ⟨0x88, 0xFF⟩ rfl rfl (by decide)
theorem monthRd : Statement .monthRd := .of 0x89 ⟨0x89, 0xFF⟩ rfl rfl (by decide)
theorem wdayWr (d : Byte) : Statement (.wdayWr d) := .of 0x8A ⟨0x8A, 0xFF⟩ rfl rfl (by decide)
theorem wdayRd : Statement .wdayRd := .of 0x8B ⟨0x8B, 0xFF⟩ rfl rfl (by decide)
theorem yearWr (d : Byte) : Statement (.yearWr d) := .of 0x8C ⟨0x8C, 0xFF⟩ rfl rfl (by decide)
theorem yearRd : Statement .yearRd := .of 0x8D ⟨0x8D, 0xFF⟩ rfl rfl (by decide)
theorem wpWr (d : Byte) : Statement (.wpWr d) := .of 0x8E ⟨0x8E, 0xFF⟩ rfl rfl (by decide)
theorem wpRd : Statement .wpRd := .of 0x8F ⟨0x8F, 0xFF⟩ rfl rfl (by decide)
theorem tcsWr (d : Byte) : Statement (.tcsWr d) := .of 0x90 ⟨0x90, 0xFF⟩ rfl rfl (by decide)
theorem tcsRd : Statement .tcsRd := .of 0x91 ⟨0x91, 0xFF⟩ rfl rfl (by decide)
theorem clkBurstWr (img : Image) : Statement (.clkBurstWr img) := .of 0xBE ⟨0xBE, 0xFF⟩ rfl rfl (by decide)
theorem clkBurstRd : Statement .clkBurstRd := .of 0xBF ⟨0xBF, 0xFF⟩ rfl rfl (by decide)
theorem ramBurstWr (d : Byte) : Statement (.ramBurstWr d) := .of 0xFE ⟨0xFE, 0xFF⟩ rfl rfl (by decide)
theorem ramBurstRd : Statement .ramBurstRd := .of 0xFF ⟨0xFF, 0xFF⟩ rfl rfl (by decide)
theorem ramWr (a : BitVec 5) (d : Byte) : Statement (.ramWr a d) :=
  .of (commandByte true a false) ⟨0xC0, 0xC1⟩ rfl rfl (by revert a; decide)
theorem ramRd (a : BitVec 5) : Statement (.ramRd a) :=
  .of (commandByte true a true) ⟨0xC1, 0xC1⟩ rfl rfl (by revert a; decide)
theorem clkUnassignedWr (a : BitVec 5) (d : Byte) : Statement (.clkUnassignedWr a d) :=
  .of (commandByte false a false) ⟨0x80, 0xC1⟩ rfl rfl (by revert a; decide)
theorem clkUnassignedRd (a : BitVec 5) : Statement (.clkUnassignedRd a) :=
  .of (commandByte false a true) ⟨0x81, 0xC1⟩ rfl rfl (by revert a; decide)
theorem cmdBit7Clear (x : BitVec 7) (d : Byte) : Statement (.cmdBit7Clear x d) :=
  .of (0#1 ++ x) ⟨0x00, 0x80⟩ (by rw [encode]; split <;> rfl) rfl (by revert x; decide)

end Sys2Proof.Laws.TableRow
end

