-- ==== Sys2Proof/Laws/Sequencer.lean ====
section
/-!
SUPPORT. The small-step form: what a run of steps from a sequencer position does, said once for each sub-operation and
once for a stage. Each is proved phase by phase (R31) and ends in the operation of Ops.lean.
-/

namespace Sys2Proof.Machine

/-! ## Runs of steps -/

theorem run_succ_iff (M : Host.Core) {n : Nat} {s t : M.State} :
    M.run (n + 1) s = .next t ↔ ∃ v, M.step s = .next v ∧ M.run n v = .next t := by
  rw [Host.Core.run]
  cases M.step s <;> simp

theorem run_add (M : Host.Core) {a b : Nat} {s t u : M.State} (h : M.run a s = .next t) (h' : M.run b t = .next u) :
    M.run (a + b) s = .next u := by
  induction a generalizing s with
  | zero =>
    rw [Host.Core.run, Host.Outcome.next.injEq] at h
    rw [Nat.zero_add, h]
    exact h'
  | succ a ih =>
    obtain ⟨v, hv, h⟩ := (run_succ_iff M).1 h
    rw [Nat.succ_add]
    exact (run_succ_iff M).2 ⟨v, hv, ih h⟩

/-- `n` steps take `s` to `t`. -/
abbrev Steps (n : Nat) (s t : State) : Prop := Host.Core.run core n s = .next t

theorem Steps.trans {a b : Nat} {s t u : State} (h : Steps a s t) (h' : Steps b t u) : Steps (a + b) s u :=
  run_add core h h'

theorem Steps.one {s t : State} (h : step s = .next t) : Steps 1 s t :=
  (run_succ_iff core).2 ⟨t, h, rfl⟩

/-- A run that has not refused, with no response of an earlier operation standing and no command offered. -/
abbrev State.running (s : State) : Prop := s.mark = none ∧ s.rspValid = false ∧ s.pend = []

theorem endPulse_of_low {s : State} (h : s.rspValid = false) : endPulse s = s := by rw [endPulse, ← h]

/-- A step with a command offered is the answer to it; `exec` asks X2 while an operation is in progress. -/
theorem step_of_command {s : State} {c : Command} {cs : List Command} (hm : s.mark = none) (hc : s.pend = c :: cs) :
    step s = answerCommand c { endPulse s with pend := cs } := by
  simp only [step, hm, hc]

/-- A step with no command offered is the sequencer's, which in `IDLE` waits. -/
theorem step_of_no_command {s : State} (hm : s.mark = none) (hc : s.pend = []) : step s = microStep (endPulse s) := by
  simp only [step, hm, hc]

theorem step_running {s : State} (hm : s.running) : step s = microStep s := by
  rw [step_of_no_command hm.1 hm.2.2, endPulse_of_low hm.2.1]

theorem microStep_idle {s : State} (h : s.seq = .idle) : microStep s = .next s := by rw [microStep, h]

/-! ## The reference peer's refusal stays -/

theorem peerRefusal_emit {e : Event} {s : State} (h : peerRefusal s.peerKind (emit e s).peer = none) :
    peerRefusal s.peerKind s.peer = none := by
  rw [emit_peer] at h
  cases hk : s.peerKind with
  | absent => rfl
  | oracle => rfl
  | chip => rfl
  | reference =>
    rw [hk] at h
    cases hl : s.peer.lost with
    | none => simp [peerRefusal, hl]
    | some r =>
      exfalso
      simp only [peerRefusal, peerReact, Peer.edges, Peer.openSession, Peer.closeSession, hl] at h
      revert h
      cases ceLevel s.pads <;> cases ceLevel (e.onPads s.pads) <;> cases sclkLevel (e.onPads s.pads) s.draws <;>
        cases s.peer.act <;> simp [hl]

theorem peerRefusal_emitAll {es : List Event} {s : State} (h : peerRefusal s.peerKind (emitAll es s).peer = none) :
    peerRefusal s.peerKind s.peer = none := by
  induction es generalizing s with
  | nil => exact h
  | cons e es ih => exact peerRefusal_emit (ih (s := emit e s) h)

/-! ## Phases -/

/-- `n` phases of a sub-operation, on the state without its position. -/
def Sub.phases (u : Sub) : Nat → Phase → State → Option (State × Option Phase)
  | 0, ph, s => some (s, some ph)
  | n + 1, ph, s =>
    match u.phase ph s with
    | none => none
    | some (t, some nx) => u.phases n nx t
    | some (t, none) => if n = 0 then some (t, none) else none

theorem Sub.phases_succ (u : Sub) (n : Nat) (ph : Phase) (s : State) : u.phases (n + 1) ph s =
    match u.phase ph s with
    | none => none
    | some (t, some nx) => u.phases n nx t
    | some (t, none) => if n = 0 then some (t, none) else none := rfl

theorem Sub.phases_add {u : Sub} {a b : Nat} {ph nx : Phase} {s t : State} (h : u.phases a ph s = some (t, some nx)) :
    u.phases (a + b) ph s = u.phases b nx t := by
  induction a generalizing ph s with
  | zero =>
    simp only [Sub.phases, Option.some.injEq, Prod.mk.injEq] at h
    rw [Nat.zero_add, h.1, h.2]
  | succ a ih =>
    rw [Nat.succ_add]
    rw [Sub.phases_succ] at h ⊢
    cases hq : u.phase ph s with
    | none => rw [hq] at h; exact absurd h (by simp)
    | some x =>
      obtain ⟨v, _ | nx'⟩ := x
      · rw [hq] at h
        simp only at h
        split at h <;> exact absurd h (by simp)
      · rw [hq] at h
        exact ih h

/-- A phase is one event, and leaves alone what a plan is made from. -/
theorem Sub.phase_kept {u : Sub} {ph : Phase} {s t : State} {r : Option Phase} (h : u.phase ph s = some (t, r)) :
    t.mark = s.mark ∧ t.rspValid = s.rspValid ∧ t.pend = s.pend ∧ t.peerKind = s.peerKind ∧ t.wdata = s.wdata ∧
      t.rel = s.rel ∧ t.addr = s.addr ∧ t.img = s.img ∧ ∃ e, t.peer = (emit e s).peer := by
  cases u <;> cases ph <;> simp only [Sub.phase, reduceCtorEq, Option.some.injEq, Prod.mk.injEq] at h
  all_goals try (split at h <;> simp only [Option.some.injEq, Prod.mk.injEq] at h)
  all_goals (obtain ⟨rfl, -⟩ := h; exact ⟨rfl, rfl, rfl, rfl, rfl, rfl, rfl, rfl, _, rfl⟩)

theorem Sub.phase_at (u : Sub) (ph : Phase) (s : State) (q : SeqPos) :
    u.phase ph { s with seq := q } = (u.phase ph s).map fun x => ({ x.1 with seq := q }, x.2) := by
  cases u <;> cases ph <;> first
    | rfl
    | (simp only [Sub.phase]; split <;> rfl)

theorem Sub.phases_refusal {u : Sub} {n : Nat} {ph : Phase} {s t : State} {r : Option Phase}
    (h : u.phases n ph s = some (t, r)) (ht : peerRefusal t.peerKind t.peer = none) :
    peerRefusal s.peerKind s.peer = none := by
  induction n generalizing ph s with
  | zero =>
    simp only [Sub.phases, Option.some.injEq, Prod.mk.injEq] at h
    rw [h.1]; exact ht
  | succ n ih =>
    rw [Sub.phases_succ] at h
    cases hp : u.phase ph s with
    | none => rw [hp] at h; exact absurd h (by simp)
    | some x =>
      obtain ⟨v, r'⟩ := x
      obtain ⟨-, -, -, hk, -, -, -, -, e, he⟩ := Sub.phase_kept hp
      have hv : peerRefusal v.peerKind v.peer = none := by
        rw [hp] at h
        cases r' with
        | none =>
          simp only at h
          split at h
          · simp only [Option.some.injEq, Prod.mk.injEq] at h; rw [h.1]; exact ht
          · exact absurd h (by simp)
        | some nx => exact ih h
      rw [hk, he] at hv
      exact peerRefusal_emit hv

/-! ## Positions -/

theorem plan_congr {op : Op} {st : Nat} {s t : State} (h1 : t.wdata = s.wdata) (h2 : t.rel = s.rel)
    (h3 : t.addr = s.addr) (h4 : t.img = s.img) : plan op st t = plan op st s := by
  unfold plan
  rw [h1, h2, h3, h4]

theorem Sub.enter_at (u : Sub) (s : State) (q : SeqPos) : u.enter { s with seq := q } = { u.enter s with seq := q } := by
  cases u <;> rfl

theorem Sub.leave_at (u : Sub) (s : State) (q : SeqPos) : u.leave { s with seq := q } = { u.leave s with seq := q } := by
  rcases u with _ | _ | _ | (_ | k) <;> rfl

theorem Sub.enter_peer (u : Sub) (s : State) : (u.enter s).peer = s.peer ∧ (u.enter s).peerKind = s.peerKind ∧
    (u.enter s).mark = s.mark ∧ (u.enter s).rspValid = s.rspValid ∧ (u.enter s).pend = s.pend := by
  cases u <;> exact ⟨rfl, rfl, rfl, rfl, rfl⟩

theorem Sub.leave_peer (u : Sub) (s : State) : (u.leave s).peer = s.peer ∧ (u.leave s).peerKind = s.peerKind ∧
    (u.leave s).mark = s.mark := by
  rcases u with _ | _ | _ | (_ | k) <;> exact ⟨rfl, rfl, rfl⟩

theorem enterStage_at (op : Op) (st : Nat) (s : State) (q : SeqPos) :
    enterStage op st { s with seq := q } = { enterStage op st s with seq := q } := by
  unfold enterStage
  split <;> rfl

theorem enterStage_peer (op : Op) (st : Nat) (s : State) : (enterStage op st s).peer = s.peer ∧
    (enterStage op st s).peerKind = s.peerKind ∧ (enterStage op st s).mark = s.mark := by
  unfold enterStage
  split <;> exact ⟨rfl, rfl, rfl⟩

theorem completeOp_peer (op : Op) (s : State) : (completeOp op s).peer = s.peer ∧
    (completeOp op s).peerKind = s.peerKind ∧ (completeOp op s).mark = s.mark := by
  cases op <;> exact ⟨rfl, rfl, rfl⟩

/-- Where a stage that is done goes: the next stage, or the end of the operation. -/
def endStage (op : Op) (st : Nat) (s : State) : State :=
  match (plan op (st + 1) s)[0]? with
  | some u => goTo op (st + 1) 0 u (enterStage op (st + 1) s)
  | none => completeOp op s

theorem advance_eq (op : Op) (st k : Nat) (s : State) : advance op st k s =
    match (plan op st s)[k + 1]? with
    | some u => goTo op st (k + 1) u s
    | none => endStage op st s := rfl

theorem advance_at (op : Op) (st k : Nat) (s : State) (q : SeqPos) :
    advance op st k { s with seq := q } = advance op st k s := by
  unfold advance
  rw [plan_congr (s := s) (t := { s with seq := q }) rfl rfl rfl rfl,
    plan_congr (s := s) (t := { s with seq := q }) (st := st + 1) rfl rfl rfl rfl]
  split
  · rw [goTo, goTo, Sub.enter_at]
  · split
    · rw [goTo, goTo, enterStage_at, Sub.enter_at]
    · cases op <;> rfl

theorem advance_peer (op : Op) (st k : Nat) (s : State) : (advance op st k s).peer = s.peer ∧
    (advance op st k s).peerKind = s.peerKind ∧ (advance op st k s).mark = s.mark := by
  unfold advance
  split
  · exact ⟨(Sub.enter_peer _ s).1, (Sub.enter_peer _ s).2.1, (Sub.enter_peer _ s).2.2.1⟩
  · split
    · obtain ⟨h1, h2, h3⟩ := enterStage_peer op (st + 1) s
      rename_i u _
      obtain ⟨h4, h5, h6, -⟩ := u.enter_peer (enterStage op (st + 1) s)
      exact ⟨h4.trans h1, h5.trans h2, h6.trans h3⟩
    · exact completeOp_peer op s

theorem unlessPeerRefuses_next {t : State} (h : peerRefusal t.peerKind t.peer = none) : unlessPeerRefuses t = .next t := by
  rw [unlessPeerRefuses, h]

/-- Phases that stay within a sub-operation are as many steps. -/
theorem Sub.steps_within {op : Op} {st k : Nat} {u : Sub} {n : Nat} {ph nx : Phase} {s t : State} (hm : s.running)
    (hp : (plan op st s)[k]? = some u) (h : u.phases n ph s = some (t, some nx))
    (ht : peerRefusal t.peerKind t.peer = none) :
    Steps n { s with seq := .at op st k ph } { t with seq := .at op st k nx } := by
  induction n generalizing ph s with
  | zero =>
    simp only [Sub.phases, Option.some.injEq, Prod.mk.injEq] at h
    obtain ⟨rfl, rfl⟩ := h
    rfl
  | succ n ih =>
    rw [Sub.phases_succ] at h
    cases hq : u.phase ph s with
    | none => rw [hq] at h; exact absurd h (by simp)
    | some x =>
      obtain ⟨v, _ | nx'⟩ := x
      · rw [hq] at h
        simp only at h
        split at h <;> exact absurd h (by simp)
      · rw [hq] at h
        obtain ⟨k1, k2, k0, -, k3, k4, k5, k6, -⟩ := Sub.phase_kept hq
        have hv : peerRefusal v.peerKind v.peer = none := Sub.phases_refusal h ht
        have hstep : step { s with seq := .at op st k ph } = .next { v with seq := .at op st k nx' } := by
          rw [step_running (s := { s with seq := .at op st k ph }) hm, microStep]
          simp only [plan_congr (op := op) (st := st) (s := s) (t := { s with seq := .at op st k ph }) rfl rfl rfl rfl,
            hp, Sub.phase_at, hq, Option.map_some]
          exact unlessPeerRefuses_next hv
        rw [Nat.add_comm]
        exact (Steps.one hstep).trans (ih ⟨k1.trans hm.1, k2.trans hm.2.1, k0.trans hm.2.2⟩
          (by rw [plan_congr k3 k4 k5 k6]; exact hp) h)

/-- Phases to the end of a sub-operation are as many steps, and go on to what follows it. -/
theorem Sub.steps_through {op : Op} {st k : Nat} {u : Sub} {n : Nat} {ph : Phase} {s t : State} (hm : s.running)
    (hp : (plan op st s)[k]? = some u) (h : u.phases n ph s = some (t, none))
    (ht : peerRefusal t.peerKind t.peer = none) :
    Steps n { s with seq := .at op st k ph } (advance op st k (u.leave t)) := by
  induction n generalizing ph s with
  | zero => simp [Sub.phases] at h
  | succ n ih =>
    rw [Sub.phases_succ] at h
    cases hq : u.phase ph s with
    | none => rw [hq] at h; exact absurd h (by simp)
    | some x =>
      obtain ⟨v, _ | nx'⟩ := x
      · rw [hq] at h
        simp only at h
        split at h
        · rename_i hn
          simp only [Option.some.injEq, Prod.mk.injEq, and_true] at h
          subst hn h
          refine Steps.one ?_
          rw [step_running (s := { s with seq := .at op st k ph }) hm, microStep]
          simp only [plan_congr (op := op) (st := st) (s := s) (t := { s with seq := .at op st k ph }) rfl rfl rfl rfl,
            hp, Sub.phase_at, hq, Option.map_some, Sub.leave_at, advance_at]
          obtain ⟨h1, h2, -⟩ := advance_peer op st k (u.leave v)
          obtain ⟨h3, h4, -⟩ := u.leave_peer v
          exact unlessPeerRefuses_next (by rw [h1, h2, h3, h4]; exact ht)
        · exact absurd h (by simp)
      · rw [hq] at h
        obtain ⟨k1, k2, k0, -, k3, k4, k5, k6, -⟩ := Sub.phase_kept hq
        have hv : peerRefusal v.peerKind v.peer = none := Sub.phases_refusal h ht
        have hstep : step { s with seq := .at op st k ph } = .next { v with seq := .at op st k nx' } := by
          rw [step_running (s := { s with seq := .at op st k ph }) hm, microStep]
          simp only [plan_congr (op := op) (st := st) (s := s) (t := { s with seq := .at op st k ph }) rfl rfl rfl rfl,
            hp, Sub.phase_at, hq, Option.map_some]
          exact unlessPeerRefuses_next hv
        rw [Nat.add_comm]
        exact (Steps.one hstep).trans (ih ⟨k1.trans hm.1, k2.trans hm.2.1, k0.trans hm.2.2⟩
          (by rw [plan_congr k3 k4 k5 k6]; exact hp) h)

/-! ## Each sub-operation, phase by phase -/

/-- What a sub-operation does as one operation. -/
def Sub.apply : Sub → State → State
  | .start, s => startSession s
  | .stop, s => stopSession s
  | .write d r none, s => writeByte d r s
  | .write d r (some k), s => writeByte d r { s with bytecnt := k }
  | .read none, s => readByte s
  | .read (some k), s => burstReadByte k s

/-- How many events it has (R171). -/
def Sub.count : Sub → Nat
  | .start => 6
  | .stop => 2
  | .write _ r _ => if r then 47 else 48
  | .read _ => 40

theorem Sub.start_phases (s : State) :
    Sub.start.phases 6 .s0 s = some ({ emitAll startEvents s with sess := .opened }, none) := rfl

theorem Sub.stop_phases (s : State) :
    Sub.stop.phases 2 .t0 s = some ({ emitAll stopEvents s with sess := .closed }, none) := rfl

/-- Events do not touch the serial registers. -/
theorem emitAll_serial (es : List Event) (s : State) (d : Byte) (r : Bool) (i : BitVec 3) (k : BitVec 4) :
    emitAll es { s with sr := d, rel := r, bitcnt := i, bytecnt := k } =
      { emitAll es s with sr := d, rel := r, bitcnt := i, bytecnt := k } := by
  induction es generalizing s with
  | nil => rfl
  | cons e es ih => exact ih (emit e s)

theorem emitAll_with_bitcnt (es : List Event) (s : State) (i : BitVec 3) :
    emitAll es { s with bitcnt := i } = { emitAll es s with bitcnt := i } := by
  induction es generalizing s with
  | nil => rfl
  | cons e es ih => exact ih (emit e s)

theorem Sub.write_bit (d : Byte) (r : Bool) (k : Option (BitVec 4)) {s : State} (hi : (s.bitcnt == 7) = false) :
    (Sub.write d r k).phases 6 .w0 s =
      some ({ emitAll (writeBitEvents s.sr s.rel s.bitcnt) s with bitcnt := s.bitcnt + 1 }, some .w0) := by
  simp only [Sub.phases, Sub.phase, writeBitEvents, emit_rel, emit_bitcnt, emit_sr, hi, Bool.and_false, Bool.false_eq_true,
    if_false]
  rfl

theorem Sub.write_last (d : Byte) (r : Bool) (k : Option (BitVec 4)) {s : State} (hi : s.bitcnt = 7) :
    (Sub.write d r k).phases (if s.rel then 5 else 6) .w0 s = some (emitAll (writeBitEvents s.sr s.rel 7) s, none) := by
  have h7 : (s.bitcnt == 7) = true := by rw [hi]; rfl
  cases hr : s.rel <;> simp only [Sub.phases, Sub.phase, writeBitEvents, emit_rel, emit_bitcnt, emit_sr, h7, hr,
    Bool.and_true, Bool.false_eq_true, if_false, if_true] <;> rw [hi] <;> rfl

theorem bitOrder_take {j : Nat} (h : j < 8) : bitOrder.take (j + 1) = bitOrder.take j ++ [BitVec.ofNat 3 j] := by
  interval_cases j <;> rfl

theorem Sub.write_bits (d : Byte) (r : Bool) (k : Option (BitVec 4)) {s : State} (h0 : s.bitcnt = 0) (j : Nat)
    (hj : j ≤ 7) : (Sub.write d r k).phases (6 * j) .w0 s =
      some ({ emitAll ((bitOrder.take j).flatMap (writeBitEvents s.sr s.rel)) s with bitcnt := BitVec.ofNat 3 j },
        some .w0) := by
  induction j with
  | zero =>
    have e : ({ s with bitcnt := 0 } : State) = s := by rw [← h0]
    rw [Nat.mul_zero, List.take_zero, List.flatMap_nil]
    exact congrArg (fun t => some (t, some Phase.w0)) e.symm
  | succ j ih =>
    have hj' : j < 7 := by omega
    rw [Nat.mul_succ, Sub.phases_add (ih (by omega)), Sub.write_bit _ _ _ (by
      show (BitVec.ofNat 3 j == 7) = false
      interval_cases j <;> rfl), bitOrder_take (by omega), List.flatMap_append, emitAll_append, List.flatMap_singleton,
      emitAll_with_bitcnt]
    have e : BitVec.ofNat 3 j + 1 = BitVec.ofNat 3 (j + 1) := by interval_cases j <;> rfl
    simp only [emitAll_sr, emitAll_rel, e]

theorem emitAll_with_bytecnt (es : List Event) (s : State) (k : BitVec 4) :
    emitAll es { s with bytecnt := k } = { emitAll es s with bytecnt := k } := by
  induction es generalizing s with
  | nil => rfl
  | cons e es ih => exact ih (emit e s)

theorem Sub.write_phases (d : Byte) (r : Bool) (k : Option (BitVec 4)) (s : State) :
    ∃ t, (Sub.write d r k).phases (Sub.write d r k).count .w0 ((Sub.write d r k).enter s) = some (t, none) ∧
      (Sub.write d r k).leave t = (Sub.write d r k).apply s := by
  have h7 := Sub.write_bits d r k (s := (Sub.write d r k).enter s) rfl 7 (by decide)
  have hc : (Sub.write d r k).count = 6 * 7 + (if r then 5 else 6) := by cases r <;> rfl
  have he : writeByteEvents d r = (bitOrder.take 7).flatMap (writeBitEvents d r) ++ writeBitEvents d r 7 := by
    have e : bitOrder = bitOrder.take 7 ++ [7] := rfl
    rw [writeByteEvents, e, List.flatMap_append, List.flatMap_singleton]
    rfl
  refine ⟨{ emitAll (writeByteEvents d r) ((Sub.write d r k).enter s) with bitcnt := 7 }, ?_, ?_⟩
  · rw [hc, Sub.phases_add h7]
    generalize hv : emitAll ((bitOrder.take 7).flatMap
      (writeBitEvents ((Sub.write d r k).enter s).sr ((Sub.write d r k).enter s).rel)) ((Sub.write d r k).enter s) = v
    obtain ⟨w, hw⟩ : ∃ w, w = ({ v with bitcnt := 7 } : State) := ⟨_, rfl⟩
    have hr : w.rel = r := by rw [hw, ← hv]; show (emitAll _ _).rel = r; rw [emitAll_rel]; rfl
    have hs : w.sr = d := by rw [hw, ← hv]; show (emitAll _ _).sr = d; rw [emitAll_sr]; rfl
    have hl := Sub.write_last d r k (s := w) (by rw [hw])
    rw [hr, hs] at hl
    show (Sub.write d r k).phases _ .w0 ({ v with bitcnt := 7 } : State) = _
    rw [← hw, hl, hw, emitAll_with_bitcnt, he, emitAll_append, ← hv]
    rfl
  · have he : (Sub.write d r k).enter s = { s with sr := d, rel := r, bitcnt := 0, bytecnt := k.getD s.bytecnt } := rfl
    rw [he, emitAll_serial]
    cases k with
    | none =>
      have hb : Option.getD none s.bytecnt = (emitAll (writeByteEvents d r) s).bytecnt := (emitAll_bytecnt _ s).symm
      rw [hb, Sub.apply, writeByte, Sub.leave]
    | some k => rw [Sub.apply, writeByte, emitAll_with_bytecnt (writeByteEvents d r) s k, Sub.leave]; rfl

/-! ### Bits in -/

theorem Sub.read_bit (k : Option (BitVec 4)) {s : State} (hi : (s.bitcnt == 7) = false) :
    (Sub.read k).phases 5 .b0 s = some ({ readBit s.bitcnt s with bitcnt := s.bitcnt + 1 }, some .b0) := by
  simp only [Sub.phases, Sub.phase, emit_bitcnt, hi, Bool.false_eq_true, if_false]
  rfl

theorem Sub.read_last (k : Option (BitVec 4)) {s : State} (hi : s.bitcnt = 7) :
    (Sub.read k).phases 5 .b0 s = some (readBit 7 s, none) := by
  have h7 : (s.bitcnt == 7) = true := by rw [hi]; rfl
  simp only [Sub.phases, Sub.phase, emit_bitcnt, h7, if_true]
  rw [hi]
  rfl

theorem readBit_with_bitcnt (i j : BitVec 3) (s : State) : readBit i { s with bitcnt := j } = readBit i s := by
  rw [readBit, readBit, emitAll_with_bitcnt]
  rfl

theorem readBits_append (is js : List (BitVec 3)) (s : State) :
    readBits (is ++ js) s = readBits js (readBits is s) := by
  induction is generalizing s with
  | nil => rfl
  | cons i is ih => exact ih (readBit i s)

theorem Sub.read_bits (k : Option (BitVec 4)) {s : State} (h0 : s.bitcnt = 0) (j : Nat) (hj : j ≤ 7) :
    (Sub.read k).phases (5 * j) .b0 s =
      some ({ readBits (bitOrder.take j) s with bitcnt := BitVec.ofNat 3 j }, some .b0) := by
  induction j with
  | zero =>
    have e : ({ s with bitcnt := 0 } : State) = s := by rw [← h0]
    exact congrArg (fun t => some (t, some Phase.b0)) e.symm
  | succ j ih =>
    have hj' : j < 7 := by omega
    rw [Nat.mul_succ, Sub.phases_add (ih (by omega)), Sub.read_bit _ (by
      show (BitVec.ofNat 3 j == 7) = false
      interval_cases j <;> rfl), bitOrder_take (by omega), readBits_append, readBit_with_bitcnt]
    have e : BitVec.ofNat 3 j + 1 = BitVec.ofNat 3 (j + 1) := by interval_cases j <;> rfl
    simp only [e]
    rfl

theorem Sub.read_phases (k : Option (BitVec 4)) (s : State) :
    ∃ t, (Sub.read k).phases (Sub.read k).count .b0 ((Sub.read k).enter s) = some (t, none) ∧
      (Sub.read k).leave t = (Sub.read k).apply s := by
  have h7 := Sub.read_bits k (s := (Sub.read k).enter s) rfl 7 (by decide)
  have hc : (Sub.read k).count = 5 * 7 + 5 := rfl
  have he : bitOrder = bitOrder.take 7 ++ [7] := rfl
  refine ⟨readBits bitOrder ((Sub.read k).enter s), ?_, ?_⟩
  · rw [hc, Sub.phases_add h7, Sub.read_last _ rfl, readBit_with_bitcnt, he, readBits_append]
    rfl
  · have hb : ∀ v : State, readBits bitOrder { v with bitcnt := 0 } = readBits bitOrder v := by
      intro v
      show readBits _ (readBit 0 { v with bitcnt := 0 }) = readBits _ (readBit 0 v)
      rw [readBit_with_bitcnt]
    cases k with
    | none =>
      have hb' : readBits bitOrder ((Sub.read none).enter s) = readBits bitOrder s := hb s
      rw [hb', Sub.apply, Sub.leave, readByte]
    | some k =>
      have hb' : readBits bitOrder ((Sub.read (some k)).enter s) = readBits bitOrder { s with bytecnt := k } :=
        hb { s with bytecnt := k }
      rw [hb', Sub.apply, Sub.leave, burstReadByte, readByte]

/-! ## A sub-operation, and a stage, as steps -/

theorem Sub.apply_phases (u : Sub) (s : State) :
    ∃ t, u.phases u.count u.first (u.enter s) = some (t, none) ∧ u.leave t = u.apply s := by
  cases u with
  | start => exact ⟨_, Sub.start_phases s, rfl⟩
  | stop => exact ⟨_, Sub.stop_phases s, rfl⟩
  | write d r k => exact Sub.write_phases d r k s
  | read k => exact Sub.read_phases k s

theorem Sub.apply_mark (u : Sub) (s : State) : (u.apply s).mark = s.mark := by
  rcases u with _ | _ | ⟨d, r, _ | k⟩ | (_ | k) <;> simp [Sub.apply]

theorem Sub.apply_rspValid (u : Sub) (s : State) : (u.apply s).rspValid = s.rspValid := by
  rcases u with _ | _ | ⟨d, r, _ | k⟩ | (_ | k) <;> simp [Sub.apply]

theorem Sub.apply_pend (u : Sub) (s : State) : (u.apply s).pend = s.pend := by
  rcases u with _ | _ | ⟨d, r, _ | k⟩ | (_ | k) <;> simp [Sub.apply]

theorem Sub.apply_running {u : Sub} {s : State} (h : s.running) : (u.apply s).running :=
  ⟨(u.apply_mark s).trans h.1, (u.apply_rspValid s).trans h.2.1, (u.apply_pend s).trans h.2.2⟩

theorem Sub.apply_refusal {u : Sub} {s : State} (h : peerRefusal (u.apply s).peerKind (u.apply s).peer = none) :
    peerRefusal s.peerKind s.peer = none := by
  obtain ⟨t, ht, hl⟩ := u.apply_phases s
  obtain ⟨h1, h2, -⟩ := u.leave_peer t
  obtain ⟨h3, h4, -⟩ := u.enter_peer s
  rw [← hl, h1, h2] at h
  have := Sub.phases_refusal ht h
  rwa [h3, h4] at this

theorem plan_enter {op : Op} {st k : Nat} {u : Sub} {s : State} (h : (plan op st s)[k]? = some u) :
    plan op st (u.enter s) = plan op st s := by
  cases u with
  | start => rfl
  | stop => rfl
  | read k => cases op <;> rcases st with _ | _ | _ | st <;> rfl
  | write d r k' =>
    cases op <;> rcases st with _ | _ | _ | st <;> first
      | rfl
      | (rcases k with _ | k
         · simp only [plan, List.getElem?_cons_zero, Option.some.injEq, Sub.write.injEq] at h
           obtain ⟨-, rfl, -⟩ := h
           rfl
         · simp [plan] at h)

theorem plan_apply {op : Op} {st k : Nat} {u : Sub} {s : State} (h : (plan op st s)[k]? = some u) :
    plan op st (u.apply s) = plan op st s := by
  have hw : (u.apply s).wdata = s.wdata := by rcases u with _ | _ | ⟨d, r, _ | k⟩ | (_ | k) <;> simp [Sub.apply]
  have ha : (u.apply s).addr = s.addr := by rcases u with _ | _ | ⟨d, r, _ | k⟩ | (_ | k) <;> simp [Sub.apply]
  have hi : ∀ v, u ∈ burstWritePlan v → (u.apply s).img = s.img := by
    intro v hu
    rcases u with _ | _ | ⟨d, r, _ | k⟩ | k <;> first
      | (simp [burstWritePlan, byteOrder] at hu; done)
      | simp [Sub.apply]
  have hmem := List.mem_of_getElem? h
  cases op <;> rcases st with _ | _ | _ | st <;> simp only [plan, hw, ha] at hmem ⊢ <;> first
    | rw [hi _ hmem]
    | (rw [List.mem_singleton] at hmem
       rw [hmem, Sub.apply, writeByte_rel])

/-- From its first position, a sub-operation is as many steps as it has events. -/
theorem Sub.steps {op : Op} {st k : Nat} {u : Sub} {s : State} (hm : s.running) (hp : (plan op st s)[k]? = some u)
    (ht : peerRefusal (u.apply s).peerKind (u.apply s).peer = none) :
    Steps u.count (goTo op st k u s) (advance op st k (u.apply s)) := by
  obtain ⟨t, h, hl⟩ := u.apply_phases s
  obtain ⟨h1, h2, -⟩ := u.leave_peer t
  rw [← hl, h1, h2] at ht
  rw [← hl]
  obtain ⟨-, -, hmark, hrsp, hpend⟩ := u.enter_peer s
  exact Sub.steps_through ⟨hmark.trans hm.1, hrsp.trans hm.2.1, hpend.trans hm.2.2⟩ (by rw [plan_enter hp]; exact hp) h ht

/-- The sub-operations of a list, one after the other. -/
def applyAll : List Sub → State → State
  | [], s => s
  | u :: us, s => applyAll us (u.apply s)

def countAll : List Sub → Nat
  | [] => 0
  | u :: us => u.count + countAll us

theorem applyAll_refusal {us : List Sub} {s : State} (h : peerRefusal (applyAll us s).peerKind (applyAll us s).peer = none) :
    peerRefusal s.peerKind s.peer = none := by
  induction us generalizing s with
  | nil => exact h
  | cons u us ih => exact Sub.apply_refusal (ih (s := u.apply s) h)

theorem applyAll_mark (us : List Sub) (s : State) : (applyAll us s).mark = s.mark := by
  induction us generalizing s with
  | nil => rfl
  | cons u us ih => exact (ih (u.apply s)).trans (u.apply_mark s)

/-- From sub-operation `k` on, a stage is as many steps as its sub-operations have events. -/
theorem stage_steps_from {op : Op} {st : Nat} {us : List Sub} {k : Nat} {u : Sub} {s : State} (hm : s.running)
    (hp : (plan op st s).drop k = u :: us)
    (ht : peerRefusal (applyAll (u :: us) s).peerKind (applyAll (u :: us) s).peer = none) :
    Steps (countAll (u :: us)) (goTo op st k u s) (endStage op st (applyAll (u :: us) s)) := by
  induction us generalizing k u s with
  | nil =>
    have hu : (plan op st s)[k]? = some u := by rw [← List.head?_drop, hp]; rfl
    have hnext : (plan op st (u.apply s))[k + 1]? = none := by
      rw [plan_apply hu, ← List.head?_drop, ← List.tail_drop, hp]; rfl
    have h := Sub.steps hm hu ht
    rw [advance_eq, hnext] at h
    exact h
  | cons u' us ih =>
    have hu : (plan op st s)[k]? = some u := by rw [← List.head?_drop, hp]; rfl
    have hdrop : (plan op st (u.apply s)).drop (k + 1) = u' :: us := by
      rw [plan_apply hu, ← List.tail_drop, hp]; rfl
    have hnext : (plan op st (u.apply s))[k + 1]? = some u' := by rw [← List.head?_drop, hdrop]; rfl
    have h := Sub.steps hm hu (applyAll_refusal (us := u' :: us) ht)
    rw [advance_eq, hnext] at h
    exact h.trans (ih (Sub.apply_running hm) hdrop ht)

/-- A whole stage. -/
theorem stage_steps {op : Op} {st : Nat} {u : Sub} {us : List Sub} {s : State} (hm : s.running)
    (hp : plan op st s = u :: us)
    (ht : peerRefusal (applyAll (u :: us) s).peerKind (applyAll (u :: us) s).peer = none) :
    Steps (countAll (u :: us)) (goTo op st 0 u s) (endStage op st (applyAll (u :: us) s)) :=
  stage_steps_from hm hp ht

/-! ## The host port takes no part: neither the response flag nor the commands -/

theorem emitAll_with_port (es : List Event) (s : State) (b : Bool) (p : List Command) :
    emitAll es { s with rspValid := b, pend := p } = { emitAll es s with rspValid := b, pend := p } := by
  induction es generalizing s with
  | nil => rfl
  | cons e es ih => exact ih (emit e s)

theorem readBits_with_port (is : List (BitVec 3)) (s : State) (b : Bool) (p : List Command) :
    readBits is { s with rspValid := b, pend := p } = { readBits is s with rspValid := b, pend := p } := by
  induction is generalizing s with
  | nil => rfl
  | cons i is ih =>
    have h : readBit i { s with rspValid := b, pend := p } = { readBit i s with rspValid := b, pend := p } := by
      rw [readBit, emitAll_with_port]
      rfl
    rw [readBits, h]
    exact ih (readBit i s)

theorem Sub.apply_with_port (u : Sub) (s : State) (b : Bool) (p : List Command) :
    u.apply { s with rspValid := b, pend := p } = { u.apply s with rspValid := b, pend := p } := by
  rcases u with _ | _ | ⟨d, r, _ | k⟩ | (_ | k)
  · rw [Sub.apply, startSession, emitAll_with_port]; rfl
  · rw [Sub.apply, stopSession, emitAll_with_port]; rfl
  · rw [Sub.apply, writeByte, emitAll_with_port]; rfl
  · rw [Sub.apply, writeByte, emitAll_with_port (writeByteEvents d r) { s with bytecnt := k } b p]; rfl
  · rw [Sub.apply, readByte, readBits_with_port]; rfl
  · rw [Sub.apply, burstReadByte, readByte, readBits_with_port bitOrder { s with bytecnt := k } b p]; rfl

theorem applyAll_with_port (us : List Sub) (s : State) (b : Bool) (p : List Command) :
    applyAll us { s with rspValid := b, pend := p } = { applyAll us s with rspValid := b, pend := p } := by
  induction us generalizing s with
  | nil => rfl
  | cons u us ih => rw [applyAll, Sub.apply_with_port]; exact ih (u.apply s)

theorem applyAll_peerKind (us : List Sub) (s : State) : (applyAll us s).peerKind = s.peerKind := by
  induction us generalizing s with
  | nil => rfl
  | cons u us ih => rw [applyAll, ih]; rcases u with _ | _ | ⟨d, r, _ | k⟩ | (_ | k) <;> simp [Sub.apply]

theorem beginOp_with_pend {op : Op} {u : Sub} {us : List Sub} {s : State} (p : List Command)
    (hp : plan op 0 s = u :: us) :
    { beginOp op s with pend := p } = goTo op 0 0 u { s with rspValid := false, pend := p } := by
  rw [beginOp, hp]
  cases u <;> rfl

theorem completeOp_with_pend (op : Op) (s : State) (p : List Command) :
    completeOp op { s with pend := p } = { completeOp op s with pend := p } := by
  cases op <;> rfl

/-- An operation of one stage, from its beginning to its end, with no command offered meanwhile. -/
theorem beginOp_steps {op : Op} {u : Sub} {us : List Sub} {s : State} (hm : s.mark = none)
    (hp : plan op 0 s = u :: us) (hone : ∀ t, plan op 1 t = [])
    (ht : peerRefusal (applyAll (u :: us) s).peerKind (applyAll (u :: us) s).peer = none) :
    Steps (countAll (u :: us)) { beginOp op s with pend := [] }
      { completeOp op { applyAll (u :: us) s with rspValid := false } with pend := [] } := by
  have hp' : plan op 0 { s with rspValid := false, pend := [] } = u :: us := (plan_congr rfl rfl rfl rfl).trans hp
  have h := stage_steps (op := op) (st := 0) (s := { s with rspValid := false, pend := [] }) ⟨hm, rfl, rfl⟩ hp'
    (by rw [applyAll_with_port]; exact ht)
  rw [endStage, hone, applyAll_with_port] at h
  rw [beginOp_with_pend [] hp, ← completeOp_with_pend]
  exact h

/-! ## The plans are the transactions -/

theorem applyAll_readPlan (c : Byte) (s : State) :
    applyAll (readPlan c) s = stopSession (readByte (writeByte c true (startSession s))) := rfl

theorem applyAll_writePlan (c d : Byte) (s : State) : applyAll (writePlan c d) s = regWrite c d s := rfl

theorem applyAll_burstReadPlan (s : State) : applyAll burstReadPlan s = burstRead s := rfl

theorem applyAll_burstWritePlan (s : State) : applyAll (burstWritePlan s.img) s = burstWrite s := by
  have h : ∀ (ks : List (BitVec 4)) (t : State), t.img = s.img →
      applyAll (ks.map (fun k => .write (s.img.get k.toNat) false (some k)) ++ [.stop]) t =
        stopSession (burstWriteBytes ks t) := by
    intro ks
    induction ks with
    | nil => intro t _; rfl
    | cons k ks ih =>
      intro t ht
      have hg : t.img.get k.toNat = s.img.get k.toNat := by rw [ht]
      have e := ih (writeByte (s.img.get k.toNat) false { t with bytecnt := k }) (by rw [writeByte_img]; exact ht)
      rw [List.map_cons, List.cons_append, applyAll, Sub.apply, burstWriteBytes, burstWriteByte, hg]
      exact e
  have e : applyAll (burstWritePlan s.img) s =
      applyAll (byteOrder.map (fun k => .write (s.img.get k.toNat) false (some k)) ++ [.stop])
        (writeByte clkBurstWriteCommand false (startSession s)) := rfl
  rw [e, h byteOrder _ (by rw [writeByte_img, startSession_img]), burstWrite]

/-! ## The lines at each position (R31) -/

/-- What `peerInStep` says while `sess` is what the lines say (R25). -/
theorem peerInStep_iff {s : State} (h : (s.sess == .opened) = ceLevel s.pads) : s.peerInStep = true ↔
    (s.peerKind = .reference ∨ s.peerKind = .chip → s.peer.act = ceLevel s.pads ∧ (s.peer.act = true ∨ s.peer.drv = false)) := by
  unfold State.peerInStep
  rw [h]
  cases s.peerKind <;> simp

/-- The lines at the end of a sub-operation (R161, R165, R168, R170). -/
def Sub.exits (u : Sub) (s : State) : Bool :=
  match u with
  | .start => s.sessionLines && s.pads.io.oe && !s.pads.sclk.out
  | .stop => s.sess == .closed && s.closedLines
  | .write _ false _ => s.sessionLines && s.pads.io.oe && !s.pads.sclk.out
  | .write _ true _ => s.sessionLines && !s.pads.io.oe && s.pads.sclk.out
  | .read _ => s.sessionLines && !s.pads.io.oe && !s.pads.sclk.out

theorem linesAt_sess {u : Sub} {ph : Phase} {s : State} (h : s.linesAt u ph = true) :
    (s.sess == .opened) = ceLevel s.pads := by
  unfold ceLevel
  cases u <;> cases ph <;>
    simp_all [State.linesAt, State.startLines, State.stopLines, State.writeLines, State.readLines, State.sessionLines,
      State.closedLines]

theorem exits_sess {u : Sub} {s : State} (h : u.exits s = true) : (s.sess == .opened) = ceLevel s.pads := by
  unfold ceLevel
  rcases u with _ | _ | ⟨d, _ | _, k⟩ | k <;> simp_all [Sub.exits, State.sessionLines, State.closedLines]

/-- Each phase takes the lines of its position to those of the next position, or of the end of the sub-operation. -/
theorem Sub.phase_lines {u : Sub} {ph : Phase} {s t : State} {r : Option Phase} (h : s.linesAt u ph = true)
    (hp : u.phase ph s = some (t, r)) : r.elim (u.exits t) (t.linesAt u) = true := by
  rcases u with _ | _ | ⟨d, _ | _, k⟩ | k <;> cases ph <;>
    simp only [Sub.phase, reduceCtorEq, Option.some.injEq, Prod.mk.injEq] at hp
  all_goals try (split at hp <;> simp only [Option.some.injEq, Prod.mk.injEq] at hp)
  all_goals obtain ⟨rfl, rfl⟩ := hp
  all_goals simp only [Option.elim]
  all_goals simp_all [State.linesAt, State.startLines, State.stopLines, State.writeLines, State.readLines, Sub.exits,
    State.sessionLines, State.closedLines, Event.onPads, Pads.setOut, Pads.setOe, sampleBit]
  by_cases h7 : s.bitcnt = 7#3 <;> simp [h7]

/-- Which sub-operation may come after which within a stage: a byte read after a release or another byte read, a byte
sent and the end of the session after anything else (R170). -/
def Sub.follows : Sub → Sub → Bool
  | .start, .write _ _ _ => true
  | .write _ false _, .write _ false _ => true
  | .write _ false _, .stop => true
  | .write _ true _, .read _ => true
  | .read _, .read _ => true
  | .read _, .stop => true
  | _, _ => false

theorem plan_follows (op : Op) (st : Nat) (s : State) : (plan op st s).IsChain fun u v => u.follows v = true := by
  cases op <;> rcases st with _ | _ | _ | st <;>
    simp [plan, readPlan, writePlan, burstReadPlan, burstWritePlan, byteOrder, Sub.follows]

/-- The lines at the end of a sub-operation are those at the beginning of any that may follow. -/
theorem Sub.follows_lines {u v : Sub} (hf : u.follows v = true) {s : State} (h : u.exits s = true) :
    (v.enter (u.leave s)).linesAt v v.first = true := by
  rcases u with _ | _ | ⟨d, _ | _, k⟩ | (_ | k) <;> rcases v with _ | _ | ⟨d', _ | _, k'⟩ | (_ | k') <;>
    simp_all [Sub.follows, Sub.exits, Sub.leave, Sub.enter, Sub.first, State.linesAt, State.stopLines, State.writeLines,
      State.readLines, State.sessionLines, State.closedLines]

/-- The lines at the end of the last sub-operation are those between operations (R161, R165, R168, R170). -/
theorem Sub.exits_idle {u : Sub} {s : State} (h : u.exits s = true) : (match (u.leave s).sess with
    | .closed => (u.leave s).closedLines
    | .opened => (u.leave s).openLines) = true := by
  rcases u with _ | _ | ⟨d, _ | _, k⟩ | (_ | k) <;>
    simp_all [Sub.exits, Sub.leave, State.sessionLines, State.closedLines, State.openLines]
end Sys2Proof.Machine
end

