-- ==== Sys2Proof/Tests/Slice0.lean ====
section
/-!
SUPPORT. The model's own tests. Words are written out from the tables of spec/30_encoding.md; expected results are those
of spec/95_test_vectors.md (named beside each test) or follow by hand from the rule named. Below them stand the witnesses
that the hypotheses of the statements can be met.
-/

open Sys2Proof Sys2Proof.Machine

namespace Sys2Proof.Tests

-- One theorem after the other: each runs the machine in the kernel.
set_option Elab.async false

/-! ## Ill-formed terms are refused (R63, R64, R103) -/

theorem test_wf_ram_number : Instr.wf (.ramWr 31 0) = false ∧ Instr.wf (.ramRd 31) = false ∧
    Instr.wf (.ramRd 30) = true := by decide

theorem test_wf_unassigned_number : Instr.wf (.clkUnassignedWr 8 0) = false ∧ Instr.wf (.clkUnassignedRd 31) = false ∧
    Instr.wf (.clkUnassignedWr 9 0) = true ∧ Instr.wf (.clkUnassignedRd 30) = true := by decide

theorem test_wf_read_carries_no_data : Instr.wf (.cmdBit7Clear 1 5) = false ∧ Instr.wf (.cmdBit7Clear 1 0) = true ∧
    Instr.wf (.cmdBit7Clear 2 5) = true := by decide

/-! ## Decoding, from the encodings of R102, R121, R122 -/

/-- The ports of R121 with one selector and every operand port filled. -/
def ports (op : BitVec 4) : HostPort :=
  ⟨op, 0x11, 0x22, true, 0x8877665544332211, 0x350F061E032D17, 99, ⟨2, 3, 4⟩⟩

theorem test_decode_engine_ops : decode (.host (ports 0b0000)) = .ok (.bind ⟨2, 3, 4⟩) ∧
    decode (.host (ports 0b0001)) = .ok .start ∧ decode (.host (ports 0b0010)) = .ok .stop ∧
    decode (.host (ports 0b0011)) = .ok (.wrbyte 0x22 true) ∧ decode (.host (ports 0b0100)) = .ok .rdbyte := by decide

theorem test_decode_transactions : decode (.host (ports 0b0101)) = .ok (.regrd 0x11) ∧
    decode (.host (ports 0b0110)) = .ok (.regwr 0x11 0x22) ∧ decode (.host (ports 0b0111)) = .ok .burstrd ∧
    decode (.host (ports 0b1000)) = .ok (.burstwr ⟨0x11, 0x22, 0x33, 0x44, 0x55, 0x66, 0x77, 0x88⟩) := by decide

/-- The record's fields from the low byte up: sec, min, hour, wday, day, month, year (R115). -/
theorem test_decode_clock_access : decode (.host (ports 0b1001)) = .ok .clkread ∧
    decode (.host (ports 0b1010)) = .ok (.clkwrite ⟨0x17, 0x2D, 0x03, 0x1E, 0x06, 0x0F, 0x35⟩) ∧
    decode (.host (ports 0b1011)) = .ok .get ∧ decode (.host (ports 0b1100)) = .ok (.set 99) ∧
    decode (.host (ports 0b1101)) = .ok .halt ∧ decode (.host (ports 0b1110)) = .ok .present ∧
    decode (.host (ports 0b1111)) = .ok .reservedOp := by decide

theorem test_decode_time_registers : decode (.wire [0b10000000, 7]) = .ok (.secWr 7) ∧
    decode (.wire [0b10000001]) = .ok .secRd ∧ decode (.wire [0b10000010, 7]) = .ok (.minWr 7) ∧
    decode (.wire [0b10000011]) = .ok .minRd ∧ decode (.wire [0b10000100, 7]) = .ok (.hourWr 7) ∧
    decode (.wire [0b10000101]) = .ok .hourRd ∧ decode (.wire [0b10000110, 7]) = .ok (.dateWr 7) ∧
    decode (.wire [0b10000111]) = .ok .dateRd ∧ decode (.wire [0b10001000, 7]) = .ok (.monthWr 7) ∧
    decode (.wire [0b10001001]) = .ok .monthRd ∧ decode (.wire [0b10001010, 7]) = .ok (.wdayWr 7) ∧
    decode (.wire [0b10001011]) = .ok .wdayRd ∧ decode (.wire [0b10001100, 7]) = .ok (.yearWr 7) ∧
    decode (.wire [0b10001101]) = .ok .yearRd := by decide

theorem test_decode_control_registers : decode (.wire [0b10001110, 7]) = .ok (.wpWr 7) ∧
    decode (.wire [0b10001111]) = .ok .wpRd ∧ decode (.wire [0b10010000, 7]) = .ok (.tcsWr 7) ∧
    decode (.wire [0b10010001]) = .ok .tcsRd := by decide

theorem test_decode_bursts : decode (.wire [0b10111110, 1, 2, 3, 4, 5, 6, 7, 8]) =
      .ok (.clkBurstWr ⟨1, 2, 3, 4, 5, 6, 7, 8⟩) ∧
    decode (.wire [0b10111111]) = .ok .clkBurstRd ∧ decode (.wire [0b11111110, 7]) = .ok (.ramBurstWr 7) ∧
    decode (.wire [0b11111111]) = .ok .ramBurstRd := by decide

/-- RAM bytes 0 and 30, unassigned numbers 9 and 30, and the ends of the range with bit 7 clear. -/
theorem test_decode_ranges : decode (.wire [0b11000000, 7]) = .ok (.ramWr 0 7) ∧
    decode (.wire [0b11111101]) = .ok (.ramRd 30) ∧ decode (.wire [0b10010010, 7]) = .ok (.clkUnassignedWr 9 7) ∧
    decode (.wire [0b10111101]) = .ok (.clkUnassignedRd 30) ∧
    decode (.wire [0b00000000, 7]) = .ok (.cmdBit7Clear 0 7) ∧
    decode (.wire [0b01111111]) = .ok (.cmdBit7Clear 0b1111111 0) := by decide

theorem test_decode_refuses_bad_frames : decode (.wire []) = .error .emptyFrame ∧
    decode (.wire [0b10000001, 7]) = .error .dataAfterReadCommand ∧
    decode (.wire [0b10000000]) = .error .wrongDataLength ∧
    decode (.wire [0b10111110, 1, 2, 3, 4, 5, 6, 7]) = .error .wrongDataLength := by decide

theorem test_decode_table_words : decodeTableWord 8 0b0000 = some (.bind ⟨0, 0, 0⟩) ∧
    decodeTableWord 8 0b1110 = some .present ∧ decodeTableWord 8 0b10000100 = some (.hourWr 0) ∧
    decodeTableWord 8 0b10111110 = some (.clkBurstWr ⟨0, 0, 0, 0, 0, 0, 0, 0⟩) ∧
    decodeTableWord 8 0b11000011 = some (.ramRd 1) ∧ decodeTableWord 8 0b01000000 = some (.cmdBit7Clear 0b1000000 0) := by
  decide

/-! ## Small states -/

/-- The clock registers from register 0 on. -/
def clk (l : List Byte) : Memory := (clockKeys.zip l).foldl (fun m c => m.store c.1 c.2) []

def clkBytes (s : State) : List Byte := clockKeys.map s.peer.mem.read

/-- After `BIND 2, 3, 4`, with the reference peer. -/
def bound (m : Memory) : State :=
  { State.reset with
    pins := ⟨2, 3, 4⟩, present := true, peerKind := .reference, peer := { Peer.quiet with mem := m } }

/-- After `BIND`, with a peer of another kind. -/
def boundTo (k : PeerKind) : State := { bound [] with peerKind := k }

/-- A session of a peer in the middle of a frame. -/
def inSession (h : FrameHist) (pads : Pads) (p : Peer) : State :=
  { bound [] with sess := .opened, hist := h, pads := pads, peer := { p with act := true } }

/-- The lines in a session: `SCLK` high or low, `IO` driven or not. -/
def lines (sclk io : Bool) : Pads := ⟨⟨true, true⟩, ⟨sclk, true⟩, ⟨false, io⟩⟩

def afterStart : State := inSession .fresh (lines false true) Peer.quiet

/-- A write frame of register 0 after its command byte, and one byte before the end of a burst write. -/
def writingByte : State := inSession .written (lines false true) { Peer.quiet with cmd := 0x80, n := 8 }
def writingLast : State := inSession .written (lines false true) { Peer.quiet with cmd := 0xBE, n := 64 }

/-- A read frame of register 0 after its command byte, and one byte before the end of a burst read. -/
def readingByte : State :=
  inSession .released (lines true false) { Peer.quiet with cmd := 0x81, n := 8, buf := ⟨0x45, 0, 0, 0, 0, 0, 0, 0⟩ }
def readingLast : State :=
  inSession .reading (lines false false)
    { Peer.quiet with cmd := 0xBF, n := 63, f := 56, buf := ⟨0, 0, 0, 0, 0, 0, 0, 0x80⟩ }

def answers {α : Type} (a : Answer) (f : State → α) : Option α :=
  match a with
  | .next t => some (f t)
  | .fault _ => none
  | .refused _ => none

def completes (a : Answer) : Bool := (answers a fun _ => ()).isSome

def refusal (a : Answer) : Option Refusal :=
  match a with
  | .next _ => none
  | .fault _ => none
  | .refused r => some r

theorem exists_next {a : Answer} (h : completes a = true) : ∃ t, a = .next t := by
  cases a with
  | next t => exact ⟨t, rfl⟩
  | fault f => simp [completes, answers] at h
  | refused r => simp [completes, answers] at h

/-! ## One step of the engine (spec/95_test_vectors.md B1, B2) -/

theorem test_start : answers (exec .start (bound [])) (fun t => (t.pads, t.ev, t.sess)) =
    some (⟨⟨true, true⟩, ⟨false, true⟩, ⟨false, true⟩⟩,
      [.drv .ce false, .dir .ce .out, .dir .sclk .out, .dir .io .out, .drv .ce true, .dly .tCe], .opened) := by
  decide +kernel

theorem test_stop : answers (exec .stop writingByte) (fun t => (t.pads.ce, t.ev, t.sess)) =
    some (⟨false, true⟩, [.drv .ce false, .dly .tCe], .closed) := by decide +kernel

/-- The eighth bit ends in the release, not in a falling edge. -/
theorem test_wrbyte_release : answers (exec (.wrbyte 0x81 true) afterStart)
      (fun t => (t.pads, t.sr, t.ev.length, t.ev.drop 42, t.peer.cmd)) =
    some (⟨⟨true, true⟩, ⟨true, true⟩, ⟨true, false⟩⟩, 0x81, 47,
      [.drv .io true, .dly .tHold, .drv .sclk true, .dly .tHold, .dir .io .inp], 0x81) := by decide +kernel

theorem test_wrbyte : answers (exec (.wrbyte 0x80 false) afterStart)
      (fun t => (t.pads, t.ev.length, t.ev.take 6, t.ev.drop 42)) =
    some (⟨⟨true, true⟩, ⟨false, true⟩, ⟨true, true⟩⟩, 48,
      [.drv .io false, .dly .tHold, .drv .sclk true, .dly .tHold, .drv .sclk false, .dly .tHold],
      [.drv .io true, .dly .tHold, .drv .sclk true, .dly .tHold, .drv .sclk false, .dly .tHold]) := by decide +kernel

theorem test_rdbyte : answers (exec .rdbyte readingByte)
      (fun t => (t.rdata, t.pads.sclk.out, t.ev.filter Event.isSample)) =
    some (0x45, false, [true, false, true, false, false, false, true, false].map Event.smp) := by decide +kernel

theorem test_rdbyte_counts : answers (exec .rdbyte readingByte)
      (fun t => (t.ev.length, countAlong Event.risesSclk t.ev readingByte.pads readingByte.draws,
        countAlong Event.fallsSclk t.ev readingByte.pads readingByte.draws)) = some (40, 7, 8) := by decide +kernel

/-! ## One transaction (B3, P2) -/

def p2Clock : List Byte := [0x59, 0x59, 0x23, 0x31, 0x12, 0x07, 0x99, 0x80, 0x00]

/-- The same with the clock halted. -/
def p2ClockHalted : List Byte := [0xD9, 0x59, 0x23, 0x31, 0x12, 0x07, 0x99, 0x80, 0x00]

theorem test_regrd : answers (exec (.regrd 0x8E) (bound (clk p2Clock))) (fun t => (t.rdata, t.pads, t.ev.length)) =
    some (0x80, ⟨⟨false, true⟩, ⟨false, true⟩, ⟨true, false⟩⟩, 95) := by decide +kernel

theorem test_regwr_protected : answers (exec (.regwr 0x80 0x00) (bound (clk p2Clock)))
    (fun t => (clkBytes t, t.ev.length)) = some (p2Clock, 104) := by decide +kernel

theorem test_regwr_write_protect : answers (exec (.regwr 0x8F 0x00) (bound (clk p2Clock))) clkBytes =
    some [0x59, 0x59, 0x23, 0x31, 0x12, 0x07, 0x99, 0x00, 0x00] := by decide +kernel

theorem test_burstwr_protected : answers (exec (.burstwr ⟨1, 2, 3, 4, 5, 6, 7, 0⟩) (bound (clk p2Clock)))
    (fun t => (clkBytes t, t.ev.length)) = some (p2Clock, 440) := by decide +kernel

theorem test_burstwr : answers (exec (.burstwr ⟨1, 2, 3, 4, 5, 6, 7, 0⟩) (bound [])) clkBytes =
    some [1, 2, 3, 4, 5, 6, 7, 0, 0] := by decide +kernel

theorem test_burstrd : answers (exec .burstrd (bound (clk p2Clock))) (fun t => (t.img, t.ev.length)) =
    some (⟨0x59, 0x59, 0x23, 0x31, 0x12, 0x07, 0x99, 0x80⟩, 375) := by decide +kernel

/-! ## One clock access (B5, P3, P4) -/

def scenario : TRec := ⟨45, 30, 23, 3, 15, 6, 53⟩

theorem test_clkwrite : answers
    (exec (.clkwrite scenario) (bound (clk [0x80, 0x00, 0x92, 0x01, 0x01, 0x01, 0x00, 0x80, 0x5C])))
    (fun t => (clkBytes t, t.ok, t.ev.length, t.pads)) =
    some ([0x45, 0x30, 0x23, 0x15, 0x06, 0x03, 0x23, 0x00, 0x00], true, 648,
      ⟨⟨false, true⟩, ⟨false, true⟩, ⟨false, true⟩⟩) := by decide +kernel

theorem test_clkread : answers
    (exec .clkread (bound (clk [0x45, 0x30, 0x23, 0x15, 0x06, 0x03, 0x23, 0x00, 0x00])))
    (fun t => (t.trec, t.ok, clkBytes t)) =
    some (scenario, true, [0x45, 0x30, 0x23, 0x15, 0x06, 0x03, 0x23, 0x00, 0x00]) := by decide +kernel

theorem test_clkread_twelve_hour : answers
    (exec .clkread (bound (clk [0x00, 0x15, 0xA3, 0x31, 0x12, 0x07, 0x99, 0x00, 0x00]))) (fun t => t.trec) =
    some ⟨0, 15, 15, 7, 31, 12, 129⟩ := by decide +kernel

theorem test_halt : answers (exec .halt (bound (clk [0xD9, 0x59, 0x23, 0x31, 0x12, 0x07, 0x99, 0x80, 0xA5])))
    (fun t => (clkBytes t, t.ev.length)) =
    some ([0xD9, 0x59, 0x23, 0x31, 0x12, 0x07, 0x99, 0x00, 0xA5], 104) := by decide +kernel

/-- A test bench whose conversion takes the scenario's record to 1000 and back. -/
def conversion : Conv := ⟨[(scenario, 1000)], [(1000, scenario)]⟩

theorem test_get : answers
    (exec .get { bound (clk [0x45, 0x30, 0x23, 0x15, 0x06, 0x03, 0x23, 0x00, 0x00]) with conv := conversion })
    (fun t => (t.lin, t.trec)) = some (1000, scenario) := by decide +kernel

theorem test_set : answers (exec (.set 1000) { bound [] with conv := conversion }) (fun t => (clkBytes t, t.lin)) =
    some ([0x45, 0x30, 0x23, 0x15, 0x06, 0x03, 0x23, 0x00, 0x00], 1000) := by decide +kernel

theorem test_present : answers (exec .present State.reset) State.rspPresent = some false ∧
    answers (exec .present (bound [])) State.rspPresent = some true := by decide +kernel

theorem test_bind : answers (exec (.bind ⟨2, 3, 4⟩) State.reset) (fun t => (t.present, t.pins, t.ev)) =
    some (true, ⟨2, 3, 4⟩, []) := by decide +kernel

theorem test_reserved_op : answers (exec .reservedOp (bound [])) id = some (bound []) := by decide +kernel

/-! ## Wire rows, from their registers (R62, R63) -/

/-- A peer with a different byte in every clock register and in RAM bytes 0 and 30. -/
def marked : State :=
  bound (((clk [0x10, 0x11, 0x12, 0x13, 0x14, 0x15, 0x16, 0x17, 0x18]).store 0xC0 0xA5).store 0xFC 0x5A)

def readsBack (i : Instr) : Option Byte := answers (exec i marked) fun t => t.rdata

theorem test_time_register_reads : (readsBack .secRd, readsBack .minRd, readsBack .hourRd, readsBack .dateRd) =
    (some 0x10, some 0x11, some 0x12, some 0x13) := by decide +kernel

theorem test_more_register_reads : (readsBack .monthRd, readsBack .wdayRd, readsBack .yearRd, readsBack .wpRd,
    readsBack .tcsRd) = (some 0x14, some 0x15, some 0x16, some 0x17, some 0x18) := by decide +kernel

theorem test_ram_reads : (readsBack (.ramRd 0), readsBack (.ramRd 30), readsBack (.ramRd 1)) =
    (some 0xA5, some 0x5A, some 0) := by decide +kernel

/-- What a row writes, from registers that all hold 0. -/
def writes (i : Instr) (k : Nat) : Option Byte := answers (exec i (bound [])) fun t => t.peer.mem.read k

theorem test_time_register_writes : (writes (.secWr 7) 0x80, writes (.minWr 7) 0x82, writes (.hourWr 7) 0x84,
    writes (.dateWr 7) 0x86) = (some 7, some 7, some 7, some 7) := by decide +kernel

theorem test_more_register_writes : (writes (.monthWr 7) 0x88, writes (.wdayWr 7) 0x8A, writes (.yearWr 7) 0x8C,
    writes (.wpWr 0x80) 0x8E, writes (.tcsWr 7) 0x90) = (some 7, some 7, some 7, some 0x80, some 7) := by decide +kernel

theorem test_ram_writes : (writes (.ramWr 0 7) 0xC0, writes (.ramWr 30 7) 0xFC) = (some 7, some 7) := by decide +kernel

theorem test_clock_burst_rows : answers (exec .clkBurstRd marked) (fun t => t.img) =
      some ⟨0x10, 0x11, 0x12, 0x13, 0x14, 0x15, 0x16, 0x17⟩ ∧
    writes (.clkBurstWr ⟨1, 2, 3, 4, 5, 6, 7, 8⟩) 0x8E = some 8 := by decide +kernel

/-- The block sends these bytes with any peer; the reference peer refuses them (R63, R64, R93, R124). -/
theorem test_unassigned_rows : [Instr.ramBurstWr 7, .ramBurstRd, .clkUnassignedWr 9 7, .clkUnassignedRd 30,
      .cmdBit7Clear 0 7, .cmdBit7Clear 1 0].map (fun i => (completes (exec i (boundTo .oracle)), refusal (exec i (bound [])))) =
    [(true, some (.peerRefuses .ramBurst)), (true, some (.peerRefuses .ramBurst)),
      (true, some (.peerRefuses .clockUnassigned)), (true, some (.peerRefuses .clockUnassigned)),
      (true, some (.peerRefuses .commandBit7Clear)), (true, some (.peerRefuses .commandBit7Clear))] := by decide +kernel

/-! ## Refusals (B6) -/

theorem test_refusals : [refusal (exec .start State.reset), refusal (exec (.bind ⟨2, 3, 4⟩) (bound [])),
      refusal (exec .start afterStart), refusal (exec (.regrd 0x80) afterStart), refusal (exec .stop (bound [])),
      refusal (exec .stop afterStart), refusal (exec .stop readingByte), refusal (exec (.wrbyte 1 false) readingByte),
      refusal (exec .rdbyte writingByte), refusal (exec (.wrbyte 1 true) writingByte),
      refusal (exec (.wrbyte 1 false) (bound [])), refusal (exec (.clkwrite ⟨0, 0, 0, 1, 1, 1, 29⟩) (bound []))] =
    [some .notBound, some .alreadyBound, some .sessionOpen, some .sessionOpen, some .sessionClosed,
      some .nothingExchanged, some .stopAfterRelease, some .lineReleased, some .lineDriven, some .releaseNotFirst,
      some .sessionClosed, some .recordOutOfRange] := by decide +kernel

/-- X10 (B6): the step of R284 refuses selector 0xF; the hardware accepts it (R123). -/
theorem test_reserved_selector : let s := { bound [] with pend := [.host ⟨0xF, 0, 0, false, 0, 0, 0, ⟨0, 0, 0⟩⟩] }
    refusal (checkedStep s) = some .reservedSelector ∧ answers (step s) id = some (bound []) ∧
      (stepOrMark s).mark = some .reservedSelector := by decide +kernel

/-- X2 (B6): with `busy = 1` any command is refused and the run marked; with none offered the operation goes on. -/
theorem test_command_while_busy : let s := beginOp .start (bound [])
    [encode .present, encode .reservedOp, encode (.regrd 0x81), .wire [0x81]].map (fun c =>
        (refusal (step { s with pend := [c] }), (stepOrMark { s with pend := [c] }).mark)) =
      List.replicate 4 (some .busy, some .busy) ∧
    answers (step s) (·.ev) = some [.drv .ce false] := by decide +kernel

/-- `rsp_valid` is 1 after `PRESENT` and 0 a step later (R121, D28). -/
theorem test_response_pulse : answers (exec .present (bound [])) (fun t => (t.rspValid, answers (step t) (·.rspValid))) =
    some (true, some false) := by decide +kernel

/-- Both forms of a rising edge, and what is none (R145). -/
theorem test_edges : Event.rises .sclk false (.drv .sclk true) (lines false true) = true ∧
    Event.rises .sclk true (.dir .sclk .out) ⟨⟨true, true⟩, ⟨true, false⟩, ⟨false, true⟩⟩ = true ∧
    Event.rises .sclk false (.dir .sclk .out) (lines true true) = false ∧
    Event.rises .sclk false (.drv .sclk true) (lines true true) = false ∧
    Event.falls .sclk (.drv .sclk false) (lines true true) = true ∧
    Event.falls .sclk (.drv .sclk false) (lines false true) = false := by decide

/-- A write frame of the seconds register with a byte too many, at a protected chip: nothing is written (R85). -/
theorem test_protected_chip_keeps_its_registers : answers
    (exec .stop { inSession .written (lines false true) { Peer.quiet with
      mem := clk p2ClockHalted, cmd := 0x80, n := 16, lost := some .writeOverrun } with peerKind := .chip }) clkBytes =
    some p2ClockHalted := by decide +kernel

/-- What a chip keeps of a burst write is unknown from the command byte to the last bit (N9), and known at its end. -/
theorem test_short_burst_write_is_unknown : [8, 9, 71, 72].map (fun n =>
    Peer.writeUnknown { Peer.quiet with act := true, cmd := 0xBE, n := n }) = [true, true, true, false] := by decide

/-! ## The codec (B4) -/

theorem test_decode_hours : [0x00, 0x09, 0x10, 0x20, 0x23, 0x3F, 0x63, 0x81, 0x92, 0xA3, 0xB1, 0xB2, 0xFF].map hourValue =
    [0, 9, 10, 20, 23, 45, 23, 1, 12, 15, 23, 24, 37] := by decide +kernel

theorem test_decode_images : decodeImage ⟨0xD9, 0x59, 0x23, 0x31, 0x12, 0x07, 0x99, 0x80⟩ = ⟨59, 59, 23, 7, 31, 12, 129⟩ ∧
    decodeImage ⟨0xFF, 0xFF, 0xFF, 0xFF, 0xFF, 0xFF, 0xFF, 0xFF⟩ = ⟨85, 85, 37, 7, 45, 25, 195⟩ ∧
    decodeImage ⟨0x09, 0x10, 0x19, 0x29, 0x02, 0x04, 0x24, 0x00⟩ = ⟨9, 10, 19, 4, 29, 2, 54⟩ := by decide +kernel

theorem test_encode_records : encodeImage scenario = ⟨0x45, 0x30, 0x23, 0x15, 0x06, 0x03, 0x23, 0x00⟩ ∧
    encodeImage ⟨59, 59, 23, 7, 31, 12, 129⟩ = ⟨0x59, 0x59, 0x23, 0x31, 0x12, 0x07, 0x99, 0x00⟩ ∧
    encodeImage ⟨0, 0, 0, 1, 1, 1, 99⟩ = ⟨0, 0, 0, 0x01, 0x01, 0x01, 0x69, 0x00⟩ := by decide +kernel

theorem test_records_out_of_range : [(⟨0, 0, 0, 1, 1, 1, 30⟩ : TRec), ⟨0, 0, 0, 1, 1, 1, 29⟩, ⟨0, 0, 0, 1, 1, 1, 130⟩,
      ⟨60, 0, 0, 1, 1, 1, 53⟩, ⟨0, 0, 24, 1, 1, 1, 53⟩, ⟨0, 0, 0, 0, 1, 1, 53⟩, ⟨0, 0, 0, 1, 0, 1, 53⟩,
      ⟨0, 0, 0, 1, 1, 13, 53⟩].map trecInRange = [true, false, false, false, false, false, false, false] := by
  decide +kernel

/-! ## The hypotheses of the statements can be met

One theorem for each statement with hypotheses, with a state and operands for each clause, at the ends of its ranges. -/

/-- The invariant holds between sessions and in a session after each kind of byte. -/
theorem witness_invariant : [bound [], boundTo .chip, State.reset, afterStart, writingByte, writingLast, readingByte,
    readingLast].map State.inv = List.replicate 8 true := by decide +kernel

theorem witness_ready : ∀ k : PeerKind, (boundTo k).ready ∧ (boundTo k).calm ∧ (boundTo k).mark = none := by
  intro k
  cases k <;> decide +kernel

theorem witness_reference : (bound []).ready ∧ (bound []).inv = true ∧ (bound []).peerKind = .reference ∧
    (bound []).peer.lost = none := by decide +kernel

theorem witness_DecodeOfEncodeIsTheInstruction : [Instr.ramWr 30 255, .clkUnassignedRd 9, .clkUnassignedWr 30 0,
    .cmdBit7Clear 127 0, .cmdBit7Clear 126 255].map Instr.wf = List.replicate 5 true := by decide

theorem witness_FramesDecodeUnambiguously : decode (.wire [0x7F]) = .ok (.cmdBit7Clear 127 0) := by decide

theorem witness_IdleStepExecutesTheNextCommand :
    State.reset.mark = none ∧ State.reset.seq = .idle ∧ State.reset.pend = [] ∧
    decode (.wire [0x81]) = .ok .secRd ∧ decode (.wire []) = .error .emptyFrame ∧
    { bound [] with pend := [.wire [0x81]] }.pend = .wire [0x81] :: [] := by decide +kernel

theorem witness_BusyStepEmitsOneEvent : (beginOp .start (bound [])).seq ≠ .idle ∧
    (∃ t, step (beginOp .start (bound [])) = .next t) ∧ (beginOp .start (bound [])).mark = none ∧
    (beginOp .start (bound [])).present = true ∧ decode (.wire [0x81]) = .ok .secRd :=
  ⟨by decide +kernel, exists_next (by decide +kernel), rfl, rfl, by decide⟩

theorem witness_SmallStepsComposeToTheOperation : opOf .rdbyte = some .rdbyte ∧ readingLast.mark = none ∧
    (∃ t, exec .rdbyte readingLast = .next t) ∧ (∃ t, exec (.regwr 0xFF 1) (boundTo .chip) = .next t) :=
  ⟨rfl, rfl, exists_next (by decide +kernel), exists_next (by decide +kernel)⟩

/-- A register read in the middle of its operation: `CE` has risen, and the bits of its command byte are going out. -/
def opened : State := { afterStart with seq := .at .regrd 0 0 .s5 }
def sending : State := { afterStart with addr := 0x80, rel := true, seq := .at .regrd 0 1 .w0 }

/-- A peer of either kind in a session that a reset of the block closes, within an operation; and one outside. -/
theorem witness_ResetClosesThePeerSession : opened.seq ≠ .idle ∧ opened.peerKind = .reference ∧
    { opened with peerKind := .chip }.peerKind = .chip ∧ opened.peer.act = ceLevel opened.pads ∧ opened.peer.act = true ∧
    (bound []).peer.act = ceLevel (bound []).pads ∧ (bound []).peer.drv = false := by decide +kernel

/-- Between operations, within one, at its beginning. -/
theorem witness_EveryStepKeepsTheInvariant : ({ bound [] with pend := [encode .start] }.inv = true ∧
      ∃ t, step { bound [] with pend := [encode .start] } = .next t) ∧
    (opened.midInv = true ∧ ∃ t, step opened = .next t) ∧ (sending.midInv = true ∧ ∃ t, step sending = .next t) ∧
    (bound []).inv = true ∧ opOf (.regrd 0x80) = some .regrd ∧ ∃ t, exec (.regrd 0x80) (bound []) = .next t :=
  ⟨⟨by decide +kernel, exists_next (by decide +kernel)⟩, ⟨by decide +kernel, exists_next (by decide +kernel)⟩,
    ⟨by decide +kernel, exists_next (by decide +kernel)⟩, by decide +kernel, rfl, exists_next (by decide +kernel)⟩

theorem witness_MarkIsNeverCleared : { bound [] with mark := some .busy }.mark = some .busy ∧
    refusal (step { State.reset with pend := [encode .start] }) = some .notBound ∧ State.reset.mark = none ∧
    State.reset.seq = .idle ∧ (⟨0xF, 0, 0, false, 0, 0, 0, ⟨0, 0, 0⟩⟩ : HostPort).op = 0xF ∧ opened.seq ≠ .idle ∧
    State.reset.pend = [] ∧ ∃ t, step State.reset = .next t :=
  ⟨rfl, by decide +kernel, rfl, rfl, rfl, by decide +kernel, rfl, exists_next (by decide +kernel)⟩

/-- `HALT` is none of the exceptions of any clause, and `GET` is one of those of the latches. -/
theorem witness_RegistersChangeOnlyByTheirOperations : (∃ t, exec .halt (bound []) = .next t) ∧
    (∃ t, exec .get (boundTo .chip) = .next t) ∧ singleRead .halt = none ∧ singleWrite .halt = none :=
  ⟨exists_next (by decide +kernel), exists_next (by decide +kernel), rfl, rfl⟩

theorem witness_PeerRegistersChangeOnlyByStores : (bound []).inv = true ∧
    (∃ t, exec (.regwr 0x8E 1) (bound []) = .next t) ∧ 0x90 ∉ storedKeys (.regwr 0x8E 1) (bound []) ∧
    writingLast.inv = true ∧ (∃ t, exec (.wrbyte 1 false) writingLast = .next t) ∧
    0x90 ∉ storedKeys (.wrbyte 1 false) writingLast :=
  ⟨by decide +kernel, exists_next (by decide +kernel), by decide +kernel, by decide +kernel,
    exists_next (by decide +kernel), by decide +kernel⟩

theorem witness_EventCountIsFixedByTheOperation : (∃ t, exec (.wrbyte 0x81 true) afterStart = .next t) ∧
    (∃ t, exec .present State.reset = .next t) := ⟨exists_next (by decide +kernel), exists_next (by decide +kernel)⟩

theorem witness_EventsDoNotDependOnThePeer : (∃ t, exec (.regrd 0x80) (bound []) = .next t) ∧
    ∃ t, exec (.regrd 0x80) { bound [] with peerKind := .oracle, peer := Peer.quiet, draws := 9 } = .next t :=
  ⟨exists_next (by decide +kernel), exists_next (by decide +kernel)⟩

/-- One state for each clause, in the order of the clauses. -/
theorem witness_BrokenPreconditionsAreRefused : State.reset.present = false ∧
    (beginOp .start (bound [])).present = true ∧ (beginOp .start (bound [])).seq ≠ .idle ∧
    (bound []).seq = .idle ∧ (bound []).present = true ∧ State.reset.seq = .idle ∧
    afterStart.sess = .opened ∧ afterStart.present = true ∧ afterStart.seq = .idle ∧ (bound []).sess = .closed ∧
    readingByte.hist = .released ∧ afterStart.hist = .fresh ∧ readingByte.pads.io.oe = false ∧
    (inSession .fresh (lines true true) Peer.quiet).pads.sclk.out = true ∧ writingByte.hist ≠ .fresh ∧
    writingByte.pads.io.oe = true ∧ writingByte.pads.sclk.out = false ∧
    (inSession .released (lines false false) Peer.quiet).pads.io.oe = false ∧
    (inSession .released (lines false false) Peer.quiet).pads.sclk.out = false ∧
    trecInRange ⟨60, 59, 23, 7, 31, 12, 129⟩ = false ∧
    trecInRange (trOfLin { bound [] with conv := ⟨[], [(1, ⟨0, 0, 0, 1, 1, 1, 29⟩)]⟩ } 1) = false := by decide +kernel

theorem witness_OnlyPresentAndBindRunAfterReset : (∃ t, exec .present State.reset = .next t) ∧
    (⟨2, 3, 4⟩ : Pins).io ≠ 3 ∧ (⟨2, 3, 4⟩ : Pins).io ≠ 4 ∧ (⟨2, 3, 4⟩ : Pins).sclk ≠ 4 :=
  ⟨exists_next (by decide +kernel), by decide, by decide, by decide⟩

/-- The last byte of a burst read, with the peer driving. -/
def peerDrives : State := { readingLast with peer := { readingLast.peer with drv := true } }

/-- The block drives, the peer drives, both drive, nobody drives, each with a reference peer that has refused nothing; and
no peer. -/
theorem witness_SampleReadsTheLevel : [afterStart, peerDrives, readingByte].map (fun s => (s.peerKind, s.peer.lost)) =
      List.replicate 3 (.reference, none) ∧
    (afterStart.pads.io.oe = true ∧ afterStart.peer.drv = false) ∧
    (peerDrives.pads.io.oe = false ∧ peerDrives.peer.drv = true ∧ peerDrives.inv = true) ∧
    (let s := { peerDrives with pads := lines false true }; s.pads.io.oe = s.peer.drv ∧ s.peer.lost = none) ∧
    readingByte.pads.io.oe = readingByte.peer.drv ∧
    ((boundTo .absent).peerKind = .absent ∧ (boundTo .absent).pads.io.oe = false) := by decide +kernel

/-- A driven clock, and a clock that is not driven with its latch high. -/
theorem witness_PeerReactsToTheEdgesOfTheClock :
    (afterStart.peerKind = .reference ∧ afterStart.peer.act = true ∧ afterStart.peer.lost = none ∧
      ceLevel afterStart.pads = true ∧ afterStart.pads.sclk.oe = true) ∧
    (let s := { afterStart with pads := ⟨⟨true, true⟩, ⟨true, false⟩, ⟨false, true⟩⟩ };
      ceLevel s.pads = true ∧ s.pads.sclk.oe = false ∧ s.pads.sclk.out = true ∧
        Event.rises .sclk true (.dir .sclk .out) s.pads = true) := by decide +kernel

theorem witness_StopClosesTheSession : (writingByte.hist = .written ∧ writingByte.sess = .opened ∧ writingByte.calm) ∧
    (readingLast.hist = .reading ∧ readingLast.sess = .opened ∧ readingLast.calm) := by decide +kernel

/-- The first byte with and without release, and a later byte, to a peer that goes on. -/
theorem witness_WrbyteSendsAByte : let s := { afterStart with peerKind := .oracle }
    s.present = true ∧ s.seq = .idle ∧ s.sess = .opened ∧ s.pads.io.oe = true ∧ s.pads.sclk.out = false ∧
      (true = true → s.hist = .fresh) ∧ s.peerKind ≠ .reference ∧
      { writingByte with peerKind := .chip }.pads.io.oe = true ∧ { writingByte with peerKind := .chip }.pads.sclk.out = false := by
  decide +kernel

theorem witness_RdbyteReadsAByte : let s := { readingByte with peerKind := .oracle }
    s.present = true ∧ s.seq = .idle ∧ s.sess = .opened ∧ s.pads.io.oe = false ∧ s.pads.sclk.out = true ∧
      s.peerKind ≠ .reference ∧ readingLast.hist = .reading ∧ readingLast.pads.io.oe = false := by decide +kernel

/-- The three clauses: a command byte of each end of the map, the first and the last data byte out, the first and the
last data byte in. -/
theorem witness_ReferencePeerExchangesWholeBytes :
    (afterStart.inv = true ∧ afterStart.hist = .fresh ∧ afterStart.peer.n = 0 ∧ afterStart.peer.f = 0 ∧
      afterStart.peer.drv = false ∧ isRegKey (writeCommand 0x80).toNat = true ∧
      isRegKey (writeCommand 0xFD).toNat = true ∧ writeCommand 0xBF = 0xBE) ∧
    (writingByte.inv = true ∧ writingByte.peer.cmdRead = false ∧ writingByte.peer.n = 8 + 8 * 0 ∧
      0 < writingByte.peer.len) ∧
    (writingLast.inv = true ∧ writingLast.peer.cmdRead = false ∧ writingLast.peer.n = 8 + 8 * 7 ∧
      7 < writingLast.peer.len) ∧
    (readingByte.inv = true ∧ readingByte.peer.cmdRead = true ∧ 8 ≤ readingByte.peer.n ∧ readingByte.peer.f = 8 * 0 ∧
      0 < readingByte.peer.len) ∧
    (readingLast.inv = true ∧ readingLast.peer.cmdRead = true ∧ 8 ≤ readingLast.peer.n ∧ readingLast.peer.f = 8 * 7 ∧
      7 < readingLast.peer.len) := by decide +kernel

/-- The ends of both register ranges (R62, R63), and the numbers beside them. -/
theorem witness_registers : [0x80, 0x91, 0xC0, 0xFD].map (fun x : Byte => isRegKey (writeCommand x).toNat) =
      List.replicate 4 true ∧
    [0x00, 0x7F, 0x92, 0xBD, 0xFE].map (fun x : Byte => (isRegKey (writeCommand x).toNat, decide (writeCommand x = 0xBE))) =
      List.replicate 5 (false, false) := by decide +kernel

/-- Any peer but the reference peer with any command byte, and the reference peer with the byte of a register and of the
clock burst. -/
theorem witness_serves : (bound []).serves 0x80 ∧ (bound []).serves 0xFD ∧ (bound []).serves 0xBF ∧
    (boundTo .chip).serves 0x00 ∧ (boundTo .oracle).serves 0xFF ∧ (boundTo .absent).serves 0x92 ∧
    writeCommand 0xBF = 0xBE := by decide +kernel

theorem witness_CompositeOperationsAreTheirExpansions :
    (∃ t, runSeq [.start, .wrbyte (readCommand 0x80) true, .rdbyte, .stop] (bound []) = .next t) ∧
    (∃ t, runSeq [.start, .wrbyte (writeCommand 0x80) false, .wrbyte 5 false, .stop] (bound []) = .next t) ∧
    trecInRange scenario = true ∧
    (∃ t, runSeq [.regwr 0x8E 0, .regwr 0x90 0, .burstwr (encodeImage scenario)] (bound []) = .next t) ∧
    (∃ t, runSeq [.regwr 0x8E 0] (bound []) = .next t) :=
  ⟨exists_next (by decide +kernel), exists_next (by decide +kernel), by decide +kernel,
    exists_next (by decide +kernel), exists_next (by decide +kernel)⟩

/-- The least and the greatest record in range. -/
theorem witness_records : trecInRange ⟨0, 0, 0, 1, 1, 1, 30⟩ = true ∧ trecInRange ⟨59, 59, 23, 7, 31, 12, 129⟩ = true ∧
    trecInRange (trOfLin { boundTo .chip with conv := conversion } 1000) = true ∧
    (let s := { bound [] with conv := conversion };
      s.ready ∧ s.inv = true ∧ s.peerKind = .reference ∧ s.peer.lost = none ∧ trOfLin s 1000 = scenario ∧
        trecInRange scenario = true) := by decide +kernel

theorem witness_BindSetsPinsAndPresent : State.reset.seq = .idle ∧ State.reset.present = false := by decide +kernel

theorem witness_ReadRowsRunTheirFrame : singleRead .secRd = some 0x81 ∧ singleRead .ramBurstRd = some 0xFF ∧
    singleRead (.ramRd 30) = some 0xFD ∧ singleRead (.cmdBit7Clear 127 0) = some 0x7F := by decide

theorem witness_WriteRowsRunTheirFrame : singleWrite (.secWr 7) = some (0x80, 7) ∧
    singleWrite (.ramBurstWr 7) = some (0xFE, 7) ∧ singleWrite (.clkUnassignedWr 30 7) = some (0xBC, 7) ∧
    singleWrite (.cmdBit7Clear 0 7) = some (0x00, 7) := by decide

theorem witness_AbsentPeerReadsFloat : ∃ t, exec (.regrd 0x80) (boundTo .absent) = .next t :=
  exists_next (by decide +kernel)

theorem witness_TimekeeperStepsToALaterValidTime : Peer.quiet.mem.wf = true ∧
    clockHalt { Peer.quiet with mem := clk [0x80] }.mem.clockImage = true ∧ 0x8E ∉ timeKeys := by decide +kernel

theorem witness_HaltedChipReadsAsItStands : let s := { bound (clk [0x80]) with peerKind := .chip }
    s.ready ∧ s.inv = true ∧ clockHalt s.peer.mem.clockImage = true := by decide +kernel

/-- A chip that is write-protected and halted, one that is neither, and one of each with a session open. -/
def protectedChip : State := { bound (clk p2ClockHalted) with peerKind := .chip }

theorem witness_ProtectedChipKeepsItsRegisters : protectedChip.inv = true ∧
    (protectedChip.peer.mem.read 0x8E).getLsbD 7 = true ∧ clockHalt protectedChip.peer.mem.clockImage = true ∧
    0x90 ∉ timeKeys ∧ (∃ t, exec (.regwr 0x80 0) protectedChip = .next t) ∧
    (∃ t, exec (.ramBurstWr 7) protectedChip = .next t) ∧
    ∃ t, exec .stop { inSession .written (lines false true) protectedChip.peer with peerKind := .chip } = .next t :=
  ⟨by decide +kernel, by decide +kernel, by decide +kernel, by decide, exists_next (by decide +kernel),
    exists_next (by decide +kernel), exists_next (by decide +kernel)⟩

/-- Protected or not, the seconds register with the clock kept halted and another register, by both forms of a write. -/
theorem witness_ChipRegisterWrites : protectedChip.ready ∧ protectedChip.inv = true ∧ (boundTo .chip).ready ∧
    (boundTo .chip).inv = true ∧ ((boundTo .chip).peer.mem.read 0x8E).getLsbD 7 = false ∧
    isRegKey (writeCommand 0x80).toNat = true ∧ isRegKey (writeCommand 0xFC).toNat = true ∧
    singleWrite (.secWr 0x80) = some (0x80, 0x80) ∧ ((0x80 : Byte).getLsbD 7 = true) ∧
    clockHalt protectedChip.peer.mem.clockImage = true ∧ 0xFC ∉ timeKeys := by decide +kernel

theorem witness_ChipBurstWrites : protectedChip.ready ∧ protectedChip.inv = true ∧ 0x90 ∉ burstKeys ∧
    (protectedChip.peer.mem.read 0x8E).getLsbD 7 = true ∧ clockHalt protectedChip.peer.mem.clockImage = true ∧
    ((boundTo .chip).peer.mem.read 0x8E).getLsbD 7 = false ∧ trecInRange scenario = true ∧
    trOfLin { protectedChip with conv := conversion } 1000 = scenario ∧ 0xC0 ∉ 0x90 :: burstKeys := by decide +kernel

theorem witness_ReadsOfAChipKeepItsOtherRegisters : (boundTo .chip).inv = true ∧
    (let s := { readingByte with peerKind := .chip };
      s.inv = true ∧ s.peer.cmdRead = true ∧ 8 ≤ s.peer.n ∧ completes (exec .rdbyte s)) ∧
    (let s := { readingLast with peerKind := .chip };
      s.inv = true ∧ s.peer.cmdRead = true ∧ 8 ≤ s.peer.n ∧ completes (exec .stop s)) ∧
    (∃ t, exec .tcsRd (boundTo .chip) = .next t) ∧ (singleRead .tcsRd).isSome = true ∧
    (∃ t, exec .clkread (boundTo .chip) = .next t) ∧ 0x8E ∉ timeKeys ∧ 0xFC ∉ timeKeys :=
  ⟨by decide +kernel, by decide +kernel, by decide +kernel, exists_next (by decide +kernel), rfl,
    exists_next (by decide +kernel), by decide, by decide⟩

/-- Every row of the table of R198 completes. -/
theorem witness_TransactionsHaveTheCountsOfTheTable : (∃ t, exec .burstrd (boundTo .oracle) = .next t) ∧
    (∃ t, exec .clkread (boundTo .oracle) = .next t) ∧ (∃ t, exec (.regrd 0xFF) (boundTo .oracle) = .next t) ∧
    (∃ t, exec (.regwr 0 1) (boundTo .oracle) = .next t) ∧
    ∃ t, exec (.burstwr ⟨1, 2, 3, 4, 5, 6, 7, 8⟩) (boundTo .oracle) = .next t :=
  ⟨exists_next (by decide +kernel), exists_next (by decide +kernel), exists_next (by decide +kernel),
    exists_next (by decide +kernel), exists_next (by decide +kernel)⟩

theorem witness_SessionsDoNotOverlap : opOf (.clkwrite scenario) = some .clkwrite ∧
    (∃ t, exec (.clkwrite scenario) (boundTo .oracle) = .next t) ∧ ∃ t, exec .halt (boundTo .oracle) = .next t :=
  ⟨rfl, exists_next (by decide +kernel), exists_next (by decide +kernel)⟩

/-- Both layouts of the hours byte. -/
theorem witness_DecodeFollowsTheFieldRules : (0xA3 : Byte).getLsbD 7 = true ∧ (0x23 : Byte).getLsbD 7 = false := by decide

end Sys2Proof.Tests
end

/-! Proofs of the protocol engine's statements (spec/41_protocol_engine.md): `STOP`, `WRBYTE`, `RDBYTE`. -/

namespace Sys2Proof.Machine

/-! ## What the three instructions run -/

theorem exec_stop (s : State) : exec .stop s = guarded s (preStop s) (stopSession s) := rfl

theorem exec_wrbyte (d : Byte) (r : Bool) (s : State) :
    exec (.wrbyte d r) s = guarded s (preWrbyte r s) (writeByte d r (latchData d s)) := rfl

theorem exec_rdbyte (s : State) :
    exec .rdbyte s = guarded s (preRdbyte s) { readByte s with rdata := (readByte s).sr } := rfl

/-! ## STOP -/

/-- Everything `STOP` does to the block (R162). -/
theorem stopSession_spec (s : State) : stopSession s = { s with
    sess := .closed, pads := { s.pads with ce := { s.pads.ce with out := false } }
    ev := s.ev ++ stopEvents, draws := s.draws + 2, peer := (stopSession s).peer } := by
  ext1 <;> simp

/-- In a session the invariant has `CE` driven high (R25, R161). -/
theorem State.inv_ce_high {s : State} (hinv : s.inv = true) (hsess : s.sess = .opened) :
    s.pads.ce.oe = true ∧ s.pads.ce.out = true := by
  have hlines : s.openLines = true := by
    rw [State.inv, hsess] at hinv
    exact (Bool.and_eq_true_iff.1 hinv).2
  simp only [State.openLines, Bool.and_eq_true] at hlines
  obtain ⟨⟨⟨hoe, hout⟩, -⟩, -⟩ := hlines
  exact ⟨hoe, hout⟩

/-- The end of a session gives no peer a reason to refuse: the reference peer refuses at no falling edge of `CE`. -/
theorem stopSession_peerRefusal {s : State} (hcalm : s.calm) (hsess : s.sess = .opened) :
    peerRefusal s.peerKind (stopSession s).peer = none := by
  by_cases hk : s.peerKind = .reference
  · obtain ⟨hinv, hlost⟩ := hcalm hk
    obtain ⟨hoe, hout⟩ := State.inv_ce_high hinv hsess
    rw [stopSession_reference hk hoe hout, hk]
    exact hlost
  · exact peerRefusal_of_ne hk _

/-- Settles O22: X5 is the precondition, and `CE` falling makes no peer refuse. -/
theorem stopClosesTheSession : Obligations.StopClosesTheSession := by
  unfold Obligations.StopClosesTheSession
  intro s hpresent hidle hsess hhist hcalm
  have hpre : preStop s = none := preStop_none.2 ⟨hpresent, hidle, hsess, hhist⟩
  refine ⟨(stopSession s).peer, ?_⟩
  rw [exec_stop, guarded_next]
  refine ⟨hpre, stopSession_peerRefusal hcalm hsess, ?_⟩
  rw [stopSession_spec s]
  rfl

/-! ## WRBYTE -/

/-- The events of a byte sent, by the numbers of its bits (R164). -/
theorem writeByteEvents_eq_range (d : Byte) (r : Bool) : writeByteEvents d r = (List.range 8).flatMap fun i =>
    [.drv .io (d.getLsbD i), .dly .tHold, .drv .sclk true, .dly .tHold] ++
      if r = true ∧ i = 7 then [.dir .io .inp] else [.drv .sclk false, .dly .tHold] := by
  cases r <;> rfl

/-- Settles O23: X6 and X7 are the precondition, and any peer but the reference peer goes on. -/
theorem wrbyteSendsAByte : Obligations.WrbyteSendsAByte := by
  unfold Obligations.WrbyteSendsAByte
  intro d rel s hpresent hidle hsess hio hsclk hfirst hkind
  have hpre : preWrbyte rel s = none := preWrbyte_none.2 ⟨hpresent, hidle, hsess, hio, hsclk, hfirst⟩
  refine ⟨(writeByte d rel (latchData d s)).peer, ?_⟩
  rw [exec_wrbyte, guarded_of_going_on hpre hkind, writeByte_spec, writeByteEvents_eq_range, latchData_pads, hio,
    Bool.and_true]
  rfl

/-! ## RDBYTE -/

/-- The events of a byte read, by the numbers of its bits (R168). -/
theorem readByteEvents_eq_range (b : Byte) : readByteEvents b = (List.range 8).flatMap fun i =>
    [.drv .sclk true, .dly .tHold, .drv .sclk false, .dly .tHold, .smp (b.getLsbD i)] := rfl

/-- Settles O24: X8 is the precondition, any peer but the reference peer goes on, and the byte is that of `sr`. -/
theorem rdbyteReadsAByte : Obligations.RdbyteReadsAByte := by
  unfold Obligations.RdbyteReadsAByte
  intro s hpresent hidle hsess hio hclock hkind
  have hpre : preRdbyte s = none := preRdbyte_none.2 ⟨hpresent, hidle, hsess, hio, hclock⟩
  refine ⟨(readByte s).sr, (readByte s).peer, ?_⟩
  rw [exec_rdbyte, guarded_of_going_on hpre hkind, ← readByteEvents_eq_range, readByte_spec s]

end Sys2Proof.Machine

/-! Proofs of the clock access statements (spec/44_clock_access.md): `PRESENT`. -/

namespace Sys2Proof.Machine

theorem exec_present (s : State) : exec .present s = guardedQuietly (preIdle s) s := rfl

/-- Settles O36: X2 alone is the precondition, and the operation runs no line event, so only `rsp_valid` is set. -/
theorem presentReportsConstruction : Obligations.PresentReportsConstruction := by
  unfold Obligations.PresentReportsConstruction
  intro s hidle
  have hpre : preIdle s = none := preIdle_none.2 hidle
  constructor
  · rw [exec_present, guardedQuietly_next]
    exact ⟨hpre, rfl⟩
  · rfl

end Sys2Proof.Machine

/-! Proofs of the statements about the encoding (spec/30_encoding.md). -/

namespace Sys2Proof

/-! ## What the decoder does with a frame -/

/-- The command bytes that have a row of their own in R102. -/
def namedCommands : List Byte :=
  [0xBE, 0xBF, 0xFE, 0xFF, 0x80, 0x81, 0x82, 0x83, 0x84, 0x85, 0x86, 0x87, 0x88, 0x89, 0x8A, 0x8B, 0x8C, 0x8D, 0x8E,
    0x8F, 0x90, 0x91]

theorem readFrame_eq_ok {i j : Instr} {data : List Byte} : readFrame i data = .ok j ↔ data = [] ∧ j = i := by
  cases data <;> simp [readFrame, eq_comm]

theorem writeFrame_eq_ok {i : Byte → Instr} {j : Instr} {data : List Byte} :
    writeFrame i data = .ok j ↔ ∃ d, data = [d] ∧ j = i d := by
  rcases data with _ | ⟨d, _ | _⟩ <;> simp [writeFrame, eq_comm]

theorem burstFrame_toList (v : Image) : burstFrame v.toList = .ok (.clkBurstWr v) := rfl

theorem burstFrame_eq_ok {j : Instr} {data : List Byte} (h : burstFrame data = .ok j) :
    ∃ v : Image, data = v.toList ∧ j = .clkBurstWr v := by
  unfold burstFrame at h
  split at h
  · rename_i b0 b1 b2 b3 b4 b5 b6 b7
    exact ⟨⟨b0, b1, b2, b3, b4, b5, b6, b7⟩, rfl, (Except.ok.inj h).symm⟩
  · cases h

/-- The decoder on a command byte without a row of its own goes by the fields of the byte (R61, R100). -/
theorem decodeFrame_unnamed {c : Byte} (h : c ∉ namedCommands) (data : List Byte) : decodeFrame c data =
    if c.getLsbD 7 = false then
      if commandIsRead c then readFrame (.cmdBit7Clear (c.extractLsb' 0 7) 0) data
      else writeFrame (.cmdBit7Clear (c.extractLsb' 0 7)) data
    else if commandSpace c then
      if commandIsRead c then readFrame (.ramRd (commandNumber c)) data
      else writeFrame (.ramWr (commandNumber c)) data
    else
      if commandIsRead c then readFrame (.clkUnassignedRd (commandNumber c)) data
      else writeFrame (.clkUnassignedWr (commandNumber c)) data := by
  simp only [namedCommands, List.mem_cons, List.not_mem_nil, or_false, not_or] at h
  simp only [decodeFrame, h, if_false]

theorem ram_unnamed : ∀ (a : BitVec 5) (r : Bool), ramNumber a = true → commandByte true a r ∉ namedCommands := by
  decide +kernel

theorem unassigned_unnamed : ∀ (a : BitVec 5) (r : Bool), unassignedNumber a = true →
    commandByte false a r ∉ namedCommands := by
  decide +kernel

/-- A command byte outside the map: it has no row of its own, and its seven bits are those of the operand (R64). -/
theorem bit7Clear_fields : ∀ x : BitVec 7, (0#1 ++ x : Byte) ∉ namedCommands ∧ (0#1 ++ x : Byte).getLsbD 7 = false ∧
    commandIsRead (0#1 ++ x : Byte) = x.getLsbD 0 ∧ (0#1 ++ x : Byte).extractLsb' 0 7 = x := by
  decide +kernel

theorem decodeFrame_ram {a : BitVec 5} (h : ramNumber a = true) (r : Bool) (data : List Byte) :
    decodeFrame (commandByte true a r) data = if r then readFrame (.ramRd a) data else writeFrame (.ramWr a) data := by
  rw [decodeFrame_unnamed (ram_unnamed a r h), commandByte_bit7, commandSpace_commandByte, commandIsRead_commandByte,
    commandNumber_commandByte]
  rfl

theorem decodeFrame_unassigned {a : BitVec 5} (h : unassignedNumber a = true) (r : Bool) (data : List Byte) :
    decodeFrame (commandByte false a r) data =
      if r then readFrame (.clkUnassignedRd a) data else writeFrame (.clkUnassignedWr a) data := by
  rw [decodeFrame_unnamed (unassigned_unnamed a r h), commandByte_bit7, commandSpace_commandByte,
    commandIsRead_commandByte, commandNumber_commandByte]
  rfl

theorem decodeFrame_bit7Clear (x : BitVec 7) (data : List Byte) : decodeFrame (0#1 ++ x) data =
    if x.getLsbD 0 then readFrame (.cmdBit7Clear x 0) data else writeFrame (.cmdBit7Clear x) data := by
  obtain ⟨hname, hbit, hread, hx⟩ := bit7Clear_fields x
  rw [decodeFrame_unnamed hname, hbit, hread, hx]
  rfl

/-- Settles O2: the packed operands come back by `unpackImage_packImage` and `unpackTRec_packTRec`, the rows of R102 that
carry a number by the fields of the command byte, and every other row is one fixed word. -/
theorem decodeOfEncodeIsTheInstruction : Obligations.DecodeOfEncodeIsTheInstruction := by
  unfold Obligations.DecodeOfEncodeIsTheInstruction
  intro i hwf
  cases i with
  | burstwr v => exact congrArg (fun v => Except.ok (Instr.burstwr v)) (unpackImage_packImage v)
  | clkwrite t => exact congrArg (fun t => Except.ok (Instr.clkwrite t)) (unpackTRec_packTRec t)
  | ramWr a d => exact decodeFrame_ram hwf false [d]
  | ramRd a => exact decodeFrame_ram hwf true []
  | clkUnassignedWr a d => exact decodeFrame_unassigned hwf false [d]
  | clkUnassignedRd a => exact decodeFrame_unassigned hwf true []
  | cmdBit7Clear x d =>
    rw [encode]
    cases hx : x.getLsbD 0 with
    | true =>
      have hd : d = 0 := by
        rw [Instr.wf, readCarriesNoData, hx] at hwf
        exact beq_iff_eq.1 hwf
      rw [if_pos rfl, decode, decodeWire, decodeFrame_bit7Clear, hx, hd]
      rfl
    | false =>
      rw [if_neg (by decide), decode, decodeWire, decodeFrame_bit7Clear, hx]
      rfl
  | _ => rfl

/-- A command byte with bit 7 set and no row of its own names a RAM byte or an unassigned clock register (R63, R64). -/
theorem unnamed_fields : ∀ c : Byte, c ∉ namedCommands → c.getLsbD 7 = true →
    commandByte (commandSpace c) (commandNumber c) (commandIsRead c) = c ∧
      (if commandSpace c then ramNumber (commandNumber c) else unassignedNumber (commandNumber c)) = true := by
  decide +kernel

theorem bit7Clear_extract : ∀ c : Byte, c.getLsbD 7 = false →
    (0#1 ++ c.extractLsb' 0 7 : Byte) = c ∧ (c.extractLsb' 0 7).getLsbD 0 = commandIsRead c := by
  decide +kernel

/-- What an instruction owes the frame it was decoded from. -/
def Encodes (i : Instr) (f : List Byte) : Prop := i.wf = true ∧ encode i = .wire f

theorem Encodes.of_named {c : Byte} (hc : c ∈ namedCommands) {data : List Byte} {i : Instr}
    (h : decodeFrame c data = .ok i) : Encodes i (c :: data) := by
  have read : ∀ {j : Instr}, encode j = .wire [c] → j.wf = true → decodeFrame c data = readFrame j data →
      Encodes i (c :: data) := by
    intro j hj hwf hd
    obtain ⟨rfl, rfl⟩ := readFrame_eq_ok.1 (hd.symm.trans h)
    exact ⟨hwf, hj⟩
  have write : ∀ {j : Byte → Instr}, (∀ d, encode (j d) = .wire [c, d]) → (∀ d, (j d).wf = true) →
      decodeFrame c data = writeFrame j data → Encodes i (c :: data) := by
    intro j hj hwf hd
    obtain ⟨d, rfl, rfl⟩ := writeFrame_eq_ok.1 (hd.symm.trans h)
    exact ⟨hwf d, hj d⟩
  simp only [namedCommands, List.mem_cons, List.not_mem_nil, or_false] at hc
  rcases hc with rfl | rfl | rfl | rfl | rfl | rfl | rfl | rfl | rfl | rfl | rfl | rfl | rfl | rfl | rfl | rfl | rfl | rfl |
    rfl | rfl | rfl | rfl
  case inl =>
    obtain ⟨v, rfl, rfl⟩ := burstFrame_eq_ok (data := data) h
    exact ⟨rfl, rfl⟩
  all_goals first
    | exact read rfl rfl rfl
    | exact write (fun _ => rfl) (fun _ => rfl) rfl

theorem Encodes.of_unnamed {c : Byte} (hc : c ∉ namedCommands) {data : List Byte} {i : Instr}
    (h : decodeFrame c data = .ok i) : Encodes i (c :: data) := by
  rw [decodeFrame_unnamed hc] at h
  cases h7 : c.getLsbD 7 with
  | false =>
    obtain ⟨hx, hr⟩ := bit7Clear_extract c h7
    rw [h7, if_pos rfl] at h
    cases hread : commandIsRead c <;> simp only [hread, if_true, if_false, Bool.false_eq_true] at h
    · obtain ⟨d, rfl, rfl⟩ := writeFrame_eq_ok.1 h
      rw [hread] at hr
      exact ⟨by rw [Instr.wf, readCarriesNoData, hr]; rfl, by rw [encode, hr, hx]; rfl⟩
    · obtain ⟨rfl, rfl⟩ := readFrame_eq_ok.1 h
      rw [hread] at hr
      exact ⟨by rw [Instr.wf, readCarriesNoData, hr]; rfl, by rw [encode, hr, hx]; rfl⟩
  | true =>
    obtain ⟨hb, hn⟩ := unnamed_fields c hc h7
    rw [h7, if_neg (by decide)] at h
    cases hs : commandSpace c <;> cases hread : commandIsRead c <;>
      simp only [hs, hread, if_true, if_false, Bool.false_eq_true] at h hb hn
    · obtain ⟨d, rfl, rfl⟩ := writeFrame_eq_ok.1 h
      exact ⟨hn, by rw [encode, hb]⟩
    · obtain ⟨rfl, rfl⟩ := readFrame_eq_ok.1 h
      exact ⟨hn, by rw [encode, hb]⟩
    · obtain ⟨d, rfl, rfl⟩ := writeFrame_eq_ok.1 h
      exact ⟨hn, by rw [encode, hb]⟩
    · obtain ⟨rfl, rfl⟩ := readFrame_eq_ok.1 h
      exact ⟨hn, by rw [encode, hb]⟩

/-- Settles O3: a frame is decoded by the row of its command byte, or by the fields of the byte where no row names it. -/
theorem framesDecodeUnambiguously : Obligations.FramesDecodeUnambiguously := by
  unfold Obligations.FramesDecodeUnambiguously
  intro f i h
  cases f with
  | nil => cases h
  | cons c data =>
    by_cases hc : c ∈ namedCommands
    · exact Encodes.of_named hc h
    · exact Encodes.of_unnamed hc h

/-- Settles O1: each word is fixed, so the decoder evaluates on it. -/
theorem wordsDecodeAsTheTablesSay : Obligations.WordsDecodeAsTheTablesSay := by
  unfold Obligations.WordsDecodeAsTheTablesSay
  decide

/-- A host selector decodes to an instruction that is well formed. -/
theorem decodeHost_wf (p : HostPort) : (decodeHost p).wf = true := by
  simp only [decodeHost, apply_ite Instr.wf]
  simp only [Instr.wf, ite_self]

/-- Whatever a command decodes to is well formed. -/
theorem decode_wf {c : Command} {i : Instr} (h : decode c = .ok i) : i.wf = true := by
  cases c with
  | host p => rw [← Except.ok.inj h]; exact decodeHost_wf p
  | wire f => exact (framesDecodeUnambiguously f i h).1

end Sys2Proof

/-! What every instruction runs: the wire rows as the host operations that carry their command byte, each operation as
its precondition and its result on the latched state, and the line events of a result with what they do to the lines and
to the peer. -/

namespace Sys2Proof.Machine

/-! ## The direction bit of a command byte (R100, R101) -/

theorem readCommand_of_read : ∀ c : Byte, commandIsRead c = true → readCommand c = c := by decide +kernel
theorem writeCommand_of_write : ∀ c : Byte, commandIsRead c = false → writeCommand c = c := by decide +kernel
theorem commandIsRead_readCommand : ∀ x : Byte, commandIsRead (readCommand x) = true := by decide +kernel
theorem commandIsRead_writeCommand : ∀ x : Byte, commandIsRead (writeCommand x) = false := by decide +kernel
theorem writeCommand_readCommand : ∀ x : Byte, writeCommand (readCommand x) = writeCommand x := by decide +kernel

theorem writeCommand_writeCommand (x : Byte) : writeCommand (writeCommand x) = writeCommand x :=
  writeCommand_of_write _ (commandIsRead_writeCommand x)

/-- A command byte written out as in R102 is that of `commandByte`. -/
theorem commandByte_fields : ∀ (a : BitVec 5) (r : Bool), (0b11#2 ++ a ++ BitVec.ofBool r : Byte) = commandByte true a r ∧
    (0b10#2 ++ a ++ BitVec.ofBool r : Byte) = commandByte false a r := by
  decide +kernel

/-! ## The wire rows of one data byte (R102) -/

/-- What a read row is: its frame, with its command byte in the address latch. -/
structure ReadRow (i : Instr) (c : Byte) : Prop where
  isRead : commandIsRead c = true
  exec_eq : ∀ s, exec i s = readFrameOf c s
  op : opOf i = some .regrd
  latch : ∀ s, latchOperands i s = latchAddr c s

/-- What a write row is. -/
structure WriteRow (i : Instr) (c d : Byte) : Prop where
  isWrite : commandIsRead c = false
  exec_eq : ∀ s, exec i s = writeFrameOf c d s
  op : opOf i = some .regwr
  latch : ∀ s, latchOperands i s = latchData d (latchAddr c s)

theorem readRow_cmdBit7Clear {x : BitVec 7} (d : Byte) (hx : x.getLsbD 0 = true) :
    ReadRow (.cmdBit7Clear x d) (0#1 ++ x) where
  isRead := (bit7Clear_fields x).2.2.1.trans hx
  exec_eq s := by
    show execCmdBit7Clear x d s = _
    rw [execCmdBit7Clear, if_pos hx]
  op := by
    show some (if x.getLsbD 0 then Op.regrd else .regwr) = _
    rw [if_pos hx]
  latch s := by
    have h : encode (.cmdBit7Clear x d) = .wire [0#1 ++ x] := by rw [encode, if_pos hx]
    delta latchOperands
    dsimp only
    rw [h]

theorem writeRow_cmdBit7Clear {x : BitVec 7} (d : Byte) (hx : x.getLsbD 0 = false) :
    WriteRow (.cmdBit7Clear x d) (0#1 ++ x) d where
  isWrite := (bit7Clear_fields x).2.2.1.trans hx
  exec_eq s := by
    show execCmdBit7Clear x d s = _
    rw [execCmdBit7Clear, if_neg (by rw [hx]; decide)]
  op := by
    show some (if x.getLsbD 0 then Op.regrd else .regwr) = _
    rw [if_neg (by rw [hx]; decide)]
  latch s := by
    have h : encode (.cmdBit7Clear x d) = .wire [0#1 ++ x, d] := by rw [encode, if_neg (by rw [hx]; decide)]
    delta latchOperands
    dsimp only
    rw [h]

theorem readRow_of_singleRead {i : Instr} {c : Byte} (h : singleRead i = some c) : ReadRow i c := by
  cases i with
  | ramRd a =>
    obtain rfl : commandByte true a true = c := (commandByte_fields a true).1.symm.trans (Option.some.inj h)
    exact ⟨commandIsRead_commandByte _ _ _, fun _ => rfl, rfl, fun _ => rfl⟩
  | clkUnassignedRd a =>
    obtain rfl : commandByte false a true = c := (commandByte_fields a true).2.symm.trans (Option.some.inj h)
    exact ⟨commandIsRead_commandByte _ _ _, fun _ => rfl, rfl, fun _ => rfl⟩
  | cmdBit7Clear x d =>
    cases hx : x.getLsbD 0 <;> rw [singleRead, hx] at h
    · cases h
    · obtain rfl := Option.some.inj h
      exact readRow_cmdBit7Clear d hx
  | _ =>
    cases h
    try exact ⟨rfl, fun _ => rfl, rfl, fun _ => rfl⟩

theorem writeRow_of_singleWrite {i : Instr} {c d : Byte} (h : singleWrite i = some (c, d)) : WriteRow i c d := by
  cases i with
  | ramWr a d' =>
    obtain ⟨hc, rfl⟩ := Prod.mk.inj (Option.some.inj h)
    obtain rfl : commandByte true a false = c := (commandByte_fields a false).1.symm.trans hc
    exact ⟨commandIsRead_commandByte _ _ _, fun _ => rfl, rfl, fun _ => rfl⟩
  | clkUnassignedWr a d' =>
    obtain ⟨hc, rfl⟩ := Prod.mk.inj (Option.some.inj h)
    obtain rfl : commandByte false a false = c := (commandByte_fields a false).2.symm.trans hc
    exact ⟨commandIsRead_commandByte _ _ _, fun _ => rfl, rfl, fun _ => rfl⟩
  | cmdBit7Clear x d' =>
    cases hx : x.getLsbD 0 <;> rw [singleWrite, hx] at h
    · cases h
      exact writeRow_cmdBit7Clear d hx
    · cases h
  | _ =>
    cases h
    try exact ⟨rfl, fun _ => rfl, rfl, fun _ => rfl⟩

theorem exec_regrd (x : Byte) (s : State) :
    exec (.regrd x) s = guarded s (preSession s) (regRead (readCommand x) (latchAddr x s)) := rfl

theorem exec_regwr (x d : Byte) (s : State) :
    exec (.regwr x d) s = guarded s (preSession s) (regWrite (writeCommand x) d (latchData d (latchAddr x s))) := rfl

theorem ReadRow.exec_regrd {i : Instr} {c : Byte} (h : ReadRow i c) (s : State) : exec i s = exec (.regrd c) s := by
  rw [h.exec_eq, Machine.exec_regrd, readCommand_of_read c h.isRead, readFrameOf]

theorem WriteRow.exec_regwr {i : Instr} {c d : Byte} (h : WriteRow i c d) (s : State) :
    exec i s = exec (.regwr c d) s := by
  rw [h.exec_eq, Machine.exec_regwr, writeCommand_of_write c h.isWrite, writeFrameOf]

/-- Settles O41: the command byte of a row has its direction bit as `REGRD` and `REGWR` force it. -/
theorem wireRowsAreHostOperations : Obligations.WireRowsAreHostOperations := by
  unfold Obligations.WireRowsAreHostOperations
  exact ⟨fun i c s h => (readRow_of_singleRead h).exec_regrd s, fun i c d s h => (writeRow_of_singleWrite h).exec_regwr s,
    fun _ => rfl, fun _ _ => rfl⟩

/-! ## An operation as precondition and result -/

/-- The precondition of an operation, on the state with its operands latched (R284). -/
def Op.pre (op : Op) (s : State) : Option Refusal :=
  match op with
  | .stop => preStop s
  | .wrbyte => preWrbyte s.rel s
  | .rdbyte => preRdbyte s
  | .clkwrite => preClkwrite s.trec s
  | .set => preClkwrite s.trec s
  | .start | .regrd | .regwr | .burstrd | .burstwr | .clkread | .get | .halt => preSession s

/-- What an operation does to the state with its operands latched. -/
def Op.result (op : Op) (s : State) : State :=
  match op with
  | .start => startSession s
  | .stop => stopSession s
  | .wrbyte => writeByte s.wdata s.rel s
  | .rdbyte => { readByte s with rdata := (readByte s).sr }
  | .regrd => regRead (readCommand s.addr) s
  | .regwr => regWrite (writeCommand s.addr) s.wdata s
  | .burstrd => burstRead s
  | .burstwr => burstWrite s
  | .clkread => readClock s
  | .clkwrite => writeClock s
  | .get => { readClock s with lin := linOfTr (readClock s) (readClock s).trec }
  | .set => writeClock s
  | .halt => regWrite wpWriteCommand 0 s

/-- A byte out takes its release operand, not the latch. -/
theorem writeByte_latchRel (d : Byte) (r r' : Bool) (s : State) : writeByte d r (latchRel r' s) = writeByte d r s := by
  have h := emitAll_serial (writeByteEvents d r) s s.sr r' s.bitcnt s.bytecnt
  rw [show latchRel r' s = { s with sr := s.sr, rel := r', bitcnt := s.bitcnt, bytecnt := s.bytecnt } from rfl, writeByte, h]
  ext1 <;> simp [writeByte]

/-- Every instruction with line events is its operation on the latched state. -/
theorem exec_of_opOf {i : Instr} {op : Op} (h : opOf i = some op) (s : State) :
    exec i s = guarded s (op.pre (latchOperands i s)) (op.result (latchOperands i s)) := by
  have read : ∀ {c : Byte}, singleRead i = some c →
      exec i s = guarded s (op.pre (latchOperands i s)) (op.result (latchOperands i s)) := by
    intro c hc
    have row := readRow_of_singleRead hc
    obtain rfl := Option.some.inj (row.op.symm.trans h)
    rw [row.exec_regrd, row.latch]
    rfl
  have write : ∀ {c d : Byte}, singleWrite i = some (c, d) →
      exec i s = guarded s (op.pre (latchOperands i s)) (op.result (latchOperands i s)) := by
    intro c d hc
    have row := writeRow_of_singleWrite hc
    obtain rfl := Option.some.inj (row.op.symm.trans h)
    rw [row.exec_regwr, row.latch]
    rfl
  cases i with
  | bind p => cases h
  | present => cases h
  | reservedOp => cases h
  | wrbyte d r =>
    cases h
    exact congrArg (guarded s (preWrbyte r s)) (writeByte_latchRel d r r (latchData d s)).symm
  | start | stop | rdbyte | regrd | regwr | burstrd | burstwr | clkread | clkwrite | get | set | halt | clkBurstWr
  | clkBurstRd =>
    cases h
    rfl
  | cmdBit7Clear x d =>
    cases hx : x.getLsbD 0
    · exact write (by rw [singleWrite, hx]; rfl)
    · exact read (by rw [singleRead, hx]; rfl)
  | secRd | minRd | hourRd | dateRd | monthRd | wdayRd | yearRd | wpRd | tcsRd | ramBurstRd | ramRd | clkUnassignedRd =>
    exact read rfl
  | secWr | minWr | hourWr | dateWr | monthWr | wdayWr | yearWr | wpWr | tcsWr | ramBurstWr | ramWr | clkUnassignedWr =>
    exact write rfl

/-- When an instruction with line events answers a next state, and which. -/
theorem exec_next {i : Instr} {op : Op} (h : opOf i = some op) {s t : State} : exec i s = .next t ↔
    op.pre (latchOperands i s) = none ∧ peerRefusal s.peerKind (op.result (latchOperands i s)).peer = none ∧
      t = { op.result (latchOperands i s) with rspValid := true } := by
  rw [exec_of_opOf h, guarded_next]

/-- The instructions without line events. -/
theorem opOf_none {i : Instr} (h : opOf i = none) : (∃ p, i = .bind p) ∨ i = .present ∨ i = .reservedOp := by
  cases i <;> first
    | exact .inl ⟨_, rfl⟩
    | exact .inr (.inl rfl)
    | exact .inr (.inr rfl)
    | cases h

theorem exec_bind (p : Pins) (s : State) :
    exec (.bind p) s = guardedQuietly (preBind p s) { s with pins := p, present := true } := rfl

theorem exec_bind_next {p : Pins} {s t : State} : exec (.bind p) s = .next t ↔
    preBind p s = none ∧ t = { s with pins := p, present := true, rspValid := true } := guardedQuietly_next

theorem exec_present_next {s t : State} : exec .present s = .next t ↔
    s.seq = .idle ∧ t = { s with rspValid := true } := by
  rw [exec_present, guardedQuietly_next, preIdle_none]

theorem exec_reservedOp_next {s t : State} : exec .reservedOp s = .next t ↔ s.seq = .idle ∧ t = s := by
  rw [← preIdle_none]
  show execReservedOp s = .next t ↔ _
  rw [execReservedOp]
  cases preIdle s <;> simp [eq_comm]

/-! ## What the operand latches keep (R29) -/

/-- Latching operands touches neither the lines, the peer, the sequencer nor the host port. -/
theorem latchOperands_fields (i : Instr) (s : State) : latchOperands i s = { s with
    rel := (latchOperands i s).rel, trec := (latchOperands i s).trec, img := (latchOperands i s).img
    addr := (latchOperands i s).addr, wdata := (latchOperands i s).wdata, lin := (latchOperands i s).lin } := by
  cases i with
  | cmdBit7Clear x d =>
    cases hx : x.getLsbD 0
    · rw [(writeRow_cmdBit7Clear d hx).latch]; rfl
    · rw [(readRow_cmdBit7Clear d hx).latch]; rfl
  | _ => rfl

/-! ## The line events of an operation -/

/-- `t` is `s` after the events `es`, as far as the trace, the lines and the peer go. -/
structure Emits (s : State) (es : List Event) (t : State) : Prop where
  ev : t.ev = s.ev ++ es
  pads : t.pads = padsAfter es s.pads
  draws : t.draws = s.draws + es.length
  kind : t.peerKind = s.peerKind
  peer : t.peer = peerAfter s.peerKind es s.pads s.draws s.peer

theorem padsAfter_append (es fs : List Event) (pd : Pads) :
    padsAfter (es ++ fs) pd = padsAfter fs (padsAfter es pd) := by
  induction es generalizing pd with
  | nil => rfl
  | cons e es ih => exact ih (e.onPads pd)

theorem Emits.trans {s t u : State} {es fs : List Event} (h : Emits s es t) (h' : Emits t fs u) :
    Emits s (es ++ fs) u where
  ev := by rw [h'.ev, h.ev, List.append_assoc]
  pads := by rw [h'.pads, h.pads, padsAfter_append]
  draws := by rw [h'.draws, h.draws, List.length_append, Nat.add_assoc]
  kind := h'.kind.trans h.kind
  peer := by rw [h'.peer, h.kind, h.pads, h.draws, h.peer, peerAfter_append]

theorem Emits.nil (s : State) : Emits s [] s := ⟨(List.append_nil _).symm, rfl, rfl, rfl, rfl⟩

theorem Emits.events_unique {s t : State} {es fs : List Event} (h : Emits s es t) (h' : t.ev = s.ev ++ fs) : es = fs :=
  List.append_cancel_left (h.ev.symm.trans h')

/-- A state that differs from `t` in registers alone. -/
theorem Emits.retag {s t u : State} {es : List Event} (h : Emits s es t) (hev : u.ev = t.ev) (hpads : u.pads = t.pads)
    (hdraws : u.draws = t.draws) (hkind : u.peerKind = t.peerKind) (hpeer : u.peer = t.peer) : Emits s es u :=
  ⟨hev.trans h.ev, hpads.trans h.pads, hdraws.trans h.draws, hkind.trans h.kind, hpeer.trans h.peer⟩

/-- The same of the state the events begin in. -/
theorem Emits.retagFrom {s t u : State} {es : List Event} (h : Emits t es u) (hev : t.ev = s.ev) (hpads : t.pads = s.pads)
    (hdraws : t.draws = s.draws) (hkind : t.peerKind = s.peerKind) (hpeer : t.peer = s.peer) : Emits s es u := by
  obtain ⟨h1, h2, h3, h4, h5⟩ := h
  rw [hev] at h1
  rw [hpads] at h2 h5
  rw [hdraws] at h3 h5
  rw [hkind] at h4 h5
  rw [hpeer] at h5
  exact ⟨h1, h2, h3, h4, h5⟩

theorem emitAll_emits (es : List Event) (s : State) : Emits s es (emitAll es s) :=
  ⟨emitAll_ev es s, emitAll_pads es s, emitAll_draws es s, emitAll_peerKind es s, emitAll_peer es s⟩

theorem startSession_emits (s : State) : Emits s startEvents (startSession s) :=
  have h := emitAll_emits startEvents s
  ⟨h.ev, h.pads, h.draws, h.kind, h.peer⟩

theorem stopSession_emits (s : State) : Emits s stopEvents (stopSession s) :=
  have h := emitAll_emits stopEvents s
  ⟨h.ev, h.pads, h.draws, h.kind, h.peer⟩

theorem writeByte_emits (d : Byte) (r : Bool) (s : State) : Emits s (writeByteEvents d r) (writeByte d r s) :=
  have h := emitAll_emits (writeByteEvents d r) s
  ⟨h.ev, h.pads, h.draws, h.kind, h.peer⟩

theorem readBit_emits (i : BitVec 3) (s : State) : ∃ es, Emits s es (readBit i s) :=
  have h := (emitAll_emits readBitEvents s).trans (emitAll_emits [.smp (sampleIo (emitAll readBitEvents s))] _)
  ⟨_, h.ev, h.pads, h.draws, h.kind, h.peer⟩

theorem readBits_emits (is : List (BitVec 3)) (s : State) : ∃ es, Emits s es (readBits is s) := by
  induction is generalizing s with
  | nil => exact ⟨[], Emits.nil s⟩
  | cons i is ih =>
    obtain ⟨es, h⟩ := readBit_emits i s
    obtain ⟨fs, h'⟩ := ih (readBit i s)
    exact ⟨es ++ fs, h.trans h'⟩

theorem readByte_emits (s : State) : Emits s (readByteEvents (readByte s).sr) (readByte s) := by
  obtain ⟨es, h⟩ := readBits_emits bitOrder s
  have h' : Emits s es (readByte s) := ⟨h.ev, h.pads, h.draws, h.kind, h.peer⟩
  rw [← h'.events_unique (readByte_ev s)]
  exact h'

theorem regRead_emits (c : Byte) (s : State) : Emits s (regReadEvents c (regRead c s).rdata) (regRead c s) :=
  have h := (((startSession_emits s).trans (writeByte_emits c true _)).trans (readByte_emits _)).trans (stopSession_emits _)
  ⟨h.ev, h.pads, h.draws, h.kind, h.peer⟩

theorem regWrite_emits (c d : Byte) (s : State) : Emits s (regWriteEvents c d) (regWrite c d s) :=
  (((startSession_emits s).trans (writeByte_emits c false _)).trans (writeByte_emits d false _)).trans (stopSession_emits _)

theorem burstReadBytes_emits (ks : List (BitVec 4)) (s : State) : ∃ es, Emits s es (burstReadBytes ks s) := by
  induction ks generalizing s with
  | nil => exact ⟨[], Emits.nil s⟩
  | cons k ks ih =>
    have h := ((readByte_emits { s with bytecnt := k }).retagFrom (s := s) rfl rfl rfl rfl rfl).retag
      (u := burstReadByte k s) (by rw [burstReadByte]) (by rw [burstReadByte]) (by rw [burstReadByte]) (by rw [burstReadByte])
      (burstReadByte_peer k s)
    obtain ⟨fs, h'⟩ := ih (burstReadByte k s)
    exact ⟨_ ++ fs, h.trans h'⟩

theorem burstRead_emits (s : State) : Emits s (burstReadEvents (burstRead s).img) (burstRead s) := by
  obtain ⟨es, h⟩ := burstReadBytes_emits byteOrder (writeByte clkBurstReadCommand true (startSession s))
  have h' := (((startSession_emits s).trans (writeByte_emits clkBurstReadCommand true _)).trans h).trans
    (stopSession_emits _)
  have hev := h'.events_unique (burstRead_ev s)
  rw [← hev]
  exact h'

theorem burstWriteBytes_emits (ks : List (BitVec 4)) (s : State) : ∃ es, Emits s es (burstWriteBytes ks s) := by
  induction ks generalizing s with
  | nil => exact ⟨[], Emits.nil s⟩
  | cons k ks ih =>
    have h : Emits s _ (burstWriteByte k s) :=
      (writeByte_emits (s.img.get k.toNat) false { s with bytecnt := k }).retagFrom rfl rfl rfl rfl rfl
    obtain ⟨fs, h'⟩ := ih (burstWriteByte k s)
    exact ⟨_ ++ fs, h.trans h'⟩

theorem burstWrite_emits (s : State) : Emits s (burstWriteEvents s.img) (burstWrite s) := by
  obtain ⟨es, h⟩ := burstWriteBytes_emits byteOrder (writeByte clkBurstWriteCommand false (startSession s))
  have h' := (((startSession_emits s).trans (writeByte_emits clkBurstWriteCommand false _)).trans h).trans
    (stopSession_emits _)
  have hev := h'.events_unique (burstWrite_ev s)
  rw [← hev]
  exact h'

theorem readClock_emits (s : State) : Emits s (burstReadEvents (burstRead s).img) (readClock s) :=
  (burstRead_emits s).retag (by rw [readClock]) (by rw [readClock]) (by rw [readClock]) (by rw [readClock])
    (readClock_peer s)

theorem writeClock_emits (s : State) :
    Emits s (regWriteEvents 0x8E 0 ++ regWriteEvents 0x90 0 ++ burstWriteEvents (encodeImage s.trec)) (writeClock s) := by
  have h1 := (regWrite_emits wpWriteCommand 0 s).trans (regWrite_emits tcsWriteCommand 0 _)
  have h2 := (burstWrite_emits (latchImage (encodeImage s.trec) (regWrite tcsWriteCommand 0
    (regWrite wpWriteCommand 0 s)))).retagFrom (s := regWrite tcsWriteCommand 0 (regWrite wpWriteCommand 0 s))
    (latchImage_ev _ _) (latchImage_pads _ _) (latchImage_draws _ _) (latchImage_peerKind _ _) (latchImage_peer _ _)
  rw [latchImage_img] at h2
  refine (h1.trans h2).retag ?_ ?_ ?_ ?_ (writeClock_peer s) <;> rw [writeClock, regWrite_trec, regWrite_trec]

/-- The events of an operation on the latched state, given the byte or the image it reads (R160 to R196, R252). -/
def Op.events (op : Op) (s : State) (b : Byte) (v : Image) : List Event :=
  match op with
  | .start => startEvents
  | .stop => stopEvents
  | .wrbyte => writeByteEvents s.wdata s.rel
  | .rdbyte => readByteEvents b
  | .regrd => regReadEvents (readCommand s.addr) b
  | .regwr => regWriteEvents (writeCommand s.addr) s.wdata
  | .burstrd | .clkread | .get => burstReadEvents v
  | .burstwr => burstWriteEvents s.img
  | .clkwrite | .set => regWriteEvents 0x8E 0 ++ regWriteEvents 0x90 0 ++ burstWriteEvents (encodeImage s.trec)
  | .halt => regWriteEvents 0x8E 0

/-- Every operation emits its events. -/
theorem Op.result_emits (op : Op) (s : State) : ∃ b v, Emits s (op.events s b v) (op.result s) := by
  cases op with
  | start => exact ⟨0, s.img, startSession_emits s⟩
  | stop => exact ⟨0, s.img, stopSession_emits s⟩
  | wrbyte => exact ⟨0, s.img, writeByte_emits _ _ s⟩
  | rdbyte => exact ⟨_, s.img, (readByte_emits s).retag rfl rfl rfl rfl rfl⟩
  | regrd => exact ⟨_, s.img, regRead_emits _ s⟩
  | regwr => exact ⟨0, s.img, regWrite_emits _ _ s⟩
  | burstrd => exact ⟨0, _, burstRead_emits s⟩
  | burstwr => exact ⟨0, s.img, burstWrite_emits s⟩
  | clkread => exact ⟨0, _, readClock_emits s⟩
  | clkwrite => exact ⟨0, s.img, writeClock_emits s⟩
  | get => exact ⟨0, _, (readClock_emits s).retag (by rw [Op.result]) (by rw [Op.result]) (by rw [Op.result])
      (by rw [Op.result]) (by rw [Op.result])⟩
  | set => exact ⟨0, s.img, writeClock_emits s⟩
  | halt => exact ⟨0, s.img, regWrite_emits _ _ s⟩

/-- An operation leaves what stands outside the block, and its host port but for the response. -/
theorem Op.result_outside (op : Op) (s : State) : (op.result s).seq = s.seq ∧ (op.result s).mark = s.mark ∧
    (op.result s).conv = s.conv ∧ (op.result s).pend = s.pend ∧ (op.result s).peerKind = s.peerKind ∧
    (op.result s).pins = s.pins ∧ (op.result s).present = s.present := by
  cases op <;> simp [Op.result, readClock_spec]

end Sys2Proof.Machine

/-! Proofs of the statements about the transactions and clock access with any peer (spec/42_transactions.md,
spec/44_clock_access.md), and about `START`. -/

namespace Sys2Proof.Machine

/-! ## The reference peer over a single frame that carries a clock burst command (R91, U6) -/

/-- A single read session of the clock burst: the first byte of the snapshot, and nothing changes in the registers. -/
theorem regRead_clockBurst {s : State} (h : Rests s) : (regRead 0xBF s).rdata = s.peer.mem.read 0x80 ∧
    (regRead 0xBF s).peer.mem = s.peer.mem ∧ Rests (regRead 0xBF s) := by
  obtain ⟨hl, hn⟩ := h.listens
  have hk : (startSession s).peerKind = .reference := by rw [startSession_peerKind, h.kind]
  have hcmd : (writeByte 0xBF true (startSession s)).peer = { s.peer with
      act := true, n := 8, f := 0, drv := false, cmd := 0xBF, buf := s.peer.mem.clockImage } := by
    rw [writeByte_reference hk h.lines, peerAfter_command hl hn, if_pos rfl,
      Peer.decodeCommand_burstRead (p := { (startSession s).peer with cmd := 0xBF, n := 8 }) rfl,
      startSession_reference h]
  have hg : Gives (writeByte 0xBF true (startSession s)) true true :=
    ⟨by rw [writeByte_peerKind, hk], by rw [writeByte_pads, h.lines]; rfl, by rw [hcmd], by rw [hcmd]; exact h.lost,
      by rw [hcmd], Peer.cmdRead_burst (by rw [hcmd])⟩
  have hlen : (writeByte 0xBF true (startSession s)).peer.len = 8 := (Peer.burst_facts (.inl (by rw [hcmd]))).2.2.2.2
  obtain ⟨⟨n, -, hpeer⟩, hsr⟩ := readByte_reference hg (j := 0) (by rw [hcmd]) (by rw [hlen]; decide)
  have hstop := stopSession_reference (s := readByte (writeByte 0xBF true (startSession s)))
    (by rw [readByte_peerKind, hg.kind]) (by rw [readByte_pads, hg.pads]; rfl) (by rw [readByte_pads, hg.pads]; rfl)
  rw [hpeer, hcmd, ← regRead_peer] at hstop
  refine ⟨?_, by rw [hstop], by rw [regRead_peerKind, h.kind], by rw [hstop], by rw [hstop]; exact h.lost,
    by rw [regRead_pads], by rw [regRead_pads]⟩
  rw [← regRead_sr, regRead]
  simp only [stopSession_sr]
  rw [hsr, hcmd]
  rfl

/-- A single write session of the clock burst: the peer drops the one byte when `CE` falls. -/
theorem regWrite_clockBurst {s : State} (h : Rests s) (d : Byte) :
    (regWrite 0xBE d s).peer.mem = s.peer.mem ∧ Rests (regWrite 0xBE d s) := by
  obtain ⟨hl, hn⟩ := h.listens
  have hk : (startSession s).peerKind = .reference := by rw [startSession_peerKind, h.kind]
  have hcmd : (writeByte 0xBE false (startSession s)).peer = { s.peer with
      act := true, n := 8, f := 0, drv := false, cmd := 0xBE } := by
    rw [writeByte_reference hk h.lines, peerAfter_command hl hn, if_neg (by decide),
      Peer.decodeCommand_burstWrite (p := { (startSession s).peer with cmd := 0xBE, n := 8 }) rfl, startSession_reference h]
    simp [Peer.fallIfSeen, Peer.fall, Peer.cmdRead, commandIsRead, h.lost]
  have hburst := Peer.burst_facts (p := (writeByte 0xBE false (startSession s)).peer) (.inr (by rw [hcmd]))
  have hkt : (writeByte 0xBE false (startSession s)).peerKind = .reference := by rw [writeByte_peerKind, hk]
  have hpads : (writeByte 0xBE false (startSession s)).pads = linesOut false true := by rw [writeByte_pads, h.lines]; rfl
  have hdata : (writeByte d false (writeByte 0xBE false (startSession s))).peer =
      { (writeByte 0xBE false (startSession s)).peer with
        buf := (writeByte 0xBE false (startSession s)).peer.buf.set 0 d, n := 16 } := by
    rw [writeByte_reference hkt hpads, peerAfter_data (p := (writeByte 0xBE false (startSession s)).peer) (j := 0)
      ⟨by rw [hcmd], by rw [hcmd]; exact h.lost, by rw [hcmd]⟩ (Peer.cmdRead_burstWrite (by rw [hcmd])) (by rw [hcmd])
      (by rw [hburst.2.2.2.2]; decide)]
    refine Peer.commit_early ?_
    show 16 ≠ 8 + 8 * (writeByte 0xBE false (startSession s)).peer.len
    rw [hburst.2.2.2.2]
    decide
  have hstop := stopSession_reference (s := writeByte d false (writeByte 0xBE false (startSession s)))
    (by rw [writeByte_peerKind, hkt]) (by rw [writeByte_pads, hpads]; rfl) (by rw [writeByte_pads, hpads]; rfl)
  rw [hdata, hcmd] at hstop
  have hfin : (regWrite 0xBE d s).peer = _ := hstop
  exact ⟨by rw [hfin], by rw [regWrite_peerKind, h.kind], by rw [hfin], by rw [hfin]; exact h.lost, by rw [regWrite_pads],
    by rw [regWrite_pads]⟩

/-! ## Between sessions, with any peer -/

/-- If the peer is the reference peer, it rests between sessions and has refused nothing. -/
def State.settled (s : State) : Prop := s.peerKind = .reference → Rests s

theorem State.settled_of_calm {s : State} (hr : s.ready) (hc : s.calm) : s.settled := by
  intro hk
  obtain ⟨hinv, hlost⟩ := hc hk
  obtain ⟨-, -, hsess⟩ := hr
  simp only [State.inv, State.peerInStep, hk, hsess, State.closedLines, Bool.and_eq_true, Bool.not_eq_true', beq_iff_eq]
    at hinv
  obtain ⟨⟨⟨-, hact, -⟩, -⟩, ⟨-, hce⟩, hsclk⟩ := hinv
  exact ⟨hk, hact, hlost, hce, hsclk⟩

theorem State.settled.congr {s t : State} (h : s.settled) (hkind : t.peerKind = s.peerKind) (hpeer : t.peer = s.peer)
    (hpads : t.pads = s.pads) : t.settled := by
  intro hk
  obtain ⟨h1, h2, h3, h4, h5⟩ := h (hkind ▸ hk)
  exact ⟨hk, by rw [hpeer]; exact h2, by rw [hpeer]; exact h3, by rw [hpads]; exact h4, by rw [hpads]; exact h5⟩

/-- A settled peer goes on. -/
theorem State.settled.goesOn {s : State} (h : s.settled) : peerRefusal s.peerKind s.peer = none := by
  by_cases hk : s.peerKind = .reference
  · rw [hk]
    exact (h hk).lost
  · exact peerRefusal_of_ne hk _

/-- The reference peer knows the command byte (R93). -/
def State.knows (s : State) (c : Byte) : Prop :=
  s.peerKind = .reference → isRegKey (writeCommand c).toNat = true ∨ writeCommand c = 0xBE

theorem read_of_writeCommand_BE : ∀ c : Byte, writeCommand c = 0xBE → commandIsRead c = true → c = 0xBF := by
  decide +kernel

theorem regRead_settled {s : State} (h : s.settled) {c : Byte} (hc : s.knows c) (hr : commandIsRead c = true) :
    (regRead c s).settled := by
  intro hk
  rw [regRead_peerKind] at hk
  rcases hc hk with hreg | hburst
  · exact (regRead_reference (h hk) hreg hr).2.2
  · rw [read_of_writeCommand_BE c hburst hr]
    exact (regRead_clockBurst (h hk)).2.2

theorem regWrite_settled {s : State} (h : s.settled) {c : Byte} (hc : s.knows c) (hw : commandIsRead c = false)
    (d : Byte) : (regWrite c d s).settled := by
  intro hk
  rw [regWrite_peerKind] at hk
  rcases hc hk with hreg | hburst
  · exact (regWrite_reference (h hk) hreg hw d).2
  · rw [writeCommand_of_write c hw] at hburst
    rw [hburst]
    exact (regWrite_clockBurst (h hk) d).2

theorem burstRead_settled {s : State} (h : s.settled) : (burstRead s).settled := by
  intro hk
  rw [burstRead_peerKind] at hk
  exact (burstRead_reference (h hk)).2.2

theorem burstWrite_settled {s : State} (h : s.settled) : (burstWrite s).settled := by
  intro hk
  rw [burstWrite_peerKind] at hk
  exact (burstWrite_reference (h hk)).2

theorem readClock_settled {s : State} (h : s.settled) : (readClock s).settled :=
  (burstRead_settled h).congr (by rw [readClock]) (readClock_peer s) (by rw [readClock])

theorem writeClock_settled {s : State} (h : s.settled) : (writeClock s).settled := by
  have h1 := regWrite_settled h (c := wpWriteCommand) (fun _ => .inl (by decide)) (by decide) 0
  have h2 := regWrite_settled h1 (c := tcsWriteCommand) (fun _ => .inl (by decide)) (by decide) 0
  have h3 : (latchImage (encodeImage s.trec) (regWrite tcsWriteCommand 0 (regWrite wpWriteCommand 0 s))).settled :=
    h2.congr (latchImage_peerKind _ _) (latchImage_peer _ _) (latchImage_pads _ _)
  exact (burstWrite_settled h3).congr (by simp) (writeClock_peer s) (by simp)

/-! ## START -/

/-- `START` gives a settled peer no reason to refuse: the clock is low when `CE` rises (R91, R161). -/
theorem startSession_goesOn {s : State} (h : s.settled) : peerRefusal s.peerKind (startSession s).peer = none := by
  by_cases hk : s.peerKind = .reference
  · rw [startSession_reference (h hk), hk]
    exact (h hk).lost
  · exact peerRefusal_of_ne hk _

/-- Settles O21: X1, X2, X4 are the precondition, and a calm peer goes on. -/
theorem startOpensASession : Obligations.StartOpensASession := by
  unfold Obligations.StartOpensASession
  intro s hready hcalm
  refine ⟨(startSession s).peer, (exec_next (i := .start) rfl).2 ⟨preSession_none.2 hready,
    startSession_goesOn (State.settled_of_calm hready hcalm), ?_⟩⟩
  show _ = { startSession s with rspValid := true }
  ext1 <;> simp [startEvents]

/-! ## Event counts of the frames (R171, R198) -/

@[simp] theorem startEvents_length : startEvents.length = 6 := rfl
@[simp] theorem stopEvents_length : stopEvents.length = 2 := rfl

@[simp] theorem writeByteEvents_length (d : Byte) (r : Bool) : (writeByteEvents d r).length = if r then 47 else 48 := by
  cases r <;> rfl

@[simp] theorem readByteEvents_length (b : Byte) : (readByteEvents b).length = 40 := rfl

@[simp] theorem regReadEvents_length (c b : Byte) : (regReadEvents c b).length = 95 := by simp [regReadEvents]

@[simp] theorem regWriteEvents_length (c d : Byte) : (regWriteEvents c d).length = 104 := by simp [regWriteEvents]

@[simp] theorem burstReadEvents_length (v : Image) : (burstReadEvents v).length = 375 := by
  simp [burstReadEvents, Image.toList]

@[simp] theorem burstWriteEvents_length (v : Image) : (burstWriteEvents v).length = 440 := by
  simp [burstWriteEvents, Image.toList]

/-! ## The frames -/

theorem readCommand_bit7 : ∀ x : Byte, (readCommand x).getLsbD 7 = x.getLsbD 7 := by decide +kernel

theorem State.serves.knows {s : State} {x c : Byte} (h : s.serves x) (hc : writeCommand c = writeCommand x) :
    s.knows c := by
  intro hk
  rw [hc]
  exact h.2 hk

/-- Settles O28: the peer that serves the byte is settled, before the session and after it. -/
theorem regrdReadsOneRegister : Obligations.RegrdReadsOneRegister := by
  unfold Obligations.RegrdReadsOneRegister
  intro x s hready hserves
  have hsettled : (latchAddr x s).settled := State.settled_of_calm hready hserves.1
  have hknows : (latchAddr x s).knows (readCommand x) := State.serves.knows hserves (writeCommand_readCommand x)
  refine ⟨(regRead (readCommand x) (latchAddr x s)).rdata, (regRead (readCommand x) (latchAddr x s)).peer,
    regReadEvents_length _ _, ?_⟩
  rw [exec_regrd, guarded_next]
  refine ⟨preSession_none.2 hready, ?_, ?_⟩
  · rw [← latchAddr_peerKind x s, ← regRead_peerKind (readCommand x)]
    exact (regRead_settled hsettled hknows (commandIsRead_readCommand x)).goesOn
  · rw [← readCommand_bit7, ← readCommand, regRead_spec (readCommand x) (latchAddr x s)]
    simp [hready.2.2]

/-- Settles O29, as O28 with a data byte out in place of the byte in. -/
theorem regwrWritesOneRegister : Obligations.RegwrWritesOneRegister := by
  unfold Obligations.RegwrWritesOneRegister
  intro x d s hready hserves
  have hsettled : (latchData d (latchAddr x s)).settled := State.settled_of_calm hready hserves.1
  have hknows : (latchData d (latchAddr x s)).knows (writeCommand x) :=
    State.serves.knows hserves (writeCommand_writeCommand x)
  refine ⟨(regWrite (writeCommand x) d (latchData d (latchAddr x s))).peer, regWriteEvents_length _ _, ?_⟩
  rw [exec_regwr, guarded_next]
  refine ⟨preSession_none.2 hready, ?_, ?_⟩
  · rw [← latchAddr_peerKind x s, ← latchData_peerKind d, ← regWrite_peerKind (writeCommand x) d]
    exact (regWrite_settled hsettled hknows (commandIsRead_writeCommand x) d).goesOn
  · rw [← writeCommand, regWrite_spec (writeCommand x) d (latchData d (latchAddr x s))]
    simp [hready.2.2]

/-- Settles O39: a read row is `REGRD` of its command byte, whose direction bit is set already. -/
theorem readRowsRunTheirFrame : Obligations.ReadRowsRunTheirFrame := by
  unfold Obligations.ReadRowsRunTheirFrame
  intro i c s hrow hready hserves
  have row := readRow_of_singleRead hrow
  obtain ⟨b, p, -, h⟩ := regrdReadsOneRegister c s hready hserves
  have hc : c ||| 1 = c := readCommand_of_read c row.isRead
  rw [hc] at h
  exact ⟨b, p, (row.exec_regrd s).trans h⟩

/-- Settles O40: a write row is `REGWR` of its command byte, whose direction bit is clear already. -/
theorem writeRowsRunTheirFrame : Obligations.WriteRowsRunTheirFrame := by
  unfold Obligations.WriteRowsRunTheirFrame
  intro i c d s hrow hready hserves
  have row := writeRow_of_singleWrite hrow
  obtain ⟨p, -, h⟩ := regwrWritesOneRegister c d s hready hserves
  have hc : c &&& 0xFE = c := writeCommand_of_write c row.isWrite
  rw [hc] at h
  exact ⟨p, (row.exec_regwr s).trans h⟩

theorem exec_burstRead {i : Instr} (h : i = .burstrd ∨ i = .clkBurstRd) (s : State) :
    exec i s = guarded s (preSession s) (burstRead s) := by
  rcases h with rfl | rfl <;> rfl

theorem exec_burstWrite {i : Instr} {v : Image} (h : i = .burstwr v ∨ i = .clkBurstWr v) (s : State) :
    exec i s = guarded s (preSession s) (burstWrite (latchImage v s)) := by
  rcases h with rfl | rfl <;> rfl

/-- Settles O30: both are the burst read of a settled peer. -/
theorem burstrdReadsTheImage : Obligations.BurstrdReadsTheImage := by
  unfold Obligations.BurstrdReadsTheImage
  intro i s hi hready hcalm
  refine ⟨(burstRead s).img, (burstRead s).peer, burstReadEvents_length _, ?_⟩
  rw [exec_burstRead hi, guarded_next]
  refine ⟨preSession_none.2 hready, ?_, ?_⟩
  · rw [← burstRead_peerKind s]
    exact (burstRead_settled (State.settled_of_calm hready hcalm)).goesOn
  · rw [burstRead_spec s]
    simp [hready.2.2]

/-- Settles O31: both are the burst write, to a settled peer, of the operand latched in the image buffer. -/
theorem burstwrWritesTheImage : Obligations.BurstwrWritesTheImage := by
  unfold Obligations.BurstwrWritesTheImage
  intro i v s hi hready hcalm
  have hsettled : (latchImage v s).settled := State.settled_of_calm hready hcalm
  refine ⟨(burstWrite (latchImage v s)).peer, burstWriteEvents_length v, ?_⟩
  rw [exec_burstWrite hi, guarded_next]
  refine ⟨preSession_none.2 hready, ?_, ?_⟩
  · rw [← latchImage_peerKind v s, ← burstWrite_peerKind]
    exact (burstWrite_settled hsettled).goesOn
  · rw [burstWrite_spec (latchImage v s)]
    simp [latchImage, hready.2.2]

/-! ## Clock access -/

/-! What the common part of `CLKREAD` and `GET` leaves unchanged. -/

@[simp] theorem readClock_pins (s : State) : (readClock s).pins = s.pins := by simp [readClock]
@[simp] theorem readClock_present (s : State) : (readClock s).present = s.present := by simp [readClock]
@[simp] theorem readClock_sess (s : State) : (readClock s).sess = .closed := by simp [readClock]
@[simp] theorem readClock_seq (s : State) : (readClock s).seq = s.seq := by simp [readClock]
@[simp] theorem readClock_mark (s : State) : (readClock s).mark = s.mark := by simp [readClock]
@[simp] theorem readClock_pend (s : State) : (readClock s).pend = s.pend := by simp [readClock]
@[simp] theorem readClock_peerKind (s : State) : (readClock s).peerKind = s.peerKind := by simp [readClock]
@[simp] theorem readClock_addr (s : State) : (readClock s).addr = s.addr := by simp [readClock]
@[simp] theorem readClock_wdata (s : State) : (readClock s).wdata = s.wdata := by simp [readClock]
@[simp] theorem readClock_rdata (s : State) : (readClock s).rdata = s.rdata := by simp [readClock]
@[simp] theorem readClock_lin (s : State) : (readClock s).lin = s.lin := by simp [readClock]
@[simp] theorem readClock_conv (s : State) : (readClock s).conv = s.conv := by simp [readClock]

theorem readClock_trec (s : State) : (readClock s).trec = decodeImage (burstRead s).img := by rw [readClock]

theorem linOfTr_congr {s t : State} (h : t.conv = s.conv) (r : TRec) : linOfTr t r = linOfTr s r := by
  rw [linOfTr, linOfTr, h]

theorem exec_get (s : State) : exec .get s =
    guarded s (preSession s) { readClock s with lin := linOfTr (readClock s) (readClock s).trec } := rfl

/-- Settles O32: `CLKREAD` and `GET` run the same burst read, so one image serves both. -/
theorem clkreadAndGetDecodeTheImage : Obligations.ClkreadAndGetDecodeTheImage := by
  unfold Obligations.ClkreadAndGetDecodeTheImage
  intro s hready hcalm
  have hpre : preSession s = none := preSession_none.2 hready
  have hgo : peerRefusal s.peerKind (readClock s).peer = none := by
    rw [← readClock_peerKind s]
    exact (readClock_settled (State.settled_of_calm hready hcalm)).goesOn
  refine ⟨(burstRead s).img, (burstRead s).peer, ?_, ?_⟩
  · refine (exec_next (i := .clkread) rfl).2 ⟨hpre, hgo, ?_⟩
    show _ = { readClock s with rspValid := true }
    rw [readClock_spec s]
    simp [hready.2.2]
  · rw [exec_get, guarded_next]
    refine ⟨hpre, by dsimp only; exact hgo, ?_⟩
    rw [linOfTr_congr (readClock_conv s), readClock_trec, readClock_spec s]
    simp [hready.2.2]

theorem encodeImage_b7 (r : TRec) : (encodeImage r).b7 = 0 := rfl

/-- Settles O33: the three sessions are those of the common part of `CLKWRITE` and `SET`. -/
theorem clkwriteForcesTwoRegistersThenBursts : Obligations.ClkwriteForcesTwoRegistersThenBursts := by
  unfold Obligations.ClkwriteForcesTwoRegistersThenBursts
  intro r s hready hcalm hrange
  have hsettled : (latchTRec r s).settled := State.settled_of_calm hready hcalm
  refine ⟨(writeClock (latchTRec r s)).peer, (exec_next (i := .clkwrite r) rfl).2
    ⟨preClkwrite_none.2 ⟨hready, hrange⟩, ?_, ?_⟩⟩
  · rw [← latchTRec_peerKind r s, ← writeClock_peerKind]
    exact (writeClock_settled hsettled).goesOn
  · show _ = { writeClock (latchTRec r s) with rspValid := true }
    rw [writeClock_spec (latchTRec r s)]
    simp [latchTRec, encodeImage_b7, hready.2.2]

/-- Settles O34: `SET` is `CLKWRITE` of the converted time, with the operand in `lin`. -/
theorem setWritesTheConvertedTime : Obligations.SetWritesTheConvertedTime := by
  unfold Obligations.SetWritesTheConvertedTime
  intro l s hready hcalm hrange
  have hsettled : (latchTRec (trOfLin s l) (latchLin l s)).settled := State.settled_of_calm hready hcalm
  refine ⟨(writeClock (latchTRec (trOfLin s l) (latchLin l s))).peer, (exec_next (i := .set l) rfl).2
    ⟨preClkwrite_none.2 ⟨hready, hrange⟩, ?_, ?_⟩⟩
  · rw [← latchLin_peerKind l s, ← latchTRec_peerKind (trOfLin s l), ← writeClock_peerKind]
    exact (writeClock_settled hsettled).goesOn
  · show _ = { writeClock (latchTRec (trOfLin s l) (latchLin l s)) with rspValid := true }
    rw [writeClock_spec (latchTRec (trOfLin s l) (latchLin l s))]
    simp [latchTRec, latchLin, encodeImage_b7, hready.2.2]

/-- Settles O35: the frame is the single write of 0 to the enable/write-protect register. -/
theorem haltOnlyClearsWriteProtect : Obligations.HaltOnlyClearsWriteProtect := by
  unfold Obligations.HaltOnlyClearsWriteProtect
  intro s hready hcalm
  have hsettled := State.settled_of_calm hready hcalm
  refine ⟨(regWrite wpWriteCommand 0 s).peer, (exec_next (i := .halt) rfl).2 ⟨preSession_none.2 hready, ?_, ?_⟩⟩
  · rw [← regWrite_peerKind wpWriteCommand 0 s]
    exact (regWrite_settled hsettled (fun _ => .inl (by decide)) (by decide) 0).goesOn
  · show _ = { regWrite wpWriteCommand 0 s with rspValid := true }
    rw [regWrite_spec wpWriteCommand 0 s]
    simp [wpWriteCommand, hready.2.2]

end Sys2Proof.Machine

/-! Proofs of the statements about what every operation does and leaves unchanged (spec/10_state.md), about its events and
about refusals (spec/60_exceptions.md). -/

namespace Sys2Proof.Machine

/-! ## The operand latches -/

theorem latchOperands_present (i : Instr) (s : State) : (latchOperands i s).present = s.present := by
  rw [latchOperands_fields]
theorem latchOperands_seq (i : Instr) (s : State) : (latchOperands i s).seq = s.seq := by rw [latchOperands_fields]
theorem latchOperands_sess (i : Instr) (s : State) : (latchOperands i s).sess = s.sess := by rw [latchOperands_fields]
theorem latchOperands_hist (i : Instr) (s : State) : (latchOperands i s).hist = s.hist := by rw [latchOperands_fields]
theorem latchOperands_pads (i : Instr) (s : State) : (latchOperands i s).pads = s.pads := by rw [latchOperands_fields]
theorem latchOperands_peer (i : Instr) (s : State) : (latchOperands i s).peer = s.peer := by rw [latchOperands_fields]
theorem latchOperands_peerKind (i : Instr) (s : State) : (latchOperands i s).peerKind = s.peerKind := by
  rw [latchOperands_fields]
theorem latchOperands_ev (i : Instr) (s : State) : (latchOperands i s).ev = s.ev := by rw [latchOperands_fields]
theorem latchOperands_draws (i : Instr) (s : State) : (latchOperands i s).draws = s.draws := by rw [latchOperands_fields]
theorem latchOperands_mark (i : Instr) (s : State) : (latchOperands i s).mark = s.mark := by rw [latchOperands_fields]
theorem latchOperands_conv (i : Instr) (s : State) : (latchOperands i s).conv = s.conv := by rw [latchOperands_fields]
theorem latchOperands_pend (i : Instr) (s : State) : (latchOperands i s).pend = s.pend := by rw [latchOperands_fields]
theorem latchOperands_pins (i : Instr) (s : State) : (latchOperands i s).pins = s.pins := by rw [latchOperands_fields]

/-! What each host operation latches (R29). -/

@[simp] theorem latchOperands_start (s : State) : latchOperands .start s = s := (rfl)
@[simp] theorem latchOperands_stop (s : State) : latchOperands .stop s = s := (rfl)
@[simp] theorem latchOperands_wrbyte (d : Byte) (r : Bool) (s : State) :
    latchOperands (.wrbyte d r) s = latchData d (latchRel r s) := (rfl)
@[simp] theorem latchOperands_rdbyte (s : State) : latchOperands .rdbyte s = s := (rfl)
@[simp] theorem latchOperands_regrd (x : Byte) (s : State) : latchOperands (.regrd x) s = latchAddr x s := (rfl)
@[simp] theorem latchOperands_regwr (x d : Byte) (s : State) :
    latchOperands (.regwr x d) s = latchData d (latchAddr x s) := (rfl)
@[simp] theorem latchOperands_burstrd (s : State) : latchOperands .burstrd s = s := (rfl)
@[simp] theorem latchOperands_burstwr (v : Image) (s : State) : latchOperands (.burstwr v) s = latchImage v s := (rfl)
@[simp] theorem latchOperands_clkread (s : State) : latchOperands .clkread s = s := (rfl)
@[simp] theorem latchOperands_clkwrite (t : TRec) (s : State) : latchOperands (.clkwrite t) s = latchTRec t s := (rfl)
@[simp] theorem latchOperands_get (s : State) : latchOperands .get s = s := (rfl)
@[simp] theorem latchOperands_set (l : Nat) (s : State) :
    latchOperands (.set l) s = latchTRec (trOfLin s l) (latchLin l s) := (rfl)
@[simp] theorem latchOperands_halt (s : State) : latchOperands .halt s = s := (rfl)
@[simp] theorem latchOperands_clkBurstWr (v : Image) (s : State) :
    latchOperands (.clkBurstWr v) s = latchImage v s := (rfl)
@[simp] theorem latchOperands_clkBurstRd (s : State) : latchOperands .clkBurstRd s = s := (rfl)

/-- The latches do not take part in what stands outside the block. -/
theorem latchOperands_with_peer (i : Instr) (s : State) (k : PeerKind) (p : Peer) (n : Nat) :
    latchOperands i { s with peerKind := k, peer := p, draws := n } =
      { latchOperands i s with peerKind := k, peer := p, draws := n } := by
  cases i with
  | cmdBit7Clear x d =>
    cases hx : x.getLsbD 0
    · rw [(writeRow_cmdBit7Clear d hx).latch, (writeRow_cmdBit7Clear d hx).latch]; rfl
    · rw [(readRow_cmdBit7Clear d hx).latch, (readRow_cmdBit7Clear d hx).latch]; rfl
  | _ => rfl

/-! ## The forms of an instruction -/

/-- The host operations and the rows of R102, the rows of one data byte taken together. -/
inductive Form : Instr → Prop
  | bind (p : Pins) : Form (.bind p)
  | start : Form .start
  | stop : Form .stop
  | wrbyte (d : Byte) (r : Bool) : Form (.wrbyte d r)
  | rdbyte : Form .rdbyte
  | regrd (x : Byte) : Form (.regrd x)
  | regwr (x d : Byte) : Form (.regwr x d)
  | burstrd : Form .burstrd
  | burstwr (v : Image) : Form (.burstwr v)
  | clkread : Form .clkread
  | clkwrite (t : TRec) : Form (.clkwrite t)
  | get : Form .get
  | set (l : Nat) : Form (.set l)
  | halt : Form .halt
  | present : Form .present
  | reservedOp : Form .reservedOp
  | clkBurstWr (v : Image) : Form (.clkBurstWr v)
  | clkBurstRd : Form .clkBurstRd
  | readRow {i : Instr} {c : Byte} (h : singleRead i = some c) : Form i
  | writeRow {i : Instr} {c d : Byte} (h : singleWrite i = some (c, d)) : Form i

theorem Form.of (i : Instr) : Form i := by
  cases i with
  | cmdBit7Clear x d =>
    cases hx : x.getLsbD 0
    · exact .writeRow (by rw [singleWrite, hx]; rfl)
    · exact .readRow (by rw [singleRead, hx]; rfl)
  | secRd | minRd | hourRd | dateRd | monthRd | wdayRd | yearRd | wpRd | tcsRd | ramBurstRd | ramRd | clkUnassignedRd =>
    exact .readRow rfl
  | secWr | minWr | hourWr | dateWr | monthWr | wdayWr | yearWr | wpWr | tcsWr | ramBurstWr | ramWr | clkUnassignedWr =>
    exact .writeRow rfl
  | bind p => exact .bind p
  | start => exact .start
  | stop => exact .stop
  | wrbyte d r => exact .wrbyte d r
  | rdbyte => exact .rdbyte
  | regrd x => exact .regrd x
  | regwr x d => exact .regwr x d
  | burstrd => exact .burstrd
  | burstwr v => exact .burstwr v
  | clkread => exact .clkread
  | clkwrite t => exact .clkwrite t
  | get => exact .get
  | set l => exact .set l
  | halt => exact .halt
  | present => exact .present
  | reservedOp => exact .reservedOp
  | clkBurstWr v => exact .clkBurstWr v
  | clkBurstRd => exact .clkBurstRd

/-- `WRBYTE` alone runs the operation `WRBYTE`, and latches its release operand. -/
theorem rel_of_wrbyte {i : Instr} (h : opOf i = some .wrbyte) (s : State) : (latchOperands i s).rel = relOf i := by
  cases Form.of i with
  | wrbyte d r => rfl
  | readRow hr => cases (readRow_of_singleRead hr).op.symm.trans h
  | writeRow hw => cases (writeRow_of_singleWrite hw).op.symm.trans h
  | _ => cases h

/-! ## What operations leave unchanged -/

/-- What an instruction answers when it completes, for the forms with line events. -/
theorem exec_next_result {i : Instr} {op : Op} (h : opOf i = some op) {s t : State} (ht : exec i s = .next t) :
    t = { op.result (latchOperands i s) with rspValid := true } := ((exec_next h).1 ht).2.2

/-- No instruction writes what stands outside the block, the sequencer or the mark. -/
theorem exec_outside {i : Instr} {s t : State} (ht : exec i s = .next t) : t.seq = s.seq ∧ t.mark = s.mark ∧
    t.conv = s.conv ∧ t.pend = s.pend ∧ t.peerKind = s.peerKind := by
  cases hop : opOf i with
  | none =>
    obtain ⟨p, rfl⟩ | rfl | rfl := opOf_none hop
    · rw [(exec_bind_next.1 ht).2]; exact ⟨rfl, rfl, rfl, rfl, rfl⟩
    · rw [(exec_present_next.1 ht).2]; exact ⟨rfl, rfl, rfl, rfl, rfl⟩
    · rw [(exec_reservedOp_next.1 ht).2]; exact ⟨rfl, rfl, rfl, rfl, rfl⟩
  | some op =>
    rw [exec_next_result hop ht]
    obtain ⟨h1, h2, h3, h4, h5, -⟩ := op.result_outside (latchOperands i s)
    exact ⟨h1.trans (latchOperands_seq i s), h2.trans (latchOperands_mark i s), h3.trans (latchOperands_conv i s),
      h4.trans (latchOperands_pend i s), h5.trans (latchOperands_peerKind i s)⟩

/-- Settles O12: one case for each form of instruction, whose result names the registers that it writes. -/
theorem registersChangeOnlyByTheirOperations : Obligations.RegistersChangeOnlyByTheirOperations := by
  unfold Obligations.RegistersChangeOnlyByTheirOperations
  intro i s t ht
  obtain ⟨hseq, hmark, hconv, hpend, hkind⟩ := exec_outside ht
  refine ⟨hseq, hmark, hconv, hpend, hkind, ?_⟩
  cases Form.of i with
  | bind p => rw [(exec_bind_next.1 ht).2]; simp
  | present => rw [(exec_present_next.1 ht).2]; simp
  | reservedOp => rw [(exec_reservedOp_next.1 ht).2]; simp
  | readRow hr =>
    have row := readRow_of_singleRead hr
    rw [exec_next_result row.op ht, row.latch]
    simp [Op.result, hr]
  | writeRow hw =>
    have row := writeRow_of_singleWrite hw
    rw [exec_next_result row.op ht, row.latch]
    simp [Op.result, hw]
  | start | stop | wrbyte | rdbyte | regrd | regwr | burstrd | burstwr | clkread | clkwrite | get | set | halt
  | clkBurstWr | clkBurstRd =>
    rw [exec_next_result rfl ht]
    simp [Op.result]

/-! ## Events -/

theorem Op.events_length (op : Op) (s : State) (b : Byte) (v : Image) :
    (op.events s b v).length = eventCount op s.rel := by
  cases op <;> simp [Op.events, eventCount]

theorem eventCount_of_ne {op : Op} (h : op ≠ .wrbyte) (r r' : Bool) : eventCount op r = eventCount op r' := by
  cases op <;> first
    | rfl
    | exact absurd rfl h

theorem eventCount_latched {i : Instr} {op : Op} (h : opOf i = some op) (s : State) :
    eventCount op (latchOperands i s).rel = eventCount op (relOf i) := by
  by_cases hw : op = .wrbyte
  · rw [rel_of_wrbyte (hw ▸ h)]
  · exact eventCount_of_ne hw _ _

/-- The events of an instruction that completes are those of its operation. -/
theorem exec_emits {i : Instr} {op : Op} (h : opOf i = some op) {s t : State} (ht : exec i s = .next t) :
    ∃ b v, Emits s (op.events (latchOperands i s) b v) t := by
  obtain ⟨b, v, hem⟩ := op.result_emits (latchOperands i s)
  rw [exec_next_result h ht]
  exact ⟨b, v, (hem.retagFrom (latchOperands_ev i s) (latchOperands_pads i s) (latchOperands_draws i s)
    (latchOperands_peerKind i s) (latchOperands_peer i s)).retag rfl rfl rfl rfl rfl⟩

/-- An instruction without line events adds nothing to the trace and moves no line. -/
theorem exec_quiet {i : Instr} (h : opOf i = none) {s t : State} (ht : exec i s = .next t) :
    t.ev = s.ev ∧ t.pads = s.pads ∧ t.sess = s.sess ∧ t.peer = s.peer := by
  obtain ⟨p, rfl⟩ | rfl | rfl := opOf_none h
  · rw [(exec_bind_next.1 ht).2]; exact ⟨rfl, rfl, rfl, rfl⟩
  · rw [(exec_present_next.1 ht).2]; exact ⟨rfl, rfl, rfl, rfl⟩
  · rw [(exec_reservedOp_next.1 ht).2]; exact ⟨rfl, rfl, rfl, rfl⟩

/-- Settles O14: the operation's events are those of its name and operands, whatever it reads. -/
theorem eventCountIsFixedByTheOperation : Obligations.EventCountIsFixedByTheOperation := by
  unfold Obligations.EventCountIsFixedByTheOperation
  intro i s t ht
  cases hop : opOf i with
  | none => exact ⟨[], by rw [(exec_quiet hop ht).1, List.append_nil], rfl⟩
  | some op =>
    obtain ⟨b, v, hem⟩ := exec_emits hop ht
    exact ⟨_, hem.ev, (op.events_length _ b v).trans (eventCount_latched hop s)⟩

/-! ## The sampled bits take no part -/

theorem onPads_blind (e : Event) (pd : Pads) : e.blind.onPads pd = e.onPads pd := by
  cases e <;> rfl

theorem padsAfter_blind (es : List Event) (pd : Pads) : padsAfter (es.map Event.blind) pd = padsAfter es pd := by
  induction es generalizing pd with
  | nil => rfl
  | cons e es ih => rw [List.map_cons, padsAfter, onPads_blind, ih]; rfl

theorem readByteEvents_blind (b : Byte) : (readByteEvents b).map Event.blind = readByteEvents 0 := rfl

theorem regReadEvents_blind (c b b' : Byte) :
    (regReadEvents c b).map Event.blind = (regReadEvents c b').map Event.blind := by
  simp [regReadEvents, readByteEvents_blind]

theorem burstReadEvents_blind (v w : Image) :
    (burstReadEvents v).map Event.blind = (burstReadEvents w).map Event.blind := by
  simp [burstReadEvents, Image.toList, readByteEvents_blind]

/-- What an operation reads shows in its samples alone (R172). -/
theorem Op.events_blind (op : Op) (s : State) (b b' : Byte) (v v' : Image) :
    (op.events s b v).map Event.blind = (op.events s b' v').map Event.blind := by
  cases op with
  | rdbyte => exact (readByteEvents_blind b).trans (readByteEvents_blind b').symm
  | regrd => exact regReadEvents_blind _ b b'
  | burstrd | clkread | get => exact burstReadEvents_blind v v'
  | _ => rfl

theorem Op.events_with_peer (op : Op) (s : State) (b : Byte) (v : Image) (k : PeerKind) (p : Peer) (n : Nat) :
    op.events { s with peerKind := k, peer := p, draws := n } b v = op.events s b v := by
  cases op <;> rfl

/-- The session after an operation. -/
def Op.sessAfter (op : Op) (x : Sess) : Sess :=
  match op with
  | .start => .opened
  | .wrbyte | .rdbyte => x
  | .stop | .regrd | .regwr | .burstrd | .burstwr | .clkread | .clkwrite | .get | .set | .halt => .closed

theorem Op.result_sess (op : Op) (s : State) : (op.result s).sess = op.sessAfter s.sess := by
  cases op <;> simp [Op.result, Op.sessAfter]

/-- Settles O15: events, lines and session are given by the operation and its operands but for the samples. -/
theorem eventsDoNotDependOnThePeer : Obligations.EventsDoNotDependOnThePeer := by
  unfold Obligations.EventsDoNotDependOnThePeer
  intro i s t t' k p n ht ht'
  cases hop : opOf i with
  | none =>
    obtain ⟨hev, hpads, hsess, -⟩ := exec_quiet hop ht
    obtain ⟨hev', hpads', hsess', -⟩ := exec_quiet hop ht'
    exact ⟨by rw [hev, hev'], hpads'.trans hpads.symm, hsess'.trans hsess.symm⟩
  | some op =>
    obtain ⟨b, v, hem⟩ := exec_emits hop ht
    obtain ⟨b', v', hem'⟩ := exec_emits hop ht'
    rw [latchOperands_with_peer, Op.events_with_peer] at hem'
    have hblind := op.events_blind (latchOperands i s) b' b v' v
    refine ⟨?_, ?_, ?_⟩
    · rw [hem.ev, hem'.ev, List.map_append, List.map_append, hblind]
    · rw [hem.pads, hem'.pads, ← padsAfter_blind, hblind, padsAfter_blind]
    · rw [exec_next_result hop ht, exec_next_result hop ht', latchOperands_with_peer]
      exact (op.result_sess { latchOperands i s with peerKind := k, peer := p, draws := n }).trans
        (op.result_sess (latchOperands i s)).symm

/-! ## The drives of CE -/

/-- The event drives `CE`. -/
def Event.drivesCe (e : Event) : Bool := e == .drv .ce true || e == .drv .ce false

/-- One session as the drives of `CE` show it. -/
def sessionDrives : List Event := [.drv .ce false, .drv .ce true, .drv .ce false]

theorem writeByteEvents_drivesCe (d : Byte) (r : Bool) : (writeByteEvents d r).filter Event.drivesCe = [] := by
  rw [List.filter_eq_nil_iff]
  intro e he
  simp only [writeByteEvents, bitOrder, writeBitEvents, List.mem_flatMap, List.mem_append] at he
  obtain ⟨i, -, he | he⟩ := he
  · simp only [List.mem_cons, List.not_mem_nil, or_false] at he
    rcases he with rfl | rfl | rfl | rfl <;> simp [Event.drivesCe]
  · split at he <;> simp only [List.mem_cons, List.not_mem_nil, or_false] at he
    · subst he; simp [Event.drivesCe]
    · rcases he with rfl | rfl <;> simp [Event.drivesCe]

theorem readByteEvents_drivesCe (b : Byte) : (readByteEvents b).filter Event.drivesCe = [] := by
  simp [readByteEvents, bitOrder, readBitEvents, Event.drivesCe]

theorem regReadEvents_drivesCe (c b : Byte) : (regReadEvents c b).filter Event.drivesCe = sessionDrives := by
  simp only [regReadEvents, List.filter_append, writeByteEvents_drivesCe, readByteEvents_drivesCe]
  rfl

theorem regWriteEvents_drivesCe (c d : Byte) : (regWriteEvents c d).filter Event.drivesCe = sessionDrives := by
  simp only [regWriteEvents, List.filter_append, writeByteEvents_drivesCe]
  rfl

theorem filter_flatMap_nil {l : List Byte} {f : Byte → List Event} (h : ∀ b, (f b).filter Event.drivesCe = []) :
    (l.flatMap f).filter Event.drivesCe = [] := by
  simp [List.filter_flatMap, h]

theorem burstReadEvents_drivesCe (v : Image) : (burstReadEvents v).filter Event.drivesCe = sessionDrives := by
  simp only [burstReadEvents, List.filter_append, writeByteEvents_drivesCe, filter_flatMap_nil readByteEvents_drivesCe]
  rfl

theorem burstWriteEvents_drivesCe (v : Image) : (burstWriteEvents v).filter Event.drivesCe = sessionDrives := by
  simp only [burstWriteEvents, List.filter_append, writeByteEvents_drivesCe,
    filter_flatMap_nil fun b => writeByteEvents_drivesCe b false]
  rfl

/-- Settles O55: every frame drives `CE` low, high, low, and the operations are one frame or three. -/
theorem sessionsDoNotOverlap : Obligations.SessionsDoNotOverlap := by
  unfold Obligations.SessionsDoNotOverlap
  intro i op s t es hop hstart hstop hwrbyte hrdbyte ht hev
  obtain ⟨b, v, hem⟩ := exec_emits hop ht
  rw [← hem.events_unique hev]
  show (op.events (latchOperands i s) b v).filter Event.drivesCe =
    (List.replicate (if op = .clkwrite ∨ op = .set then 3 else 1) sessionDrives).flatten
  cases op with
  | start => exact absurd rfl hstart
  | stop => exact absurd rfl hstop
  | wrbyte => exact absurd rfl hwrbyte
  | rdbyte => exact absurd rfl hrdbyte
  | regrd => exact regReadEvents_drivesCe _ _
  | regwr => exact regWriteEvents_drivesCe _ _
  | halt => exact regWriteEvents_drivesCe _ _
  | burstrd | clkread | get => exact burstReadEvents_drivesCe _
  | burstwr => exact burstWriteEvents_drivesCe _
  | clkwrite | set =>
    simp only [Op.events, List.filter_append, regWriteEvents_drivesCe, burstWriteEvents_drivesCe]
    rfl

end Sys2Proof.Machine

/-! Proofs of the statements about refusals (spec/60_exceptions.md), about a step (spec/10_state.md), about reset
(spec/70_reset_and_hazards.md) and about line events (spec/40_line_primitives.md). -/

namespace Sys2Proof.Machine

/-! ## Refusals -/

theorem guarded_of_some {s t : State} {pre : Option Refusal} {r : Refusal} (h : pre = some r) :
    guarded s pre t = .refused r := by rw [h, guarded]

theorem exec_refused {i : Instr} {op : Op} (h : opOf i = some op) {s : State} {r : Refusal}
    (hpre : op.pre (latchOperands i s) = some r) : exec i s = .refused r := by
  rw [exec_of_opOf h, guarded_of_some hpre]

/-- X1, the first precondition of every operation with line events. -/
theorem Op.pre_notBound (op : Op) {s : State} (h : s.present = false) : op.pre s = some .notBound := by
  cases op <;> simp [Op.pre, preSession, preStop, preWrbyte, preRdbyte, preClkwrite, firstRefusal, needsBound, h]

/-- X2, the second. -/
theorem Op.pre_busy (op : Op) {s : State} (h : s.present = true) (hq : s.seq ≠ .idle) : op.pre s = some .busy := by
  cases op <;> simp [Op.pre, preSession, preStop, preWrbyte, preRdbyte, preClkwrite, firstRefusal, needsBound, needsIdle,
    State.busy, h, hq]

theorem preBind_busy (p : Pins) {s : State} (hq : s.seq ≠ .idle) : preBind p s = some .busy := by
  simp [preBind, firstRefusal, needsIdle, State.busy, hq]

theorem preIdle_busy {s : State} (hq : s.seq ≠ .idle) : preIdle s = some .busy := by
  simp [preIdle, firstRefusal, needsIdle, State.busy, hq]

theorem exec_reservedOp (s : State) : exec .reservedOp s =
    match preIdle s with
    | some r => .refused r
    | none => .next s := rfl

/-- X2 is the first precondition of an instruction without line events. -/
theorem exec_quiet_busy {i : Instr} (h : opOf i = none) {s : State} (hq : s.seq ≠ .idle) :
    exec i s = .refused .busy := by
  obtain ⟨p, rfl⟩ | rfl | rfl := opOf_none h
  · rw [exec_bind, preBind_busy p hq, guardedQuietly]
  · rw [exec_present, preIdle_busy hq, guardedQuietly]
  · rw [exec_reservedOp, preIdle_busy hq]

/-- With an operation in progress no instruction is accepted. -/
theorem exec_while_busy (i : Instr) {s : State} (hq : s.seq ≠ .idle) : ∃ r, exec i s = .refused r ∧
    (s.present = true → r = .busy) := by
  cases hop : opOf i with
  | none => exact ⟨.busy, exec_quiet_busy hop hq, fun _ => rfl⟩
  | some op =>
    cases hp : s.present with
    | false =>
      exact ⟨.notBound, exec_refused hop (op.pre_notBound ((latchOperands_present i s).trans hp)), fun h => by cases h⟩
    | true =>
      exact ⟨.busy, exec_refused hop (op.pre_busy ((latchOperands_present i s).trans hp)
        (by rw [latchOperands_seq]; exact hq)), fun _ => rfl⟩

/-- X4, for every operation but the three of a session. -/
theorem Op.pre_sessionOpen {op : Op} (h1 : op ≠ .stop) (h2 : op ≠ .wrbyte) (h3 : op ≠ .rdbyte) {s : State}
    (hp : s.present = true) (hq : s.seq = .idle) (ho : s.sess = .opened) : op.pre s = some .sessionOpen := by
  cases op <;> first
    | contradiction
    | simp [Op.pre, preSession, preClkwrite, firstRefusal, needsBound, needsIdle, needsClosed, State.busy, hp, hq, ho]

/-- The first condition of X5, X6, X8. -/
theorem Op.pre_sessionClosed {op : Op} (h : op = .stop ∨ op = .wrbyte ∨ op = .rdbyte) {s : State}
    (hp : s.present = true) (hq : s.seq = .idle) (ho : s.sess = .closed) : op.pre s = some .sessionClosed := by
  rcases h with rfl | rfl | rfl <;>
    simp [Op.pre, preStop, preWrbyte, preRdbyte, firstRefusal, needsBound, needsIdle, needsOpen, State.busy, hp, hq, ho]

/-- X9, after X1, X2, X4. -/
theorem preClkwrite_outOfRange {r : TRec} {s : State} (h : s.ready) (hr : trecInRange r = false) :
    preClkwrite r s = some .recordOutOfRange := by
  obtain ⟨hp, hq, hc⟩ := h
  simp [preClkwrite, firstRefusal, needsBound, needsIdle, needsClosed, needsInRange, State.busy, hp, hq, hc, hr]

/-- Settles O16: each clause is one line of the table of R284, the earlier lines holding. -/
theorem brokenPreconditionsAreRefused : Obligations.BrokenPreconditionsAreRefused := by
  unfold Obligations.BrokenPreconditionsAreRefused
  refine ⟨?_, ?_, ?_, ?_, ?_, ?_, ?_, ?_⟩
  · intro i s hp hbind hpresent hreserved
    cases hop : opOf i with
    | none =>
      obtain ⟨p, rfl⟩ | rfl | rfl := opOf_none hop
      · exact absurd rfl (hbind p)
      · exact absurd rfl hpresent
      · exact absurd rfl hreserved
    | some op => exact exec_refused hop (op.pre_notBound ((latchOperands_present i s).trans hp))
  · intro i s hi hq
    rcases hi with hp | ⟨p, rfl⟩ | rfl | rfl
    · obtain ⟨r, hr, hbusy⟩ := exec_while_busy i hq
      rw [hr, hbusy hp]
    · exact exec_quiet_busy rfl hq
    · exact exec_quiet_busy rfl hq
    · exact exec_quiet_busy rfl hq
  · intro p s hq hp
    simp [exec_bind, preBind, firstRefusal, needsIdle, State.busy, hq, hp, guardedQuietly]
  · intro p s hq hp hpins
    have h : (p.io == p.sclk || p.io == p.ce || p.sclk == p.ce) = true := by simpa [or_assoc] using hpins
    simp [exec_bind, preBind, firstRefusal, needsIdle, State.busy, hq, hp, h, guardedQuietly]
  · intro i op s hop h1 h2 h3 hp hq ho
    exact exec_refused hop (Op.pre_sessionOpen h1 h2 h3 ((latchOperands_present i s).trans hp)
      ((latchOperands_seq i s).trans hq) ((latchOperands_sess i s).trans ho))
  · intro i op s hop h hp hq hc
    exact exec_refused hop (Op.pre_sessionClosed h ((latchOperands_present i s).trans hp)
      ((latchOperands_seq i s).trans hq) ((latchOperands_sess i s).trans hc))
  · intro s hp hq ho
    refine ⟨fun h => ?_, fun h => ?_, fun d r h => ?_, fun d r h h' => ?_, fun d h h' hf => ?_, fun h => ?_,
      fun h hf h' => ?_⟩
    · rw [exec_stop]
      exact guarded_of_some (by simp [preStop, firstRefusal, needsBound, needsIdle, needsOpen, State.busy, hp, hq, ho, h])
    · rw [exec_stop]
      exact guarded_of_some (by simp [preStop, firstRefusal, needsBound, needsIdle, needsOpen, State.busy, hp, hq, ho, h])
    · rw [exec_wrbyte]
      exact guarded_of_some (by simp [preWrbyte, firstRefusal, needsBound, needsIdle, needsOpen, State.busy, hp, hq, ho, h])
    · rw [exec_wrbyte]
      exact guarded_of_some
        (by simp [preWrbyte, firstRefusal, needsBound, needsIdle, needsOpen, State.busy, hp, hq, ho, h, h'])
    · rw [exec_wrbyte]
      exact guarded_of_some
        (by simp [preWrbyte, firstRefusal, needsBound, needsIdle, needsOpen, State.busy, hp, hq, ho, h, h', hf])
    · rw [exec_rdbyte]
      exact guarded_of_some (by simp [preRdbyte, firstRefusal, needsBound, needsIdle, needsOpen, State.busy, hp, hq, ho, h])
    · rw [exec_rdbyte]
      exact guarded_of_some
        (by simp [preRdbyte, firstRefusal, needsBound, needsIdle, needsOpen, State.busy, hp, hq, ho, h, h', hf])
  · intro s r l hready
    exact ⟨fun hr => exec_refused (i := .clkwrite r) rfl (preClkwrite_outOfRange hready hr),
      fun hr => exec_refused (i := .set l) rfl (preClkwrite_outOfRange hready hr)⟩

/-! ## Operations without line events -/

/-- Settles O37: X2 and X3 are the precondition. -/
theorem bindSetsPinsAndPresent : Obligations.BindSetsPinsAndPresent := by
  unfold Obligations.BindSetsPinsAndPresent
  intro p s hq hp h1 h2 h3
  exact exec_bind_next.2 ⟨preBind_none.2 ⟨hq, hp, h1, h2, h3⟩, rfl⟩

/-- Settles O38: X2 is the precondition. -/
theorem reservedSelectorChangesNothing : Obligations.ReservedSelectorChangesNothing := by
  unfold Obligations.ReservedSelectorChangesNothing
  intro s hq
  exact exec_reservedOp_next.2 ⟨hq, rfl⟩

/-! ## Reset -/

/-- Settles O7: the reset state is written out in the model. -/
theorem resetStateIsPowerUp : Obligations.ResetStateIsPowerUp := by
  unfold Obligations.ResetStateIsPowerUp
  refine ⟨rfl, fun l => ?_, rfl, rfl, rfl, rfl, rfl⟩
  cases l <;> rfl

/-- Settles O9: the reset state is written out in the model. -/
theorem invariantHoldsAtReset : Obligations.InvariantHoldsAtReset := by
  unfold Obligations.InvariantHoldsAtReset
  decide

/-- Settles O8: the peer stays in step with the lines, and the lines of the reset state have `CE` low. -/
theorem resetClosesThePeerSession : Obligations.ResetClosesThePeerSession := by
  unfold Obligations.ResetClosesThePeerSession
  intro s
  refine ⟨rfl, fun hk hact hdrv => ?_⟩
  have hce : ceLevel State.reset.pads = false := rfl
  obtain ⟨h1, h2⟩ := peerReact_inStep hk hact hdrv State.reset.pads s.draws
  rw [hce] at h1
  exact ⟨h1, h2.resolve_left (by rw [h1]; decide)⟩

/-- Settles O17: every operation with line events meets X1, which the reset state fails. -/
theorem onlyPresentAndBindRunAfterReset : Obligations.OnlyPresentAndBindRunAfterReset := by
  unfold Obligations.OnlyPresentAndBindRunAfterReset
  refine ⟨fun i t ht => ?_, ⟨_, exec_present_next.2 ⟨rfl, rfl⟩, rfl⟩, fun p h1 h2 h3 =>
    ⟨_, exec_bind_next.2 ⟨preBind_none.2 ⟨rfl, rfl, h1, h2, h3⟩, rfl⟩, rfl, rfl⟩⟩
  cases hop : opOf i with
  | none =>
    obtain hbind | rfl | rfl := opOf_none hop
    · exact .inr (.inr hbind)
    · exact .inl rfl
    · exact .inr (.inl rfl)
  | some op =>
    rw [exec_refused hop (op.pre_notBound ((latchOperands_present i State.reset).trans rfl))] at ht
    cases ht

/-! ## A step -/

theorem answerCommand_ok {c : Command} {i : Instr} (h : decode c = .ok i) (s : State) :
    answerCommand c s = exec i s := by rw [answerCommand, h]

theorem answerCommand_error {c : Command} {e : Reject} (h : decode c = .error e) (s : State) :
    answerCommand c s = .refused .badFrame := by rw [answerCommand, h]

theorem step_of_marked {s : State} {r : Refusal} (h : s.mark = some r) : step s = .refused .marked := by
  rw [step, h]

/-- Settles O4: with nothing in progress a step is the answer to the first command, or waits. -/
theorem idleStepExecutesTheNextCommand : Obligations.IdleStepExecutesTheNextCommand := by
  unfold Obligations.IdleStepExecutesTheNextCommand
  intro s hm hq
  refine ⟨fun c cs i hc hd => ⟨decode_wf hd, ?_⟩, fun c cs e hc hd => ?_, fun hc => ?_⟩
  · rw [step_of_command hm hc, answerCommand_ok hd, endPulse]
  · rw [step_of_command hm hc, answerCommand_error hd]
  · rw [step_of_no_command hm hc, microStep_idle (s := endPulse s) hq, endPulse]

/-- With an operation in progress the answer to a command is a refusal. -/
theorem answerCommand_while_busy (c : Command) {s : State} (hq : s.seq ≠ .idle) :
    ∃ r, answerCommand c s = .refused r := by
  cases hd : decode c with
  | error e => exact ⟨_, answerCommand_error hd s⟩
  | ok i =>
    obtain ⟨r, hr, -⟩ := exec_while_busy i hq
    exact ⟨r, (answerCommand_ok hd s).trans hr⟩

/-- What a step that does not refuse is: the answer to the first command of an idle block, or the sequencer's step. -/
theorem step_next {s t : State} (h : step s = .next t) : s.mark = none ∧
    ((∃ c cs, s.pend = c :: cs ∧ s.seq = .idle ∧ answerCommand c { endPulse s with pend := cs } = .next t) ∨
      (s.pend = [] ∧ microStep (endPulse s) = .next t)) := by
  cases hm : s.mark with
  | some r => rw [step_of_marked hm] at h; cases h
  | none =>
    refine ⟨rfl, ?_⟩
    cases hc : s.pend with
    | nil => exact .inr ⟨rfl, (step_of_no_command hm hc).symm.trans h⟩
    | cons c cs =>
      rw [step_of_command hm hc] at h
      refine .inl ⟨c, cs, rfl, ?_, h⟩
      by_contra hq
      obtain ⟨r, hr⟩ := answerCommand_while_busy c (s := { endPulse s with pend := cs }) hq
      rw [hr] at h
      cases h

/-- A phase is one line event. -/
theorem Sub.phase_emits {u : Sub} {ph : Phase} {s t : State} {r : Option Phase} (h : u.phase ph s = some (t, r)) :
    ∃ e, Emits s [e] t := by
  have one : ∀ e, Emits s [e] (emit e s) := fun e => emitAll_emits [e] s
  cases u <;> cases ph <;> simp only [Sub.phase, reduceCtorEq, Option.some.injEq, Prod.mk.injEq] at h
  all_goals try (split at h <;> simp only [Option.some.injEq, Prod.mk.injEq] at h)
  all_goals (obtain ⟨rfl, -⟩ := h; exact ⟨_, (one _).retag rfl rfl rfl rfl rfl⟩)

/-- Where the sequencer goes after a phase: on within the sub-operation, or to what follows it. -/
def afterPhase (op : Op) (st k : Nat) (u : Sub) (v : State) : Option Phase → State
  | some nx => { v with seq := .at op st k nx }
  | none => advance op st k (u.leave v)

/-- What a step of the sequencer with an operation in progress is. -/
theorem microStep_next {s t : State} (hq : s.seq ≠ .idle) (h : microStep s = .next t) :
    ∃ op st k ph u v r, s.seq = .at op st k ph ∧ (plan op st s)[k]? = some u ∧ u.phase ph s = some (v, r) ∧
      t = afterPhase op st k u v r := by
  have next : ∀ {w : State}, unlessPeerRefuses w = .next t → t = w := by
    intro w hw
    rw [unlessPeerRefuses] at hw
    split at hw
    · cases hw
    · exact (Host.Outcome.next.inj hw).symm
  rcases hs : s.seq with _ | ⟨op, st, k, ph⟩
  · exact absurd hs hq
  · rw [microStep, hs] at h
    cases hu : (plan op st s)[k]? with
    | none => simp only [hu] at h; cases h
    | some u =>
      cases hp : u.phase ph s with
      | none => simp only [hu, hp] at h; cases h
      | some x =>
        obtain ⟨v, r⟩ := x
        refine ⟨op, st, k, ph, u, v, r, rfl, hu, hp, ?_⟩
        cases r <;> simp only [hu, hp] at h <;> exact next h

/-- The registers of the host side after a phase, but for the response. -/
theorem afterPhase_fields (op : Op) (st k : Nat) (u : Sub) (v : State) (r : Option Phase) :
    (afterPhase op st k u v r).ev = v.ev ∧ (afterPhase op st k u v r).pend = v.pend ∧
      (afterPhase op st k u v r).mark = v.mark := by
  have leave : (u.leave v).ev = v.ev ∧ (u.leave v).pend = v.pend ∧ (u.leave v).mark = v.mark := by
    rcases u with _ | _ | _ | (_ | j) <;> exact ⟨rfl, rfl, rfl⟩
  have enter : ∀ (w : Sub) (s : State), (w.enter s).ev = s.ev ∧ (w.enter s).pend = s.pend ∧ (w.enter s).mark = s.mark := by
    intro w s
    cases w <;> exact ⟨rfl, rfl, rfl⟩
  have stage : ∀ (n : Nat) (s : State), (enterStage op n s).ev = s.ev ∧ (enterStage op n s).pend = s.pend ∧
      (enterStage op n s).mark = s.mark := by
    intro n s
    unfold enterStage
    split <;> exact ⟨rfl, rfl, rfl⟩
  have complete : ∀ s : State, (completeOp op s).ev = s.ev ∧ (completeOp op s).pend = s.pend ∧
      (completeOp op s).mark = s.mark := by
    intro s
    cases op <;> exact ⟨rfl, rfl, rfl⟩
  cases r with
  | some nx => exact ⟨rfl, rfl, rfl⟩
  | none =>
    obtain ⟨l1, l2, l3⟩ := leave
    rw [afterPhase, advance]
    split
    · obtain ⟨e1, e2, e3⟩ := enter _ (u.leave v)
      exact ⟨e1.trans l1, e2.trans l2, e3.trans l3⟩
    · split
      · obtain ⟨s1, s2, s3⟩ := stage (st + 1) (u.leave v)
        obtain ⟨e1, e2, e3⟩ := enter _ (enterStage op (st + 1) (u.leave v))
        exact ⟨e1.trans (s1.trans l1), e2.trans (s2.trans l2), e3.trans (s3.trans l3)⟩
      · obtain ⟨c1, c2, c3⟩ := complete (u.leave v)
        exact ⟨c1.trans l1, c2.trans l2, c3.trans l3⟩

/-- The response comes with the end of the operation (R121). -/
theorem afterPhase_rspValid (op : Op) (st k : Nat) (u : Sub) {v : State} (h : v.rspValid = false) (r : Option Phase) :
    (afterPhase op st k u v r).rspValid = ((afterPhase op st k u v r).seq == .idle) := by
  have leave : (u.leave v).rspValid = false := by rcases u with _ | _ | _ | (_ | j) <;> exact h
  have goTo : ∀ (n m : Nat) (w : Sub) {s : State}, s.rspValid = false →
      (goTo op n m w s).rspValid = ((goTo op n m w s).seq == .idle) := by
    intro n m w s hs
    cases w <;> exact hs
  cases r with
  | some nx => exact h
  | none =>
    rw [afterPhase, advance]
    split
    · exact goTo _ _ _ leave
    · split
      · refine goTo _ _ _ ?_
        unfold enterStage
        split <;> exact leave
      · cases op <;> rfl

theorem checkedStep_eq_step {s : State} (h : s.seq ≠ .idle ∨ ∀ p cs, s.pend = .host p :: cs → p.op ≠ 0xF) :
    checkedStep s = step s := by
  rw [checkedStep]
  split
  · rename_i c cs hm hb hp
    have hidle : s.seq = .idle := by simpa [State.busy] using hb
    have hsel : preSelector c = none := by
      cases c with
      | wire f => rfl
      | host p =>
        have hop := (h.resolve_left fun hq => hq hidle) p cs hp
        simpa [preSelector, firstRefusal] using hop
    rw [hsel]
  · rfl

theorem stepOrMark_mark {s : State} {r : Refusal} (hm : s.mark = none) (h : checkedStep s = .refused r) :
    (stepOrMark s).mark = some r := by
  rw [stepOrMark, h, hm]
  rfl

/-- Settles O5: `microStep` is one phase, a phase is one event, and any command offered meanwhile is refused by X2. -/
theorem busyStepEmitsOneEvent : Obligations.BusyStepEmitsOneEvent := by
  unfold Obligations.BusyStepEmitsOneEvent
  refine ⟨fun s t hq h => ?_, fun s hm hq hp => ?_, fun s c cs i hm hp hq hc hd => ?_⟩
  · obtain ⟨-, ⟨c, cs, -, hidle, -⟩ | ⟨hp, hstep⟩⟩ := step_next h
    · exact absurd hidle hq
    · obtain ⟨op, st, k, ph, u, v, r, -, -, hphase, rfl⟩ := microStep_next (s := endPulse s) hq hstep
      obtain ⟨e, he⟩ := Sub.phase_emits hphase
      obtain ⟨-, hrsp, hpend, -⟩ := Sub.phase_kept hphase
      obtain ⟨h1, h2, -⟩ := afterPhase_fields op st k u v r
      exact ⟨e, h1.trans he.ev, hp, h2.trans (hpend.trans hp), afterPhase_rspValid op st k u hrsp r⟩
  · obtain ⟨c, cs, hc⟩ := List.exists_cons_of_ne_nil hp
    obtain ⟨r, hr⟩ := answerCommand_while_busy c (s := { endPulse s with pend := cs }) hq
    have hstep : step s = .refused r := (step_of_command hm hc).trans hr
    exact ⟨r, hstep, stepOrMark_mark hm ((checkedStep_eq_step (.inl hq)).trans hstep)⟩
  · obtain ⟨r, hr, hbusy⟩ := exec_while_busy i (s := { endPulse s with pend := cs }) hq
    rw [step_of_command hm hc, answerCommand_ok hd, hr, hbusy hp]

theorem decodeHost_reserved {p : HostPort} (h : p.op = 0xF) : decode (.host p) = .ok .reservedOp := by
  simp [decode, decodeHost, h]

/-- X10 (R284). -/
theorem checkedStep_reserved {s : State} {p : HostPort} {cs : List Command} (hm : s.mark = none) (hq : s.seq = .idle)
    (hp : s.pend = .host p :: cs) (hop : p.op = 0xF) : checkedStep s = .refused .reservedSelector := by
  simp [checkedStep, hm, State.busy, hq, hp, preSelector, firstRefusal, hop]

/-- No step writes the mark. -/
theorem step_mark {s t : State} (h : step s = .next t) : t.mark = s.mark := by
  obtain ⟨-, ⟨c, cs, -, -, hans⟩ | ⟨-, hstep⟩⟩ := step_next h
  · cases hd : decode c with
    | error e => rw [answerCommand_error hd] at hans; cases hans
    | ok i =>
      rw [answerCommand_ok hd] at hans
      exact (exec_outside hans).2.1
  · by_cases hq : s.seq = .idle
    · rw [microStep_idle (s := endPulse s) hq] at hstep
      cases hstep
      rfl
    · obtain ⟨op, st, k, ph, u, v, r, -, -, hphase, rfl⟩ := microStep_next (s := endPulse s) hq hstep
      exact (afterPhase_fields op st k u v r).2.2.trans (Sub.phase_kept hphase).1

/-- Settles O11: a marked state has no step, and `stepOrMark` sets the mark by the refusal of `checkedStep`, which differs
from `step` on selector 0xF at an idle block alone. -/
theorem markIsNeverCleared : Obligations.MarkIsNeverCleared := by
  unfold Obligations.MarkIsNeverCleared
  refine ⟨fun s r hm => ⟨step_of_marked hm, ?_⟩, fun s r hm h => ?_, fun s t => step_mark,
    fun s p cs hm hq hp hop => ?_, fun s => checkedStep_eq_step⟩
  · have hc : checkedStep s = step s := by rw [checkedStep, hm]
    rw [stepOrMark, hc, step_of_marked hm, hm]
    show { s with mark := some r } = s
    rw [← hm]
  · refine stepOrMark_mark hm ((checkedStep_eq_step ?_).trans h)
    by_cases hq : s.seq = .idle
    · refine .inr fun p cs hp hop => ?_
      rw [step_of_command hm hp, answerCommand_ok (decodeHost_reserved hop)] at h
      rw [reservedSelectorChangesNothing { endPulse s with pend := cs } hq] at h
      cases h
    · exact .inl hq
  · have h := checkedStep_reserved hm hq hp hop
    exact ⟨h, stepOrMark_mark hm h⟩

/-! ## Line events -/

theorem Pads.get_setOut (pd : Pads) (l l' : Line) (v : Bool) :
    (pd.setOut l v).get l' = if l' = l then ⟨v, (pd.get l).oe⟩ else pd.get l' := by
  cases l <;> cases l' <;> rfl

theorem Pads.get_setOe (pd : Pads) (l l' : Line) (v : Bool) :
    (pd.setOe l v).get l' = if l' = l then ⟨(pd.get l).out, v⟩ else pd.get l' := by
  cases l <;> cases l' <;> rfl

theorem onPads_dir (l : Line) (d : Dir) (pd : Pads) : (Event.dir l d).onPads pd = pd.setOe l (d == .out) := by
  cases d <;> rfl

/-- Settles O18: `DRV` sets a latch and `DIR` an enable of the one line. -/
theorem drvAndDirWriteOneLine : Obligations.DrvAndDirWriteOneLine := by
  unfold Obligations.DrvAndDirWriteOneLine
  intro l s
  refine ⟨fun v => ⟨?_, rfl, fun l' h => ?_⟩, fun d => ⟨?_, rfl, fun l' h => ?_⟩⟩
  · rw [emit_pads, Event.onPads, Pads.get_setOut, if_pos rfl]
  · rw [emit_pads, Event.onPads, Pads.get_setOut, if_neg h]
  · rw [emit_pads, onPads_dir, Pads.get_setOe, if_pos rfl]
  · rw [emit_pads, onPads_dir, Pads.get_setOe, if_neg h]

/-- An event that moves no line lets the timekeeper step and does nothing else to the peer. -/
theorem peerReact_still (k : PeerKind) (pd : Pads) (d : Nat) (p : Peer) :
    peerReact k pd pd d p = if k = .chip then p.timeStep d else p := by
  cases k
  · rfl
  · rfl
  · exact Peer.edges_quiet .reference rfl rfl p
  · exact Peer.edges_quiet .chip rfl rfl (p.timeStep d)

/-- Settles O19: the lines stand over the event, so the peer sees no edge; and the level is that of the driver. -/
theorem sampleReadsTheLevel : Obligations.SampleReadsTheLevel := by
  unfold Obligations.SampleReadsTheLevel
  refine ⟨fun e s he => ?_, fun s hk hl => ⟨fun ho hd => ?_, fun ho hd => ?_, fun hod => ?_⟩, fun s hk ho => ?_⟩
  · have hpads : e.onPads s.pads = s.pads := by
      obtain ⟨b, rfl⟩ | ⟨t, rfl⟩ := he <;> rfl
    rw [emit, hpads, peerReact_still]
  · simp [sampleIo, ioLevel, ioDrive, Peer.ioDrive, hk, hl, ho, hd]
  · simp [sampleIo, ioLevel, ioDrive, Peer.ioDrive, hk, hl, ho, hd]
  · cases hd : s.peer.drv <;> simp [sampleIo, ioLevel, ioDrive, Peer.ioDrive, hk, hl, hod, hd]
  · simp [sampleIo, ioLevel, ioDrive, hk, ho]

theorem ceLevel_onPads {e : Event} (hd : ∀ v, e ≠ .drv .ce v) (ha : ∀ a, e ≠ .dir .ce a) (pd : Pads) :
    ceLevel (e.onPads pd) = ceLevel pd := by
  rcases e with ⟨l, v⟩ | ⟨l, a⟩ | b | t
  · cases l
    · exact absurd rfl (hd v)
    · rfl
    · rfl
  · cases l
    · exact absurd rfl (ha a)
    · cases a <;> rfl
    · cases a <;> rfl
  · rfl
  · rfl

/-- An event that is an edge of the clock moves the clock line alone. -/
theorem onPads_io_of_rises {e : Event} {low : Bool} {pd : Pads} (h : e.rises .sclk low pd = true) :
    (e.onPads pd).io = pd.io := by
  rcases e with ⟨l, v⟩ | ⟨l, a⟩ | b | t
  · cases l <;> cases v <;> first
      | rfl
      | simp [Event.rises] at h
  · cases l <;> cases a <;> first
      | rfl
      | simp [Event.rises] at h
  · rfl
  · rfl

theorem ioLevel_congr (k : PeerKind) {pd pd' : Pads} (h : pd'.io = pd.io) (p : Peer) (d : Nat) :
    ioLevel k pd' p d = ioLevel k pd p d := by
  rw [ioLevel, ioLevel, h]

/-- A clock that is not driven, with its latch high, has no falling edge in either reading. -/
theorem sclk_no_fall {e : Event} (he : e ≠ .dir .sclk .inp) {pd : Pads} (d : Nat) (hoe : pd.sclk.oe = false)
    (hout : pd.sclk.out = true) :
    (sclkLevel pd d && !sclkLevel (e.onPads pd) d) = false ∧ e.falls .sclk pd = false := by
  rcases e with ⟨l, v⟩ | ⟨l, a⟩ | b | t
  · cases l <;> cases v <;> simp [sclkLevel, Event.onPads, Pads.setOut, Event.falls, Pads.get, hoe]
  · cases l <;> cases a <;> simp_all [sclkLevel, Event.onPads, Pads.setOe, Event.falls]
  · simp [Event.onPads, Event.falls]
  · simp [Event.onPads, Event.falls]

/-- Settles O20: with `CE` left alone the peer reacts to the changes of the clock's level, which are the edges of R145. -/
theorem peerReactsToTheEdgesOfTheClock : Obligations.PeerReactsToTheEdgesOfTheClock := by
  unfold Obligations.PeerReactsToTheEdgesOfTheClock
  intro e s hk hact hlost hce hdrv hdir hrel hclk
  obtain ⟨hup, hdown⟩ := sclk_edges hrel s.pads s.draws
  have hfall : (sclkLevel s.pads s.draws && !sclkLevel (e.onPads s.pads) s.draws) = e.falls .sclk s.pads := by
    cases hoe : s.pads.sclk.oe with
    | true => exact hdown hoe
    | false =>
      obtain ⟨h1, h2⟩ := sclk_no_fall hrel s.draws hoe (hclk.resolve_left (by rw [hoe]; decide))
      rw [h1, h2]
  rw [emit_peer, hk, peerReact, Peer.edges, ceLevel_onPads hdrv hdir, hce, hact, hlost, hup, hfall]
  simp only [Bool.not_true, Bool.false_and, Bool.and_false, Bool.false_eq_true, if_false, Option.isSome_none]
  by_cases hr : e.rises .sclk (!sclkLevel s.pads s.draws) s.pads = true
  · rw [if_pos hr, if_pos hr, ioLevel_congr _ (onPads_io_of_rises hr)]
  · rw [if_neg hr, if_neg hr]

/-! ## BCD digits -/

/-- Settles O56, by division with remainder. -/
theorem bcdDigitsRoundTrip : Obligations.BcdDigitsRoundTrip := by
  unfold Obligations.BcdDigitsRoundTrip bcdDec bcdTens bcdUnits
  exact ⟨fun v => ⟨Nat.div_add_mod' v 10, Nat.le_of_lt_succ (Nat.mod_lt v (by decide))⟩, rfl⟩

end Sys2Proof.Machine

/-! Proofs that the two forms of an operation agree (spec/00_scope.md R9) and that every step keeps the invariant
(spec/10_state.md section 3). -/

namespace Sys2Proof.Machine

/-! ## One stage -/

/-- The operations of three stages (R252). -/
def Op.staged (op : Op) : Prop := op = .clkwrite ∨ op = .set

theorem plan_one_of_not_staged {op : Op} (h : ¬ op.staged) (s : State) : plan op 1 s = [] := by
  cases op <;> first
    | rfl
    | exact absurd (.inl rfl) h
    | exact absurd (.inr rfl) h

theorem plan_zero (op : Op) (s : State) : ∃ u us, plan op 0 s = u :: us := by
  cases op <;> exact ⟨_, _, rfl⟩

theorem countAll_plan {op : Op} (h : ¬ op.staged) (s : State) : countAll (plan op 0 s) = eventCount op s.rel := by
  cases op with
  | clkwrite => exact absurd (.inl rfl) h
  | set => exact absurd (.inr rfl) h
  | wrbyte => simp only [plan, countAll, Sub.count, eventCount, Nat.add_zero]
  | _ =>
    simp [plan, readPlan, writePlan, burstReadPlan, burstWritePlan, byteOrder, countAll, Sub.count, eventCount]

/-- The sub-operations of an operation, with its end, are its result. -/
theorem completeOp_plan {op : Op} (h : ¬ op.staged) {s : State} (hq : s.seq = .idle) :
    completeOp op { applyAll (plan op 0 s) s with rspValid := false } = { op.result s with rspValid := true } := by
  cases op with
  | clkwrite => exact absurd (.inl rfl) h
  | set => exact absurd (.inr rfl) h
  | start | stop | wrbyte | rdbyte =>
    simp only [plan, applyAll, Sub.apply, completeOp, Op.result]
    ext1 <;> simp [hq]
  | regrd =>
    simp only [plan, applyAll_readPlan, completeOp, Op.result, regRead]
    ext1 <;> simp [hq]
  | regwr | halt =>
    simp only [plan, applyAll_writePlan, completeOp, Op.result]
    ext1 <;> simp [hq]
  | burstrd =>
    simp only [plan, applyAll_burstReadPlan, completeOp, Op.result]
    ext1 <;> simp [hq]
  | burstwr =>
    simp only [plan, applyAll_burstWritePlan, completeOp, Op.result]
    ext1 <;> simp [hq]
  | clkread | get =>
    simp only [plan, applyAll_burstReadPlan, completeOp, Op.result, readClock]
    ext1 <;> simp [hq, linOfTr]

/-- The peer at the end of an operation is the peer after its sub-operations. -/
theorem applyAll_plan_peer {op : Op} (h : ¬ op.staged) {s : State} (hq : s.seq = .idle) :
    (applyAll (plan op 0 s) s).peer = (op.result s).peer := by
  have e := congrArg State.peer (completeOp_plan h hq)
  rw [(completeOp_peer op _).1] at e
  exact e

/-! ## Three stages -/

theorem countAll_writePlan (c d : Byte) : countAll (writePlan c d) = 104 := by simp [writePlan, countAll, Sub.count]

theorem countAll_burstWritePlan (v : Image) : countAll (burstWritePlan v) = 440 := by
  simp [burstWritePlan, byteOrder, countAll, Sub.count]

/-- A stage of a whole session. -/
theorem session_steps {op : Op} {st : Nat} {us : List Sub} {s : State} (hm : s.running) (hp : plan op st s = .start :: us)
    {n : Nat} (hn : countAll (.start :: us) = n) {t : State} (h : applyAll (.start :: us) s = t)
    (ht : peerRefusal t.peerKind t.peer = none) : Steps n (goTo op st 0 .start s) (endStage op st t) := by
  subst hn h
  exact stage_steps hm hp ht

theorem writePlan_steps {op : Op} {st : Nat} {c : Byte} {s : State} (hm : s.running) (hp : plan op st s = writePlan c 0)
    (ht : peerRefusal (regWrite c 0 s).peerKind (regWrite c 0 s).peer = none) :
    Steps 104 (goTo op st 0 .start s) (endStage op st (regWrite c 0 s)) :=
  session_steps (us := (writePlan c 0).tail) hm hp (countAll_writePlan c 0) (applyAll_writePlan c 0 s) ht

theorem burstWritePlan_steps {op : Op} {st : Nat} {s : State} (hm : s.running) (hp : plan op st s = burstWritePlan s.img)
    (ht : peerRefusal (burstWrite s).peerKind (burstWrite s).peer = none) :
    Steps 440 (goTo op st 0 .start s) (endStage op st (burstWrite s)) :=
  session_steps (us := (burstWritePlan s.img).tail) hm hp (countAll_burstWritePlan s.img) (applyAll_burstWritePlan s) ht

/-- A refusal within a clock write would have stayed to its end. -/
theorem burstWrite_refusal {s : State} (h : peerRefusal (burstWrite s).peerKind (burstWrite s).peer = none) :
    peerRefusal s.peerKind s.peer = none := by
  rw [← applyAll_burstWritePlan] at h
  exact applyAll_refusal h

theorem regWrite_refusal {c d : Byte} {s : State}
    (h : peerRefusal (regWrite c d s).peerKind (regWrite c d s).peer = none) : peerRefusal s.peerKind s.peer = none := by
  rw [← applyAll_writePlan] at h
  exact applyAll_refusal h

theorem regWrite_running {c d : Byte} {s : State} (h : s.running) : (regWrite c d s).running := by
  obtain ⟨h1, h2, h3⟩ := h
  exact ⟨by rw [regWrite_mark, h1], by rw [regWrite_rspValid, h2], by rw [regWrite_pend, h3]⟩

/-- `CLKWRITE` and `SET` from their first event to their end. -/
theorem writeClock_steps {op : Op} (hop : op.staged) {s : State} (hm : s.running)
    (ht : peerRefusal (writeClock s).peerKind (writeClock s).peer = none) :
    Steps 648 (goTo op 0 0 .start s) { writeClock s with seq := .idle, rspValid := true } := by
  obtain ⟨s1, hs1⟩ : ∃ s1, s1 = regWrite wpWriteCommand 0 s := ⟨_, rfl⟩
  obtain ⟨s2, hs2⟩ : ∃ s2, s2 = regWrite tcsWriteCommand 0 s1 := ⟨_, rfl⟩
  obtain ⟨s3, hs3⟩ : ∃ s3, s3 = latchImage (encodeImage s2.trec) s2 := ⟨_, rfl⟩
  have hw : writeClock s = { burstWrite s3 with ok := Config.okFlag } := by rw [writeClock, hs3, hs2, hs1]
  have t3 : peerRefusal (burstWrite s3).peerKind (burstWrite s3).peer = none := by
    rw [hw] at ht
    dsimp only at ht
    exact ht
  have t2 : peerRefusal s2.peerKind s2.peer = none := by
    have h := burstWrite_refusal t3
    rw [hs3, latchImage_peerKind, latchImage_peer] at h
    exact h
  have t1 : peerRefusal s1.peerKind s1.peer = none := regWrite_refusal (by rw [← hs2]; exact t2)
  have m1 : s1.running := by rw [hs1]; exact regWrite_running hm
  have m2 : s2.running := by rw [hs2]; exact regWrite_running m1
  have m3 : s3.running := by
    obtain ⟨h1, h2, h3⟩ := m2
    rw [hs3]
    exact ⟨h1, h2, h3⟩
  have p0 := writePlan_steps (op := op) (st := 0) (c := wpWriteCommand) hm (by rcases hop with rfl | rfl <;> rfl)
    (by rw [← hs1]; exact t1)
  have p1 := writePlan_steps (op := op) (st := 1) (c := tcsWriteCommand) m1 (by rcases hop with rfl | rfl <;> rfl)
    (by rw [← hs2]; exact t2)
  have p2 := burstWritePlan_steps (op := op) (st := 2) m3 (by rcases hop with rfl | rfl <;> rfl) t3
  have e0 : endStage op 0 s1 = goTo op 1 0 .start s1 := by rcases hop with rfl | rfl <;> rfl
  have e1 : endStage op 1 s2 = goTo op 2 0 .start s3 := by rw [hs3]; rcases hop with rfl | rfl <;> rfl
  have e2 : endStage op 2 (burstWrite s3) = { writeClock s with seq := .idle, rspValid := true } := by
    rw [hw]
    generalize burstWrite s3 = v
    rcases hop with rfl | rfl <;> rfl
  rw [← hs1, e0] at p0
  rw [← hs2, e1] at p1
  rw [e2] at p2
  exact (p0.trans p1).trans p2

theorem writeClock_with_port (s : State) (b : Bool) (p : List Command) :
    writeClock { s with rspValid := b, pend := p } = { writeClock s with rspValid := b, pend := p } := by
  have hreg : ∀ (c : Byte) (u : State),
      regWrite c 0 { u with rspValid := b, pend := p } = { regWrite c 0 u with rspValid := b, pend := p } :=
    fun c u => applyAll_with_port (writePlan c 0) u b p
  have hburst : ∀ u : State, burstWrite { u with rspValid := b, pend := p } = { burstWrite u with rspValid := b, pend := p } := by
    intro u
    rw [← applyAll_burstWritePlan, ← applyAll_burstWritePlan]
    exact applyAll_with_port (burstWritePlan u.img) u b p
  have hlatch : ∀ (v : Image) (u : State),
      latchImage v { u with rspValid := b, pend := p } = { latchImage v u with rspValid := b, pend := p } := fun _ _ => rfl
  rw [writeClock, hreg, hreg, hlatch, hburst, writeClock]

/-- Settles O6: a stage is as many steps as its sub-operations have events, and an operation is its stages. -/
theorem smallStepsComposeToTheOperation : Obligations.SmallStepsComposeToTheOperation := by
  unfold Obligations.SmallStepsComposeToTheOperation
  intro i op s t hop hm ht
  obtain ⟨hpre, href, rfl⟩ := (exec_next hop).1 ht
  rw [← eventCount_latched hop s]
  rw [← latchOperands_mark i s] at hm
  have hq : (latchOperands i s).seq = .idle := by
    rw [latchOperands_seq]
    by_contra hq
    obtain ⟨r, hr, -⟩ := exec_while_busy i hq
    rw [hr] at ht
    cases ht
  rw [← latchOperands_peerKind i s] at href
  generalize latchOperands i s = L at hm hq href
  show Host.Core.run core _ _ = .next { op.result L with rspValid := true, pend := [] }
  by_cases hst : op.staged
  · have hcount : eventCount op L.rel = 648 := by rcases hst with rfl | rfl <;> rfl
    have hres : op.result L = writeClock L := by rcases hst with rfl | rfl <;> rfl
    have hbegin : { beginOp op L with pend := [] } = goTo op 0 0 .start { L with rspValid := false, pend := [] } := by
      rcases hst with rfl | rfl <;> exact beginOp_with_pend (us := (writePlan wpWriteCommand 0).tail) [] rfl
    rw [hres] at href
    rw [hcount, hbegin, hres]
    obtain ⟨M, hM⟩ : ∃ M : State, M = { L with rspValid := false, pend := [] } := ⟨_, rfl⟩
    have hkind : (writeClock M).peerKind = L.peerKind := by rw [writeClock_peerKind, hM]
    have hpeer : (writeClock M).peer = (writeClock L).peer := by rw [hM, writeClock_with_port]
    have hend : { writeClock M with seq := .idle, rspValid := true } =
        { writeClock L with rspValid := true, pend := [] } := by
      rw [hM, writeClock_with_port]
      ext1 <;> simp [hq]
    have h := writeClock_steps hst (s := M) (by rw [hM]; exact ⟨hm, rfl, rfl⟩) (by rw [hkind, hpeer]; exact href)
    rw [hend, hM] at h
    exact h
  · obtain ⟨u, us, hp⟩ := plan_zero op L
    have h := beginOp_steps hm hp (plan_one_of_not_staged hst)
      (by rw [← hp, applyAll_peerKind, applyAll_plan_peer hst hq]; exact href)
    rw [← hp, countAll_plan hst, completeOp_plan hst hq] at h
    exact h

/-! ## The invariant within an operation -/

/-- The parts of the invariant that hold at every event. -/
structure Sound (s : State) : Prop where
  wf : s.peer.mem.wf = true
  inStep : s.peerInStep = true
  present : s.present = true

theorem Sound.congr {s t : State} (h : Sound s) (hpeer : t.peer = s.peer) (hkind : t.peerKind = s.peerKind)
    (hsess : t.sess = s.sess) (hpresent : t.present = s.present) : Sound t where
  wf := by rw [hpeer]; exact h.wf
  inStep := by
    have hin := h.inStep
    unfold State.peerInStep at hin ⊢
    rw [hpeer, hkind, hsess]
    exact hin
  present := hpresent.trans h.present

theorem midInv_iff {s : State} : s.midInv = true ↔ Sound s ∧ ∃ op st k ph u, s.seq = .at op st k ph ∧
    (plan op st s)[k]? = some u ∧ s.linesAt u ph = true := by
  constructor
  · intro h
    rw [State.midInv, Bool.and_eq_true, Bool.and_eq_true, Bool.and_eq_true] at h
    obtain ⟨⟨⟨hwf, hin⟩, hpresent⟩, hpos⟩ := h
    refine ⟨⟨hwf, hin, hpresent⟩, ?_⟩
    rcases hs : s.seq with _ | ⟨op, st, k, ph⟩
    · rw [hs] at hpos; cases hpos
    · cases hu : (plan op st s)[k]? with
      | none => simp [hs, hu] at hpos
      | some u => exact ⟨op, st, k, ph, u, rfl, hu, by simpa [hs, hu] using hpos⟩
  · rintro ⟨⟨hwf, hin, hpresent⟩, op, st, k, ph, u, hs, hu, hlines⟩
    simp [State.midInv, hwf, hin, hpresent, hs, hu, hlines]

theorem inv_of_sound {s : State} (h : Sound s) (hq : s.seq = .idle) (hlines : (match s.sess with
    | .closed => s.closedLines
    | .opened => s.openLines) = true) : s.inv = true := by
  rw [State.inv, h.wf, h.inStep, h.present, hq]
  simp only [beq_self_eq_true, Bool.true_and, Bool.true_or]
  exact hlines

/-- One event keeps what holds at every event, if the session is what the lines say before and after it. -/
theorem Sound.event {s t : State} {e : Event} (h : Sound s) (he : Emits s [e] t) (hpresent : t.present = s.present)
    (hs : (s.sess == .opened) = ceLevel s.pads) (ht : (t.sess == .opened) = ceLevel t.pads) : Sound t where
  wf := by rw [he.peer]; exact peerReact_wf h.wf _ _ _ _
  inStep := by
    rw [peerInStep_iff ht, he.kind]
    intro hk
    obtain ⟨hact, hdrv⟩ := (peerInStep_iff hs).1 h.inStep hk
    rw [he.peer, he.pads]
    exact peerReact_inStep hk hact hdrv _ _
  present := hpresent.trans h.present

theorem Sub.phase_present {u : Sub} {ph : Phase} {s t : State} {r : Option Phase} (h : u.phase ph s = some (t, r)) :
    t.present = s.present ∧ t.trec = s.trec := by
  cases u <;> cases ph <;> simp only [Sub.phase, reduceCtorEq, Option.some.injEq, Prod.mk.injEq] at h
  all_goals try (split at h <;> simp only [Option.some.injEq, Prod.mk.injEq] at h)
  all_goals (obtain ⟨rfl, -⟩ := h; exact ⟨rfl, rfl⟩)

theorem linesAt_at (u : Sub) (ph : Phase) (s : State) (q : SeqPos) :
    State.linesAt u ph { s with seq := q } = s.linesAt u ph := by
  cases u <;> cases ph <;> rfl

theorem exits_at (u : Sub) (s : State) (q : SeqPos) : u.exits { s with seq := q } = u.exits s := by
  rcases u with _ | _ | ⟨d, _ | _, k⟩ | k <;> rfl

/-- The end of a sub-operation leaves the plan that it belongs to. -/
theorem plan_leave {op : Op} {st k : Nat} {u : Sub} {s : State} (h : (plan op st s)[k]? = some u) :
    plan op st (u.leave s) = plan op st s := by
  rcases u with _ | _ | ⟨d, r, j⟩ | (_ | j)
  · rfl
  · rfl
  · rfl
  · rfl
  · have hmem := List.mem_of_getElem? h
    cases op <;> rcases st with _ | _ | _ | st <;> first
      | rfl
      | simp [plan, burstWritePlan, byteOrder] at hmem

/-- Consecutive sub-operations of a plan. -/
theorem plan_next {op : Op} {st k : Nat} {u v : Sub} {s : State} (hu : (plan op st s)[k]? = some u)
    (hv : (plan op st s)[k + 1]? = some v) : u.follows v = true := by
  obtain ⟨hk, rfl⟩ := List.getElem?_eq_some_iff.1 hu
  obtain ⟨hk', rfl⟩ := List.getElem?_eq_some_iff.1 hv
  exact List.isChain_iff_getElem.1 (plan_follows op st s) k hk'

/-- A stage that another follows ends with `STOP`, and the next begins with `START` (R252). -/
theorem plan_boundary {op : Op} {st k : Nat} {u v : Sub} {s t : State} (hu : (plan op st s)[k]? = some u)
    (hend : (plan op st s)[k + 1]? = none) (hv : (plan op (st + 1) t)[0]? = some v) : u = .stop ∧ v = .start := by
  have hlast : (plan op st s).getLast? = some u := by
    rw [List.getLast?_eq_getElem?]
    obtain ⟨hk, -⟩ := List.getElem?_eq_some_iff.1 hu
    have hlen := List.getElem?_eq_none_iff.1 hend
    rw [show (plan op st s).length - 1 = k by omega, hu]
  cases op <;> rcases st with _ | _ | _ | st <;> simp [plan, writePlan, burstWritePlan] at hv hlast <;>
    exact ⟨hlast.symm, hv.symm⟩

theorem Sub.enter_sound {s : State} (h : Sound s) (u : Sub) : Sound (u.enter s) := by
  cases u <;> exact h.congr rfl rfl rfl rfl

theorem Sub.leave_sound {s : State} (h : Sound s) (u : Sub) : Sound (u.leave s) := by
  rcases u with _ | _ | _ | (_ | k) <;> exact h.congr rfl rfl rfl rfl

theorem enterStage_sound {s : State} (h : Sound s) (op : Op) (st : Nat) : Sound (enterStage op st s) := by
  unfold enterStage
  split <;> exact h.congr rfl rfl rfl rfl

theorem enterStage_lines (op : Op) (st : Nat) {s : State} (h : s.startLines .s0 = true) :
    (enterStage op st s).startLines .s0 = true := by
  unfold enterStage
  split <;> exact h

/-- The sequencer stands before a sub-operation whose first lines are those it finds. -/
theorem goTo_midInv {op : Op} {st k : Nat} {u : Sub} {s : State} (h : Sound s) (hu : (plan op st s)[k]? = some u)
    (hlines : (u.enter s).linesAt u u.first = true) : (goTo op st k u s).midInv = true := by
  refine midInv_iff.2 ⟨(Sub.enter_sound h u).congr rfl rfl rfl rfl, op, st, k, u.first, u, rfl, ?_, ?_⟩
  · exact (congrArg (·[k]?) ((plan_congr rfl rfl rfl rfl).trans (plan_enter hu))).trans hu
  · rw [goTo, linesAt_at]
    exact hlines

theorem completeOp_inv (op : Op) {s : State} (h : Sound s) (hlines : (match s.sess with
    | .closed => s.closedLines
    | .opened => s.openLines) = true) : (completeOp op s).inv = true := by
  cases op <;> exact inv_of_sound (h.congr rfl rfl rfl rfl) rfl hlines

/-- The end of a sub-operation, with its lines, goes on to a position of the invariant or to the end of the operation. -/
theorem advance_keeps {op : Op} {st k : Nat} {u : Sub} {v : State} (h : Sound v) (hu : (plan op st v)[k]? = some u)
    (hexit : u.exits v = true) :
    (advance op st k (u.leave v)).midInv = true ∨ (advance op st k (u.leave v)).inv = true := by
  have hleave := Sub.leave_sound h u
  have hplan := plan_leave hu
  rw [advance]
  split
  · rename_i w hw
    exact .inl (goTo_midInv hleave hw (Sub.follows_lines (plan_next hu (hplan ▸ hw)) hexit))
  · rename_i hend
    split
    · rename_i w hw
      obtain ⟨rfl, rfl⟩ := plan_boundary hu (hplan ▸ hend) hw
      refine .inl (goTo_midInv (enterStage_sound hleave op (st + 1)) ?_ (enterStage_lines op (st + 1) hexit))
      cases op <;> rcases st with _ | _ | st <;> exact hw
    · exact .inr (completeOp_inv op hleave (Sub.exits_idle hexit))

/-- A step of the sequencer keeps the invariant within an operation. -/
theorem microStep_keeps {s t : State} (h : s.midInv = true) (ht : microStep s = .next t) :
    t.midInv = true ∨ t.inv = true := by
  obtain ⟨hsound, op, st, k, ph, u, hs, hu, hlines⟩ := midInv_iff.1 h
  obtain ⟨op', st', k', ph', u', v, r, hs', hu', hphase, rfl⟩ := microStep_next (by rw [hs]; simp) ht
  obtain ⟨rfl, rfl, rfl, rfl⟩ := SeqPos.at.inj (hs.symm.trans hs')
  obtain rfl := Option.some.inj (hu.symm.trans hu')
  obtain ⟨e, he⟩ := Sub.phase_emits hphase
  obtain ⟨-, -, -, -, hw, hrel, ha, himg, -⟩ := Sub.phase_kept hphase
  have hplan : plan op st v = plan op st s := plan_congr hw hrel ha himg
  have hnext := Sub.phase_lines hlines hphase
  have sound : (v.sess == .opened) = ceLevel v.pads → Sound v := fun hv =>
    hsound.event he (Sub.phase_present hphase).1 (linesAt_sess hlines) hv
  cases r with
  | some nx =>
    refine .inl (midInv_iff.2 ⟨(sound (linesAt_sess hnext)).congr rfl rfl rfl rfl, op, st, k, nx, u, rfl, ?_, ?_⟩)
    · exact (congrArg (·[k]?) ((plan_congr rfl rfl rfl rfl).trans hplan)).trans hu
    · rw [afterPhase, linesAt_at]
      exact hnext
  | none => exact advance_keeps (sound (exits_sess hnext)) (by rw [hplan]; exact hu) hnext

theorem midInv_endPulse (s : State) : (endPulse s).midInv = s.midInv := by
  rw [State.midInv, State.midInv]
  rcases hs : s.seq with _ | ⟨op, st, k, ph⟩
  · simp only [endPulse_seq, hs, Bool.and_false]
  · simp only [endPulse_seq, hs, plan_congr (op := op) (st := st) (s := s) (t := endPulse s) rfl rfl rfl rfl]
    rfl

theorem midInv_busy {s : State} (h : s.midInv = true) : s.seq ≠ .idle := by
  obtain ⟨-, op, st, k, ph, u, hs, -⟩ := midInv_iff.1 h
  rw [hs]
  simp

/-- A step within an operation keeps the invariant, or ends the operation in a state that meets that between operations. -/
theorem step_keeps_midInv {s t : State} (h : s.midInv = true) (ht : step s = .next t) :
    t.midInv = true ∨ t.inv = true := by
  obtain ⟨-, ⟨c, cs, -, hidle, -⟩ | ⟨-, hstep⟩⟩ := step_next ht
  · exact absurd hidle (midInv_busy h)
  · exact microStep_keeps (by rw [midInv_endPulse]; exact h) hstep

theorem inv_idle {s : State} (h : s.inv = true) : s.seq = .idle := by
  simp only [State.inv, Bool.and_eq_true, beq_iff_eq] at h
  exact h.1.1.1.2

theorem inv_endPulse (s : State) : (endPulse s).inv = s.inv := rfl

/-- Taken over a run of steps with no command offered. -/
theorem steps_keep_inv {n : Nat} {s t : State} (h : s.midInv = true ∨ s.inv = true) (hp : s.pend = [])
    (ht : Steps n s t) : t.midInv = true ∨ t.inv = true := by
  induction n generalizing s with
  | zero => cases ht; exact h
  | succ n ih =>
    obtain ⟨v, hv, hrest⟩ := (run_succ_iff core).1 ht
    rcases h with h | h
    · obtain ⟨-, -, -, hpend, -⟩ := busyStepEmitsOneEvent.1 s v (midInv_busy h) hv
      exact ih (step_keeps_midInv h hv) hpend hrest
    · obtain ⟨hm, -⟩ := step_next hv
      have hstep := (step_of_no_command hm hp).symm.trans hv
      rw [microStep_idle (s := endPulse s) (inv_idle h)] at hstep
      cases hstep
      exact ih (s := endPulse s) (.inr h) hp hrest

/-! ## The invariant between operations -/

theorem inv_sound {s : State} (h : s.inv = true) (hpresent : s.present = true) : Sound s := by
  simp only [State.inv, Bool.and_eq_true] at h
  exact ⟨h.1.1.1.1, h.1.1.2, hpresent⟩

theorem inv_lines {s : State} (h : s.inv = true) : (match s.sess with
    | .closed => s.closedLines
    | .opened => s.openLines) = true := by
  rw [State.inv, Bool.and_eq_true] at h
  exact h.2

theorem inv_closedLines {s : State} (h : s.inv = true) (hs : s.sess = .closed) : s.closedLines = true := by
  have hl := inv_lines h
  rw [hs] at hl
  exact hl

theorem inv_openLines {s : State} (h : s.inv = true) (hs : s.sess = .opened) : s.openLines = true := by
  have hl := inv_lines h
  rw [hs] at hl
  exact hl

theorem Op.pre_present {op : Op} {s : State} (h : op.pre s = none) : s.present = true := by
  cases op with
  | stop => exact (preStop_none.1 h).1
  | wrbyte => exact (preWrbyte_none.1 h).1
  | rdbyte => exact (preRdbyte_none.1 h).1
  | clkwrite | set => exact (preClkwrite_none.1 h).1.1
  | _ => exact (preSession_none.1 h).1

/-- The operations that need a closed session (R284, X4) begin with `START`; the others are of one sub-operation. -/
theorem Op.begin_lines {op : Op} {s : State} (h : op.pre s = none) (hinv : s.inv = true) :
    ∃ u us, plan op 0 s = u :: us ∧ (u.enter s).linesAt u u.first = true := by
  have session : s.ready → ∀ us : List Sub, plan op 0 s = .start :: us →
      ∃ u us, plan op 0 s = u :: us ∧ (u.enter s).linesAt u u.first = true := by
    intro hready us hp
    refine ⟨.start, us, hp, ?_⟩
    have hl := inv_closedLines hinv hready.2.2
    simp [Sub.enter, Sub.first, State.linesAt, State.startLines, hready.2.2, hl]
  cases op with
  | stop =>
    obtain ⟨-, -, hsess, hhist⟩ := preStop_none.1 h
    have hl := inv_openLines hinv hsess
    refine ⟨.stop, [], rfl, ?_⟩
    rcases hhist with hhist | hhist <;>
      simp_all [State.openLines, Sub.enter, Sub.first, State.linesAt, State.stopLines, State.sessionLines]
  | wrbyte =>
    obtain ⟨-, -, hsess, hio, hclk, -⟩ := preWrbyte_none.1 h
    have hl := inv_openLines hinv hsess
    refine ⟨.write s.wdata s.rel none, [], rfl, ?_⟩
    simp_all [State.openLines, Sub.enter, Sub.first, State.linesAt, State.writeLines, State.sessionLines]
  | rdbyte =>
    obtain ⟨-, -, hsess, hio, -⟩ := preRdbyte_none.1 h
    have hl := inv_openLines hinv hsess
    refine ⟨.read none, [], rfl, ?_⟩
    simp_all [State.openLines, Sub.enter, Sub.first, State.linesAt, State.readLines, State.sessionLines]
  | clkwrite | set => exact session (preClkwrite_none.1 h).1 _ rfl
  | _ => exact session (preSession_none.1 h) _ rfl

theorem linesAt_endPulse (u : Sub) (s : State) :
    (u.enter (endPulse s)).linesAt u u.first = (u.enter s).linesAt u u.first := by
  cases u <;> rfl

/-- An operation whose precondition holds stands, before its first event, in a state of the invariant. -/
theorem beginOp_midInv {op : Op} {s : State} (h : op.pre s = none) (hinv : s.inv = true) :
    (beginOp op s).midInv = true := by
  obtain ⟨u, us, hp, hlines⟩ := Op.begin_lines h hinv
  have hsound : Sound (endPulse s) := (inv_sound hinv (Op.pre_present h)).congr rfl rfl rfl rfl
  have hu : (plan op 0 (endPulse s))[0]? = some u :=
    (congrArg (·[0]?) ((plan_congr rfl rfl rfl rfl).trans hp)).trans rfl
  rw [beginOp, hp]
  exact goTo_midInv hsound hu (by rw [linesAt_endPulse]; exact hlines)

theorem latchOperands_inv (i : Instr) (s : State) : (latchOperands i s).inv = s.inv := by
  rw [latchOperands_fields]
  rfl

theorem midInv_with_pend (s : State) (p : List Command) : State.midInv { s with pend := p } = s.midInv := by
  rw [State.midInv, State.midInv]
  cases s.seq <;> rfl

/-- An instruction that completes keeps the invariant: an operation by its steps. -/
theorem exec_inv {i : Instr} {s t : State} (hinv : s.inv = true) (hm : s.mark = none) (ht : exec i s = .next t) :
    t.inv = true := by
  cases hop : opOf i with
  | none =>
    obtain ⟨p, rfl⟩ | rfl | rfl := opOf_none hop
    · rw [(exec_bind_next.1 ht).2]
      simp only [State.inv, Bool.and_eq_true] at hinv ⊢
      obtain ⟨⟨⟨h1, h2⟩, -⟩, h3⟩ := hinv
      exact ⟨⟨⟨h1, h2⟩, rfl⟩, h3⟩
    · rw [(exec_present_next.1 ht).2]; exact hinv
    · rw [(exec_reservedOp_next.1 ht).2]; exact hinv
  | some op =>
    have hidle : t.seq = .idle := (exec_outside ht).1.trans (inv_idle hinv)
    have hbegin := beginOp_midInv ((exec_next hop).1 ht).1 (by rw [latchOperands_inv]; exact hinv)
    have hrun := smallStepsComposeToTheOperation i op s t hop hm ht
    rcases steps_keep_inv (.inl (by rw [midInv_with_pend]; exact hbegin)) rfl hrun with h | h
    · exact absurd hidle (midInv_busy h)
    · exact h

/-- Settles O10: a step of the sequencer takes the lines of its position to those of the next; a command's operation is
its steps, from a position of the invariant on. -/
theorem everyStepKeepsTheInvariant : Obligations.EveryStepKeepsTheInvariant := by
  unfold Obligations.EveryStepKeepsTheInvariant
  refine ⟨fun s t hinv ht => ?_, fun s t => step_keeps_midInv, fun i op s t hinv hop ht => ?_⟩
  · obtain ⟨hm, ⟨c, cs, -, -, hans⟩ | ⟨hp, -⟩⟩ := step_next ht
    · cases hd : decode c with
      | error e => rw [answerCommand_error hd] at hans; cases hans
      | ok i =>
        rw [answerCommand_ok hd] at hans
        exact exec_inv (s := { endPulse s with pend := cs }) hinv hm hans
    · have hstep := (step_of_no_command hm hp).symm.trans ht
      rw [microStep_idle (s := endPulse s) (inv_idle hinv)] at hstep
      cases hstep
      exact hinv
  · exact beginOp_midInv ((exec_next hop).1 ht).1 (by rw [latchOperands_inv]; exact hinv)

end Sys2Proof.Machine

/-! Proofs of the statements about the codec (spec/43_bcd_codec.md), the timekeeper and the absent peer
(spec/20_memory.md R88). -/

namespace Sys2Proof.Machine

/-! ## DECODE -/

/-- The slices of R7. -/
theorem bits_eq_slice (b : Byte) (lo len : Nat) : bits b lo len = (b.extractLsb' lo len).toNat := by
  rw [bits, BitVec.extractLsb'_toNat, Nat.shiftRight_eq_div_pow]

theorem toNat_byte {n : Nat} (h : n < 256) : (BitVec.ofNat 8 n : Byte).toNat = n := by
  rw [BitVec.toNat_ofNat, Nat.mod_eq_of_lt h]

theorem bits_lt (b : Byte) (lo len : Nat) : bits b lo len < 2 ^ len := Nat.mod_lt _ (Nat.two_pow_pos len)

/-- A BCD pair of at most four tens bits leaves room in a byte for either offset (R114). -/
theorem pairValue_lt (b : Byte) {n : Nat} (h : n ≤ 4) : pairValue b n < 166 := by
  have h1 := bits_lt b 4 n
  have h2 := bits_lt b 0 4
  have h3 : 2 ^ n ≤ 2 ^ 4 := Nat.pow_le_pow_right (by decide) h
  rw [pairValue, bcdDec]
  omega

theorem pairValue_eq_slices (b : Byte) (n : Nat) :
    pairValue b n = (b.extractLsb' 4 n).toNat * 10 + (b.extractLsb' 0 4).toNat := by
  rw [pairValue, bcdDec, bits_eq_slice, bits_eq_slice]

theorem toNat_pair (b : Byte) {n : Nat} (h : n ≤ 4) :
    (BitVec.ofNat 8 (pairValue b n) : Byte).toNat = (b.extractLsb' 4 n).toNat * 10 + (b.extractLsb' 0 4).toNat := by
  have hlt := pairValue_lt b h
  rw [toNat_byte (by omega), pairValue_eq_slices]

theorem hourValue_of_24 {b : Byte} (h : b.getLsbD 7 = false) : hourValue b = pairValue b 2 := by
  rw [hourValue, hourMode12, h, if_neg (by decide)]

theorem hourValue_of_12 {b : Byte} (h : b.getLsbD 7 = true) :
    hourValue b = pairValue b 1 + if b.getLsbD 5 then 12 else 0 := by
  rw [hourValue, hourMode12, h, if_pos rfl, hourPm, Config.pmOff]

/-- Settles O57: every field is the value of its slices, which fits in a byte. -/
theorem decodeFollowsTheFieldRules : Obligations.DecodeFollowsTheFieldRules := by
  unfold Obligations.DecodeFollowsTheFieldRules
  intro v
  refine ⟨toNat_pair _ (by decide), toNat_pair _ (by decide), fun h => ?_, fun h => ?_, ?_, toNat_pair _ (by decide),
    toNat_pair _ (by decide), ?_⟩
  · rw [decodeImage, hourValue_of_24 h]
    exact toNat_pair _ (by decide)
  · have hlt := pairValue_lt v.b2 (n := 1) (by decide)
    rw [decodeImage, hourValue_of_12 h]
    dsimp only
    rw [toNat_byte (by split <;> omega), pairValue_eq_slices]
  · have hlt := bits_lt v.b5 0 3
    rw [decodeImage]
    dsimp only
    rw [toNat_byte (by omega), bits_eq_slice]
  · have hlt := pairValue_lt v.b6 (n := 4) (by decide)
    rw [decodeImage]
    dsimp only
    rw [toNat_byte (by rw [Config.yearOff]; omega), pairValue_eq_slices, Config.yearOff]

/-! The bits that no field of DECODE reads (R226). -/

theorem pairValue_mask7 : ∀ b : Byte, pairValue (b &&& 0x7F) 3 = pairValue b 3 := by decide +kernel
theorem hourValue_mask : ∀ b : Byte, hourValue (b &&& 0xBF) = hourValue b := by decide +kernel
theorem pairValue_mask6 : ∀ b : Byte, pairValue (b &&& 0x3F) 2 = pairValue b 2 := by decide +kernel
theorem pairValue_mask5 : ∀ b : Byte, pairValue (b &&& 0x1F) 1 = pairValue b 1 := by decide +kernel
theorem bits_mask3 : ∀ b : Byte, bits (b &&& 0x07) 0 3 = bits b 0 3 := by decide +kernel

/-- Settles O58: no field of DECODE reads a masked bit. -/
theorem decodeIgnoresFlagsAndUnusedBits : Obligations.DecodeIgnoresFlagsAndUnusedBits := by
  unfold Obligations.DecodeIgnoresFlagsAndUnusedBits
  intro v b
  simp only [decodeImage, pairValue_mask7, hourValue_mask, pairValue_mask6, pairValue_mask5, bits_mask3]

/-! ## ENCODE -/

/-- The range of a record, field by field (R234). -/
structure InRange (r : TRec) : Prop where
  sec : r.sec.toNat ≤ 59
  min : r.min.toNat ≤ 59
  hour : r.hour.toNat ≤ 23
  wday : r.wday.toNat ≤ 7
  day : r.day.toNat ≤ 31
  month : r.month.toNat ≤ 12
  year_ge : 30 ≤ r.year.toNat
  year_le : r.year.toNat ≤ 129

theorem InRange.of {r : TRec} (h : trecInRange r = true) : InRange r := by
  simp only [trecInRange, Bool.and_eq_true, decide_eq_true_eq] at h
  obtain ⟨⟨⟨⟨⟨⟨⟨⟨⟨⟨h1, h2⟩, h3⟩, -⟩, h5⟩, -⟩, h7⟩, -⟩, h9⟩, h10⟩, h11⟩ := h
  exact ⟨h1, h2, h3, h5, h7, h9, h10, h11⟩

/-- The BCD byte of a value whose tens fit (R230). -/
theorem toNat_pairByte {v n : Nat} (hn : n ≤ 4) (hv : v / 10 < 2 ^ n) : (pairByte v n).toNat = v / 10 * 16 + v % 10 := by
  have h4 : 2 ^ n ≤ 2 ^ 4 := Nat.pow_le_pow_right (by decide) hn
  rw [pairByte, bcdTens, bcdUnits, Nat.mod_eq_of_lt hv, toNat_byte (by omega)]
  omega

/-- A BCD byte gives its value back. -/
theorem pairValue_pairByte {v n : Nat} (hn : n ≤ 4) (hv : v / 10 < 2 ^ n) : pairValue (pairByte v n) n = v := by
  have h4 : (v / 10 * 16 + v % 10) / 2 ^ 4 = v / 10 := by omega
  rw [pairValue, bcdDec, bits, bits, toNat_pairByte hn hv, h4, Nat.mod_eq_of_lt hv]
  omega

theorem getLsbD_seven {b : Byte} (h : b.toNat < 128) : b.getLsbD 7 = false :=
  Nat.testBit_lt_two_pow h

theorem wday_byte {w : Byte} (h : w.toNat ≤ 7) : (BitVec.ofNat 8 (w.toNat % 2 ^ 3) : Byte) = w := by
  rw [Nat.mod_eq_of_lt (by omega), BitVec.ofNat_toNat, BitVec.setWidth_eq]

/-- The hours byte of a record in range is in the 24-hour layout (R231). -/
theorem hourByte_mode {h : Nat} (hh : h ≤ 23) : (pairByte h 2).getLsbD 7 = false :=
  getLsbD_seven (by rw [toNat_pairByte (by decide) (by omega)]; omega)

/-- Settles O59: each field is in range, so its digits fit in their places. -/
theorem encodePacksBcd : Obligations.EncodePacksBcd := by
  unfold Obligations.EncodePacksBcd
  intro r hr
  obtain ⟨hsec, hmin, hhour, hwday, hday, hmonth, hyear, hyear'⟩ := InRange.of hr
  refine ⟨toNat_pairByte (by decide) (by omega), toNat_pairByte (by decide) (by omega), toNat_pairByte (by decide) (by omega),
    toNat_pairByte (by decide) (by omega), toNat_pairByte (by decide) (by omega), wday_byte hwday,
    toNat_pairByte (by decide) (by rw [Config.yearOff]; omega), rfl, hourByte_mode hhour,
    getLsbD_seven (b := pairByte r.sec.toNat 3) (by rw [toNat_pairByte (by decide) (by omega)]; omega)⟩

/-- Settles O60: each field is the value of its own BCD byte. -/
theorem decodeOfEncodeIsTheRecord : Obligations.DecodeOfEncodeIsTheRecord := by
  unfold Obligations.DecodeOfEncodeIsTheRecord
  intro r hr
  obtain ⟨hsec, hmin, hhour, hwday, hday, hmonth, hyear, hyear'⟩ := InRange.of hr
  have hw : bits (BitVec.ofNat 8 (r.wday.toNat % 2 ^ 3) : Byte) 0 3 = r.wday.toNat := by
    rw [wday_byte hwday, bits]
    omega
  have hy : r.year.toNat - Config.yearOff + Config.yearOff = r.year.toNat := Nat.sub_add_cancel hyear
  have hy' : (r.year.toNat - Config.yearOff) / 10 < 2 ^ 4 := by rw [Config.yearOff]; omega
  simp only [decodeImage, encodeImage, hourValue_of_24 (hourByte_mode hhour), hw,
    pairValue_pairByte (v := r.sec.toNat) (n := 3) (by decide) (by omega),
    pairValue_pairByte (v := r.min.toNat) (n := 3) (by decide) (by omega),
    pairValue_pairByte (v := r.hour.toNat) (n := 2) (by decide) (by omega),
    pairValue_pairByte (v := r.day.toNat) (n := 2) (by decide) (by omega),
    pairValue_pairByte (v := r.month.toNat) (n := 1) (by decide) (by omega),
    pairValue_pairByte (n := 4) (by decide) hy', hy, BitVec.ofNat_toNat, BitVec.setWidth_eq]

/-! ## The timekeeper -/

/-- Registers 0 to 7 after the time registers are replaced. -/
theorem clockImage_storeTime {m : Memory} (hm : m.wf = true) (v : Image) :
    (m.storeTime v).clockImage = { v with b7 := m.read 0x8E } := by
  simp [Memory.clockImage, Memory.read_storeTime hm]

/-- What the timekeeper may do (R88): nothing, or replace the time registers by a valid running time. -/
theorem Peer.timeStep_cases (d : Nat) (p : Peer) : p.timeStep d = p ∨
    ∃ v, clockHalt p.mem.clockImage = false ∧ clockHalt v = false ∧ validTime v = true ∧
      laterTime p.mem.clockImage v = true ∧ p.timeStep d = { p with mem := p.mem.storeTime v } := by
  unfold Peer.timeStep
  split
  · exact .inl rfl
  · rename_i hch
    split
    · rename_i hv
      simp only [Bool.and_eq_true, Bool.not_eq_true'] at hv
      obtain ⟨⟨hrun, hvalid⟩, hlater⟩ := hv
      exact .inr ⟨_, Bool.eq_false_iff.2 hch, hrun, hvalid, hlater, rfl⟩
    · exact .inl rfl

/-- Settles O48: the time the timekeeper takes is valid, running and later; byte 7 of an image takes no part in that. -/
theorem timekeeperStepsToALaterValidTime : Obligations.TimekeeperStepsToALaterValidTime := by
  unfold Obligations.TimekeeperStepsToALaterValidTime
  intro d p hp
  refine ⟨fun h => Peer.timeStep_halted h d, fun k hk => Peer.timeStep_read hp d hk, ?_⟩
  obtain h | ⟨v, -, hrun, hvalid, hlater, h⟩ := p.timeStep_cases d
  · exact .inl (by rw [h])
  · rw [h]
    dsimp only
    rw [clockImage_storeTime hp]
    exact .inr ⟨hvalid, hrun, hlater⟩

/-! ## The absent peer -/

/-- With nobody driving `IO` a bit read is the free level at its sample (R23). -/
theorem readBit_absent {s : State} (hk : s.peerKind = .absent) (ho : s.pads.io.oe = false) (i : BitVec 3) :
    (readBit i s).sr = setBit s.sr i.toNat (Config.floatLevel .io (s.draws + 4)) := by
  have hoe : (padsAfter readBitEvents s.pads).io.oe = false := ho
  rw [readBit_sr, sampleIo, emitAll_peerKind, emitAll_pads, emitAll_draws, hk, ioLevel, hoe]
  rfl

theorem readByte_absent {s : State} (hk : s.peerKind = .absent) (ho : s.pads.io.oe = false) {i : Nat} (hi : i < 8) :
    (readByte s).sr.getLsbD i = Config.floatLevel .io (s.draws + 4 + 5 * i) := by
  rw [readByte_eq]
  dsimp only
  iterate 8 rw [readBit_absent (by simp [hk]) (by simp [ho])]
  interval_cases i <;> simp [getLsbD_setBit, -BitVec.getLsbD_eq_getElem]

/-- Settles O47: the first sample of `REGRD` is its fifty-eighth event, and five events make a bit. -/
theorem absentPeerReadsFloat : Obligations.AbsentPeerReadsFloat := by
  unfold Obligations.AbsentPeerReadsFloat
  intro x s t hk ht i hi
  rw [exec_next_result (i := .regrd x) rfl ht]
  show (regRead (readCommand x) (latchAddr x s)).rdata.getLsbD i = _
  rw [← regRead_sr, regRead]
  dsimp only
  rw [stopSession_sr, readByte_absent (by simp [hk]) (by simp) hi]
  simp only [writeByte_draws, startSession_draws, latchAddr_draws]
  congr 1

end Sys2Proof.Machine

/-! Proofs of the statements about the reference peer between sessions: the byte-level summary of its registers
(spec/20_memory.md R97), the round trip of a time record, and the command bytes it refuses. -/

namespace Sys2Proof.Machine

/-! ## Between sessions -/

theorem inv_wf {s : State} (h : s.inv = true) : s.peer.mem.wf = true := by
  simp only [State.inv, Bool.and_eq_true] at h
  exact h.1.1.1.1

theorem Rests.of {s : State} (hready : s.ready) (hinv : s.inv = true) (hk : s.peerKind = .reference)
    (hlost : s.peer.lost = none) : Rests s :=
  State.settled_of_calm hready (fun _ => ⟨hinv, hlost⟩) hk

theorem Rests.congr {s t : State} (h : Rests s) (hkind : t.peerKind = s.peerKind) (hpeer : t.peer = s.peer)
    (hpads : t.pads = s.pads) : Rests t :=
  State.settled.congr (fun _ => h) hkind hpeer hpads (hkind.trans h.kind)

/-- A reference peer at rest after an operation has not refused it. -/
theorem Rests.goesOn {s t : State} (h : Rests t) (hk : s.peerKind = .reference) :
    peerRefusal s.peerKind t.peer = none := by
  rw [hk]
  exact h.lost

/-- An operation that leaves the reference peer at rest completes. -/
theorem guarded_of_rests {s u : State} {pre : Option Refusal} (hpre : pre = none) (hk : s.peerKind = .reference)
    (h : Rests u) : guarded s pre u = .next { u with rspValid := true } :=
  guarded_next.2 ⟨hpre, h.goesOn hk, rfl⟩

/-! ## Reads -/

theorem exec_clkread (s : State) : exec .clkread s = guarded s (preSession s) (readClock s) := rfl

/-- The common part of `CLKREAD` and `GET` against a reference peer at rest (R250). -/
structure ClockRead (s u : State) : Prop where
  img : u.img = s.peer.mem.clockImage
  trec : u.trec = decodeImage s.peer.mem.clockImage
  ok : u.ok = true
  mem : u.peer.mem = s.peer.mem
  rests : Rests u
  conv : u.conv = s.conv

theorem readClock_reference {s : State} (h : Rests s) : ClockRead s (readClock s) := by
  obtain ⟨himg, hmem, hburst⟩ := burstRead_reference h
  exact ⟨by rw [readClock]; exact himg, by rw [readClock_trec, himg], by rw [readClock]; rfl,
    by rw [readClock_peer]; exact hmem, hburst.congr (by rw [readClock]) (readClock_peer s) (by rw [readClock]),
    readClock_conv s⟩

/-- Settles O42: each clause is the session of the operation from a peer at rest. -/
theorem referencePeerReads : Obligations.ReferencePeerReads := by
  unfold Obligations.ReferencePeerReads
  intro s hready hinv hk hlost
  have hrests := Rests.of hready hinv hk hlost
  have hpre : preSession s = none := preSession_none.2 hready
  obtain ⟨himg, hmem, hburst⟩ := burstRead_reference hrests
  refine ⟨fun x hx => ?_, fun x hx => ?_, ?_, ?_⟩
  · have hr : Rests (latchAddr x s) := hrests.congr rfl rfl rfl
    obtain ⟨hdata, hkeep, hend⟩ := regRead_reference hr (c := readCommand x) (by rw [writeCommand_readCommand]; exact hx)
      (commandIsRead_readCommand x)
    rw [writeCommand_readCommand, latchAddr_peer] at hdata
    exact ⟨_, guarded_of_rests hpre hk hend, hdata, hdata.trans (summaryRegRead_register hx _).symm,
      (regRead_emits (readCommand x) (latchAddr x s)).ev, hkeep⟩
  · have hr : Rests (latchAddr x s) := hrests.congr rfl rfl rfl
    have hc : readCommand x = 0xBF :=
      read_of_writeCommand_BE _ (by rw [writeCommand_readCommand, hx]) (commandIsRead_readCommand x)
    obtain ⟨hdata, hkeep, hend⟩ := regRead_clockBurst hr
    exact ⟨{ regRead 0xBF (latchAddr x s) with rspValid := true }, (exec_regrd x s).trans (by rw [hc]; exact guarded_of_rests hpre hk hend), hdata, hkeep⟩
  · exact ⟨_, guarded_of_rests hpre hk hburst, himg, himg, (burstRead_emits s).ev, hmem⟩
  · rw [exec_clkread, exec_get]
    have hread := readClock_reference hrests
    generalize readClock s = u at hread
    obtain ⟨himg', htrec, hok, hmem', hend, hconv⟩ := hread
    refine ⟨{ u with rspValid := true }, { u with lin := linOfTr u u.trec, rspValid := true },
      guarded_of_rests hpre hk hend, ?_, himg', htrec, hok, hmem', ?_⟩
    · exact guarded_of_rests hpre hk (u := { u with lin := linOfTr u u.trec }) (hend.congr rfl rfl rfl)
    · rw [linOfTr_congr hconv, htrec]

/-! ## Writes -/

theorem mem_burstKeys {k : Nat} : k ∈ burstKeys ↔
    k = 0x80 ∨ k = 0x82 ∨ k = 0x84 ∨ k = 0x86 ∨ k = 0x88 ∨ k = 0x8A ∨ k = 0x8C ∨ k = 0x8E := by
  simp [burstKeys]

theorem read_storeImage_of_not_mem {m : Memory} (hm : m.wf = true) (v : Image) {k : Nat} (hk : k ∉ burstKeys) :
    (m.storeImage v).read k = m.read k := by
  simp only [mem_burstKeys, not_or] at hk
  rw [Memory.read_storeImage hm]
  simp [hk]

/-- The registers after a write of one register (R95, R97). -/
theorem read_summaryRegWrite {m : Memory} (hm : m.wf = true) {x : Byte} (hx : isRegKey (writeCommand x).toNat = true)
    (d : Byte) (k : Nat) : (summaryRegWrite x d m).read k =
      if k = (writeCommand x).toNat ∧ (k = 0x8E ∨ (m.read 0x8E).getLsbD 7 = false) then d else m.read k := by
  rw [summaryRegWrite_register hx]
  by_cases h : (writeCommand x).toNat = 0x8E ∨ (m.read 0x8E).getLsbD 7 = false
  · rw [if_pos h, Memory.read_store hm]
    by_cases hk : k = (writeCommand x).toNat
    · subst hk
      rw [if_pos ⟨rfl, hx⟩, if_pos ⟨rfl, h⟩]
    · rw [if_neg fun e => hk e.1, if_neg fun e => hk e.1]
  · rw [if_neg h, if_neg]
    rintro ⟨rfl, e⟩
    exact h e

/-- A single write session of a register, from its operand. -/
theorem regWrite_summary {s : State} (h : Rests s) {x : Byte} (hx : isRegKey (writeCommand x).toNat = true) (d : Byte) :
    (regWrite (writeCommand x) d s).peer.mem = summaryRegWrite x d s.peer.mem ∧ Rests (regWrite (writeCommand x) d s) := by
  obtain ⟨hmem, hend⟩ := regWrite_reference h (c := writeCommand x) (by rw [writeCommand_writeCommand]; exact hx)
    (commandIsRead_writeCommand x) d
  rw [writeCommand_writeCommand] at hmem
  exact ⟨hmem.trans (summaryRegWrite_register hx d _).symm, hend⟩

/-- Settles O43: each clause is the session of the operation from a peer at rest. -/
theorem referencePeerWrites : Obligations.ReferencePeerWrites := by
  unfold Obligations.ReferencePeerWrites
  intro s hready hinv hk hlost
  have hrests := Rests.of hready hinv hk hlost
  have hpre : preSession s = none := preSession_none.2 hready
  have hwf := inv_wf hinv
  refine ⟨fun x d hx => ?_, fun x d hx => ?_, fun v => ?_⟩
  · have hr : Rests (latchData d (latchAddr x s)) := hrests.congr rfl rfl rfl
    obtain ⟨hmem, hend⟩ := regWrite_summary hr hx d
    exact ⟨_, guarded_of_rests hpre hk hend, (regWrite_emits (writeCommand x) d (latchData d (latchAddr x s))).ev, hmem,
      fun k => (congrArg (·.read k) hmem).trans (read_summaryRegWrite hwf hx d k)⟩
  · have hr : Rests (latchData d (latchAddr x s)) := hrests.congr rfl rfl rfl
    obtain ⟨hmem, hend⟩ := regWrite_clockBurst hr d
    exact ⟨{ regWrite 0xBE d (latchData d (latchAddr x s)) with rspValid := true }, (exec_regwr x d s).trans (by rw [hx]; exact guarded_of_rests hpre hk hend), hmem⟩
  · have hr : Rests (latchImage v s) := hrests.congr rfl rfl rfl
    obtain ⟨hmem, hend⟩ := burstWrite_reference hr
    have hsum : (burstWrite (latchImage v s)).peer.mem = summaryBurstWrite v s.peer.mem := hmem
    refine ⟨_, guarded_of_rests hpre hk hend, (burstWrite_emits (latchImage v s)).ev, hsum, fun hwp => ?_, fun hwp => ?_,
      fun k hkey => ?_⟩
    all_goals
      dsimp only
      rw [hsum, summaryBurstWrite]
    · rw [hwp, if_neg (by decide), Memory.clockImage_storeImage hwf]
    · rw [hwp, if_pos rfl]
    · split
      · rfl
      · exact read_storeImage_of_not_mem hwf v hkey

/-- Settles O46: `HALT` is the write of 0 to the enable/write-protect register. -/
theorem haltLeavesTheClockHaltFlag : Obligations.HaltLeavesTheClockHaltFlag := by
  unfold Obligations.HaltLeavesTheClockHaltFlag
  intro s hready hinv hk hlost
  obtain ⟨hmem, hend⟩ := regWrite_summary (Rests.of hready hinv hk hlost) (x := wpWriteCommand) (by decide) 0
  refine ⟨_, guarded_of_rests (preSession_none.2 hready) hk hend, fun k => ?_⟩
  refine (congrArg (·.read k) hmem).trans ((read_summaryRegWrite (inv_wf hinv) (by decide) 0 k).trans ?_)
  have hkey : (writeCommand wpWriteCommand).toNat = 0x8E := rfl
  rw [hkey]
  by_cases h : k = 0x8E
  · rw [if_pos ⟨h, .inl h⟩, if_pos h]
  · rw [if_neg fun e => h e.1, if_neg h]

/-! ## The round trip of a time record (R260) -/

/-- The registers after `CLKWRITE` or `SET`: write protection off, the trickle charger off, then the record (R252). -/
theorem writeClock_reference {s : State} (h : Rests s) (hwf : s.peer.mem.wf = true) :
    (writeClock s).peer.mem = ((s.peer.mem.store 0x8E 0).store 0x90 0).storeImage (encodeImage s.trec) ∧
      Rests (writeClock s) := by
  obtain ⟨hm1, h1⟩ := regWrite_reference h (c := wpWriteCommand) (by decide) (by decide) 0
  obtain ⟨hm2, h2⟩ := regWrite_reference h1 (c := tcsWriteCommand) (by decide) (by decide) 0
  have h3 : Rests (latchImage (encodeImage s.trec) (regWrite tcsWriteCommand 0 (regWrite wpWriteCommand 0 s))) :=
    h2.congr (latchImage_peerKind _ _) (latchImage_peer _ _) (latchImage_pads _ _)
  obtain ⟨hm3, h4⟩ := burstWrite_reference h3
  have hm1' : (regWrite wpWriteCommand 0 s).peer.mem = s.peer.mem.store 0x8E 0 := hm1.trans (if_pos (.inl rfl))
  have hoff1 : (regWrite wpWriteCommand 0 s).peer.writeProtected = false := by
    rw [Peer.writeProtected, hm1', Memory.read_store hwf, if_pos ⟨rfl, rfl⟩]
    rfl
  have hm2' : (regWrite tcsWriteCommand 0 (regWrite wpWriteCommand 0 s)).peer.mem = (s.peer.mem.store 0x8E 0).store 0x90 0 := by
    rw [hm2, if_pos (.inr hoff1), hm1']
    rfl
  have hoff2 : (regWrite tcsWriteCommand 0 (regWrite wpWriteCommand 0 s)).peer.writeProtected = false := by
    rw [Peer.writeProtected, hm2', Memory.read_store (Memory.store_wf hwf _ _), if_neg (by decide), Memory.read_store hwf,
      if_pos ⟨rfl, rfl⟩]
    rfl
  rw [latchImage_peer, hoff2, if_neg (by decide), hm2', latchImage_img] at hm3
  exact ⟨by rw [writeClock_peer]; exact hm3, h4.congr (by simp) (writeClock_peer s) (by simp)⟩

/-- What the registers hold then, key by key. -/
theorem read_writtenClock {m : Memory} (hm : m.wf = true) (r : TRec) :
    (((m.store 0x8E 0).store 0x90 0).storeImage (encodeImage r)).clockImage = encodeImage r ∧
      (((m.store 0x8E 0).store 0x90 0).storeImage (encodeImage r)).read 0x90 = 0 ∧
      (((m.store 0x8E 0).store 0x90 0).storeImage (encodeImage r)).read 0x8E = 0 ∧
      ∀ k, k ∉ 0x90 :: burstKeys → (((m.store 0x8E 0).store 0x90 0).storeImage (encodeImage r)).read k = m.read k := by
  have h1 := Memory.store_wf hm 0x8E 0
  have h2 := Memory.store_wf h1 0x90 0
  refine ⟨Memory.clockImage_storeImage h2 _, ?_, ?_, fun k hk => ?_⟩
  · rw [Memory.read_storeImage_other h2 _ (by decide), Memory.read_store h1]
    rfl
  · rw [Memory.read_storeImage h2]
    rfl
  · rw [List.mem_cons, not_or] at hk
    have h8E : k ≠ 0x8E := fun e => hk.2 (mem_burstKeys.2 (by simp [e]))
    rw [read_storeImage_of_not_mem h2 _ hk.2, Memory.read_store h1, if_neg fun e => hk.1 e.1, Memory.read_store hm,
      if_neg fun e => h8E e.1]

/-- `CLKWRITE` and `SET` with their operand latched. -/
theorem exec_writeClock {i : Instr} {r : TRec} {s : State} (hi : i = .clkwrite r ∨ ∃ l, i = .set l ∧ trOfLin s l = r) :
    ∃ u : State, exec i s = guarded s (preClkwrite r s) (writeClock u) ∧ u.trec = r ∧ u.peerKind = s.peerKind ∧
      u.peer = s.peer ∧ u.pads = s.pads ∧ u.conv = s.conv ∧ u.present = s.present ∧ u.seq = s.seq ∧ u.draws = s.draws := by
  obtain rfl | ⟨l, rfl, rfl⟩ := hi
  · exact ⟨latchTRec r s, rfl, rfl, rfl, rfl, rfl, rfl, rfl, rfl, rfl⟩
  · exact ⟨latchTRec (trOfLin s l) (latchLin l s), rfl, rfl, rfl, rfl, rfl, rfl, rfl, rfl, rfl⟩

/-- `CLKREAD` and `GET` against a reference peer at rest. -/
theorem exec_readClock_reference {j : Instr} (hj : j = .clkread ∨ j = .get) {s : State} (hready : s.ready) (h : Rests s) :
    ∃ u, exec j s = .next u ∧ u.trec = decodeImage s.peer.mem.clockImage ∧ u.ok = true ∧
      (j = .get → u.lin = linOfTr s u.trec) ∧ u.peer.mem = s.peer.mem := by
  have hread := readClock_reference h
  have hpre : preSession s = none := preSession_none.2 hready
  rcases hj with rfl | rfl
  · rw [exec_clkread]
    generalize readClock s = u at hread
    exact ⟨_, guarded_of_rests hpre h.kind hread.rests, hread.trec, hread.ok, fun e => Instr.noConfusion e, hread.mem⟩
  · rw [exec_get]
    generalize readClock s = u at hread
    exact ⟨_, guarded_of_rests hpre h.kind (u := { u with lin := linOfTr u u.trec }) (hread.rests.congr rfl rfl rfl),
      hread.trec, hread.ok, fun _ => linOfTr_congr hread.conv _, hread.mem⟩

/-- Settles O45: `DECODE` of the image in the registers is `DECODE(ENCODE(r))`. -/
theorem writtenTimeIsReadBack : Obligations.WrittenTimeIsReadBack := by
  unfold Obligations.WrittenTimeIsReadBack
  intro i j r s hready hinv hk hlost hi hj hr
  have hwf := inv_wf hinv
  obtain ⟨u, hexec, htrec, hukind, hupeer, hupads, huconv, hupresent, huseq, -⟩ := exec_writeClock hi
  have hu : Rests u := (Rests.of hready hinv hk hlost).congr hukind hupeer hupads
  obtain ⟨hmem, hend⟩ := writeClock_reference hu (by rw [hupeer]; exact hwf)
  rw [hupeer, htrec] at hmem
  obtain ⟨hclk, htcs, hwp, hother⟩ := read_writtenClock hwf r
  have hpre : preClkwrite r s = none := preClkwrite_none.2 ⟨hready, hr⟩
  obtain ⟨hp, hq, -⟩ := hready
  have hready' : (writeClock u).ready :=
    ⟨by rw [writeClock_present, hupresent, hp], by rw [writeClock_seq, huseq, hq], writeClock_sess u⟩
  have htrec' : (writeClock u).trec = r := (writeClock_trec u).trans htrec
  have hok := writeClock_ok u
  have hconv : (writeClock u).conv = s.conv := (writeClock_conv u).trans huconv
  rw [hexec]
  generalize writeClock u = v at hmem hend hready' htrec' hok hconv
  have hend' : Rests { v with rspValid := true } := hend.congr rfl rfl rfl
  obtain ⟨w, hw, hwtrec, hwok, hwlin, hwmem⟩ := exec_readClock_reference hj (s := { v with rspValid := true }) hready' hend'
  have hwtrec' : w.trec = r := by
    rw [hwtrec]
    dsimp only
    rw [hmem, hclk, decodeOfEncodeIsTheRecord r hr]
  refine ⟨{ v with rspValid := true }, w, guarded_of_rests hpre hk hend, hw, htrec', hok, hwtrec', hwok, fun e => ?_, ?_, ?_,
    ?_, ?_, hwmem⟩
  · rw [hwlin e, hwtrec']
    exact linOfTr_congr hconv r
  all_goals
    dsimp only
    rw [hmem]
  · exact hclk
  · exact htcs
  · rw [hwp]
    rfl
  · exact hother

end Sys2Proof.Machine

/-! Proofs of the statements about the reference peer within a session (spec/20_memory.md R91 to R95): whole bytes, the
commands it refuses, and the registers an operation may change. -/

namespace Sys2Proof.Machine

/-! ## Events within a session -/

/-- The event leaves `CE` and the direction of `SCLK` alone, as every event of a byte does. -/
def Event.within : Event → Bool
  | .drv .ce _ => false
  | .dir .ce _ => false
  | .dir .sclk _ => false
  | _ => true

theorem writeByteEvents_within (d : Byte) (r : Bool) : ∀ e ∈ writeByteEvents d r, e.within = true := by
  intro e he
  simp only [writeByteEvents, bitOrder, writeBitEvents, List.mem_flatMap, List.mem_append] at he
  obtain ⟨i, -, he | he⟩ := he
  · simp only [List.mem_cons, List.not_mem_nil, or_false] at he
    rcases he with rfl | rfl | rfl | rfl <;> rfl
  · split at he <;> simp only [List.mem_cons, List.not_mem_nil, or_false] at he
    · subst he; rfl
    · rcases he with rfl | rfl <;> rfl

theorem readByteEvents_within (b : Byte) : ∀ e ∈ readByteEvents b, e.within = true := by
  simp [readByteEvents, bitOrder, readBitEvents, Event.within]

theorem writeByteEvents_ups (d : Byte) (r : Bool) : (writeByteEvents d r).count (.drv .sclk true) = 8 := by
  cases r <;> simp [writeByteEvents, bitOrder, writeBitEvents]

theorem readByteEvents_ups (b : Byte) : (readByteEvents b).count (.drv .sclk true) = 8 := by
  simp [readByteEvents, bitOrder, readBitEvents]

theorem ceLevel_within {e : Event} (he : e.within = true) (pd : Pads) : ceLevel (e.onPads pd) = ceLevel pd :=
  ceLevel_onPads (by rintro v rfl; cases he) (by rintro a rfl; cases he) pd

/-- Within a session the clock rises by one event alone. -/
theorem sclk_rise_within {e : Event} (he : e.within = true) {pd : Pads} {d : Nat} (h0 : sclkLevel pd d = false)
    (h1 : sclkLevel (e.onPads pd) d = true) : e = .drv .sclk true := by
  rcases e with ⟨l, v⟩ | ⟨l, a⟩ | b | t
  · cases l with
    | ce => cases he
    | io => rw [show sclkLevel ((Event.drv .io v).onPads pd) d = sclkLevel pd d from rfl, h0] at h1; cases h1
    | sclk =>
      cases v with
      | true => rfl
      | false => cases hoe : pd.sclk.oe <;> simp_all [sclkLevel, Event.onPads, Pads.setOut]
  · cases l with
    | ce => cases he
    | sclk => cases he
    | io => cases a <;> exact absurd (h0.symm.trans h1) (by decide)
  · exact absurd (h0.symm.trans h1) (by decide)
  · exact absurd (h0.symm.trans h1) (by decide)

/-- What an event within a session can do to a peer: nothing, a rising edge, or a falling edge. -/
theorem Peer.edges_within {e : Event} (he : e.within = true) (k : PeerKind) (pd : Pads) (d : Nat) (p : Peer) :
    p.edges k pd (e.onPads pd) d = p ∨
      (p.lost = none ∧ e = .drv .sclk true ∧ ∃ b, p.edges k pd (e.onPads pd) d = p.rise b) ∨
      (p.lost = none ∧ p.edges k pd (e.onPads pd) d = p.fall) := by
  have hce := ceLevel_within he pd
  by_cases hlost : p.lost = none
  · by_cases hact : p.act = true
    · cases h0 : sclkLevel pd d <;> cases h1 : sclkLevel (e.onPads pd) d
      · exact .inl (Peer.edges_quiet k hce (h1.trans h0.symm) p)
      · exact .inr (.inl ⟨hlost, sclk_rise_within he h0 h1, _, Peer.edges_rise hce h0 h1 hact hlost⟩)
      · exact .inr (.inr ⟨hlost, Peer.edges_fall hce h0 h1 hact hlost⟩)
      · exact .inl (Peer.edges_quiet k hce (h1.trans h0.symm) p)
    · exact .inl (Peer.edges_idle hce (Bool.eq_false_iff.2 hact))
  · exact .inl (Peer.edges_lost hce (Option.isSome_iff_ne_none.2 hlost))

/-- What holds of a peer within a session, with a bound on the rising edges it has seen: kept by an edge, by none, and by
the timekeeper if there is one. -/
structure KeptWithin (k : PeerKind) (P : Nat → Peer → Prop) : Prop where
  rise : ∀ {c p} (b : Bool), P c p → p.lost = none → P (c + 1) (p.rise b)
  fall : ∀ {c p}, P c p → p.lost = none → P c p.fall
  skip : ∀ {c p}, P c p → P (c + 1) p
  tick : ∀ {c p} (d : Nat), k = .chip → P c p → P c (p.timeStep d)

theorem KeptWithin.skips {k : PeerKind} {P : Nat → Peer → Prop} (h : KeptWithin k P) {c : Nat} {p : Peer} (hp : P c p)
    (n : Nat) : P (c + n) p := by
  induction n with
  | zero => exact hp
  | succ n ih => exact h.skip ih

theorem KeptWithin.edges {k : PeerKind} {P : Nat → Peer → Prop} (h : KeptWithin k P) {e : Event} (he : e.within = true)
    {c : Nat} {p : Peer} (hp : P c p) (pd : Pads) (d : Nat) :
    P (c + [e].count (.drv .sclk true)) (p.edges k pd (e.onPads pd) d) := by
  obtain hsame | ⟨hlost, rfl, b, hrise⟩ | ⟨hlost, hfall⟩ := Peer.edges_within he k pd d p
  · rw [hsame]; exact h.skips hp _
  · rw [hrise]; exact h.rise b hp hlost
  · rw [hfall]; exact h.skips (h.fall hp hlost) _

/-- It then holds after the events of a session. -/
theorem KeptWithin.peerAfter {k : PeerKind} {P : Nat → Peer → Prop} (h : KeptWithin k P) {es : List Event}
    (hes : ∀ e ∈ es, e.within = true) {c : Nat} {p : Peer} (hp : P c p) (pd : Pads) (d : Nat) :
    P (c + es.count (.drv .sclk true)) (Machine.peerAfter k es pd d p) := by
  induction es generalizing c p pd d with
  | nil => exact hp
  | cons e es ih =>
    have he := hes e List.mem_cons_self
    have hone : P (c + [e].count (.drv .sclk true)) (peerReact k pd (e.onPads pd) d p) := by
      cases k with
      | absent => exact h.skips hp _
      | oracle => exact h.skips hp _
      | reference => exact h.edges he hp pd d
      | chip => exact h.edges he (h.tick d rfl hp) pd d
    have hrest := ih (fun f hf => hes f (List.mem_cons_of_mem e hf)) hone (e.onPads pd) (d + 1)
    rw [show e :: es = [e] ++ es from rfl, List.count_append, ← Nat.add_assoc]
    exact hrest

/-! ## Whole bytes with the reference peer -/

theorem openLines_out {s : State} (h : s.openLines = true) (hh : s.hist = .fresh ∨ s.hist = .written) :
    s.pads = linesOut false s.pads.io.out := by
  rcases hp : s.pads with ⟨⟨ceo, cee⟩, ⟨clko, clke⟩, ⟨ioo, ioe⟩⟩
  rcases hh with hh | hh <;> simp_all [State.openLines, linesOut]

theorem openLines_in {s : State} (h : s.openLines = true) (hh : s.hist = .released ∨ s.hist = .reading) :
    ∃ c, s.pads = linesIn c s.pads.io.out ∧ (s.hist = .reading ∨ s.pads.sclk.out = true) := by
  rcases hp : s.pads with ⟨⟨ceo, cee⟩, ⟨clko, clke⟩, ⟨ioo, ioe⟩⟩
  rcases hh with hh | hh <;> simp_all [State.openLines, linesIn]

theorem inv_act {s : State} (h : s.inv = true) (hk : s.peerKind = .reference ∨ s.peerKind = .chip) :
    s.peer.act = (s.sess == .opened) ∧ (s.peer.act = true ∨ s.peer.drv = false) := by
  simp only [State.inv, Bool.and_eq_true, State.peerInStep] at h
  obtain ⟨⟨⟨-, hin⟩, -⟩, -⟩ := h
  rcases hk with hk | hk <;> rw [hk] at hin <;> simpa using hin

/-- The command bytes the reference peer knows change in it only what a snapshot fills (R93). -/
theorem Peer.decodeCommand_known {p : Peer} (h : isRegKey (writeCommand p.cmd).toNat = true ∨ writeCommand p.cmd = 0xBE) :
    ∃ b, p.decodeCommand = { p with buf := b } := by
  rcases h with h | h
  · rw [Peer.decodeCommand_register h]
    split
    · exact ⟨_, rfl⟩
    · exact ⟨p.buf, rfl⟩
  · cases hr : commandIsRead p.cmd with
    | true => exact ⟨_, Peer.decodeCommand_burstRead (read_of_writeCommand_BE _ h hr)⟩
    | false =>
      rw [writeCommand_of_write _ hr] at h
      exact ⟨p.buf, Peer.decodeCommand_burstWrite h⟩

theorem Peer.len_pos (p : Peer) : 0 < p.len := by
  unfold Peer.len
  split <;> decide

/-- A falling edge before the end of a frame refuses nothing, and changes neither the command nor a register. -/
theorem Peer.fall_early {p : Peer} (h : p.f < 8 * p.len) : p.fall.lost = p.lost ∧ p.fall.cmd = p.cmd ∧
    p.fall.n = p.n ∧ p.fall.mem = p.mem := by
  unfold Peer.fall
  rw [if_neg (Nat.not_le.2 h)]
  repeat' split
  all_goals exact ⟨rfl, rfl, rfl, rfl⟩

/-- Settles O25: each clause is the peer's part of one byte, from the lines of the invariant. -/
theorem referencePeerExchangesWholeBytes : Obligations.ReferencePeerExchangesWholeBytes := by
  unfold Obligations.ReferencePeerExchangesWholeBytes
  intro s hpresent hidle hsess hinv hk hlost
  have hlines := inv_openLines hinv hsess
  have hact : s.peer.act = true := by rw [(inv_act hinv (.inl hk)).1, hsess]; rfl
  refine ⟨fun d rel hh hn hf hdrv hd => ?_, fun d j hh hdrv hr hn hj => ?_, fun j hh hr hn hf hj => ?_⟩
  · have hpads := openLines_out hlines (.inl hh)
    have hpeer := writeByte_reference (s := latchData d s) hk hpads d rel
    rw [peerAfter_command (p := (latchData d s).peer) ⟨hact, hlost, hdrv⟩ hn] at hpeer
    obtain ⟨b, hb⟩ := Peer.decodeCommand_known (p := { s.peer with cmd := d, n := 8 }) hd
    have hfall := Peer.fall_early (p := { s.peer with cmd := d, n := 8, buf := b })
      (by dsimp only; rw [hf]; exact Nat.mul_pos (by decide) (Peer.len_pos _))
    have key : (writeByte d rel (latchData d s)).peer.lost = none ∧ (writeByte d rel (latchData d s)).peer.cmd = d ∧
        (writeByte d rel (latchData d s)).peer.n = 8 ∧ (writeByte d rel (latchData d s)).peer.mem = s.peer.mem := by
      rw [hpeer, latchData_peer, hb]
      cases rel with
      | true => exact ⟨hlost, rfl, rfl, rfl⟩
      | false =>
        have hseen : Peer.fallIfSeen { s.peer with cmd := d, n := 8, buf := b } =
            Peer.fall { s.peer with cmd := d, n := 8, buf := b } := by rw [Peer.fallIfSeen]; simp [hlost]
        rw [if_neg (by decide), hseen]
        exact ⟨hfall.1.trans hlost, hfall.2⟩
    obtain ⟨hl, hc, hn', hm⟩ := key
    exact ⟨_, guarded_next.2 ⟨preWrbyte_none.2 ⟨hpresent, hidle, hsess, by rw [hpads]; rfl, by rw [hpads]; rfl, fun _ => hh⟩,
      by rw [hk]; exact hl, rfl⟩, hc, hn', hm⟩
  · have hpads := openLines_out hlines (.inr hh)
    have hpeer := writeByte_reference (s := latchData d s) hk hpads d false
    rw [peerAfter_data (p := (latchData d s).peer) ⟨hact, hlost, hdrv⟩ hr hn hj, latchData_peer] at hpeer
    refine ⟨_, guarded_next.2 ⟨preWrbyte_none.2 ⟨hpresent, hidle, hsess, by rw [hpads]; rfl, by rw [hpads]; rfl,
      fun e => Bool.noConfusion e⟩, ?_, rfl⟩, ?_, ?_⟩
    · rw [hk, hpeer]
      exact (Peer.commit_lost _).trans hlost
    · dsimp only
      rw [hpeer, Peer.commit_n, hn]
      exact Nat.mul_succ 8 j ▸ rfl
    · dsimp only
      rw [hpeer, Peer.commit_buf]
  · obtain ⟨c, hpads, hclk⟩ := openLines_in hlines hh
    obtain ⟨⟨n, -, hpeer⟩, hsr⟩ := readByte_reference (s := s) ⟨hk, hpads, hact, hlost, hn, hr⟩ hf hj
    refine ⟨_, guarded_next.2 ⟨preRdbyte_none.2 ⟨hpresent, hidle, hsess, by rw [hpads]; rfl, hclk⟩, ?_, rfl⟩, hsr, ?_, ?_⟩
    · dsimp only
      rw [hk, hpeer]
      exact hlost
    · dsimp only
      rw [hpeer, hf]
      exact Nat.mul_succ 8 j
    · dsimp only
      rw [hpeer]

/-! ## The commands the reference peer refuses (R64, R93) -/

/-- The reason for which a command byte of no register and no clock burst is refused. -/
def silentOn (c : Byte) : PeerStop :=
  if c.getLsbD 7 = false then .commandBit7Clear else if commandSpace c then .ramBurst else .clockUnassigned

theorem silentOn_facts : ∀ c : Byte, isRegKey (writeCommand c).toNat = false → writeCommand c ≠ 0xBE →
    c.getLsbD 7 = false ∨ (c.getLsbD 7 = true ∧ commandSpace c = true ∧ commandNumber c = 31) ∨
      (c.getLsbD 7 = true ∧ commandSpace c = false ∧ 9 ≤ (commandNumber c).toNat ∧ (commandNumber c).toNat ≤ 30) := by
  decide +kernel

theorem silentOn_readCommand : ∀ x : Byte, silentOn (readCommand x) = silentOn (writeCommand x) := by decide +kernel

theorem Peer.decodeCommand_silent {p : Peer} (h : isRegKey (writeCommand p.cmd).toNat = false)
    (h' : writeCommand p.cmd ≠ 0xBE) : p.decodeCommand = p.lose (silentOn p.cmd) := by
  unfold Peer.decodeCommand Peer.cmdSpace Peer.cmdNumber silentOn
  obtain h7 | ⟨h7, hs, hn⟩ | ⟨h7, hs, hn, hn'⟩ := silentOn_facts p.cmd h h'
  · simp only [h7, Bool.not_false, if_true]
  · rw [h7, hs, hn]; rfl
  · rw [h7, hs, decide_eq_true hn, decide_eq_true hn']; rfl

/-- A peer that has refused sees nothing more of its session (R91). -/
theorem peerAfter_lost {es : List Event} (hes : ∀ e ∈ es, e.within = true) {p : Peer} (hp : p.lost.isSome = true) (pd : Pads)
    (d : Nat) : peerAfter .reference es pd d p = p := by
  induction es generalizing pd d with
  | nil => rfl
  | cons e es ih =>
    have hsame : peerReact .reference pd (e.onPads pd) d p = p :=
      Peer.edges_lost (ceLevel_within (hes e List.mem_cons_self) pd) hp
    rw [peerAfter, hsame]
    exact ih (fun f hf => hes f (List.mem_cons_of_mem e hf)) _ _

/-- The command byte is refused at its last edge. -/
theorem writeByte_silent {s : State} (h : Rests s) {c : Byte} (hc : isRegKey (writeCommand c).toNat = false)
    (hc' : writeCommand c ≠ 0xBE) (r : Bool) : (writeByte c r (startSession s)).peer.lost = some (silentOn c) := by
  obtain ⟨hl, hn⟩ := h.listens
  rw [writeByte_reference ((startSession_peerKind s).trans h.kind) h.lines, peerAfter_command hl hn,
    Peer.decodeCommand_silent (p := { (startSession s).peer with cmd := c, n := 8 }) hc hc']
  cases r <;> rfl

/-- What follows a refused command byte in its session keeps the reason. -/
theorem stopSession_lost {s t : State} {es : List Event} (hk : s.peerKind = .reference) (hem : Emits s es t)
    (hes : ∀ e ∈ es, e.within = true) {r : PeerStop} (hlost : s.peer.lost = some r) (hoe : t.pads.ce.oe = true)
    (hout : t.pads.ce.out = true) : (stopSession t).peer.lost = some r := by
  have hp : s.peer.lost.isSome = true := by rw [hlost]; rfl
  have hpeer : t.peer = s.peer := by rw [hem.peer, hk, peerAfter_lost hes hp]
  rw [stopSession_reference (hem.kind.trans hk) hoe hout, hpeer]
  exact hlost

theorem regWrite_silent {s : State} (h : Rests s) {c : Byte} (hc : isRegKey (writeCommand c).toNat = false)
    (hc' : writeCommand c ≠ 0xBE) (d : Byte) : (regWrite c d s).peer.lost = some (silentOn c) :=
  stopSession_lost (by simp [h.kind]) (writeByte_emits d false (writeByte c false (startSession s)))
    (writeByteEvents_within d false) (writeByte_silent h hc hc' false) (by simp) (by simp)

theorem regRead_silent {s : State} (h : Rests s) {c : Byte} (hc : isRegKey (writeCommand c).toNat = false)
    (hc' : writeCommand c ≠ 0xBE) : (regRead c s).peer.lost = some (silentOn c) := by
  rw [regRead_peer]
  exact stopSession_lost (by simp [h.kind]) (readByte_emits (writeByte c true (startSession s)))
    (readByteEvents_within _) (writeByte_silent h hc hc' true) (by simp) (by simp)

theorem guarded_refused {s t : State} (hk : s.peerKind = .reference) {r : PeerStop} (h : t.peer.lost = some r) :
    guarded s none t = .refused (.peerRefuses r) := by
  rw [guarded, finish, hk, peerRefusal, h]

/-- Settles O44: the reason is that of the command byte, whatever its direction bit, and stays to the end. -/
theorem referencePeerRefusesUnassignedCommands : Obligations.ReferencePeerRefusesUnassignedCommands := by
  unfold Obligations.ReferencePeerRefusesUnassignedCommands
  intro x s hready hinv hk hlost hx hx'
  have hrests := Rests.of hready hinv hk hlost
  have hpre : preSession s = none := preSession_none.2 hready
  refine ⟨silentOn (writeCommand x), fun d => ?_, ?_, ?_⟩
  · have hr : Rests (latchData d (latchAddr x s)) := hrests.congr rfl rfl rfl
    rw [exec_regwr, hpre]
    exact guarded_refused hk (regWrite_silent hr (by rw [writeCommand_writeCommand, hx]) (by rwa [writeCommand_writeCommand]) d)
  · have hr : Rests (latchAddr x s) := hrests.congr rfl rfl rfl
    rw [exec_regrd, hpre, ← silentOn_readCommand]
    exact guarded_refused hk (regRead_silent hr (by rw [writeCommand_readCommand, hx]) (by rwa [writeCommand_readCommand]))
  · unfold silentOn
    split
    · exact .inl rfl
    · split
      · exact .inr (.inl rfl)
      · exact .inr (.inr rfl)

/-! ## The registers an operation of the engine changes -/

theorem Peer.decodeCommand_n (p : Peer) : p.decodeCommand.n = p.n := by
  unfold Peer.decodeCommand Peer.lose
  repeat' split
  all_goals rfl

theorem Peer.rise_n_le (b : Bool) (p : Peer) : (p.rise b).n ≤ p.n + 1 := by
  unfold Peer.rise
  repeat' split
  · rw [Peer.decodeCommand_n]
    dsimp only
    omega
  · exact Nat.le_refl _
  · exact Nat.le_refl _
  · exact Nat.le_succ _
  · rw [Peer.commit_n]

theorem Peer.fall_n (p : Peer) : p.fall.n = p.n := by
  unfold Peer.fall Peer.lose
  repeat' split
  all_goals rfl

theorem Peer.fall_cmd (p : Peer) : p.fall.cmd = p.cmd := by
  unfold Peer.fall Peer.lose
  repeat' split
  all_goals rfl

/-- A rising edge before the last bit of a first data byte stores nothing (R95). -/
theorem Peer.rise_mem_early {p : Peer} (h : p.n < 15) (b : Bool) : (p.rise b).mem = p.mem := by
  have hlen := p.len_pos
  unfold Peer.rise
  repeat' split
  · rw [Peer.decodeCommand_mem]
  · rfl
  · rfl
  · rfl
  · rw [Peer.commit_early]
    show p.n + 1 ≠ 8 + 8 * p.len
    omega

/-- Once the command byte is complete it stays (R84). -/
theorem Peer.rise_cmd {p : Peer} (h : 8 ≤ p.n) (b : Bool) : (p.rise b).cmd = p.cmd ∧ 8 ≤ (p.rise b).n := by
  unfold Peer.rise
  rw [if_neg (Nat.not_lt.2 h)]
  repeat' split
  · exact ⟨rfl, Nat.le_succ_of_le h⟩
  · exact ⟨rfl, h⟩
  · exact ⟨Peer.commit_cmd _, by rw [Peer.commit_n]; exact Nat.le_succ_of_le h⟩

theorem peerStores_congr {p q : Peer} (hp : 8 ≤ p.n) (hq : 8 ≤ q.n) (h : q.cmd = p.cmd) : peerStores q = peerStores p := by
  unfold peerStores Peer.clockBurst Peer.cmdSpace Peer.cmdNumber
  rw [if_neg (Nat.not_lt.2 hp), if_neg (Nat.not_lt.2 hq), h]

/-- The commit check stores only to the registers the command names (R95). -/
theorem Peer.commit_read {p : Peer} (hm : p.mem.wf = true) (hn : 8 ≤ p.n) {k : Nat} (hk : k ∉ peerStores p) :
    p.commit.mem.read k = p.mem.read k := by
  unfold peerStores at hk
  rw [if_neg (Nat.not_lt.2 hn)] at hk
  unfold Peer.commit
  split
  · rfl
  · split
    · rename_i hb
      rw [if_pos hb] at hk
      split
      · rfl
      · exact read_storeImage_of_not_mem hm _ hk
    · rename_i hb
      rw [if_neg hb, List.mem_singleton] at hk
      split
      · dsimp only
        rw [Memory.read_store hm, if_neg fun e => hk e.1]
      · rfl

theorem Peer.rise_read {p : Peer} (hm : p.mem.wf = true) (hn : 8 ≤ p.n) {k : Nat} (hk : k ∉ peerStores p) (b : Bool) :
    (p.rise b).mem.read k = p.mem.read k := by
  unfold Peer.rise
  rw [if_neg (Nat.not_lt.2 hn)]
  repeat' split
  · rfl
  · rfl
  · refine Peer.commit_read (p := { p with buf := _, n := p.n + 1 }) hm (Nat.le_succ_of_le hn) ?_
    exact (peerStores_congr (p := p) (q := { p with buf := _, n := p.n + 1 }) hn (Nat.le_succ_of_le hn) rfl) ▸ hk

/-- Within the command byte and the first data byte no register of the reference peer changes before its last bit. -/
theorem keptWithin_early (m : Memory) :
    KeptWithin .reference fun c p => c ≤ 8 → p.mem = m ∧ p.n ≤ 7 + c where
  rise b h _ hc := by
    obtain ⟨hm, hn⟩ := h (by omega)
    exact ⟨(Peer.rise_mem_early (by omega) b).trans hm, (Peer.rise_n_le b _).trans (by omega)⟩
  fall h _ hc := by rw [Peer.fall_mem, Peer.fall_n]; exact h hc
  skip h hc := ⟨(h (by omega)).1, (h (by omega)).2.trans (by omega)⟩
  tick _ hk := PeerKind.noConfusion hk

/-- After the command byte the reference peer changes only the registers the command names. -/
theorem keptWithin_stores {p0 : Peer} (hn0 : 8 ≤ p0.n) {k : Nat} (hk : k ∉ peerStores p0) (v : Byte) :
    KeptWithin .reference fun _ p => 8 ≤ p.n ∧ p.cmd = p0.cmd ∧ p.mem.wf = true ∧ p.mem.read k = v where
  rise b h _ := by
    obtain ⟨hn, hcmd, hm, hv⟩ := h
    obtain ⟨hcmd', hn'⟩ := Peer.rise_cmd hn b
    exact ⟨hn', hcmd'.trans hcmd, Peer.rise_wf hm b,
      (Peer.rise_read hm hn (by rw [peerStores_congr hn0 hn hcmd]; exact hk) b).trans hv⟩
  fall h _ := by rw [Peer.fall_mem, Peer.fall_n, Peer.fall_cmd]; exact h
  skip h := h
  tick _ hk := PeerKind.noConfusion hk

/-- One byte changes only the registers the peer's command names. -/
theorem peerAfter_byte_read {es : List Event} (hes : ∀ e ∈ es, e.within = true) (hups : es.count (.drv .sclk true) = 8)
    {p : Peer} (hm : p.mem.wf = true) {k : Nat} (hk : k ∉ peerStores p) (pd : Pads) (d : Nat) :
    (peerAfter .reference es pd d p).mem.read k = p.mem.read k := by
  by_cases hn : p.n < 8
  · have h := (keptWithin_early p.mem).peerAfter hes (c := 0) (p := p) (fun _ => ⟨rfl, by omega⟩) pd d
    rw [hups] at h
    rw [(h (by omega)).1]
  · have hn' : 8 ≤ p.n := Nat.not_lt.1 hn
    exact ((keptWithin_stores hn' hk (p.mem.read k)).peerAfter hes (c := 0) (p := p) ⟨hn', rfl, hm, rfl⟩ pd d).2.2.2

/-! ## The registers any operation changes -/

theorem Emits.goesOn {s t : State} {es : List Event} (h : Emits s es t) (ht : peerRefusal s.peerKind t.peer = none) :
    peerRefusal s.peerKind s.peer = none := by
  rw [h.peer, ← emitAll_peer] at ht
  exact peerRefusal_emitAll ht

/-- An operation that completes against the reference peer began with one that had refused nothing. -/
theorem exec_next_lost {i : Instr} {op : Op} (h : opOf i = some op) {s t : State} (hk : s.peerKind = .reference)
    (ht : exec i s = .next t) : s.peer.lost = none := by
  obtain ⟨b, v, hem⟩ := exec_emits h ht
  have hgo : peerRefusal s.peerKind t.peer = none := by
    obtain ⟨-, hgo, rfl⟩ := (exec_next h).1 ht
    exact hgo
  have := hem.goesOn hgo
  rwa [hk] at this

/-- A read of a single byte changes no register of the reference peer. -/
theorem exec_regrd_mem {x : Byte} {s t : State} (hready : s.ready) (hinv : s.inv = true) (hk : s.peerKind = .reference)
    (hlost : s.peer.lost = none) (ht : exec (.regrd x) s = .next t) : t.peer.mem = s.peer.mem := by
  obtain ⟨hreg, hburst, -⟩ := referencePeerReads s hready hinv hk hlost
  by_cases hx : isRegKey (writeCommand x).toNat = true
  · obtain ⟨u, hu, -, -, -, hmem⟩ := hreg x hx
    obtain rfl := Host.Outcome.next.inj (hu.symm.trans ht)
    exact hmem
  · by_cases hx' : writeCommand x = 0xBE
    · obtain ⟨u, hu, -, hmem⟩ := hburst x hx'
      obtain rfl := Host.Outcome.next.inj (hu.symm.trans ht)
      exact hmem
    · obtain ⟨why, -, href, -⟩ := referencePeerRefusesUnassignedCommands x s hready hinv hk hlost (Bool.eq_false_iff.2 hx) hx'
      rw [href] at ht
      cases ht

/-- A write of a single byte changes only the register its command byte names. -/
theorem exec_regwr_mem {x d : Byte} {s t : State} (hready : s.ready) (hinv : s.inv = true) (hk : s.peerKind = .reference)
    (hlost : s.peer.lost = none) (ht : exec (.regwr x d) s = .next t) {k : Nat} (hkey : k ≠ (writeCommand x).toNat) :
    t.peer.mem.read k = s.peer.mem.read k := by
  obtain ⟨hreg, hburst, -⟩ := referencePeerWrites s hready hinv hk hlost
  by_cases hx : isRegKey (writeCommand x).toNat = true
  · obtain ⟨u, hu, -, -, hmem⟩ := hreg x d hx
    obtain rfl := Host.Outcome.next.inj (hu.symm.trans ht)
    rw [hmem, if_neg fun e => hkey e.1]
  · by_cases hx' : writeCommand x = 0xBE
    · obtain ⟨u, hu, hmem⟩ := hburst x d hx'
      obtain rfl := Host.Outcome.next.inj (hu.symm.trans ht)
      rw [hmem]
    · obtain ⟨why, href, -⟩ := referencePeerRefusesUnassignedCommands x s hready hinv hk hlost (Bool.eq_false_iff.2 hx) hx'
      rw [href d] at ht
      cases ht

/-- `CLKWRITE` and `SET` change the trickle-charge register and registers 0 to 7 alone. -/
theorem exec_writeClock_mem {i : Instr} {r : TRec} {s t : State}
    (hi : i = .clkwrite r ∨ ∃ l, i = .set l ∧ trOfLin s l = r) (hrests : s.ready → Rests s) (hwf : s.peer.mem.wf = true)
    (ht : exec i s = .next t) {k : Nat} (hk : k ∉ 0x90 :: burstKeys) : t.peer.mem.read k = s.peer.mem.read k := by
  obtain ⟨u, hexec, -, hkind, hpeer, hpads, -⟩ := exec_writeClock hi
  rw [hexec, guarded_next] at ht
  obtain ⟨hpre, -, rfl⟩ := ht
  have hu : Rests u := (hrests (preClkwrite_none.1 hpre).1).congr hkind hpeer hpads
  have hmem := (writeClock_reference hu (by rw [hpeer]; exact hwf)).1
  rw [hpeer] at hmem
  exact (congrArg (·.read k) hmem).trans ((read_writtenClock hwf _).2.2.2 k hk)

theorem storedKeys_writeRow {i : Instr} {c d : Byte} (h : singleWrite i = some (c, d)) (s : State) :
    storedKeys i s = [c.toNat] := by
  cases i <;> first
    | (cases h; done)
    | (delta storedKeys; dsimp only; rw [h])

/-- Settles O13: the sessions by the byte-level summary, the bytes by the command that the peer holds. -/
theorem peerRegistersChangeOnlyByStores : Obligations.PeerRegistersChangeOnlyByStores := by
  unfold Obligations.PeerRegistersChangeOnlyByStores
  intro i s t k hinv hk ht hkey
  cases hop : opOf i with
  | none => rw [(exec_quiet hop ht).2.2.2]
  | some op =>
    have hlost := exec_next_lost hop hk ht
    have hwf := inv_wf hinv
    have hpre : op.pre (latchOperands i s) = none := ((exec_next hop).1 ht).1
    obtain ⟨b, v, hem⟩ := exec_emits hop ht
    have session : preSession s = none → s.ready ∧ Rests s := fun h =>
      ⟨preSession_none.1 h, Rests.of (preSession_none.1 h) hinv hk hlost⟩
    cases Form.of i with
    | bind p => cases hop
    | present => cases hop
    | reservedOp => cases hop
    | start =>
      cases hop
      rw [exec_next_result rfl ht]
      exact congrArg (·.mem.read k) (startSession_reference (session hpre).2)
    | stop =>
      cases hop
      obtain ⟨hoe, hout⟩ := State.inv_ce_high hinv (preStop_none.1 hpre).2.2.1
      rw [exec_next_result rfl ht]
      exact congrArg (·.mem.read k) (stopSession_reference hk hoe hout)
    | wrbyte d r =>
      cases hop
      rw [hem.peer, hk]
      exact peerAfter_byte_read (writeByteEvents_within _ _) (writeByteEvents_ups _ _) hwf hkey _ _
    | rdbyte =>
      cases hop
      rw [hem.peer, hk]
      exact peerAfter_byte_read (readByteEvents_within _) (readByteEvents_ups _) hwf hkey _ _
    | regrd x =>
      cases hop
      rw [exec_regrd_mem (session hpre).1 hinv hk hlost ht]
    | regwr x d =>
      cases hop
      exact exec_regwr_mem (session hpre).1 hinv hk hlost ht fun e => hkey (List.mem_singleton.2 e)
    | readRow hr =>
      have row := readRow_of_singleRead hr
      cases row.op.symm.trans hop
      rw [row.latch] at hpre
      rw [row.exec_regrd] at ht
      rw [exec_regrd_mem (session hpre).1 hinv hk hlost ht]
    | @writeRow i c d hw =>
      have row := writeRow_of_singleWrite hw
      cases row.op.symm.trans hop
      rw [row.latch] at hpre
      rw [row.exec_regwr] at ht
      rw [storedKeys_writeRow hw, List.mem_singleton] at hkey
      exact exec_regwr_mem (session hpre).1 hinv hk hlost ht (by rw [writeCommand_of_write c row.isWrite]; exact hkey)
    | burstrd | clkBurstRd =>
      cases hop
      rw [exec_next_result rfl ht]
      exact congrArg (·.read k) (burstRead_reference (session hpre).2).2.1
    | clkread | get =>
      cases hop
      rw [exec_next_result rfl ht]
      exact congrArg (·.read k) (readClock_reference (session hpre).2).mem
    | burstwr w | clkBurstWr w =>
      cases hop
      obtain ⟨u, hu, -, -, -, -, hmem⟩ := (referencePeerWrites s (session hpre).1 hinv hk hlost).2.2 w
      obtain rfl := Host.Outcome.next.inj (hu.symm.trans ht)
      exact hmem k hkey
    | clkwrite r => exact exec_writeClock_mem (.inl rfl) (fun h => (session (preSession_none.2 h)).2) hwf ht hkey
    | set l => exact exec_writeClock_mem (.inr ⟨l, rfl, rfl⟩) (fun h => (session (preSession_none.2 h)).2) hwf ht hkey
    | halt =>
      cases hop
      obtain ⟨u, hu, hmem⟩ := haltLeavesTheClockHaltFlag s (session hpre).1 hinv hk hlost
      obtain rfl := Host.Outcome.next.inj (hu.symm.trans ht)
      rw [hmem, if_neg fun e => hkey (List.mem_singleton.2 e)]

end Sys2Proof.Machine

/-! Proofs of the statements about sequences of the engine's operations (spec/30_encoding.md R126, spec/42_transactions.md
R190, R192, spec/44_clock_access.md R252, R254). -/

namespace Sys2Proof.Machine

/-! ## The registers no byte touches -/

/-- The registers that neither a line event nor a byte reads or writes. -/
structure Held where
  addr : Byte
  wdata : Byte
  rdata : Byte
  trec : TRec
  ok : Bool
  rspValid : Bool

/-- The state with these registers replaced. -/
def State.hold (h : Held) (s : State) : State := { s with
  addr := h.addr, wdata := h.wdata, rdata := h.rdata, trec := h.trec, ok := h.ok, rspValid := h.rspValid }

def State.held (s : State) : Held := ⟨s.addr, s.wdata, s.rdata, s.trec, s.ok, s.rspValid⟩

theorem State.hold_hold (h h' : Held) (s : State) : (s.hold h).hold h' = s.hold h' := rfl

theorem emitAll_hold (es : List Event) (h : Held) (s : State) : emitAll es (s.hold h) = (emitAll es s).hold h := by
  induction es generalizing s with
  | nil => rfl
  | cons e es ih => exact ih (emit e s)

theorem readBits_hold (is : List (BitVec 3)) (h : Held) (s : State) : readBits is (s.hold h) = (readBits is s).hold h := by
  induction is generalizing s with
  | nil => rfl
  | cons i is ih =>
    have hbit : readBit i (s.hold h) = (readBit i s).hold h := by
      rw [readBit, emitAll_hold]
      rfl
    rw [readBits, hbit]
    exact ih (readBit i s)

theorem startSession_hold (h : Held) (s : State) : startSession (s.hold h) = (startSession s).hold h := by
  rw [startSession, emitAll_hold]
  rfl

theorem stopSession_hold (h : Held) (s : State) : stopSession (s.hold h) = (stopSession s).hold h := by
  rw [stopSession, emitAll_hold]
  rfl

theorem writeByte_hold (d : Byte) (r : Bool) (h : Held) (s : State) :
    writeByte d r (s.hold h) = (writeByte d r s).hold h := by
  rw [writeByte, emitAll_hold]
  rfl

theorem readByte_hold (h : Held) (s : State) : readByte (s.hold h) = (readByte s).hold h := by
  rw [readByte, readBits_hold]
  rfl

theorem regWrite_hold (c d : Byte) (h : Held) (s : State) : regWrite c d (s.hold h) = (regWrite c d s).hold h := by
  rw [regWrite, startSession_hold, writeByte_hold, writeByte_hold, stopSession_hold, regWrite]

theorem burstWriteBytes_hold (ks : List (BitVec 4)) (h : Held) (s : State) :
    burstWriteBytes ks (s.hold h) = (burstWriteBytes ks s).hold h := by
  induction ks generalizing s with
  | nil => rfl
  | cons k ks ih =>
    have hbyte : burstWriteByte k (s.hold h) = (burstWriteByte k s).hold h :=
      writeByte_hold (s.img.get k.toNat) false h { s with bytecnt := k }
    rw [burstWriteBytes, hbyte]
    exact ih (burstWriteByte k s)

theorem burstWrite_hold (h : Held) (s : State) : burstWrite (s.hold h) = (burstWrite s).hold h := by
  rw [burstWrite, startSession_hold, writeByte_hold, burstWriteBytes_hold, stopSession_hold, burstWrite]

theorem latchImage_hold (v : Image) (h : Held) (s : State) : latchImage v (s.hold h) = (latchImage v s).hold h := rfl

/-! ## Sequences -/

theorem runSeq_cons {i : Instr} {is : List Instr} {s t : State} :
    runSeq (i :: is) s = .next t ↔ ∃ u, exec i s = .next u ∧ runSeq is u = .next t := by
  rw [runSeq]
  cases exec i s <;> simp

theorem runSeq_nil {s t : State} : runSeq [] s = .next t ↔ t = s := by
  rw [runSeq, Host.Outcome.next.injEq, eq_comm]

theorem runSeq_one {i : Instr} {s t : State} : runSeq [i] s = .next t ↔ exec i s = .next t := by
  rw [runSeq_cons]
  simp [runSeq_nil]

/-- The held registers with the response given. -/
def Held.responded (h : Held) : Held := { h with rspValid := true }

/-! Each operation of the engine, on a state with held registers `h`. -/

theorem exec_start_next {s t : State} : exec .start s = .next t ↔ s.ready ∧
    peerRefusal s.peerKind (startSession s).peer = none ∧ t = (startSession s).hold s.held.responded := by
  rw [← preSession_none]
  exact exec_next (i := .start) rfl

theorem exec_stop_hold {h : Held} {s t : State} : exec .stop (s.hold h) = .next t ↔ preStop s = none ∧
    peerRefusal s.peerKind (stopSession s).peer = none ∧ t = (stopSession s).hold h.responded := by
  rw [exec_stop, guarded_next, stopSession_hold]
  rfl

theorem exec_wrbyte_hold {d : Byte} {r : Bool} {h : Held} {s t : State} :
    exec (.wrbyte d r) (s.hold h) = .next t ↔ preWrbyte r s = none ∧
      peerRefusal s.peerKind (writeByte d r s).peer = none ∧
      t = (writeByte d r s).hold { h with wdata := d, rspValid := true } := by
  have hlatch : writeByte d r (latchData d (s.hold h)) = (writeByte d r s).hold { h with wdata := d } :=
    writeByte_hold d r { h with wdata := d } s
  rw [exec_wrbyte, guarded_next, hlatch]
  rfl

theorem exec_rdbyte_hold {h : Held} {s t : State} : exec .rdbyte (s.hold h) = .next t ↔ preRdbyte s = none ∧
    peerRefusal s.peerKind (readByte s).peer = none ∧
    t = (readByte s).hold { h with rdata := (readByte s).sr, rspValid := true } := by
  rw [exec_rdbyte, guarded_next, readByte_hold]
  rfl

/-- The engine's own read sequence (R126). -/
def readSeq (c : Byte) : List Instr := [.start, .wrbyte c true, .rdbyte, .stop]

/-- The engine's own write sequence (R126). -/
def writeSeq (c d : Byte) : List Instr := [.start, .wrbyte c false, .wrbyte d false, .stop]

/-- The state after the four sub-operations of a read session (R190). -/
def readSession (c : Byte) (s : State) : State := stopSession (readByte (writeByte c true (startSession s)))

theorem regRead_eq (c : Byte) (s : State) : regRead c s = { readSession c s with rdata := (readSession c s).sr } := rfl

theorem readSession_hold (c : Byte) (h : Held) (s : State) : readSession c (s.hold h) = (readSession c s).hold h := by
  rw [readSession, startSession_hold, writeByte_hold, readByte_hold, stopSession_hold, readSession]

theorem readSession_sr (c : Byte) (s : State) :
    (readSession c s).sr = (readByte (writeByte c true (startSession s))).sr := by
  rw [readSession, stopSession_sr]

/-- The read sequence completes exactly if its session can begin and no peer refuses it, in the state of the session. -/
theorem runSeq_read {c : Byte} {s t : State} : runSeq (readSeq c) s = .next t ↔ s.ready ∧ s.pads.sclk.out = false ∧
    peerRefusal s.peerKind (readSession c s).peer = none ∧
    t = (readSession c s).hold { s.held with wdata := c, rdata := (readSession c s).sr, rspValid := true } := by
  rw [readSession_sr, readSeq]
  have hkind : (readByte (writeByte c true (startSession s))).peerKind = s.peerKind := by simp
  constructor
  · intro h
    obtain ⟨u1, h1, h⟩ := runSeq_cons.1 h
    obtain ⟨u2, h2, h⟩ := runSeq_cons.1 h
    obtain ⟨u3, h3, h⟩ := runSeq_cons.1 h
    obtain ⟨hready, -, rfl⟩ := exec_start_next.1 h1
    obtain ⟨hpre, -, rfl⟩ := exec_wrbyte_hold.1 h2
    obtain ⟨-, -, rfl⟩ := exec_rdbyte_hold.1 h3
    obtain ⟨-, hgo, rfl⟩ := exec_stop_hold.1 (runSeq_one.1 h)
    obtain ⟨-, -, -, -, hclk, -⟩ := preWrbyte_none.1 hpre
    rw [startSession_pads] at hclk
    rw [hkind] at hgo
    exact ⟨hready, hclk, hgo, rfl⟩
  · rintro ⟨hready, hclk, hgo, rfl⟩
    have g3 := (stopSession_emits (readByte (writeByte c true (startSession s)))).goesOn (by rw [hkind]; exact hgo)
    have g2 := (readByte_emits (writeByte c true (startSession s))).goesOn (by simpa using g3)
    have g1 := (writeByte_emits c true (startSession s)).goesOn (by simpa using g2)
    have ⟨hpresent, hidle, _⟩ := hready
    refine runSeq_cons.2 ⟨_, exec_start_next.2 ⟨hready, by simpa using g1, rfl⟩, ?_⟩
    refine runSeq_cons.2 ⟨_, exec_wrbyte_hold.2 ⟨preWrbyte_none.2 (by simp [hpresent, hidle, hclk]), by simpa using g2, rfl⟩, ?_⟩
    refine runSeq_cons.2 ⟨_, exec_rdbyte_hold.2 ⟨preRdbyte_none.2 (by simp [hpresent, hidle]), by simpa using g3, rfl⟩, ?_⟩
    exact runSeq_one.2 (exec_stop_hold.2 ⟨preStop_none.2 (by simp [hpresent, hidle]), by rw [hkind]; exact hgo, rfl⟩)

/-- What the write sequence comes to if it completes. -/
theorem runSeq_write {c d : Byte} {s t : State} (h : runSeq (writeSeq c d) s = .next t) : s.ready ∧
    peerRefusal s.peerKind (regWrite c d s).peer = none ∧
    t = (regWrite c d s).hold { s.held with wdata := d, rspValid := true } := by
  rw [writeSeq] at h
  rw [regWrite]
  obtain ⟨u1, h1, h⟩ := runSeq_cons.1 h
  obtain ⟨u2, h2, h⟩ := runSeq_cons.1 h
  obtain ⟨u3, h3, h⟩ := runSeq_cons.1 h
  obtain ⟨hready, -, rfl⟩ := exec_start_next.1 h1
  obtain ⟨-, -, rfl⟩ := exec_wrbyte_hold.1 h2
  obtain ⟨-, -, rfl⟩ := exec_wrbyte_hold.1 h3
  obtain ⟨-, hgo, rfl⟩ := exec_stop_hold.1 (runSeq_one.1 h)
  have hkind : (writeByte d false (writeByte c false (startSession s))).peerKind = s.peerKind := by simp
  rw [hkind] at hgo
  exact ⟨hready, hgo, rfl⟩

/-- Settles O26: the sequence completes, as `REGRD` does, in the state of the read session. -/
theorem engineReadsARegisterOfTheReferencePeer : Obligations.EngineReadsARegisterOfTheReferencePeer := by
  unfold Obligations.EngineReadsARegisterOfTheReferencePeer
  intro x s hready hinv hk hlost hx
  have hrests := Rests.of hready hinv hk hlost
  obtain ⟨hdata, hmem, hend⟩ := regRead_reference hrests (c := readCommand x) (by rw [writeCommand_readCommand]; exact hx)
    (commandIsRead_readCommand x)
  rw [writeCommand_readCommand] at hdata
  rw [regRead_eq] at hdata hmem hend
  have hsess : (readSession (readCommand x) s).sess = .closed := stopSession_sess _
  have hrun : ∀ t, _ → runSeq (readSeq (readCommand x)) s = .next t := fun t => (runSeq_read (c := readCommand x)).2
  generalize readSession (readCommand x) s = u at hdata hmem hend hsess hrun
  exact ⟨_, hrun _ ⟨hready, hrests.sclk, by rw [hk]; exact hend.lost, rfl⟩, hdata, hmem, hsess⟩

/-! ## Composite operations -/

theorem regRead_hold (c : Byte) (h : Held) (s : State) :
    regRead c (s.hold h) = (readSession c s).hold { h with rdata := (readSession c s).sr } := by
  rw [regRead_eq, readSession_hold]
  rfl

theorem guarded_hold {pre : Option Refusal} {h h' : Held} {s u t : State} : guarded (s.hold h) pre (u.hold h') = .next t ↔
    pre = none ∧ peerRefusal s.peerKind u.peer = none ∧ t = u.hold h'.responded := guarded_next

theorem preSession_hold (h : Held) (s : State) : preSession (s.hold h) = preSession s := rfl

theorem exec_regrd_hold {x : Byte} {h : Held} {s t : State} : exec (.regrd x) (s.hold h) = .next t ↔
    preSession s = none ∧ peerRefusal s.peerKind (readSession (readCommand x) s).peer = none ∧
      t = (readSession (readCommand x) s).hold
        { h with addr := x, rdata := (readSession (readCommand x) s).sr, rspValid := true } := by
  have hlatch : latchAddr x (s.hold h) = s.hold { h with addr := x } := rfl
  rw [exec_regrd, preSession_hold, hlatch, regRead_hold, guarded_hold]
  rfl

theorem exec_regwr_hold {x d : Byte} {h : Held} {s t : State} : exec (.regwr x d) (s.hold h) = .next t ↔
    preSession s = none ∧ peerRefusal s.peerKind (regWrite (writeCommand x) d s).peer = none ∧
      t = (regWrite (writeCommand x) d s).hold { h with addr := x, wdata := d, rspValid := true } := by
  have hlatch : latchData d (latchAddr x (s.hold h)) = s.hold { h with addr := x, wdata := d } := rfl
  rw [exec_regwr, preSession_hold, hlatch, regWrite_hold, guarded_hold]
  rfl

theorem exec_burstwr_hold {v : Image} {h : Held} {s t : State} : exec (.burstwr v) (s.hold h) = .next t ↔
    preSession s = none ∧ peerRefusal s.peerKind (burstWrite (latchImage v s)).peer = none ∧
      t = (burstWrite (latchImage v s)).hold h.responded := by
  rw [exec_burstWrite (.inl rfl), preSession_hold, latchImage_hold, burstWrite_hold, guarded_hold]

theorem exec_halt_hold {h : Held} {s t : State} : exec .halt (s.hold h) = .next t ↔
    preSession s = none ∧ peerRefusal s.peerKind (regWrite wpWriteCommand 0 s).peer = none ∧
      t = (regWrite wpWriteCommand 0 s).hold h.responded := by
  have hexec : exec .halt (s.hold h) = guarded (s.hold h) (preSession s) (regWrite wpWriteCommand 0 (s.hold h)) := rfl
  rw [hexec, regWrite_hold, guarded_hold]

/-- The three sessions of `CLKWRITE` (R252), with the record `r`. -/
def clockSessions (r : TRec) (s : State) : State :=
  burstWrite (latchImage (encodeImage r) (regWrite tcsWriteCommand 0 (regWrite wpWriteCommand 0 s)))

theorem writeClock_hold (h : Held) (s : State) :
    writeClock (s.hold h) = (clockSessions h.trec s).hold { h with ok := true } := by
  rw [writeClock, regWrite_hold, regWrite_hold, clockSessions]
  generalize regWrite tcsWriteCommand 0 (regWrite wpWriteCommand 0 s) = u
  have hburst : burstWrite (latchImage (encodeImage (u.hold h).trec) (u.hold h)) =
      (burstWrite (latchImage (encodeImage h.trec) u)).hold h := burstWrite_hold h (latchImage (encodeImage h.trec) u)
  rw [hburst]
  generalize burstWrite (latchImage (encodeImage h.trec) u) = v
  rfl

theorem exec_clkwrite_hold {r : TRec} {h : Held} {s t : State} : exec (.clkwrite r) (s.hold h) = .next t ↔
    preClkwrite r s = none ∧ peerRefusal s.peerKind (clockSessions r s).peer = none ∧
      t = (clockSessions r s).hold { h with trec := r, ok := true, rspValid := true } := by
  have hexec : exec (.clkwrite r) (s.hold h) =
      guarded (s.hold h) (preClkwrite r s) (writeClock (s.hold { h with trec := r })) := rfl
  rw [hexec, writeClock_hold, guarded_hold]
  rfl

/-- Settles O27: the parts compose to the whole, and no byte reads or writes a latch. -/
theorem compositeOperationsAreTheirExpansions : Obligations.CompositeOperationsAreTheirExpansions := by
  unfold Obligations.CompositeOperationsAreTheirExpansions
  intro x d r s t
  refine ⟨fun h => ?_, fun h => ?_, fun hr h => ?_, fun h => ?_⟩
  · obtain ⟨hready, -, hgo, rfl⟩ := runSeq_read.1 h
    exact (exec_regrd_hold (h := s.held)).2 ⟨preSession_none.2 hready, hgo, rfl⟩
  · obtain ⟨hready, hgo, rfl⟩ := runSeq_write h
    exact (exec_regwr_hold (h := s.held)).2 ⟨preSession_none.2 hready, hgo, rfl⟩
  · obtain ⟨u1, h1, h⟩ := runSeq_cons.1 h
    obtain ⟨u2, h2, h⟩ := runSeq_cons.1 h
    obtain ⟨hpre, -, rfl⟩ := (exec_regwr_hold (h := s.held)).1 h1
    obtain ⟨-, -, rfl⟩ := exec_regwr_hold.1 h2
    obtain ⟨-, hgo, rfl⟩ := exec_burstwr_hold.1 (runSeq_one.1 h)
    have hparts : burstWrite (latchImage (encodeImage r) (regWrite (writeCommand 0x90) 0 (regWrite (writeCommand 0x8E) 0 s))) =
        clockSessions r s := rfl
    rw [regWrite_peerKind, regWrite_peerKind, hparts] at hgo
    rw [hparts]
    refine (exec_clkwrite_hold (h := s.held)).2 ⟨preClkwrite_none.2 ⟨preSession_none.1 hpre, hr⟩, hgo, ?_⟩
    generalize clockSessions r s = u
    rfl
  · obtain ⟨hpre, hgo, rfl⟩ := (exec_regwr_hold (h := s.held)).1 (runSeq_one.1 h)
    exact (exec_halt_hold (h := s.held)).2 ⟨hpre, hgo, rfl⟩

end Sys2Proof.Machine

/-! Proof of the counts of the transactions (spec/42_transactions.md R198). -/

namespace Sys2Proof.Machine

/-- The counts of the table of R198: rising edges, falling edges, samples, `DLY(T_HOLD)`, `DLY(T_CE)`. -/
structure Tally where
  rises : Nat
  falls : Nat
  samples : Nat
  holds : Nat
  ces : Nat

def Tally.add (a b : Tally) : Tally :=
  ⟨a.rises + b.rises, a.falls + b.falls, a.samples + b.samples, a.holds + b.holds, a.ces + b.ces⟩

/-- The counts of a list of events, the first the `d`-th, from the lines `pd`. -/
def tally (es : List Event) (pd : Pads) (d : Nat) : Tally :=
  ⟨countAlong Event.risesSclk es pd d, countAlong Event.fallsSclk es pd d, es.countP Event.isSample,
    es.count (.dly .tHold), es.count (.dly .tCe)⟩

theorem countAlong_append (test : Event → Pads → Nat → Bool) (es fs : List Event) (pd : Pads) (d : Nat) :
    countAlong test (es ++ fs) pd d = countAlong test es pd d + countAlong test fs (padsAfter es pd) (d + es.length) := by
  induction es generalizing pd d with
  | nil => simp [countAlong, padsAfter]
  | cons e es ih => simp [countAlong, padsAfter, ih, Nat.add_assoc, Nat.add_comm 1]

theorem tally_append (es fs : List Event) (pd : Pads) (d : Nat) :
    tally (es ++ fs) pd d = (tally es pd d).add (tally fs (padsAfter es pd) (d + es.length)) := by
  simp [tally, Tally.add, countAlong_append]

/-! ## The parts of a session -/

theorem tally_start {pd : Pads} (h : pd.sclk.out = false) (d : Nat) : tally startEvents pd d = ⟨0, 0, 0, 0, 1⟩ := by
  simp [tally, startEvents, countAlong, Event.risesSclk, Event.fallsSclk, Event.rises, Event.falls, Event.onPads,
    Pads.setOut, Pads.setOe, Pads.get, Event.isSample, h]

theorem padsAfter_start {pd : Pads} (h : pd.sclk.out = false) : padsAfter startEvents pd = linesOut false pd.io.out := by
  simp [startEvents, padsAfter, Event.onPads, Pads.setOut, Pads.setOe, linesOut, h]

theorem tally_stop (pd : Pads) (d : Nat) : tally stopEvents pd d = ⟨0, 0, 0, 0, 1⟩ := by
  simp [tally, stopEvents, countAlong, Event.risesSclk, Event.fallsSclk, Event.rises, Event.falls, Event.isSample]

/-- One bit out with its falling edge. -/
theorem tally_writeBit (data : Byte) {rel : Bool} {i : BitVec 3} (h : (rel && i == 7) = false) (v : Bool) :
    (∀ d, tally (writeBitEvents data rel i) (linesOut false v) d = ⟨1, 1, 0, 3, 0⟩) ∧
      padsAfter (writeBitEvents data rel i) (linesOut false v) = linesOut false (data.getLsbD i.toNat) := by
  rw [writeBitEvents, h]
  cases data.getLsbD i.toNat <;> exact ⟨fun _ => rfl, rfl⟩

/-- The last bit of a byte with `rel = 1`: the release takes the place of the falling edge. -/
theorem tally_releaseBit (data : Byte) (v : Bool) :
    (∀ d, tally (writeBitEvents data true 7) (linesOut false v) d = ⟨1, 0, 0, 2, 0⟩) ∧
      padsAfter (writeBitEvents data true 7) (linesOut false v) = linesIn true (data.getLsbD 7) := by
  rw [writeBitEvents, show (7 : BitVec 3).toNat = 7 from rfl]
  cases data.getLsbD 7 <;> exact ⟨fun _ => rfl, rfl⟩

theorem bitOrder_eq : bitOrder = [0, 1, 2, 3, 4, 5, 6] ++ [7] := rfl

/-- Bits out with their falling edges. -/
theorem tally_writeBits (data : Byte) {rel : Bool} {is : List (BitVec 3)} (h : ∀ i ∈ is, (rel && i == 7) = false) (v : Bool) :
    (∀ d, tally (is.flatMap (writeBitEvents data rel)) (linesOut false v) d =
      ⟨is.length, is.length, 0, is.length * 3, 0⟩) ∧
    ∃ w, padsAfter (is.flatMap (writeBitEvents data rel)) (linesOut false v) = linesOut false w := by
  induction is generalizing v with
  | nil => exact ⟨fun _ => rfl, v, rfl⟩
  | cons i is ih =>
    obtain ⟨hbit, hpads⟩ := tally_writeBit data (h i List.mem_cons_self) v
    obtain ⟨hrest, w, hw⟩ := ih (fun j hj => h j (List.mem_cons_of_mem i hj)) (data.getLsbD i.toNat)
    refine ⟨fun d => ?_, w, by rw [List.flatMap_cons, padsAfter_append, hpads, hw]⟩
    rw [List.flatMap_cons, tally_append, hpads, hbit, hrest]
    simp [Tally.add, Nat.add_mul, Nat.add_comm]

/-- A byte out without release (R164). -/
theorem tally_write (data : Byte) (v : Bool) :
    (∀ d, tally (writeByteEvents data false) (linesOut false v) d = ⟨8, 8, 0, 24, 0⟩) ∧
      ∃ w, padsAfter (writeByteEvents data false) (linesOut false v) = linesOut false w :=
  tally_writeBits data (fun _ _ => rfl) v

/-- A byte out with release. -/
theorem tally_command (data : Byte) (v : Bool) :
    (∀ d, tally (writeByteEvents data true) (linesOut false v) d = ⟨8, 7, 0, 23, 0⟩) ∧
      padsAfter (writeByteEvents data true) (linesOut false v) = linesIn true (data.getLsbD 7) := by
  obtain ⟨hbits, w, hw⟩ := tally_writeBits data (rel := true) (is := [0, 1, 2, 3, 4, 5, 6]) (by decide) v
  obtain ⟨hlast, hend⟩ := tally_releaseBit data w
  rw [writeByteEvents, bitOrder_eq, List.flatMap_append, List.flatMap_singleton]
  exact ⟨fun d => by rw [tally_append, hw, hbits, hlast]; rfl, by rw [padsAfter_append, hw, hend]⟩

/-- The events of one bit in (R168). -/
def readBitSampled (x : Bool) : List Event := readBitEvents ++ [.smp x]

/-- One bit in: its rising edge is there only if the clock is low. -/
theorem tally_readBit (x c v : Bool) :
    (∀ d, tally (readBitSampled x) (linesIn c v) d = ⟨if c then 0 else 1, 1, 1, 2, 0⟩) ∧
      padsAfter (readBitSampled x) (linesIn c v) = linesIn false v := by
  cases c <;> exact ⟨fun _ => rfl, rfl⟩

/-- Bits in, the clock low before the first. -/
theorem tally_readBits (xs : List Bool) (v : Bool) :
    (∀ d, tally (xs.flatMap readBitSampled) (linesIn false v) d = ⟨xs.length, xs.length, xs.length, xs.length * 2, 0⟩) ∧
      padsAfter (xs.flatMap readBitSampled) (linesIn false v) = linesIn false v := by
  induction xs with
  | nil => exact ⟨fun _ => rfl, rfl⟩
  | cons x xs ih =>
    obtain ⟨hbit, hpads⟩ := tally_readBit x false v
    obtain ⟨hrest, hend⟩ := ih
    refine ⟨fun d => ?_, by rw [List.flatMap_cons, padsAfter_append, hpads, hend]⟩
    rw [List.flatMap_cons, tally_append, hpads, hbit, hrest]
    simp [Tally.add, Nat.add_mul, Nat.add_comm]

/-- A byte in (R168). -/
theorem tally_read (b : Byte) (c v : Bool) :
    (∀ d, tally (readByteEvents b) (linesIn c v) d = ⟨if c then 7 else 8, 8, 8, 16, 0⟩) ∧
      padsAfter (readByteEvents b) (linesIn c v) = linesIn false v := by
  have hbits : readByteEvents b = readBitSampled (b.getLsbD 0) ++
      [b.getLsbD 1, b.getLsbD 2, b.getLsbD 3, b.getLsbD 4, b.getLsbD 5, b.getLsbD 6, b.getLsbD 7].flatMap readBitSampled := rfl
  obtain ⟨hfirst, hpads⟩ := tally_readBit (b.getLsbD 0) c v
  obtain ⟨hrest, hend⟩ := tally_readBits [b.getLsbD 1, b.getLsbD 2, b.getLsbD 3, b.getLsbD 4, b.getLsbD 5, b.getLsbD 6,
    b.getLsbD 7] v
  rw [hbits]
  refine ⟨fun d => ?_, by rw [padsAfter_append, hpads, hend]⟩
  rw [tally_append, hpads, hfirst, hrest]
  cases c <;> rfl

/-- Bytes in, the clock low before the first. -/
theorem tally_reads (bs : List Byte) (v : Bool) (d : Nat) : tally (bs.flatMap readByteEvents) (linesIn false v) d =
    ⟨bs.length * 8, bs.length * 8, bs.length * 8, bs.length * 16, 0⟩ := by
  induction bs generalizing d with
  | nil => rfl
  | cons b bs ih =>
    obtain ⟨hbyte, hpads⟩ := tally_read b false v
    rw [List.flatMap_cons, tally_append, hpads, hbyte, ih]
    simp [Tally.add, Nat.add_mul, Nat.add_comm]

/-- Bytes out. -/
theorem tally_writes (bs : List Byte) (v : Bool) (d : Nat) :
    tally (bs.flatMap fun b => writeByteEvents b false) (linesOut false v) d =
      ⟨bs.length * 8, bs.length * 8, 0, bs.length * 24, 0⟩ := by
  induction bs generalizing v d with
  | nil => rfl
  | cons b bs ih =>
    obtain ⟨hbyte, w, hw⟩ := tally_write b v
    rw [List.flatMap_cons, tally_append, hw, hbyte, ih]
    simp [Tally.add, Nat.add_mul, Nat.add_comm]

/-! ## The transactions -/

theorem tally_regRead (c b : Byte) {pd : Pads} (h : pd.sclk.out = false) (d : Nat) :
    tally (regReadEvents c b) pd d = ⟨15, 15, 8, 39, 2⟩ := by
  simp only [regReadEvents, tally_append, padsAfter_append, tally_start h, padsAfter_start h, tally_command, tally_read,
    tally_stop]
  rfl

theorem tally_regWrite (c x : Byte) {pd : Pads} (h : pd.sclk.out = false) (d : Nat) :
    tally (regWriteEvents c x) pd d = ⟨16, 16, 0, 48, 2⟩ := by
  obtain ⟨w, hw⟩ := (tally_write c pd.io.out).2
  simp only [regWriteEvents, tally_append, padsAfter_append, tally_start h, padsAfter_start h, hw, tally_write, tally_stop]
  rfl

theorem tally_burstRead (v : Image) {pd : Pads} (h : pd.sclk.out = false) (d : Nat) :
    tally (burstReadEvents v) pd d = ⟨71, 71, 64, 151, 2⟩ := by
  have hbytes : v.toList.flatMap readByteEvents =
      readByteEvents v.b0 ++ [v.b1, v.b2, v.b3, v.b4, v.b5, v.b6, v.b7].flatMap readByteEvents := rfl
  simp only [burstReadEvents, hbytes, tally_append, padsAfter_append, tally_start h, padsAfter_start h, tally_command,
    tally_read, tally_reads, tally_stop]
  rfl

theorem tally_burstWrite (v : Image) {pd : Pads} (h : pd.sclk.out = false) (d : Nat) :
    tally (burstWriteEvents v) pd d = ⟨72, 72, 0, 216, 2⟩ := by
  obtain ⟨w, hw⟩ := (tally_write 0xBE pd.io.out).2
  simp only [burstWriteEvents, tally_append, padsAfter_append, tally_start h, padsAfter_start h, hw, tally_write,
    tally_writes, tally_stop]
  rfl

/-- Settles O54: the events of a transaction from the closed lines of the invariant. -/
theorem transactionsHaveTheCountsOfTheTable : Obligations.TransactionsHaveTheCountsOfTheTable := by
  unfold Obligations.TransactionsHaveTheCountsOfTheTable
  intro i s t es rises falls samples holds hinv hi ht hes
  suffices h : tally es s.pads s.draws = ⟨rises, falls, samples, holds, 2⟩ from by
    simpa [tally] using h
  have clock : s.ready → s.pads.sclk.out = false := by
    intro hready
    have hl := inv_closedLines hinv hready.2.2
    simp only [State.closedLines, Bool.and_eq_true, Bool.not_eq_true'] at hl
    exact hl.2
  have events : ∀ {op : Op}, opOf i = some op → (op.pre (latchOperands i s) = none → s.ready) →
      s.pads.sclk.out = false ∧ ∃ b v, es = op.events (latchOperands i s) b v := by
    intro op hop hready
    obtain ⟨b, v, hem⟩ := exec_emits hop ht
    exact ⟨clock (hready ((exec_next hop).1 ht).1), b, v, (hem.events_unique hes).symm⟩
  rcases hi with hi | ⟨x, hi⟩ | ⟨x, d, hi⟩ | ⟨v, hi⟩
  · simp only [List.mem_cons, List.not_mem_nil, or_false] at hi
    rcases hi with hi | hi <;> cases hi
    · obtain ⟨hclk, b, v, rfl⟩ := events (op := .burstrd) rfl preSession_none.1
      exact tally_burstRead v hclk _
    · obtain ⟨hclk, b, v, rfl⟩ := events (op := .clkread) rfl preSession_none.1
      exact tally_burstRead v hclk _
  · cases hi
    obtain ⟨hclk, b, v, rfl⟩ := events (op := .regrd) rfl preSession_none.1
    exact tally_regRead _ b hclk _
  · cases hi
    obtain ⟨hclk, b, v, rfl⟩ := events (op := .regwr) rfl preSession_none.1
    exact tally_regWrite _ _ hclk _
  · cases hi
    obtain ⟨hclk, b, w, rfl⟩ := events (op := .burstwr) rfl preSession_none.1
    exact tally_burstWrite _ hclk _

end Sys2Proof.Machine

/-! The peer with a timekeeper (spec/20_memory.md R85 to R88): what its registers do over a session, beside those of the
reference peer on the same lines. -/

namespace Sys2Proof.Machine

/-! ## The timekeeper's part -/

/-- The registers `m'` are what the timekeeper may have made of `m` (R88). -/
structure Ticked (m m' : Memory) : Prop where
  wf : m'.wf = true
  other : ∀ k, k ∉ timeKeys → m'.read k = m.read k
  time : m' = m ∨
    clockHalt m.clockImage = false ∧ validTime m'.clockImage = true ∧ clockHalt m'.clockImage = false

theorem Ticked.refl {m : Memory} (h : m.wf = true) : Ticked m m := ⟨h, fun _ _ => rfl, .inl rfl⟩

theorem Ticked.trans {m m' m'' : Memory} (h : Ticked m m') (h' : Ticked m' m'') : Ticked m m'' where
  wf := h'.wf
  other k hk := (h'.other k hk).trans (h.other k hk)
  time := by
    rcases h.time with rfl | ⟨hrun, hvalid, hrun'⟩
    · exact h'.time
    · rcases h'.time with rfl | ⟨-, hvalid'', hrun''⟩
      · exact .inr ⟨hrun, hvalid, hrun'⟩
      · exact .inr ⟨hrun, hvalid'', hrun''⟩

/-- While `CH = 1` the timekeeper stands still. -/
theorem Ticked.of_halted {m m' : Memory} (h : Ticked m m') (hh : clockHalt m.clockImage = true) : m' = m :=
  h.time.resolve_right fun e => Bool.noConfusion (e.1.symm.trans hh)

theorem wp_not_timeKey : 0x8E ∉ timeKeys := by decide

/-- A peer is another but for what the timekeeper has done. -/
def Peer.TicksTo (p p' : Peer) : Prop := ∃ m, Ticked p.mem m ∧ p' = { p with mem := m }

theorem Peer.timeStep_ticks {p : Peer} (h : p.mem.wf = true) (d : Nat) : p.TicksTo (p.timeStep d) := by
  obtain e | ⟨v, hrun, hrun', hvalid, -, e⟩ := p.timeStep_cases d
  · exact ⟨p.mem, Ticked.refl h, e⟩
  · refine ⟨p.mem.storeTime v, ⟨Memory.storeTime_wf h v, fun k hk => ?_, .inr ⟨hrun, ?_, ?_⟩⟩, e⟩
    · have hread := Peer.timeStep_read h d hk
      rwa [e] at hread
    · rw [clockImage_storeTime h]; exact hvalid
    · rw [clockImage_storeTime h]; exact hrun'

theorem Peer.TicksTo.trans {p p' p'' : Peer} (h : p.TicksTo p') (h' : p'.TicksTo p'') : p.TicksTo p'' := by
  obtain ⟨m, hm, rfl⟩ := h
  obtain ⟨m', hm', rfl⟩ := h'
  exact ⟨m', hm.trans hm', rfl⟩

theorem Peer.TicksTo.wf {p p' : Peer} (h : p.TicksTo p') : p'.mem.wf = true := by
  obtain ⟨m, hm, rfl⟩ := h
  exact hm.wf

/-! ## Sessions of the chip -/

/-- The block and the chip between sessions. -/
structure ChipRests (s : State) : Prop where
  kind : s.peerKind = .chip
  act : s.peer.act = false
  wf : s.peer.mem.wf = true
  ce : s.pads.ce.out = false
  sclk : s.pads.sclk.out = false

theorem ChipRests.of {s : State} (hready : s.ready) (hinv : s.inv = true) (hk : s.peerKind = .chip) : ChipRests s := by
  have hl := inv_closedLines hinv hready.2.2
  simp only [State.closedLines, Bool.and_eq_true, Bool.not_eq_true'] at hl
  have hact := (inv_act hinv (.inr hk)).1
  rw [hready.2.2] at hact
  exact ⟨hk, hact, inv_wf hinv, hl.1.2, hl.2⟩

theorem ChipRests.congr {s t : State} (h : ChipRests s) (hkind : t.peerKind = s.peerKind) (hpeer : t.peer = s.peer)
    (hpads : t.pads = s.pads) : ChipRests t :=
  ⟨hkind.trans h.kind, by rw [hpeer]; exact h.act, by rw [hpeer]; exact h.wf, by rw [hpads]; exact h.ce,
    by rw [hpads]; exact h.sclk⟩

/-- Outside its session the chip sees nothing but the rise of `CE`. -/
theorem peerReact_chip_idle {p : Peer} (hwf : p.mem.wf = true) (hact : p.act = false) {pd pd' : Pads}
    (hce : ceLevel pd' = ceLevel pd) (d : Nat) : p.TicksTo (peerReact .chip pd pd' d p) := by
  have hquiet : peerReact .chip pd pd' d p = p.timeStep d :=
    Peer.edges_idle hce ((Peer.timeStep_act d p).1.trans hact)
  rw [hquiet]
  exact Peer.timeStep_ticks hwf d

/-- The peer at the beginning of a session (R91). -/
def Peer.opened (p : Peer) : Peer := { p with act := true, n := 0, f := 0, drv := false, lost := none }

theorem Peer.opened_listens (p : Peer) : p.opened.listens ∧ p.opened.n = 0 := ⟨⟨rfl, rfl, rfl⟩, rfl⟩

/-- `START` opens the chip's session; meanwhile the timekeeper may go on (R91, R160). -/
theorem startSession_chip {s : State} (h : ChipRests s) : s.peer.opened.TicksTo (startSession s).peer := by
  obtain ⟨hk, hact, hwf, hce, hsclk⟩ := h
  rcases hp : s.pads with ⟨⟨ceo, cee⟩, ⟨clko, clke⟩, ⟨ioo, ioe⟩⟩
  rw [hp] at hce hsclk
  dsimp only at hce hsclk
  subst hce hsclk
  rw [startSession_peer, emitAll_peer, hk, hp]
  simp only [startEvents, peerAfter, Event.onPads, Pads.setOut, Pads.setOe]
  generalize s.draws = d
  have idle : ∀ {p : Peer} {pd pd' : Pads} (d : Nat), p.mem.wf = true → p.act = false → ceLevel pd' = ceLevel pd →
      p.TicksTo (peerReact .chip pd pd' d p) := fun d hwf hact hce => peerReact_chip_idle hwf hact hce d
  obtain ⟨m1, t1, e1⟩ := idle (pd := ⟨⟨false, cee⟩, ⟨false, clke⟩, ⟨ioo, ioe⟩⟩)
    (pd' := ⟨⟨false, cee⟩, ⟨false, clke⟩, ⟨ioo, ioe⟩⟩)
    d hwf hact rfl
  rw [e1]
  obtain ⟨m2, t2, e2⟩ := idle (p := { s.peer with mem := m1 }) (pd := ⟨⟨false, cee⟩, ⟨false, clke⟩, ⟨ioo, ioe⟩⟩)
    (pd' := ⟨⟨false, true⟩, ⟨false, clke⟩, ⟨ioo, ioe⟩⟩) (d + 1) t1.wf hact (by simp [ceLevel])
  rw [e2]
  obtain ⟨m3, t3, e3⟩ := idle (p := { s.peer with mem := m2 }) (pd := ⟨⟨false, true⟩, ⟨false, clke⟩, ⟨ioo, ioe⟩⟩)
    (pd' := ⟨⟨false, true⟩, ⟨false, true⟩, ⟨ioo, ioe⟩⟩) (d + 1 + 1) t2.wf hact rfl
  rw [e3]
  obtain ⟨m4, t4, e4⟩ := idle (p := { s.peer with mem := m3 }) (pd := ⟨⟨false, true⟩, ⟨false, true⟩, ⟨ioo, ioe⟩⟩)
    (pd' := ⟨⟨false, true⟩, ⟨false, true⟩, ⟨ioo, true⟩⟩) (d + 1 + 1 + 1) t3.wf hact rfl
  rw [e4]
  obtain ⟨m5, t5, e5⟩ := Peer.timeStep_ticks (p := { s.peer with mem := m4 }) t4.wf (d + 1 + 1 + 1 + 1)
  have hopen : peerReact .chip ⟨⟨false, true⟩, ⟨false, true⟩, ⟨ioo, true⟩⟩ ⟨⟨true, true⟩, ⟨false, true⟩, ⟨ioo, true⟩⟩
      (d + 1 + 1 + 1 + 1) { s.peer with mem := m4 } = Peer.opened { s.peer with mem := m5 } := by
    rw [peerReact, e5]
    rfl
  rw [hopen, peerReact_still, if_pos rfl]
  have hall : s.peer.opened.TicksTo (Peer.opened { s.peer with mem := m5 }) :=
    ⟨m5, (((t1.trans t2).trans t3).trans t4).trans t5, rfl⟩
  exact hall.trans (Peer.timeStep_ticks t5.wf _)

theorem ChipRests.lines {s : State} (h : ChipRests s) : (startSession s).pads = linesOut false s.pads.io.out := by
  rw [startSession_pads, h.sclk]
  rfl

/-- `STOP` at the chip: the timekeeper's part, the end of the session, the timekeeper's part (R91, R162). -/
theorem stopSession_chip {s : State} (hk : s.peerKind = .chip) (hoe : s.pads.ce.oe = true) (hout : s.pads.ce.out = true)
    (hwf : s.peer.mem.wf = true) : ∃ p, s.peer.TicksTo p ∧
      ((p.closeSession .chip s.draws).TicksTo (stopSession s).peer) := by
  refine ⟨s.peer.timeStep s.draws, Peer.timeStep_ticks hwf _, ?_⟩
  have hclose : peerReact .chip s.pads { s.pads with ce := ⟨false, s.pads.ce.oe⟩ } s.draws s.peer =
      (s.peer.timeStep s.draws).closeSession .chip s.draws := by
    rw [peerReact, Peer.edges]
    simp [ceLevel, hoe, hout]
  have hpeer : (stopSession s).peer = ((s.peer.timeStep s.draws).closeSession .chip s.draws).timeStep (s.draws + 1) := by
    rw [stopSession_peer, emitAll_peer, hk, ← hclose]
    simp only [stopEvents, peerAfter, Event.onPads, Pads.setOut, peerReact_still, if_true]
  rw [hpeer]
  exact Peer.timeStep_ticks (Peer.closeSession_wf (Peer.timeStep_wf hwf _) _ _) _

/-- The peer at the end of a session (R91). -/
def Peer.closed (p : Peer) : Peer := { p with act := false, drv := false, lost := none }

/-- A session that ends with no write of unknown effect leaves the registers to the timekeeper. -/
theorem stopSession_known {s : State} (hk : s.peerKind = .chip) (hoe : s.pads.ce.oe = true) (hout : s.pads.ce.out = true)
    (hwf : s.peer.mem.wf = true) (hknown : s.peer.writeUnknown = false) : s.peer.closed.TicksTo (stopSession s).peer := by
  obtain ⟨p, ⟨m, hm, rfl⟩, ht⟩ := stopSession_chip hk hoe hout hwf
  have hclose : Peer.closeSession .chip s.draws { s.peer with mem := m } = Peer.closed { s.peer with mem := m } := by
    have hmem := Peer.closeSession_known (p := { s.peer with mem := m }) hknown .chip s.draws
    rw [Peer.closeSession, if_pos rfl] at hmem ⊢
    rw [Peer.closed]
    dsimp only at hmem ⊢
    rw [hmem]
  rw [hclose] at ht
  exact Peer.TicksTo.trans (p' := Peer.closed { s.peer with mem := m }) ⟨m, hm, rfl⟩ ht

/-! ## Beside the reference peer -/

/-- The chip `p` beside the reference peer `q` on the same lines, in a session begun with the registers `m`: the frame
agrees but for the data of a read, and the registers agree but for what the timekeeper has done, unless a single write has
been committed to a running clock. -/
structure Beside (m : Memory) (q p : Peer) : Prop where
  frame : p = { q with mem := p.mem, buf := p.buf, dout := p.dout }
  wf : q.mem.wf = true
  wf' : p.mem.wf = true
  other : ∀ k, k ∉ timeKeys → p.mem.read k = q.mem.read k
  start : q.n < 8 + 8 * q.len → q.mem = m
  time : Ticked q.mem p.mem ∨
    (clockHalt m.clockImage = false ∧ 16 ≤ q.n ∧ q.cmdRead = false ∧ q.clockBurst = false)
  data : (p.buf = q.buf ∧ p.dout = q.dout) ∨ (8 ≤ q.n ∧ q.cmdRead = true)

theorem Beside.of_ticks {q p : Peer} (hwf : q.mem.wf = true) (h : q.TicksTo p) : Beside q.mem q p := by
  obtain ⟨m, hm, rfl⟩ := h
  exact ⟨rfl, hwf, hm.wf, hm.other, fun _ => rfl, .inl hm, .inl ⟨rfl, rfl⟩⟩

theorem Beside.tick {m : Memory} {q p : Peer} (h : Beside m q p) (d : Nat) : Beside m q (p.timeStep d) := by
  obtain ⟨hframe, hwf, hwf', hother, hstart, htime, hdata⟩ := h
  obtain ⟨m', hm, e⟩ := Peer.timeStep_ticks hwf' d
  rw [e]
  refine ⟨?_, hwf, hm.wf, fun k hk => (hm.other k hk).trans (hother k hk), hstart,
    htime.imp_left fun h => h.trans hm, hdata⟩
  rw [hframe]

/-- After the command byte of a read a rising edge counts, whatever the level. -/
theorem Peer.rise_of_read {p : Peer} (hn : 8 ≤ p.n) (hr : p.cmdRead = true) (b : Bool) :
    p.rise b = { p with n := p.n + 1 } := by
  rw [Peer.rise, if_neg (Nat.not_lt.2 hn), hr, if_pos rfl]

/-- The command byte is judged without the registers; they only fill the buffer of a read (R93). -/
theorem Peer.decodeCommand_form (p : Peer) : ∃ l, ∀ m, ∃ b, Peer.decodeCommand { p with mem := m } =
    { p with mem := m, lost := l, buf := b } ∧ (p.cmdRead = false → b = p.buf) := by
  obtain ⟨l, hl⟩ : ∃ l, p.decodeCommand.lost = l := ⟨_, rfl⟩
  refine ⟨l, fun m => ⟨(Peer.decodeCommand { p with mem := m }).buf, ?_⟩⟩
  rw [← hl]
  unfold Peer.decodeCommand Peer.lose Peer.cmdSpace Peer.cmdNumber Peer.clockBurst Peer.cmdSpace Peer.cmdNumber Peer.cmdRead
  dsimp only
  repeat' split
  all_goals simp_all

/-- A burst write leaves nothing of what the timekeeper did. -/
theorem Ticked.storeImage_eq {m m' : Memory} (hm : m.wf = true) (h : Ticked m m') (v : Image) :
    m'.storeImage v = m.storeImage v := by
  refine Memory.ext (Memory.storeImage_wf h.wf v) (Memory.storeImage_wf hm v) fun k => ?_
  by_cases hk : k ∈ burstKeys
  · rw [mem_burstKeys] at hk
    rw [Memory.read_storeImage h.wf, Memory.read_storeImage hm]
    rcases hk with rfl | rfl | rfl | rfl | rfl | rfl | rfl | rfl <;> rfl
  · rw [read_storeImage_of_not_mem h.wf v hk, read_storeImage_of_not_mem hm v hk]
    exact h.other k fun ht => hk (List.mem_append_left [0x8E] ht)

theorem Peer.commit_of_burst {p : Peer} (hn : p.n = 8 + 8 * p.len) (hb : p.clockBurst = true) :
    p.commit = { p with mem := if p.writeProtected then p.mem else p.mem.storeImage p.buf } := by
  rw [Peer.commit, if_neg (by rw [← hn, bne_self_eq_false]; decide), if_pos hb]
  split <;> rfl

theorem Peer.commit_of_single {p : Peer} (hn : p.n = 8 + 8 * p.len) (hb : p.clockBurst = false) :
    p.commit = { p with mem := (if !p.cmdSpace && p.cmdNumber == 7 || !p.writeProtected then
      p.mem.store (regKey p.cmdSpace p.cmdNumber) p.buf.b0 else p.mem) } := by
  rw [Peer.commit, if_neg (by rw [← hn, bne_self_eq_false]; decide), if_neg (by rw [hb]; decide)]
  split <;> rfl

theorem Ticked.writeProtected {q : Peer} {m : Memory} (h : Ticked q.mem m) :
    Peer.writeProtected { q with mem := m } = q.writeProtected :=
  congrArg (fun b : Byte => b.getLsbD 7) (h.other 0x8E wp_not_timeKey)

/-- The commit check on both sides (R95). -/
theorem beside_commit {m' : Memory} {q : Peer} (hwf : q.mem.wf = true) (h : Ticked q.mem m') (hw : q.cmdRead = false) :
    Beside q.mem q.commit (Peer.commit { q with mem := m' }) := by
  by_cases hn : q.n = 8 + 8 * q.len
  case neg =>
    rw [Peer.commit_early hn, Peer.commit_early (p := { q with mem := m' }) hn]
    exact ⟨rfl, hwf, h.wf, h.other, fun _ => rfl, .inl h, .inl ⟨rfl, rfl⟩⟩
  case pos =>
    have late : ∀ m, q.n < 8 + 8 * q.len → m = q.mem := fun m hlt => absurd hn (Nat.ne_of_lt hlt)
    cases hb : q.clockBurst with
    | true =>
      rw [Peer.commit_of_burst hn hb, Peer.commit_of_burst (p := { q with mem := m' }) hn hb, h.writeProtected]
      cases q.writeProtected with
      | true => exact ⟨rfl, hwf, h.wf, h.other, fun _ => rfl, .inl h, .inl ⟨rfl, rfl⟩⟩
      | false =>
        have hwf1 := Memory.storeImage_wf hwf q.buf
        have heq := h.storeImage_eq hwf q.buf
        rw [if_neg (by decide), if_neg (by decide), heq]
        exact ⟨rfl, hwf1, hwf1, fun _ _ => rfl, late _, .inl (Ticked.refl hwf1), .inl ⟨rfl, rfl⟩⟩
    | false =>
      rw [Peer.commit_of_single hn hb, Peer.commit_of_single (p := { q with mem := m' }) hn hb, h.writeProtected]
      change Beside q.mem { q with mem := if !q.cmdSpace && q.cmdNumber == 7 || !q.writeProtected then _ else _ }
        { q with mem := if !q.cmdSpace && q.cmdNumber == 7 || !q.writeProtected then _ else _ }
      cases !q.cmdSpace && q.cmdNumber == 7 || !q.writeProtected with
      | false => exact ⟨rfl, hwf, h.wf, h.other, fun _ => rfl, .inl h, .inl ⟨rfl, rfl⟩⟩
      | true =>
        have hwf1 := Memory.store_wf hwf (regKey q.cmdSpace q.cmdNumber) q.buf.b0
        refine ⟨rfl, hwf1, Memory.store_wf h.wf _ _, fun k hk => ?_, late _, ?_, .inl ⟨rfl, rfl⟩⟩
        · refine (Memory.read_store h.wf _ k _).trans ((?_ : _ = _).trans (Memory.read_store hwf _ k _).symm)
          rw [h.other k hk]
          rfl
        · cases hh : clockHalt q.mem.clockImage with
          | true =>
            obtain rfl := h.of_halted hh
            exact .inl (Ticked.refl hwf1)
          | false => exact .inr ⟨rfl, show 16 ≤ q.n by have := q.len_pos; omega, hw, hb⟩

theorem Beside.n_eq {m : Memory} {q p : Peer} (h : Beside m q p) : p.n = q.n := by rw [h.frame]
theorem Beside.act_eq {m : Memory} {q p : Peer} (h : Beside m q p) : p.act = q.act := by rw [h.frame]
theorem Beside.lost_eq {m : Memory} {q p : Peer} (h : Beside m q p) : p.lost = q.lost := by rw [h.frame]
theorem Beside.cmd_eq {m : Memory} {q p : Peer} (h : Beside m q p) : p.cmd = q.cmd := by rw [h.frame]

/-- A rising edge after the command byte of a write counts, and its bit goes into the buffer; one too many is refused. -/
theorem Peer.rise_of_write {p : Peer} (hn : 8 ≤ p.n) (hw : p.cmdRead = false) (b : Bool) : p.rise b =
    if 8 + 8 * p.len ≤ p.n then p.lose .writeOverrun else
      Peer.commit { p with
        buf := p.buf.set ((p.n - 8) / 8) (setBit (p.buf.get ((p.n - 8) / 8)) ((p.n - 8) % 8) b), n := p.n + 1 } := by
  rw [Peer.rise, if_neg (Nat.not_lt.2 hn), hw, if_neg (by decide)]

/-- A rising edge in a read frame on both sides. -/
theorem Beside.rise_of_read {m : Memory} {q p : Peer} (h : Beside m q p) (hn : 8 ≤ q.n) (hr : q.cmdRead = true)
    (b b' : Bool) : Beside m (q.rise b) (p.rise b') := by
  rw [Peer.rise_of_read hn hr, Peer.rise_of_read (p := p) (h.n_eq ▸ hn) (by rw [Peer.cmdRead, h.cmd_eq]; exact hr)]
  obtain ⟨hframe, hwf, hwf', hother, hstart, htime, -⟩ := h
  refine ⟨?_, hwf, hwf', hother, fun hlt => hstart (Nat.lt_of_succ_lt hlt), ?_, .inr ⟨Nat.le_succ_of_le hn, hr⟩⟩
  · rw [hframe]
  · exact htime.imp_right fun ⟨h1, h2, h3⟩ => ⟨h1, Nat.le_succ_of_le h2, h3⟩

/-- A rising edge on both sides (R92, R93); but in a read its level is the same. -/
theorem Beside.rise {m : Memory} {q p : Peer} (h : Beside m q p) {b b' : Bool}
    (hb : b' = b ∨ (8 ≤ q.n ∧ q.cmdRead = true)) : Beside m (q.rise b) (p.rise b') := by
  by_cases hread : 8 ≤ q.n ∧ q.cmdRead = true
  · exact h.rise_of_read hread.1 hread.2 b b'
  obtain rfl := hb.resolve_right hread
  obtain ⟨hframe, hwf, hwf', hother, hstart, htime, hdata⟩ := h
  obtain ⟨hbuf, hdout⟩ := hdata.resolve_right hread
  rw [hbuf, hdout] at hframe
  generalize p.mem = m' at hframe hwf' hother htime
  subst hframe
  have hlen := q.len_pos
  by_cases hn : q.n < 8
  · have hm : q.mem = m := hstart (by omega)
    subst hm
    have ht : Ticked q.mem m' := htime.resolve_right fun e => by omega
    rw [Peer.rise, Peer.rise, if_pos hn, if_pos hn]
    by_cases hn7 : q.n = 7
    · rw [if_pos hn7, if_pos hn7]
      obtain ⟨l, hl⟩ := Peer.decodeCommand_form { q with cmd := setBit q.cmd 7 b', n := 8 }
      obtain ⟨b1, h1, hw1⟩ := hl q.mem
      obtain ⟨b2, h2, hw2⟩ := hl m'
      refine h1.symm ▸ h2.symm ▸ ⟨rfl, hwf, hwf', hother, fun _ => rfl, .inl ht, ?_⟩
      cases hr : commandIsRead (setBit q.cmd 7 b') with
      | true => exact .inr ⟨Nat.le_refl 8, hr⟩
      | false => exact .inl ⟨(hw2 hr).trans (hw1 hr).symm, rfl⟩
    · rw [if_neg hn7, if_neg hn7]
      exact ⟨rfl, hwf, hwf', hother, fun _ => rfl, .inl ht, .inl ⟨rfl, rfl⟩⟩
  · have hn8 : 8 ≤ q.n := Nat.not_lt.1 hn
    have hw : q.cmdRead = false := Bool.eq_false_iff.2 fun hr => hread ⟨hn8, hr⟩
    rw [Peer.rise_of_write hn8 hw, Peer.rise_of_write (p := { q with mem := m' }) hn8 hw]
    by_cases hend : 8 + 8 * q.len ≤ q.n
    · rw [if_pos hend, if_pos (show 8 + 8 * Peer.len { q with mem := m' } ≤ q.n from hend)]
      exact ⟨rfl, hwf, hwf', hother, hstart, htime, .inl ⟨rfl, rfl⟩⟩
    · rw [if_neg hend, if_neg (show ¬ 8 + 8 * Peer.len { q with mem := m' } ≤ q.n from hend)]
      have hm : q.mem = m := hstart (Nat.not_le.1 hend)
      subst hm
      have ht : Ticked q.mem m' := htime.resolve_right fun ⟨_, h16, _, hb⟩ => hend (by
        rw [Peer.len, hb, if_neg (by decide)]
        exact h16)
      exact beside_commit (q := { q with n := q.n + 1, buf := _ }) hwf ht hw

/-- A falling edge does nothing before the command byte is complete, and nothing in a write (R94). -/
theorem Peer.fall_of_not_read {p : Peer} (h : ¬ (8 ≤ p.n ∧ p.cmdRead = true)) : p.fall = p := by
  rw [Peer.fall]
  by_cases hn : p.n < 8
  · rw [if_pos hn]
  · rw [if_neg hn, if_pos (by simpa using fun hr => h ⟨Nat.not_lt.1 hn, hr⟩)]

theorem Peer.fall_of_read {p : Peer} (hn : 8 ≤ p.n) (hr : p.cmdRead = true) : p.fall =
    if 8 * p.len ≤ p.f then p.lose .readOverrun
    else { p with drv := true, dout := (p.buf.get (p.f / 8)).getLsbD (p.f % 8), f := p.f + 1 } := by
  rw [Peer.fall, if_neg (Nat.not_lt.2 hn), hr, if_neg (by decide)]

/-- A falling edge on both sides (R94). -/
theorem Beside.fall {m : Memory} {q p : Peer} (h : Beside m q p) : Beside m q.fall p.fall := by
  by_cases hread : 8 ≤ q.n ∧ q.cmdRead = true
  case neg =>
    rw [Peer.fall_of_not_read hread, Peer.fall_of_not_read (p := p) (by rw [h.n_eq, Peer.cmdRead, h.cmd_eq]; exact hread)]
    exact h
  obtain ⟨hframe, hwf, hwf', hother, hstart, htime, -⟩ := h
  generalize p.mem = m', p.buf = b, p.dout = o at hframe hwf' hother htime
  subst hframe
  rw [Peer.fall_of_read hread.1 hread.2, Peer.fall_of_read (p := { q with mem := m', buf := b, dout := o }) hread.1 hread.2]
  by_cases hend : 8 * q.len ≤ q.f
  · rw [if_pos hend, if_pos (show 8 * Peer.len { q with mem := m', buf := b, dout := o } ≤ q.f from hend)]
    exact ⟨rfl, hwf, hwf', hother, hstart, htime, .inr hread⟩
  · rw [if_neg hend, if_neg (show ¬ 8 * Peer.len { q with mem := m', buf := b, dout := o } ≤ q.f from hend)]
    exact ⟨rfl, hwf, hwf', hother, hstart, htime, .inr hread⟩

/-- An event within a session on both sides. -/
theorem Beside.edges {m : Memory} {q p : Peer} (h : Beside m q p) {e : Event} (he : e.within = true) (pd : Pads) (d : Nat) :
    Beside m (q.edges .reference pd (e.onPads pd) d) (p.edges .chip pd (e.onPads pd) d) := by
  have hce := ceLevel_within he pd
  by_cases hlost : q.lost = none
  case neg =>
    rw [Peer.edges_lost hce (Option.isSome_iff_ne_none.2 hlost),
      Peer.edges_lost hce (Option.isSome_iff_ne_none.2 (h.lost_eq ▸ hlost))]
    exact h
  by_cases hact : q.act = true
  case neg =>
    rw [Peer.edges_idle hce (Bool.eq_false_iff.2 hact), Peer.edges_idle hce (Bool.eq_false_iff.2 (h.act_eq ▸ hact))]
    exact h
  have hlost' : p.lost = none := h.lost_eq.trans hlost
  have hact' : p.act = true := h.act_eq.trans hact
  cases h0 : sclkLevel pd d <;> cases h1 : sclkLevel (e.onPads pd) d
  case false.true =>
    rw [Peer.edges_rise hce h0 h1 hact hlost, Peer.edges_rise hce h0 h1 hact' hlost']
    refine h.rise (h.data.imp_left fun ⟨_, hdout⟩ => ?_)
    have hdrive : p.ioDrive = q.ioDrive := by rw [Peer.ioDrive, Peer.ioDrive, hdout, h.frame]
    rw [ioLevel, ioLevel, ioDrive, ioDrive, hdrive]
  case true.false =>
    rw [Peer.edges_fall hce h0 h1 hact hlost, Peer.edges_fall hce h0 h1 hact' hlost']
    exact h.fall
  all_goals
    rw [Peer.edges_quiet _ hce (h1.trans h0.symm), Peer.edges_quiet _ hce (h1.trans h0.symm)]
    exact h

/-- The chip stays beside the reference peer over the events of a session. -/
theorem Beside.after {m : Memory} {es : List Event} (hes : ∀ e ∈ es, e.within = true) {q p : Peer} (h : Beside m q p)
    (pd : Pads) (d : Nat) : Beside m (peerAfter .reference es pd d q) (peerAfter .chip es pd d p) := by
  induction es generalizing q p pd d with
  | nil => exact h
  | cons e es ih =>
    exact ih (fun f hf => hes f (List.mem_cons_of_mem e hf)) ((h.tick d).edges (hes e List.mem_cons_self) pd d) _ _

end Sys2Proof.Machine

/-! Proofs of the statements about a chip with a timekeeper (spec/20_memory.md R85 to R88): its sessions, beside those of
the reference peer. -/

namespace Sys2Proof.Machine

/-! ## One session -/

/-- After a session that began with the registers `m` and ended with the reference peer beside it at `q`. -/
structure EndsAs (m : Memory) (q : Peer) (t : State) : Prop where
  rests : ChipRests t
  other : ∀ k, k ∉ timeKeys → t.peer.mem.read k = q.mem.read k
  time : Ticked q.mem t.peer.mem ∨ (clockHalt m.clockImage = false ∧ q.cmdRead = false ∧ q.clockBurst = false)

/-- The lines at the end of a session: `CE` high, the clock low. -/
def State.atStop (v : State) : Prop := v.pads.ce.oe = true ∧ v.pads.ce.out = true ∧ v.pads.sclk.out = false

theorem ChipRests.beside {s v : State} (h : ChipRests s) {es : List Event} (hem : Emits (startSession s) es v)
    (hes : ∀ e ∈ es, e.within = true) : Beside s.peer.mem
      (peerAfter .reference es (linesOut false s.pads.io.out) (startSession s).draws s.peer.opened) v.peer := by
  rw [hem.peer, startSession_peerKind, h.kind, h.lines]
  exact (Beside.of_ticks (q := s.peer.opened) h.wf (startSession_chip h)).after hes _ _

theorem Beside.ends {m : Memory} {q : Peer} {v : State} (h : Beside m q v.peer) (hk : v.peerKind = .chip) (hstop : v.atStop)
    (hknown : q.writeUnknown = false) : EndsAs m q (stopSession v) := by
  obtain ⟨hoe, hout, hclk⟩ := hstop
  have hknown' : v.peer.writeUnknown = false := by
    rw [h.frame]
    exact hknown
  obtain ⟨m', hm, hpeer⟩ := stopSession_known hk hoe hout h.wf' hknown'
  have hmem : (stopSession v).peer.mem = m' := by rw [hpeer]
  refine ⟨⟨hk, by rw [hpeer]; rfl, by rw [hmem]; exact hm.wf, rfl, hclk⟩, fun k hk' => ?_, ?_⟩
  · rw [hmem, hm.other k hk']
    exact h.other k hk'
  · rw [hmem]
    exact (h.time.imp_left fun ht => ht.trans hm).imp_right fun ⟨h1, _, h2⟩ => ⟨h1, h2⟩

/-! ## Reads -/

/-- In a read frame no register of the reference peer changes (R92). -/
theorem keptWithin_read (m : Memory) : KeptWithin .reference fun _ p => 8 ≤ p.n ∧ p.cmdRead = true ∧ p.mem = m where
  rise b h _ := by
    obtain ⟨hn, hr, hm⟩ := h
    rw [Peer.rise_of_read hn hr]
    exact ⟨Nat.le_succ_of_le hn, hr, hm⟩
  fall h _ := by rw [Peer.fall_n, Peer.cmdRead, Peer.fall_cmd, Peer.fall_mem]; exact h
  skip h := h
  tick _ hk := PeerKind.noConfusion hk

theorem Peer.writeUnknown_of_read {p : Peer} (hn : 8 ≤ p.n) (hr : p.cmdRead = true) : p.writeUnknown = false := by
  have hn' : ¬ p.n < 8 := Nat.not_lt.2 hn
  unfold Peer.writeUnknown
  split <;> simp [hr, hn']

/-- A read session of any command byte leaves the chip's registers to the timekeeper (R88). -/
theorem chip_read {s v : State} (h : ChipRests s) {c : Byte} (hr : commandIsRead c = true) {es : List Event}
    (hem : Emits (writeByte c true (startSession s)) es v) (hes : ∀ e ∈ es, e.within = true) (hstop : v.atStop) :
    ChipRests (stopSession v) ∧ Ticked s.peer.mem (stopSession v).peer.mem := by
  have hall := (writeByte_emits c true (startSession s)).trans hem
  have hb := h.beside hall fun e he => (List.mem_append.1 he).elim (writeByteEvents_within c true e) (hes e)
  have hk : v.peerKind = .chip := by rw [hall.kind, startSession_peerKind, h.kind]
  have hcmd : ∀ d, peerAfter .reference (writeByteEvents c true) (linesOut false s.pads.io.out) d s.peer.opened =
      Peer.decodeCommand { s.peer.opened with cmd := c, n := 8 } := fun d =>
    peerAfter_command s.peer.opened_listens.1 s.peer.opened_listens.2 c true _ d
  obtain ⟨l, hl⟩ := Peer.decodeCommand_form { s.peer.opened with cmd := c, n := 8 }
  obtain ⟨b, hform, -⟩ := hl s.peer.mem
  rw [peerAfter_append, hcmd, show Peer.decodeCommand { s.peer.opened with cmd := c, n := 8 } = _ from hform] at hb
  obtain ⟨hn, hread, hmem⟩ := (keptWithin_read s.peer.mem).peerAfter hes (c := 0) (p := { s.peer.opened with
    cmd := c, n := 8, mem := s.peer.mem, lost := l, buf := b }) ⟨Nat.le_refl 8, hr, rfl⟩
    (padsAfter (writeByteEvents c true) (linesOut false s.pads.io.out))
    ((startSession s).draws + (writeByteEvents c true).length)
  obtain ⟨hrests, -, htime⟩ := hb.ends hk hstop (Peer.writeUnknown_of_read hn hread)
  refine ⟨hrests, ?_⟩
  have := htime.resolve_right fun e => Bool.noConfusion (e.2.1.symm.trans hread)
  rwa [hmem] at this

theorem chip_regRead {s : State} (h : ChipRests s) {c : Byte} (hr : commandIsRead c = true) :
    Ticked s.peer.mem (regRead c s).peer.mem := by
  rw [regRead_peer]
  exact (chip_read h hr (readByte_emits _) (readByteEvents_within _) (by simp [State.atStop])).2

theorem chip_burstRead {s : State} (h : ChipRests s) : Ticked s.peer.mem (burstRead s).peer.mem := by
  obtain ⟨es, hem⟩ := burstReadBytes_emits byteOrder (writeByte clkBurstReadCommand true (startSession s))
  have hev := hem.events_unique (burstReadBytes_ev _)
  refine (chip_read h (c := clkBurstReadCommand) (by decide) hem (fun e he => ?_) (by simp [State.atStop])).2
  rw [hev] at he
  obtain ⟨b, -, he⟩ := List.mem_flatMap.1 he
  exact readByteEvents_within b e he

/-! ## Writes -/

theorem Peer.commit_fields (p : Peer) : p.commit = { p with mem := p.commit.mem } := by
  unfold Peer.commit
  repeat' split
  all_goals rfl

/-- A frame with all its data bits leaves nothing unknown. -/
theorem Peer.writeUnknown_of_complete {p : Peer} (hl : p.lost = none) (hn : 8 + 8 * p.len ≤ p.n) :
    p.writeUnknown = false := by
  have hn' : ¬ p.n < 8 + 8 * p.len := Nat.not_lt.2 hn
  unfold Peer.writeUnknown
  rw [hl]
  simp [hn']

/-- The command byte of a write that the peer knows, from the beginning of a session. -/
theorem peerAfter_writeCommand {p : Peer} {c : Byte} (hw : commandIsRead c = false)
    (hdec : Peer.decodeCommand { p.opened with cmd := c, n := 8 } = { p.opened with cmd := c, n := 8 })
    (v : Bool) (d : Nat) :
    peerAfter .reference (writeByteEvents c false) (linesOut false v) d p.opened = { p.opened with cmd := c, n := 8 } := by
  rw [peerAfter_command p.opened_listens.1 p.opened_listens.2, if_neg (by decide), hdec, Peer.fallIfSeen,
    if_neg (by rw [Peer.opened]; exact Bool.false_ne_true), Peer.fall_of_not_read]
  exact fun hr => Bool.noConfusion (hw.symm.trans hr.2)

/-- A write session of a register at the chip, beside the byte-level summary (R85, R95). -/
theorem chip_regWrite {s : State} (h : ChipRests s) {x : Byte} (hx : isRegKey (writeCommand x).toNat = true) (d : Byte) :
    ∃ q, q.mem = summaryRegWrite x d s.peer.mem ∧ EndsAs s.peer.mem q (regWrite (writeCommand x) d s) := by
  obtain ⟨c, hc⟩ : ∃ c, c = writeCommand x := ⟨_, rfl⟩
  have hreg : isRegKey (writeCommand c).toNat = true := by rw [hc, writeCommand_writeCommand]; exact hx
  have hw : commandIsRead c = false := by rw [hc]; exact commandIsRead_writeCommand x
  have hem := (writeByte_emits c false (startSession s)).trans (writeByte_emits d false _)
  have hb := h.beside hem fun e he => (List.mem_append.1 he).elim (writeByteEvents_within c false e)
    (writeByteEvents_within d false e)
  have hdec : Peer.decodeCommand { s.peer.opened with cmd := c, n := 8 } = { s.peer.opened with cmd := c, n := 8 } := by
    rw [Peer.decodeCommand_register (p := { s.peer.opened with cmd := c, n := 8 }) hreg, if_neg]
    exact fun hr => Bool.noConfusion (hw.symm.trans hr)
  have hlen : Peer.len { s.peer.opened with cmd := c, n := 8 } = 1 :=
    Peer.len_register (p := { s.peer.opened with cmd := c, n := 8 }) hreg
  obtain ⟨-, w, hpads⟩ := tally_write c s.pads.io.out
  rw [peerAfter_append, peerAfter_writeCommand hw hdec, hpads,
    peerAfter_data (p := { s.peer.opened with cmd := c, n := 8 }) (j := 0) ⟨rfl, rfl, rfl⟩ hw rfl
      (by rw [hlen]; decide)] at hb
  have hmem : (Peer.commit { s.peer.opened with cmd := c, buf := s.peer.buf.set 0 d, n := 16 }).mem =
      summaryRegWrite x d s.peer.mem := by
    rw [Peer.commit_register (p := { s.peer.opened with cmd := c, buf := s.peer.buf.set 0 d, n := 16 }) hreg rfl,
      summaryRegWrite_register hx, hc, writeCommand_writeCommand]
    rfl
  refine ⟨_, hmem, ?_⟩
  rw [regWrite, ← hc]
  refine hb.ends (by simp [h.kind]) (by simp [State.atStop]) (Peer.writeUnknown_of_complete ?_ ?_)
  · exact Peer.commit_lost _
  · rw [Peer.commit_n, Peer.commit_fields]
    exact Nat.le_of_eq (congrArg (8 + 8 * ·) hlen)

/-- The buffer after bytes stored from place `j` on. -/
def imageFrom (v : Image) (j : Nat) : List Byte → Image
  | [] => v
  | b :: bs => imageFrom (v.set j b) (j + 1) bs

theorem imageFrom_all (v w : Image) : (imageFrom v 0 [w.b0, w.b1, w.b2, w.b3, w.b4, w.b5, w.b6]).set 7 w.b7 = w := by
  simp [imageFrom, Image.set]

/-- Data bytes out, but for the last of a frame: they stand in the peer's buffer (R92). -/
theorem peerAfter_bytes (bs : List Byte) {p : Peer} (hp : p.listens) (hw : p.cmdRead = false) {j : Nat}
    (hn : p.n = 8 + 8 * j) (hj : j + bs.length < p.len) (v : Bool) (d : Nat) :
    peerAfter .reference (bs.flatMap fun b => writeByteEvents b false) (linesOut false v) d p =
        { p with buf := imageFrom p.buf j bs, n := 8 + 8 * (j + bs.length) } ∧
      ∃ w, padsAfter (bs.flatMap fun b => writeByteEvents b false) (linesOut false v) = linesOut false w := by
  induction bs generalizing p j v d with
  | nil => exact ⟨by rw [List.length_nil, Nat.add_zero, ← hn]; rfl, v, rfl⟩
  | cons b bs ih =>
    rw [List.length_cons] at hj
    obtain ⟨-, w, hpads⟩ := tally_write b v
    have hone := peerAfter_data hp hw hn (by omega) b v d
    rw [Peer.commit_early (p := { p with buf := p.buf.set j b, n := 8 + 8 * (j + 1) })
      (show 8 + 8 * (j + 1) ≠ 8 + 8 * p.len by omega)] at hone
    obtain ⟨hrest, hend⟩ := ih (p := { p with buf := p.buf.set j b, n := 8 + 8 * (j + 1) }) hp hw (j := j + 1) rfl
      (show j + 1 + bs.length < p.len by omega) w (d + (writeByteEvents b false).length)
    rw [List.flatMap_cons, peerAfter_append, padsAfter_append, hone, hpads, hrest]
    exact ⟨by rw [List.length_cons, imageFrom, Nat.add_right_comm, Nat.add_assoc], hend⟩

/-- A clock burst write at the chip, beside the byte-level summary (R85, R95). -/
theorem chip_burstWrite {s : State} (h : ChipRests s) :
    ∃ q : Peer, q.mem = summaryBurstWrite s.img s.peer.mem ∧ Ticked q.mem (burstWrite s).peer.mem ∧
      ChipRests (burstWrite s) := by
  obtain ⟨es, hem'⟩ := burstWriteBytes_emits byteOrder (writeByte clkBurstWriteCommand false (startSession s))
  have hev := hem'.events_unique (burstWriteBytes_ev _)
  rw [writeByte_img, startSession_img] at hev
  subst hev
  have hem := (writeByte_emits clkBurstWriteCommand false (startSession s)).trans hem'
  have hb := h.beside hem fun e he => (List.mem_append.1 he).elim (writeByteEvents_within _ false e) fun he => by
    obtain ⟨b, -, he⟩ := List.mem_flatMap.1 he
    exact writeByteEvents_within b false e he
  obtain ⟨p, hp⟩ : ∃ p, p = { s.peer.opened with cmd := clkBurstWriteCommand, n := 8 } := ⟨_, rfl⟩
  have hcmd : p.cmd = 0xBE := by rw [hp]; rfl
  obtain ⟨-, -, -, hburst, hlen⟩ := Peer.burst_facts (.inr hcmd)
  have hw : p.cmdRead = false := Peer.cmdRead_burstWrite hcmd
  have hlistens : p.listens := by rw [hp]; exact ⟨rfl, rfl, rfl⟩
  have hn : p.n = 8 + 8 * 0 := by rw [hp]
  have hmem : p.mem = s.peer.mem := by rw [hp]; rfl
  have hbytes : s.img.toList.flatMap (fun b => writeByteEvents b false) =
      [s.img.b0, s.img.b1, s.img.b2, s.img.b3, s.img.b4, s.img.b5, s.img.b6].flatMap (fun b => writeByteEvents b false) ++
        writeByteEvents s.img.b7 false := by
    rw [← List.flatMap_singleton (f := fun b => writeByteEvents b false), ← List.flatMap_append]
    rfl
  obtain ⟨-, w, hpads⟩ := tally_write clkBurstWriteCommand s.pads.io.out
  obtain ⟨hseven, w', hpads'⟩ := peerAfter_bytes [s.img.b0, s.img.b1, s.img.b2, s.img.b3, s.img.b4, s.img.b5, s.img.b6]
    hlistens hw hn (by rw [hlen]; exact Nat.lt_succ_self 7) w
    ((startSession s).draws + (writeByteEvents clkBurstWriteCommand false).length)
  obtain ⟨u, hu⟩ : ∃ u : Peer, u = { p with
      buf := imageFrom p.buf 0 [s.img.b0, s.img.b1, s.img.b2, s.img.b3, s.img.b4, s.img.b5, s.img.b6], n := 64 } := ⟨_, rfl⟩
  have hulen : u.len = 8 := by rw [hu]; exact hlen
  have hucmd : u.cmd = 0xBE := by rw [hu]; exact hcmd
  have humem : u.mem = s.peer.mem := by rw [hu]; exact hmem
  have hubuf : u.buf.set 7 s.img.b7 = s.img := by rw [hu]; exact imageFrom_all _ _
  rw [peerAfter_append, peerAfter_writeCommand (by decide) (Peer.decodeCommand_burstWrite
    (p := { s.peer.opened with cmd := clkBurstWriteCommand, n := 8 }) rfl), ← hp, hpads, hbytes,
    peerAfter_append, hseven.trans hu.symm, hpads', peerAfter_data (p := u) (j := 7) (by rw [hu]; exact hlistens)
    (by rw [hu]; exact hw) (by rw [hu]) (by rw [hulen]; decide), hubuf] at hb
  obtain ⟨z, hz⟩ : ∃ z : Peer, z = { u with buf := s.img, n := 72 } := ⟨_, rfl⟩
  have hzcmd : z.cmd = 0xBE := by rw [hz]; exact hucmd
  have hqmem : z.commit.mem = summaryBurstWrite s.img s.peer.mem := by
    rw [Peer.commit_burst hzcmd (by rw [hz]), hz, summaryBurstWrite, Peer.writeProtected, humem]
  have hqcmd : z.commit.cmd = 0xBE := (Peer.commit_cmd z).trans hzcmd
  obtain ⟨-, -, -, hqburst, hqlen⟩ := Peer.burst_facts (.inr hqcmd)
  rw [← hz] at hb
  obtain ⟨hrests, -, htime⟩ := hb.ends (by simp [h.kind]) (by simp [State.atStop])
    (Peer.writeUnknown_of_complete ((Peer.commit_lost z).trans (by rw [hz, hu, hp]; rfl))
      (by rw [hqlen, Peer.commit_n, hz]))
  exact ⟨_, hqmem, htime.resolve_right fun e => Bool.noConfusion (e.2.2.symm.trans hqburst), hrests⟩

end Sys2Proof.Machine

/-! The settled statements about a chip's writes and reads (spec/20_memory.md R85 to R88), from its sessions. -/

namespace Sys2Proof.Machine

/-- An operation on a chip goes on to its end: a chip refuses nothing. -/
theorem guarded_chip {s u : State} {pre : Option Refusal} (hpre : pre = none) (hk : s.peerKind = .chip) :
    guarded s pre u = .next { u with rspValid := true } :=
  guarded_next.2 ⟨hpre, by rw [hk]; rfl, rfl⟩

theorem timeKeys_burstKeys {k : Nat} (h : k ∉ burstKeys) : k ∉ timeKeys := fun ht => h (List.mem_append_left [0x8E] ht)

/-! ## Writes of a register -/

/-- Every register off the time, and the time too while the clock stands still before and after. -/
theorem EndsAs.read {m : Memory} {q : Peer} {t : State} (h : EndsAs m q t) {k : Nat} (hk : k ∉ timeKeys ∨
    clockHalt m.clockImage = true ∧ clockHalt q.mem.clockImage = true) : t.peer.mem.read k = q.mem.read k := by
  obtain hk | ⟨hm, hq⟩ := hk
  · exact h.other k hk
  · have ht := h.time.resolve_right fun e => Bool.noConfusion (e.1.symm.trans hm)
    rw [ht.of_halted hq]

/-- A write of a register leaves the clock halted unless it is one of the seconds register that clears the flag. -/
theorem clockHalt_summaryRegWrite {m : Memory} (hm : m.wf = true) {x d : Byte}
    (hx : isRegKey (writeCommand x).toNat = true) (hh : clockHalt m.clockImage = true)
    (hd : (writeCommand x).toNat = 0x80 → d.getLsbD 7 = true) : clockHalt (summaryRegWrite x d m).clockImage = true := by
  show ((summaryRegWrite x d m).read 0x80).getLsbD 7 = true
  rw [read_summaryRegWrite hm hx]
  split
  · rename_i h
    exact hd h.1.symm
  · exact hh

/-- Settles O52: the register session at the chip, beside the byte-level summary. -/
theorem chipRegisterWrites : Obligations.ChipRegisterWrites := by
  unfold Obligations.ChipRegisterWrites
  intro i x d s hready hinv hk hx hi
  have hrests := ChipRests.of hready hinv hk
  have hpre : preSession s = none := preSession_none.2 hready
  have hwf := inv_wf hinv
  obtain ⟨u, hu, hexec⟩ : ∃ u, (u.peerKind = s.peerKind ∧ u.peer = s.peer ∧ u.pads = s.pads) ∧
      exec i s = .next { regWrite (writeCommand x) d u with rspValid := true } := by
    have hregwr : exec (.regwr x d) s =
        .next { regWrite (writeCommand x) d (latchData d (latchAddr x s)) with rspValid := true } := by
      rw [exec_regwr]
      exact guarded_chip hpre hk
    obtain rfl | hrow | ⟨rfl, rfl, rfl⟩ := hi
    · exact ⟨latchData d (latchAddr x s), ⟨rfl, rfl, rfl⟩, hregwr⟩
    · exact ⟨latchData d (latchAddr x s), ⟨rfl, rfl, rfl⟩, ((writeRow_of_singleWrite hrow).exec_regwr s).trans hregwr⟩
    · exact ⟨s, ⟨rfl, rfl, rfl⟩, guarded_chip hpre hk⟩
  obtain ⟨hkind, hpeer, hpads⟩ := hu
  obtain ⟨q, hq, hend⟩ := chip_regWrite (hrests.congr hkind hpeer hpads) hx d
  rw [hpeer] at hq hend
  refine ⟨_, hexec, fun k hkey => ?_⟩
  have hread := hend.read (k := k) (hkey.imp_right fun ⟨hh, hd⟩ => ⟨hh, hq ▸ clockHalt_summaryRegWrite hwf hx hh hd⟩)
  rw [hq, read_summaryRegWrite hwf hx] at hread
  exact hread

/-! ## Clock burst writes -/

/-- What the timekeeper makes of an image just stored. -/
theorem Ticked.of_storeImage {m m' : Memory} (hm : m.wf = true) {v : Image} (h : Ticked (m.storeImage v) m') :
    m'.read 0x8E = v.b7 ∧ (m'.clockImage = v ∨
      clockHalt v = false ∧ validTime m'.clockImage = true ∧ clockHalt m'.clockImage = false) := by
  have hv := Memory.clockImage_storeImage hm v
  refine ⟨(h.other 0x8E wp_not_timeKey).trans (congrArg Image.b7 hv), ?_⟩
  obtain rfl | ⟨hrun, hvalid, hrun'⟩ := h.time
  · exact .inl hv
  · exact .inr ⟨hv ▸ hrun, hvalid, hrun'⟩

/-- The registers but for the burst's after a clock burst write. -/
theorem Ticked.read_summaryBurstWrite {m m' : Memory} (hm : m.wf = true) {v : Image}
    (h : Ticked (summaryBurstWrite v m) m') {k : Nat} (hk : k ∉ burstKeys) : m'.read k = m.read k := by
  refine (h.other k (timeKeys_burstKeys hk)).trans ?_
  rw [summaryBurstWrite]
  split
  · rfl
  · exact read_storeImage_of_not_mem hm v hk

/-- `CLKWRITE` and `SET` at the chip: the session of the write-protect register, that of the trickle-charge register, and
the burst (R252). -/
theorem chip_writeClock {s : State} (h : ChipRests s) :
    (writeClock s).peer.mem.read 0x8E = 0 ∧ (writeClock s).peer.mem.read 0x90 = 0 ∧
      ((writeClock s).peer.mem.clockImage = encodeImage s.trec ∨
        validTime (writeClock s).peer.mem.clockImage = true ∧ clockHalt (writeClock s).peer.mem.clockImage = false) ∧
      ∀ k, k ∉ 0x90 :: burstKeys → (writeClock s).peer.mem.read k = s.peer.mem.read k := by
  obtain ⟨q1, hq1, h1⟩ := chip_regWrite h (x := 0x8E) (by decide) 0
  change EndsAs _ q1 (regWrite wpWriteCommand 0 s) at h1
  have hpeer := writeClock_peer s
  generalize regWrite wpWriteCommand 0 s = s1 at h1 hpeer
  obtain ⟨q2, hq2, h2⟩ := chip_regWrite h1.rests (x := 0x90) (by decide) 0
  change EndsAs _ q2 (regWrite tcsWriteCommand 0 s1) at h2
  generalize regWrite tcsWriteCommand 0 s1 = s2 at h2 hpeer
  obtain ⟨q3, hq3, h3, -⟩ := chip_burstWrite (s := latchImage (encodeImage s.trec) s2)
    (h2.rests.congr (latchImage_peerKind _ _) (latchImage_peer _ _) (latchImage_pads _ _))
  rw [← hpeer, hq3, latchImage_img, latchImage_peer] at h3
  generalize (writeClock s).peer.mem = m at h3
  have hread1 : ∀ k, k ∉ timeKeys → s1.peer.mem.read k = if k = 0x8E then 0 else s.peer.mem.read k := fun k hk => by
    rw [h1.other k hk, hq1, read_summaryRegWrite h.wf (by decide)]
    by_cases e : k = 0x8E <;> simp [e, writeCommand]
  have hoff1 : (s1.peer.mem.read 0x8E).getLsbD 7 = false := by
    rw [hread1 _ wp_not_timeKey, if_pos rfl]
    rfl
  have hread2 : ∀ k, k ∉ timeKeys → s2.peer.mem.read k = if k = 0x90 then 0 else s1.peer.mem.read k := fun k hk => by
    rw [h2.other k hk, hq2, read_summaryRegWrite h1.rests.wf (by decide), hoff1]
    by_cases e : k = 0x90 <;> simp [e, writeCommand]
  have hoff2 : (s2.peer.mem.read 0x8E).getLsbD 7 = false := by
    rw [hread2 _ wp_not_timeKey, if_neg (by decide), hoff1]
  have hkeep : ∀ k, k ∉ burstKeys → m.read k = s2.peer.mem.read k := fun k hk => h3.read_summaryBurstWrite h2.rests.wf hk
  rw [summaryBurstWrite, hoff2, if_neg (by decide)] at h3
  obtain ⟨hwp, htime⟩ := h3.of_storeImage h2.rests.wf
  refine ⟨hwp.trans (encodeImage_b7 _), ?_, htime.imp_right And.right, fun k hk => ?_⟩
  · rw [hkeep 0x90 (by decide), hread2 0x90 (by decide), if_pos rfl]
  · rw [List.mem_cons, not_or] at hk
    have h8E : k ≠ 0x8E := fun e => hk.2 (mem_burstKeys.2 (by simp [e]))
    rw [hkeep k hk.2, hread2 k (timeKeys_burstKeys hk.2), if_neg hk.1, hread1 k (timeKeys_burstKeys hk.2), if_neg h8E]

/-- Settles O53: the burst session beside the byte-level summary, after the two registers for `CLKWRITE` and `SET`. -/
theorem chipBurstWrites : Obligations.ChipBurstWrites := by
  unfold Obligations.ChipBurstWrites
  intro s hready hinv hk
  have hrests := ChipRests.of hready hinv hk
  have hwf := inv_wf hinv
  refine ⟨fun i v hi => ?_, fun i r hi hr => ?_⟩
  · rw [exec_burstWrite hi]
    obtain ⟨q, hq, ht, -⟩ := chip_burstWrite (s := latchImage v s) (hrests.congr rfl rfl rfl)
    rw [hq, latchImage_img, latchImage_peer] at ht
    refine ⟨_, guarded_chip (preSession_none.2 hready) hk, fun k hkey => ht.read_summaryBurstWrite hwf hkey, fun hwp => ?_,
      fun hwp => ?_⟩
    · rw [summaryBurstWrite, hwp, if_pos rfl] at ht
      exact ⟨ht.other 0x8E wp_not_timeKey, fun hh => congrArg Memory.clockImage (ht.of_halted hh)⟩
    · rw [summaryBurstWrite, hwp, if_neg (by decide)] at ht
      exact ht.of_storeImage hwf
  · obtain ⟨u, hexec, htrec, hkind, hpeer, hpads, -⟩ := exec_writeClock hi
    have hwrite := chip_writeClock (hrests.congr hkind hpeer hpads)
    rw [htrec, hpeer] at hwrite
    rw [hexec]
    exact ⟨_, guarded_chip (preClkwrite_none.2 ⟨hready, hr⟩) hk, hwrite⟩

/-! ## Reads -/

/-- Within a read frame the chip's registers are the timekeeper's (R88). -/
theorem keptWithin_chipRead (m : Memory) :
    KeptWithin .chip fun _ p => 8 ≤ p.n ∧ p.cmdRead = true ∧ Ticked m p.mem where
  rise b h _ := by
    obtain ⟨hn, hr, hm⟩ := h
    rw [Peer.rise_of_read hn hr]
    exact ⟨Nat.le_succ_of_le hn, hr, hm⟩
  fall h _ := by rw [Peer.fall_n, Peer.cmdRead, Peer.fall_cmd, Peer.fall_mem]; exact h
  skip h := h
  tick d _ h := by
    obtain ⟨hn, hr, hm⟩ := h
    obtain ⟨m', hm', e⟩ := Peer.timeStep_ticks hm.wf d
    rw [e]
    exact ⟨hn, hr, hm.trans hm'⟩

theorem exec_next_peer {i : Instr} {op : Op} (h : opOf i = some op) {s t : State} (ht : exec i s = .next t) :
    t.peer = (op.result (latchOperands i s)).peer := by
  rw [exec_next_result h ht]

/-- The clock reads are one burst read (R194, R250). -/
theorem exec_burstRead_peer {i : Instr} (hi : i = .burstrd ∨ i = .clkBurstRd ∨ i = .clkread ∨ i = .get) {s t : State}
    (ht : exec i s = .next t) : t.peer = (burstRead s).peer := by
  rcases hi with rfl | rfl | rfl | rfl
  · rw [exec_next_peer (op := .burstrd) rfl ht, latchOperands_burstrd, Op.result]
  · rw [exec_next_peer (op := .burstrd) rfl ht, latchOperands_clkBurstRd, Op.result]
  · rw [exec_next_peer (op := .clkread) rfl ht, latchOperands_clkread, Op.result, readClock_peer]
  · rw [exec_next_peer (op := .get) rfl ht, latchOperands_get, Op.result, ← readClock_peer]

/-- The reads of O50: each leaves the chip's registers to the timekeeper. -/
theorem exec_chip_read {i : Instr} {s t : State} (hinv : s.inv = true) (hk : s.peerKind = .chip)
    (hi : (singleRead i).isSome ∨ (∃ x, i = .regrd x) ∨ i ∈ [.start, .burstrd, .clkBurstRd, .clkread, .get] ∨
      i ∈ [.rdbyte, .stop] ∧ s.peer.cmdRead = true ∧ 8 ≤ s.peer.n)
    (ht : exec i s = .next t) : Ticked s.peer.mem t.peer.mem := by
  have hwf := inv_wf hinv
  have rests : preSession s = none → ChipRests s := fun h => ChipRests.of (preSession_none.1 h) hinv hk
  have regrd : ∀ {x u}, exec (.regrd x) s = .next u → Ticked s.peer.mem u.peer.mem := fun {x u} hu => by
    rw [exec_regrd, guarded_next] at hu
    obtain ⟨hpre, -, rfl⟩ := hu
    have hread := chip_regRead (s := latchAddr x s) ((rests hpre).congr rfl rfl rfl) (commandIsRead_readCommand x)
    rw [latchAddr_peer] at hread
    generalize regRead (readCommand x) (latchAddr x s) = v at hread
    exact hread
  have pre : ∀ {op}, opOf i = some op → op.pre (latchOperands i s) = none := fun hop => ((exec_next hop).1 ht).1
  obtain hrow | ⟨x, rfl⟩ | hi | ⟨hi, hr, hn⟩ := hi
  · obtain ⟨c, hc⟩ := Option.isSome_iff_exists.1 hrow
    rw [(readRow_of_singleRead hc).exec_regrd] at ht
    exact regrd ht
  · exact regrd ht
  · simp only [List.mem_cons, List.not_mem_nil, or_false] at hi
    rcases hi with rfl | rfl | rfl | rfl | rfl
    · obtain ⟨m, hm, e⟩ := startSession_chip (rests (pre rfl))
      rw [exec_next_peer (op := .start) rfl ht, latchOperands_start, Op.result, e]
      exact hm
    all_goals
      rw [exec_burstRead_peer (by simp) ht]
      exact chip_burstRead (rests (pre rfl))
  · simp only [List.mem_cons, List.not_mem_nil, or_false] at hi
    rcases hi with rfl | rfl
    · obtain ⟨b, v, hem⟩ := exec_emits (i := .rdbyte) rfl ht
      rw [hem.peer, hk]
      exact ((keptWithin_chipRead s.peer.mem).peerAfter (readByteEvents_within _) (c := 0) ⟨hn, hr, Ticked.refl hwf⟩ _ _).2.2
    · obtain ⟨hoe, hout⟩ := State.inv_ce_high hinv (preStop_none.1 (pre rfl)).2.2.1
      obtain ⟨m, hm, e⟩ := stopSession_known hk hoe hout hwf (Peer.writeUnknown_of_read hn hr)
      rw [exec_next_peer (op := .stop) rfl ht, latchOperands_stop, Op.result, e]
      exact hm

/-- Settles O50: a read leaves the registers to the timekeeper, whose are the time registers alone. -/
theorem readsOfAChipKeepItsOtherRegisters : Obligations.ReadsOfAChipKeepItsOtherRegisters := by
  unfold Obligations.ReadsOfAChipKeepItsOtherRegisters
  intro i s t k hinv hk hi ht hkey
  exact (exec_chip_read hinv hk hi ht).other k hkey

end Sys2Proof.Machine

/-! The settled statements about a chip whose clock is halted and one that is write-protected (spec/20_memory.md R85,
R88). -/

namespace Sys2Proof.Machine

/-! ## A halted chip is the reference peer -/

/-- Within a session the chip's edges are those of the reference peer. -/
theorem Peer.edges_chip {e : Event} (he : e.within = true) (pd : Pads) (d : Nat) (p : Peer) :
    p.edges .chip pd (e.onPads pd) d = p.edges .reference pd (e.onPads pd) d := by
  unfold Peer.edges
  rw [ceLevel_within he]
  cases ceLevel pd <;> rfl

/-- While the clock is halted an event within a session does the same to both peers. -/
theorem peerReact_halted {e : Event} (he : e.within = true) {p : Peer} (hh : clockHalt p.mem.clockImage = true) (pd : Pads)
    (d : Nat) : peerReact .chip pd (e.onPads pd) d p = peerReact .reference pd (e.onPads pd) d p := by
  show (p.timeStep d).edges .chip pd (e.onPads pd) d = p.edges .reference pd (e.onPads pd) d
  rw [Peer.timeStep_halted hh]
  exact Peer.edges_chip he pd d p

/-- So do events that store nothing. -/
theorem peerAfter_halted {es : List Event} (hes : ∀ e ∈ es, e.within = true) {p : Peer} (pd : Pads) (d : Nat)
    (hh : ∀ fs, fs <+: es → clockHalt (peerAfter .reference fs pd d p).mem.clockImage = true) :
    peerAfter .chip es pd d p = peerAfter .reference es pd d p := by
  induction es generalizing p pd d with
  | nil => rfl
  | cons e es ih =>
    rw [peerAfter, peerAfter, peerReact_halted (hes e List.mem_cons_self) (p := p) (hh [] List.nil_prefix)]
    exact ih (fun f hf => hes f (List.mem_cons_of_mem e hf)) _ _ fun fs hfs => hh (e :: fs) (List.cons_prefix_cons.2 ⟨rfl, hfs⟩)

/-- The same state with the reference peer. -/
def State.asReference (s : State) : State := { s with peerKind := .reference }

/-- A halted chip in a read frame, with the registers `m`. -/
structure ReadsHalted (m : Memory) (s : State) : Prop where
  kind : s.peerKind = .chip
  n : 8 ≤ s.peer.n
  read : s.peer.cmdRead = true
  mem : s.peer.mem = m
  halted : clockHalt m.clockImage = true

theorem ReadsHalted.event {m : Memory} {s : State} (h : ReadsHalted m s) {e : Event} (he : e.within = true) :
    ReadsHalted m (emit e s) ∧ emit e s.asReference = (emit e s).asReference := by
  obtain ⟨hk, hn, hr, hm, hh⟩ := h
  have hreact := peerReact_halted he (p := s.peer) (by rw [hm]; exact hh) s.pads s.draws
  obtain ⟨hn', hr', hm'⟩ := (keptWithin_read m).edges he (c := 0) ⟨hn, hr, hm⟩ s.pads s.draws
  have hpeer : (emit e s).peer = s.peer.edges .reference s.pads (e.onPads s.pads) s.draws := by
    rw [emit_peer, hk, hreact]
    rfl
  refine ⟨⟨hk, by rw [hpeer]; exact hn', by rw [hpeer]; exact hr', by rw [hpeer]; exact hm', hh⟩, ?_⟩
  unfold emit State.asReference
  rw [hk, hreact]

theorem ReadsHalted.events {m : Memory} {es : List Event} (hes : ∀ e ∈ es, e.within = true) {s : State}
    (h : ReadsHalted m s) : ReadsHalted m (emitAll es s) ∧ emitAll es s.asReference = (emitAll es s).asReference := by
  induction es generalizing s with
  | nil => exact ⟨h, rfl⟩
  | cons e es ih =>
    obtain ⟨h', hsame⟩ := h.event (hes e List.mem_cons_self)
    rw [emitAll_cons, emitAll_cons, hsame]
    exact ih (fun f hf => hes f (List.mem_cons_of_mem e hf)) h'

theorem ReadsHalted.bit {m : Memory} {s : State} (h : ReadsHalted m s) (i : BitVec 3) :
    ReadsHalted m (readBit i s) ∧ readBit i s.asReference = (readBit i s).asReference := by
  obtain ⟨h1, hsame⟩ := h.events (es := readBitEvents) (by decide)
  rw [readBit, readBit, hsame]
  generalize emitAll readBitEvents s = u at h1
  obtain ⟨h2, hsame2⟩ := h1.event (e := .smp (sampleIo u)) rfl
  have hlevel : sampleIo u.asReference = sampleIo u := by
    unfold sampleIo State.asReference
    rw [h1.kind]
    rfl
  refine ⟨⟨h2.kind, h2.n, h2.read, h2.mem, h2.halted⟩, ?_⟩
  unfold sampleBit
  rw [hlevel, hsame2]
  rfl

theorem ReadsHalted.bits {m : Memory} (is : List (BitVec 3)) {s : State} (h : ReadsHalted m s) :
    ReadsHalted m (readBits is s) ∧ readBits is s.asReference = (readBits is s).asReference := by
  induction is generalizing s with
  | nil => exact ⟨h, rfl⟩
  | cons i is ih =>
    obtain ⟨h', hsame⟩ := h.bit i
    rw [readBits, readBits, hsame]
    exact ih h'

theorem ReadsHalted.bytes {m : Memory} (ks : List (BitVec 4)) {s : State} (h : ReadsHalted m s) :
    ReadsHalted m (burstReadBytes ks s) ∧ burstReadBytes ks s.asReference = (burstReadBytes ks s).asReference := by
  induction ks generalizing s with
  | nil => exact ⟨h, rfl⟩
  | cons k ks ih =>
    have h0 : ReadsHalted m { s with bytecnt := k } := ⟨h.kind, h.n, h.read, h.mem, h.halted⟩
    obtain ⟨h1, hsame⟩ := h0.bits bitOrder
    have hone : burstReadByte k s.asReference = (burstReadByte k s).asReference := by
      have e : readByte { s.asReference with bytecnt := k } = (readByte { s with bytecnt := k }).asReference := by
        rw [readByte, readByte]
        exact congrArg (fun u : State => { u with hist := .reading }) hsame
      rw [burstReadByte, burstReadByte, e]
      rfl
    rw [burstReadBytes, burstReadBytes, hone]
    refine ih ⟨?_, ?_, ?_, ?_, h.halted⟩
    · rw [burstReadByte_peerKind, h.kind]
    all_goals rw [burstReadByte_peer, readByte_peer]
    · exact h1.n
    · exact h1.read
    · exact h1.mem

/-- The command byte of a clock burst read, to a halted chip: the snapshot is of the registers as they stand (R93). -/
theorem halted_burstCommand {s : State} (h : ChipRests s) (hh : clockHalt s.peer.mem.clockImage = true) :
    (writeByte clkBurstReadCommand true (startSession s)).peer =
      { s.peer.opened with cmd := 0xBF, n := 8, buf := s.peer.mem.clockImage } := by
  obtain ⟨m, hm, hopen⟩ := startSession_chip h
  obtain rfl : m = s.peer.mem := hm.of_halted hh
  have hopen' : (startSession s).peer = s.peer.opened := hopen
  rw [(writeByte_emits clkBurstReadCommand true (startSession s)).peer, startSession_peerKind, h.kind, hopen', h.lines,
    peerAfter_halted (writeByteEvents_within _ _), peerAfter_command s.peer.opened_listens.1 s.peer.opened_listens.2,
    if_pos rfl, Peer.decodeCommand_burstRead (p := { s.peer.opened with cmd := clkBurstReadCommand, n := 8 }) rfl]
  · rfl
  · intro fs hfs
    have hcount := hfs.sublist.count_le (.drv .sclk true)
    rw [writeByteEvents_ups] at hcount
    have hearly := (keptWithin_early s.peer.mem).peerAfter (es := fs)
      (fun e he => writeByteEvents_within clkBurstReadCommand true e (hfs.subset he)) (c := 0) (p := s.peer.opened)
      (fun _ => ⟨rfl, Nat.zero_le 7⟩) (linesOut false s.pads.io.out) (startSession s).draws (by omega)
    rw [hearly.1]
    exact hh

/-- A clock burst read of a halted chip gives its registers as they stand. -/
theorem halted_burstRead {s : State} (h : ChipRests s) (hh : clockHalt s.peer.mem.clockImage = true) :
    (burstRead s).img = s.peer.mem.clockImage := by
  have hcmd := halted_burstCommand h hh
  have hpads := writeByte_pads clkBurstReadCommand true (startSession s)
  have hk : (writeByte clkBurstReadCommand true (startSession s)).peerKind = .chip := by simp [h.kind]
  rw [burstRead, stopSession_img]
  generalize writeByte clkBurstReadCommand true (startSession s) = t at hcmd hpads hk
  have hread : t.peer.cmdRead = true := Peer.cmdRead_burst (by rw [hcmd])
  obtain ⟨-, hsame⟩ := ReadsHalted.bytes byteOrder (m := s.peer.mem) (s := t)
    ⟨hk, by rw [hcmd], hread, by rw [hcmd]; rfl, hh⟩
  have h0 : BurstReads s.peer.mem.clockImage s.peer.mem true 0 t.asReference := by
    refine ⟨⟨true, rfl, ?_, ?_, ?_, ?_, hread⟩, ?_, ?_, ?_, ?_, fun j hj => absurd hj (Nat.not_lt_zero j)⟩
    · show t.pads = _
      rw [hpads, h.lines]
      rfl
    · show t.peer.act = true
      rw [hcmd]; rfl
    · show t.peer.lost = none
      rw [hcmd]; rfl
    · show 8 ≤ t.peer.n
      rw [hcmd]
    · show t.peer.buf = _
      rw [hcmd]
    · show t.peer.mem = _
      rw [hcmd]; rfl
    · exact (Peer.burst_facts (p := t.peer) (.inl (by rw [hcmd]))).2.2.2.2
    · show t.peer.f = _
      rw [hcmd]; rfl
  have h1 := BurstReads.next 0 (by decide) h0
  have h2 := BurstReads.next 1 (by decide) h1
  have h3 := BurstReads.next 2 (by decide) h2
  have h4 := BurstReads.next 3 (by decide) h3
  have h5 := BurstReads.next 4 (by decide) h4
  have h6 := BurstReads.next 5 (by decide) h5
  have h7 := BurstReads.next 6 (by decide) h6
  have h8 := BurstReads.next 7 (by decide) h7
  rw [← burstReadBytes_eq, hsame] at h8
  exact Image.ext_get h8.img

/-- Settles O49: the burst read of a halted chip, decoded. -/
theorem haltedChipReadsAsItStands : Obligations.HaltedChipReadsAsItStands := by
  unfold Obligations.HaltedChipReadsAsItStands
  intro s hready hinv hk hh
  have hrests := ChipRests.of hready hinv hk
  have hmem := (chip_burstRead hrests).of_halted hh
  have htrec := readClock_trec s
  rw [halted_burstRead hrests hh] at htrec
  rw [← readClock_peer] at hmem
  rw [exec_clkread]
  generalize readClock s = u at hmem htrec
  exact ⟨_, guarded_chip (preSession_none.2 hready) hk, htrec, hmem⟩

end Sys2Proof.Machine

/-! Write protection at a chip (spec/20_memory.md R85): no single session changes a register but the
enable/write-protect register. -/

namespace Sys2Proof.Machine

/-! ## What stands under write protection -/

/-- The registers that write protection keeps: all but the enable/write-protect register, the time while it is halted. -/
structure Steady (m m' : Memory) : Prop where
  wf : m'.wf = true
  read : ∀ k, k ≠ 0x8E → k ∉ timeKeys ∨ clockHalt m.clockImage = true → m'.read k = m.read k

theorem Ticked.steady {m m' : Memory} (h : Ticked m m') : Steady m m' :=
  ⟨h.wf, fun k _ hk => hk.elim (h.other k) fun hh => by rw [h.of_halted hh]⟩

theorem Steady.trans {m m' m'' : Memory} (h : Steady m m') (h' : Steady m' m'') : Steady m m'' := by
  refine ⟨h'.wf, fun k hne hk => ?_⟩
  refine (h'.read k hne (hk.imp_right fun hh => ?_)).trans (h.read k hne hk)
  have hsec : m'.read 0x80 = m.read 0x80 := h.read 0x80 (by decide) (.inr hh)
  exact (congrArg (fun b : Byte => b.getLsbD 7) hsec).trans hh

/-- While write protection is on the commit check stores to the enable/write-protect register alone (R85, R95). -/
theorem Peer.commit_protected {p : Peer} (hwp : p.writeProtected = true) : p.commit.mem = p.mem ∨
    (p.n = 8 + 8 * p.len ∧ p.commit.mem = p.mem.store 0x8E p.buf.b0) := by
  by_cases hn : p.n = 8 + 8 * p.len
  case neg => exact .inl (by rw [Peer.commit_early hn])
  cases hb : p.clockBurst with
  | true => exact .inl (by rw [Peer.commit_of_burst hn hb, hwp, if_pos rfl])
  | false =>
    rw [Peer.commit_of_single hn hb, hwp]
    dsimp only
    split
    · rename_i h
      simp only [Bool.not_true, Bool.or_false, Bool.and_eq_true, Bool.not_eq_true', beq_iff_eq] at h
      rw [h.1, h.2]
      exact .inr ⟨hn, rfl⟩
    · exact .inl rfl

/-- Within a session begun under write protection with the registers `m`: it is still on, or the frame was a write of the
enable/write-protect register and is complete. If the session is `fresh`, the peer has seen at most `c` rising edges, and
sixteen do not exceed a frame. -/
structure Shielded (m : Memory) (fresh : Prop) (c : Nat) (p : Peer) : Prop where
  steady : Steady m p.mem
  shield : p.writeProtected = true ∨
    (8 + 8 * p.len ≤ p.n ∧ p.cmdRead = false ∧ (fresh → p.lost = none ∨ 16 < c))
  count : fresh → p.n ≤ c

theorem writeProtected_of_mem {p q : Peer} (h : q.mem = p.mem) : q.writeProtected = p.writeProtected := by
  rw [Peer.writeProtected, Peer.writeProtected, h]

/-- An edge that stores nothing in a frame that is not a complete write. -/
theorem Shielded.still {m : Memory} {fresh : Prop} {c c' : Nat} {p q : Peer} (h : Shielded m fresh c p)
    (hopen : ¬ (8 + 8 * p.len ≤ p.n ∧ p.cmdRead = false)) (hmem : q.mem = p.mem) (hn : fresh → q.n ≤ c') :
    Shielded m fresh c' q := by
  have hwp := h.shield.resolve_right fun e => hopen ⟨e.1, e.2.1⟩
  exact ⟨hmem ▸ h.steady, .inl ((writeProtected_of_mem hmem).trans hwp), hn⟩

/-- The data bits of a write under write protection. -/
theorem Shielded.commit {m : Memory} {fresh : Prop} {c : Nat} {p : Peer} (hs : Steady m p.mem) (hw : p.cmdRead = false)
    (hlost : p.lost = none) (hwp : p.writeProtected = true) (hn : fresh → p.n ≤ c) : Shielded m fresh c p.commit := by
  have hcount : fresh → p.commit.n ≤ c := by rw [Peer.commit_n]; exact hn
  obtain hmem | ⟨hend, hmem⟩ := Peer.commit_protected hwp
  · exact ⟨hmem ▸ hs, .inl ((writeProtected_of_mem hmem).trans hwp), hcount⟩
  · refine ⟨hmem ▸ ⟨Memory.store_wf hs.wf _ _, fun k hne hk => ?_⟩, .inr ⟨?_, ?_, fun _ => .inl ?_⟩, hcount⟩
    · rw [Memory.read_store hs.wf, if_neg fun e => hne e.1]
      exact hs.read k hne hk
    · rw [Peer.commit_fields]
      exact Nat.le_of_eq hend.symm
    · rw [Peer.commit_fields]
      exact hw
    · rw [Peer.commit_lost]
      exact hlost

theorem keptWithin_shielded (m : Memory) (fresh : Prop) : KeptWithin .chip (Shielded m fresh) where
  rise {c p} b h hlost := by
    have hcount : fresh → (p.rise b).n ≤ c + 1 := fun hf => (Peer.rise_n_le b p).trans (Nat.succ_le_succ (h.count hf))
    by_cases hn : p.n < 8
    · exact h.still (fun e => by omega) (Peer.rise_mem_of_read (.inl hn) b) hcount
    cases hr : p.cmdRead with
    | true => exact h.still (fun e => Bool.noConfusion (hr.symm.trans e.2)) (Peer.rise_mem_of_read (.inr hr) b) hcount
    | false =>
      rw [Peer.rise_of_write (Nat.not_lt.1 hn) hr] at hcount ⊢
      split at hcount
      · rename_i hend
        have hlen := p.len_pos
        rw [if_pos hend]
        exact ⟨h.steady, h.shield.imp_right fun _ => ⟨hend, hr, fun hf => .inr (by have := h.count hf; omega)⟩, hcount⟩
      · rename_i hend
        rw [if_neg hend]
        refine Shielded.commit (p := { p with buf := _, n := p.n + 1 }) h.steady hr hlost ?_ fun hf =>
          Nat.succ_le_succ (h.count hf)
        exact h.shield.resolve_right fun e => hend e.1
  fall {c p} h _ := by
    by_cases hread : 8 ≤ p.n ∧ p.cmdRead = true
    · exact h.still (fun e => Bool.noConfusion (hread.2.symm.trans e.2)) (Peer.fall_mem p)
        (by rw [Peer.fall_n]; exact h.count)
    · rw [Peer.fall_of_not_read hread]
      exact h
  skip h := ⟨h.steady, h.shield.imp_right fun ⟨h1, h2, h3⟩ => ⟨h1, h2, fun hf => (h3 hf).imp_right Nat.lt_succ_of_lt⟩,
    fun hf => Nat.le_succ_of_le (h.count hf)⟩
  tick d _ h := by
    obtain ⟨m', hm, e⟩ := Peer.timeStep_ticks h.steady.wf d
    rw [e]
    exact ⟨h.steady.trans hm.steady, h.shield.imp_left hm.writeProtected.trans, h.count⟩

/-- The end of a session under write protection (R85). -/
theorem stopSession_protected {s : State} (hk : s.peerKind = .chip) (hoe : s.pads.ce.oe = true) (hout : s.pads.ce.out = true)
    (hwf : s.peer.mem.wf = true) (hwp : s.peer.writeProtected = true) : Steady s.peer.mem (stopSession s).peer.mem := by
  obtain ⟨p, ⟨m, hm, hp⟩, ⟨m', hm', he⟩⟩ := stopSession_chip hk hoe hout hwf
  have hmem : p.mem = m := by rw [hp]
  have hwf' : p.mem.wf = true := by rw [hmem]; exact hm.wf
  have hwp' : p.writeProtected = true := by rw [hp, hm.writeProtected]; exact hwp
  have hclose : Steady p.mem (p.closeSession .chip s.draws).mem :=
    ⟨Peer.closeSession_wf hwf' _ _, fun k hne _ => Peer.closeSession_protected hwf' hwp' _ _ hne⟩
  rw [he]
  exact (hmem ▸ hm.steady).trans (hclose.trans hm'.steady)

/-- A single write session under write protection, of any command byte. -/
theorem regWrite_protected {s : State} (h : ChipRests s) (hwp : s.peer.writeProtected = true) (c d : Byte) :
    Steady s.peer.mem (regWrite c d s).peer.mem := by
  obtain ⟨m, hm, hopen⟩ := startSession_chip h
  have hem := (writeByte_emits c false (startSession s)).trans (writeByte_emits d false _)
  have hk : (startSession s).peerKind = .chip := by rw [startSession_peerKind, h.kind]
  have hstart : Shielded s.peer.mem True 0 (startSession s).peer := by
    rw [hopen]
    exact ⟨hm.steady, .inl (hm.writeProtected.trans hwp), fun _ => Nat.le_refl 0⟩
  have hend := (keptWithin_shielded s.peer.mem True).peerAfter (fun e he => (List.mem_append.1 he).elim
    (writeByteEvents_within c false e) (writeByteEvents_within d false e)) hstart (startSession s).pads (startSession s).draws
  rw [List.count_append, writeByteEvents_ups, writeByteEvents_ups, ← hk, ← hem.peer] at hend
  rw [regWrite]
  have hkind : (writeByte d false (writeByte c false (startSession s))).peerKind = .chip := hem.kind.trans hk
  have hoe : (writeByte d false (writeByte c false (startSession s))).pads.ce.oe = true := by simp
  have hout : (writeByte d false (writeByte c false (startSession s))).pads.ce.out = true := by simp
  generalize writeByte d false (writeByte c false (startSession s)) = v at hend hkind hoe hout
  obtain ⟨hsteady, hshield, -⟩ := hend
  refine hsteady.trans ?_
  obtain hon | ⟨hn, -, hlost⟩ := hshield
  · exact stopSession_protected hkind hoe hout hsteady.wf hon
  · have hlost' := (hlost trivial).resolve_right (Nat.lt_irrefl 16)
    obtain ⟨m', hm', he⟩ := stopSession_known hkind hoe hout hsteady.wf (Peer.writeUnknown_of_complete hlost' hn)
    rw [he]
    exact hm'.steady

/-- One byte, in or out, under write protection, however the frame was built. -/
theorem peerAfter_protected {es : List Event} (hes : ∀ e ∈ es, e.within = true) {p : Peer} (hwf : p.mem.wf = true)
    (hwp : p.writeProtected = true) (pd : Pads) (d : Nat) : Steady p.mem (peerAfter .chip es pd d p).mem :=
  ((keptWithin_shielded p.mem False).peerAfter hes (c := 0) ⟨(Ticked.refl hwf).steady, .inl hwp, False.elim⟩ pd d).steady

/-- The operations of one session, and those of the engine, under write protection. -/
theorem exec_protected {i : Instr} {s t : State} (hinv : s.inv = true) (hk : s.peerKind = .chip)
    (hwp : s.peer.writeProtected = true) (hclk : ∀ r, i ≠ .clkwrite r) (hset : ∀ l, i ≠ .set l)
    (ht : exec i s = .next t) : Steady s.peer.mem t.peer.mem := by
  have hwf := inv_wf hinv
  cases hop : opOf i with
  | none => rw [(exec_quiet hop ht).2.2.2]; exact (Ticked.refl hwf).steady
  | some op =>
    have hpre : op.pre (latchOperands i s) = none := ((exec_next hop).1 ht).1
    obtain ⟨b, v, hem⟩ := exec_emits hop ht
    have rests : preSession s = none → ChipRests s := fun h => ChipRests.of (preSession_none.1 h) hinv hk
    have regwr : ∀ {x d u}, exec (.regwr x d) s = .next u → Steady s.peer.mem u.peer.mem := fun {x d u} hu => by
      rw [exec_regwr, guarded_next] at hu
      obtain ⟨hpre, -, rfl⟩ := hu
      have hsteady := regWrite_protected (s := latchData d (latchAddr x s)) ((rests hpre).congr rfl rfl rfl) hwp
        (writeCommand x) d
      rw [latchData_peer, latchAddr_peer] at hsteady
      generalize regWrite (writeCommand x) d (latchData d (latchAddr x s)) = v at hsteady
      exact hsteady
    have burst : ∀ {w u}, preSession s = none → u = latchImage w s → Steady s.peer.mem (burstWrite u).peer.mem :=
      fun {w u} hpre hu => by
        obtain ⟨q, hq, hticked, -⟩ := chip_burstWrite (s := u)
          ((rests hpre).congr (by rw [hu]; rfl) (by rw [hu]; rfl) (by rw [hu]; rfl))
        have hprot : (s.peer.mem.read 0x8E).getLsbD 7 = true := hwp
        rw [hq, hu, latchImage_peer, summaryBurstWrite, hprot, if_pos rfl, ← hu] at hticked
        exact hticked.steady
    cases Form.of i with
    | bind p => cases hop
    | present => cases hop
    | reservedOp => cases hop
    | clkwrite r => exact absurd rfl (hclk r)
    | set l => exact absurd rfl (hset l)
    | start => exact (exec_chip_read hinv hk (by simp) ht).steady
    | burstrd | clkBurstRd | clkread | get => exact (exec_chip_read hinv hk (by simp) ht).steady
    | regrd x => exact (exec_chip_read hinv hk (.inr (.inl ⟨x, rfl⟩)) ht).steady
    | readRow hr => exact (exec_chip_read hinv hk (.inl (by rw [hr]; rfl)) ht).steady
    | stop =>
      cases hop
      obtain ⟨hoe, hout⟩ := State.inv_ce_high hinv (preStop_none.1 hpre).2.2.1
      rw [exec_next_peer rfl ht]
      exact stopSession_protected hk hoe hout hwf hwp
    | wrbyte d r =>
      cases hop
      rw [hem.peer, hk]
      exact peerAfter_protected (writeByteEvents_within _ _) hwf hwp _ _
    | rdbyte =>
      cases hop
      rw [hem.peer, hk]
      exact peerAfter_protected (readByteEvents_within _) hwf hwp _ _
    | regwr x d => exact regwr ht
    | @writeRow i c d hw =>
      rw [(writeRow_of_singleWrite hw).exec_regwr] at ht
      exact regwr ht
    | burstwr w | clkBurstWr w =>
      cases hop
      rw [exec_next_peer (op := .burstwr) rfl ht, Op.result]
      exact burst hpre rfl
    | halt =>
      cases hop
      rw [exec_next_peer (op := .halt) rfl ht, latchOperands_halt, Op.result]
      exact regWrite_protected (rests hpre) hwp wpWriteCommand 0

/-- Settles O51: what stands under write protection stands after every such operation. -/
theorem protectedChipKeepsItsRegisters : Obligations.ProtectedChipKeepsItsRegisters := by
  unfold Obligations.ProtectedChipKeepsItsRegisters
  intro i s t k hinv hk hwp hclk hset ht hne hkey
  exact (exec_protected hinv hk hwp hclk hset ht).read k hne hkey

end Sys2Proof.Machine
